-- ==== Sys2Proof/Word.lean ====
section
/-! DEFINITION. The byte and the bit-stream word of K2CORE (rules R10, R63). -/

namespace Sys2Proof

/-- A byte: 8 bits, bit 0 least significant (rule R10). -/
abbrev Byte := BitVec 8

/-- The place a bit-stream word is held in. A word has `WORDBITS` = 8, 16 or 32 bits (rule R63) and stands in the
low `WORDBITS` bits. -/
abbrev Word := BitVec 32

end Sys2Proof
end

