-- ==== Sys2Proof/Machine/Bits.lean ====
section
/-! DEFINITION. Bit-field and byte-order helpers: the bits of a number as a list, and the bytes of a number in either
byte order (rules R10, R11). -/

namespace Sys2Proof.Machine

/-- The low `n` bits of `v`, bit 0 first. -/
def bitsLsb : Nat → Nat → List Bool
  | 0, _ => []
  | n + 1, v => v.testBit 0 :: bitsLsb n (v >>> 1)

/-- The number whose bit `k` is element `k` of the list. -/
def natLsb : List Bool → Nat
  | [] => 0
  | b :: t => b.toNat + 2 * natLsb t

/-- The low `n` bits of `v`, the most significant of them first: the order `0b…` patterns of the stream are written
in (rule R102). -/
def bitsMsb (n v : Nat) : List Bool := (bitsLsb n v).reverse

/-- The number whose bits, most significant first, are the list. -/
def natMsb (bs : List Bool) : Nat := natLsb bs.reverse

/-- `to_le_N(v)`: `n` bytes, the least significant first (rule R11). -/
def leBytes : Nat → Nat → List Byte
  | 0, _ => []
  | n + 1, v => BitVec.ofNat 8 v :: leBytes n (v / 256)

/-- `le_N(bytes)`: the number whose least significant byte is the first (rule R11). -/
def leNat : List Byte → Nat
  | [] => 0
  | b :: t => b.toNat + 256 * leNat t

/-- `to_be_N(v)`: `n` bytes, the most significant first (rule R11). -/
def beBytes (n v : Nat) : List Byte := (leBytes n v).reverse

/-- `be_N(bytes)`: the number whose most significant byte is the first (rule R11). -/
def beNat (bs : List Byte) : Nat := leNat bs.reverse

/-- The bits of a byte sequence in ascending offset, each byte bit 0 first. -/
def bitsOfBytes (bs : List Byte) : List Bool := bs.flatMap fun b => bitsLsb 8 b.toNat

/-- The bytes of a bit list, eight bits at a time, bit 0 first; a last group of fewer than eight bits is dropped. -/
def bytesOfBits : List Bool → List Byte
  | b0 :: b1 :: b2 :: b3 :: b4 :: b5 :: b6 :: b7 :: t =>
    BitVec.ofNat 8 (natLsb [b0, b1, b2, b3, b4, b5, b6, b7]) :: bytesOfBits t
  | _ => []

end Sys2Proof.Machine
end

