-- ==== Sys2Proof/Syntax.lean ====
section
/-! DEFINITION. The instructions of K2CORE: one constructor for each of the 88 rows of `spec/opcode_table.json`
(rule R113), and the operand types they use. What plays the part of an instruction set is the host command set, the
unit operations, and the container's ident byte, header, tree table and tokens (rule R1). -/

namespace Sys2Proof

/-- The five error kinds of `raise` (rule R361). "No error" is not a kind: `STATUS.ERR` is an `Option ErrKind`. -/
inductive ErrKind where
  | formatMismatch
  | corruptStream
  | unsupportedMode
  | notConfiguredForCompression
  | unimplementedTransform
  deriving DecidableEq, Repr, Inhabited

/-- The symbol width `HW` of a call (rule R31): 0, 4 or 8 bits. -/
inductive SymWidth where
  | raw
  | w4
  | w8
  deriving DecidableEq, Repr, Inhabited

/-- Which half of an `obfuscate.m/deobfuscate.m` row runs (rule R240): `obfuscate` over `WORK`, `deobfuscate` over
`DST`. -/
inductive Dir where
  | obfuscate
  | deobfuscate
  deriving DecidableEq, Repr, Inhabited

/-- Which half of a `readValue/writeValue` row runs (rules R301 to R303). -/
inductive ValueOp where
  | read
  | write (v : Byte)
  deriving DecidableEq, Repr, Inhabited

/-- The frequency table `makeLeaves(F)` is given (rule R203): "first `FREQ`, later the scaled table of rule R205". -/
inductive FreqSource where
  | freq
  | scaled
  deriving DecidableEq, Repr, Inhabited

/-- One constructor per row of `spec/opcode_table.json`, in the table's order. -/
inductive Instr where
  -- format IDENT: the value of one sub-field of the ident byte (rules R93 to R95)
  | cmodeLz412
  | cmodeLz38
  | cmodeLz816
  | cmodeLzd115
  | cmodeLzx412
  | cmodeLz5
  | cmode6
  | cmode7
  | hmodeNone
  | hmodeH4
  | hmodeH8
  | hmode3
  | omodeNone
  | omodeComplement
  | omodeXorpos
  | omodePairswap
  | omodeXorchain
  | omode5
  | omode6
  | omode7
  -- format TOKEN (rules R99 to R104)
  /-- `0vvvvvvvv`: a raw literal. -/
  | litRaw (v : Byte)
  /-- `0h`: a literal as one Huffman code; the operand is the code's bits in stream order. -/
  | litH8 (h : List Bool)
  /-- `0hh`: a literal as two Huffman codes; the operand is the bits of both codes in stream order. -/
  | litH4 (hh : List Bool)
  | matchLz412 (l : BitVec 4) (d : BitVec 12)
  | matchLz38 (l : BitVec 3) (d : BitVec 8)
  | matchLz816 (l : BitVec 8) (d : BitVec 16)
  | matchLzd115 (d : BitVec 11) (l : BitVec 5)
  | matchLzx412Short (l : BitVec 4) (d : BitVec 12)
  | matchLzx412Ext (e : BitVec 8) (d : BitVec 12)
  -- formats HEADER and TREETABLE
  /-- The header of a container (rule R90): magic, the `SIZE_BYTES` bytes of the size in file order, ident byte. -/
  | header (magic : Byte) (size : List Byte) (ident : Byte)
  /-- The tree table (rule R96): the symbols of levels 1 to 16, each `w` bits wide. -/
  | treetable (w : SymWidth) (levels : List (List Byte))
  -- format CMD: the host commands (rule R110)
  | nop
  | decode
  | encode
  | reset
  | configure (o : BitVec 3) (h : BitVec 2) (c : BitVec 3)
  -- format UNITOP: the unit operations of files 40 to 47 and 60
  | openWriter
  | writeBits (value : Nat) (bitCount : Nat)
  | writeByte (value : Nat)
  | flush
  | openReader
  | readBits (bitCount : Nat)
  | readByte
  | findMatches
  | parseCostToEnd
  | parseWalk
  | tally
  | makeLeaves (f : FreqSource)
  | merge
  | limitDepth
  | canonicalise
  | serialise
  | assignCodes
  | writeSymbol (s : Byte)
  | deserialise
  | readSymbol
  | obf0 (dir : Dir)
  | obf1 (dir : Dir)
  | obf2 (dir : Dir)
  | obf3 (dir : Dir)
  | obf4 (dir : Dir)
  | valueRaw (op : ValueOp)
  | valueH8 (op : ValueOp)
  | valueH4 (op : ValueOp)
  | tokenLoop
  | decodeLit
  | decodeMatch
  | emitTokens
  | decodeLz412
  | encodeLz412
  | decodeLz38
  | encodeLz38
  | decodeLz816
  | encodeLz816
  | decodeLzd115
  | encodeLzd115
  | decodeLzx412
  | encodeLzx412
  | lz5
  | readHeaderValidateMagic
  | dispatchModes
  | deobfuscate
  | checkConfig
  | materialize
  | buildTree
  | writeHeader
  | emit
  | raise (k : ErrKind)
  deriving DecidableEq, Repr, Inhabited

/-- Where an operation word comes from, which is what says how its bits are read: the table's formats (rule R113). The
three masks over the one ident byte are three views of it. A token is read in the modes of its container's ident byte
(rule R106). -/
inductive Format where
  /-- a value written to `CMD` -/
  | cmd
  /-- a value written to `CFG` -/
  | cfg
  | cmode
  | hmode
  | omode
  | token (c : BitVec 3) (h : BitVec 2)
  | header
  | treetable (w : SymWidth)
  | unitop
  deriving DecidableEq, Repr, Inhabited

/-- One operation word: its format and its bits. In the formats of the bit stream (`token`, `treetable`) the bits stand
in stream order; in the others bit 0 comes first, and bytes in file order. -/
structure Image where
  fmt : Format
  bits : List Bool
  deriving DecidableEq, Repr, Inhabited

/-- Why the decoder refuses an operation word. -/
inductive Reject where
  /-- fewer bits than the format needs -/
  | tooShort
  /-- bits left over after the operation's last field -/
  | tooLong
  /-- a write of `CFG` with bit 8 clear: a host move, but not the row CONFIGURE (rule R261) -/
  | cfgNotValid
  /-- a token in a mode that has no token format (rules R94, R95) -/
  | noTokenFormat
  /-- a unit operation number the model's port does not assign (log entry 1) -/
  | noUnitOp
  /-- a tree table with no symbol width (rule R96) -/
  | noSymbolWidth
  deriving DecidableEq, Repr, Inhabited

end Sys2Proof
end

