-- ==== Sys2Proof/Machine/Registers.lean ====
section
/-! DEFINITION. The parts State is made of: byte memories, the bit-stream reader and writer registers, the token
registers, the Huffman registers and the per-call tables (rules R28 to R31, R36 to R38), and the construction record
of one instance (rules R7, R8, R21). Plain data throughout. Lengths, offsets, positions, counts and costs are naturals
(rule R9: "a model may use unbounded naturals throughout"); what the spec treats as bits is a bit vector. -/

namespace Sys2Proof.Machine

/-- One byte address space (rule R36): the bytes written to it, in strictly rising address order. An address with no
entry holds no known byte. `epoch` says which draw of free values such an address reads from (log entry 8). -/
structure Mem where
  epoch : Nat
  cells : List Host.Cell
  deriving DecidableEq, Repr, Inhabited

/-- `RD_POS`, `RD_WORD`, `RD_AVAIL` (rule R28). -/
structure Reader where
  pos : Nat
  word : Word
  avail : Nat
  deriving DecidableEq, Repr, Inhabited

/-- `WR_ACC`, `WR_FILL`, `WR_BITS` (rule R29). -/
structure Writer where
  acc : Word
  fill : Nat
  bits : Nat
  deriving DecidableEq, Repr, Inhabited

/-- `TK_FLAG`, `TK_LEN`, `TK_DISP`, `P`, `MI` (rule R30). -/
structure TokenRegs where
  flag : Bool
  len : Nat
  disp : Nat
  p : Nat
  mi : Nat
  deriving DecidableEq, Repr, Inhabited

/-- `HC_CODE`, `HC_FIRST`, `HC_INDEX`, the working values of `readSymbol` (rule R31). -/
structure HcRegs where
  code : Nat
  first : Nat
  index : Nat
  deriving DecidableEq, Repr, Inhabited

/-- `HCOUNT` (entry `d - 1` is level `d`), `HSYM` and `HT_TOTAL` (rules R31, R38). -/
structure HuffTab where
  hcount : List Nat
  hsym : List Byte
  total : Nat
  deriving DecidableEq, Repr, Inhabited

/-- An `LzMatch` (rule R37). -/
structure LzMatch where
  position : Nat
  length : Nat
  displacement : Nat
  deriving DecidableEq, Repr, Inhabited

/-- A node of the arena `HNODE` (rule R38). `seq` is its index. -/
structure HuffNode where
  frequency : Nat
  isLeaf : Bool
  code : Nat
  child0 : Option Nat
  child1 : Option Nat
  seq : Nat
  deriving DecidableEq, Repr, Inhabited

/-- An entry of `HCODE` (rule R38): a code of `len` bits, 1 to 16, root edge most significant. -/
structure HuffCode where
  code : Nat
  len : Nat
  deriving DecidableEq, Repr, Inhabited

/-- The per-call state (rule R41): the 16 datapath registers of rules R28 to R31 and the tables of rules R37 and R38. -/
structure Call where
  rd : Reader
  wr : Writer
  tk : TokenRegs
  hw : SymWidth
  hc : HcRegs
  ht : HuffTab
  cand : List (Option (Nat × Nat))
  cost : List Nat
  adv : List Nat
  mlist : List LzMatch
  mcount : Nat
  freq : List Nat
  /-- the working copy `F` of `limitDepth` (rule R205) -/
  scaled : List Nat
  hnode : List HuffNode
  /-- `root` of rules R204, R207, R209; none when no tree has been built -/
  hroot : Option Nat
  hcode : List (Option HuffCode)
  deriving DecidableEq, Repr, Inhabited

/-- A row of `MODE_TABLE` (rules R7, R8). -/
structure ModeRow where
  minLen : Nat
  lenBits : Nat
  extBits : Nat
  dispBits : Nat
  dispFirst : Bool
  deriving DecidableEq, Repr, Inhabited

/-- Which `OBF_TABLE` the instance was constructed with (rule R7): the reference transforms, or another table, known
only by a number. -/
inductive ObfSelect where
  | reference
  | custom (k : Nat)
  deriving DecidableEq, Repr, Inhabited

/-- Which `PRICE` the instance was constructed with (rule R7). -/
inductive PriceSelect where
  | reference
  | custom (k : Nat)
  deriving DecidableEq, Repr, Inhabited

/-- The construction constants that are too large for `FMT` (rules R7, R21). Entry `c` of `modeTable` is the row of
compression mode `c`. -/
structure Construction where
  modeTable : List (Option ModeRow)
  implemented : List (BitVec 3)
  recognized : List (BitVec 3)
  obf : ObfSelect
  price : PriceSelect
  deriving DecidableEq, Repr, Inhabited

/-- The format register `FMT` (rule R21): `MAGIC` [7:0], `SIZE4` [8], `LSBFIRST` [9], `BIGEND` [10], `WORDLOG` [12:11]. -/
abbrev Fmt := BitVec 13

end Sys2Proof.Machine
end

