-- ==== Sys2Proof/Config.lean ====
section
/-! DEFINITION. What the spec leaves free, and the construction parameters that are functions. Each is an opaque
constant with no body: nothing can be proved of its value, so a claim about the machine holds for every value. -/

namespace Sys2Proof.Config

open Sys2Proof.Machine

/-- The byte an address holds that nothing has written (rules R42, R27; U20, U25), by draw and address. Log entry 8. -/
opaque anyByte : Nat → Nat → Byte

/-- `DST_LEN` after a DECODE that failed with another kind than `FormatMismatch` (rules R76, R367; U21). Log entry 10. -/
opaque anyDstLen : Nat → BitVec 32

/-- The datapath registers and tables after a command (rule R41; U23). Log entry 9. -/
opaque anyCall : Nat → Call

/-- What `writeSymbol` takes for `HCODE[s]` when that entry is `none`: a code and its length less one, by draw and
symbol. Log entry 19. -/
opaque anyCode : Nat → Nat → BitVec 16 × BitVec 4

/-- `obf_m` of a construction's own `OBF_TABLE` on the sequences of each length: table number, mode, length. Rule R8 asks
that `obf_m` keep the length and that `deobf_m` undo it, so on each length it is a permutation, and `deobf_m` is the
inverse permutation: every table has this form, and a table that breaks the rule has none. Log entry 5. -/
opaque customObf : Nat → Nat → (n : Nat) → Equiv.Perm (Vector Byte n)

/-- `literalCost(byte)`, less one, of a construction's own `PRICE`, which rule R7 wants above 0 (rules R7, R180). Log
entry 5. -/
opaque customLiteralCost : Nat → Byte → Nat

/-- `matchCost(length, displacement, mode)` of a construction's own `PRICE` (rules R7, R180). Log entry 5. -/
opaque customMatchCost : Nat → Nat → Nat → BitVec 3 → Nat

end Sys2Proof.Config
end

