-- ==== Sys2Proof/Machine/Format.lean ====
section
/-! DEFINITION. The construction record: the fields of `FMT` (rule R21), the derived constants of a mode (rule R105),
when a record is well formed (rule R8), and the reference values (rules R7, R101). -/

namespace Sys2Proof.Machine

/-- `MAGIC`, `FMT[7:0]`. -/
def Fmt.magic (f : Fmt) : Byte := f.extractLsb' 0 8

/-- `SIZE_BYTES`: 4 when `FMT[8]` is 1, else 3. -/
def Fmt.sizeBytes (f : Fmt) : Nat := if f.getLsbD 8 then 4 else 3

/-- `BITORDER = LSB`: `FMT[9]`. -/
def Fmt.lsbFirst (f : Fmt) : Bool := f.getLsbD 9

/-- `BYTEORDER = BE`: `FMT[10]`. -/
def Fmt.bigEnd (f : Fmt) : Bool := f.getLsbD 10

/-- `WORDLOG`, `FMT[12:11]`. -/
def Fmt.wordLog (f : Fmt) : BitVec 2 := f.extractLsb' 11 2

/-- `WORDBYTES`: 1, 2 or 4 for `WORDLOG` 0, 1, 2. -/
def Fmt.wordBytes (f : Fmt) : Nat := 1 <<< f.wordLog.toNat

/-- `WORDBITS = 8 * WORDBYTES` (rule R7). -/
def Fmt.wordBits (f : Fmt) : Nat := 8 * f.wordBytes

/-- `HDR_LEN = SIZE_BYTES + 2` (rule R7). -/
def Fmt.hdrLen (f : Fmt) : Nat := f.sizeBytes + 2

/-- `MAX_INPUT = 2^(8*SIZE_BYTES) - 1` (rule R7). -/
def Fmt.maxInput (f : Fmt) : Nat := 2 ^ (8 * f.sizeBytes) - 1

/-- `ESC = 2^LENBITS - 1` (rule R103). -/
def ModeRow.esc (r : ModeRow) : Nat := 2 ^ r.lenBits - 1

/-- `MAXDISP = 2^DISPBITS` (rule R105). -/
def ModeRow.maxDisp (r : ModeRow) : Nat := 2 ^ r.dispBits

/-- `MAXLEN` (rule R105). -/
def ModeRow.maxLen (r : ModeRow) : Nat :=
  if r.extBits = 0 then r.minLen + r.esc else r.minLen + r.esc + (2 ^ r.extBits - 1)

/-- The bounds rule R8 sets on the row of an implemented mode. -/
def ModeRow.wf (r : ModeRow) : Bool :=
  decide (2 ≤ r.minLen) && decide (1 ≤ r.lenBits) && decide (r.lenBits ≤ 16) &&
    (decide (r.extBits = 0) || (decide (1 ≤ r.extBits) && decide (r.extBits ≤ 16))) &&
    decide (1 ≤ r.dispBits) && decide (r.dispBits ≤ 24)

/-- `MODE_TABLE[c]`, where the table has one. -/
def Construction.tableRow (k : Construction) (c : BitVec 3) : Option ModeRow := (k.modeTable[c.toNat]?).join

/-- The row the coders of mode `c` use: that of an implemented mode. A mode that is not implemented has no encoder and
no decoder (rules R94, R336). -/
def Construction.row (k : Construction) (c : BitVec 3) : Option ModeRow :=
  if c ∈ k.implemented then k.tableRow c else none

/-- Rule R8's demands that a record held in `State` can miss: the mode rows, the two sets of modes, and `WORDBYTES ∈
[1, 2, 4]`. The others it cannot: `MAGIC` and `SIZE_BYTES` are in range in every `FMT`, and every transform table keeps
lengths and is undone by its inverse (`Config.customObf`). -/
def recordWf (f : Fmt) (k : Construction) : Bool :=
  decide (f.wordLog ≠ 3#2) &&
    k.implemented.all (fun c => (k.tableRow c).any ModeRow.wf && decide (c ∈ k.recognized))

/-- Rule R8's law of a transform table: the transforms of modes 1 to 4 are undone by their inverses and keep the length. -/
def obfTableWf (obf deobf : Nat → List Byte → List Byte) : Prop :=
  ∀ m, 1 ≤ m → m ≤ 4 → ∀ b, deobf m (obf m b) = b ∧ (obf m b).length = b.length

/-- Mode 0 `LZ4.12` (rules R101, R326). -/
def rowLz412 : ModeRow := ⟨3, 4, 0, 12, false⟩

/-- Mode 1 `LZ3.8` (rules R101, R328). -/
def rowLz38 : ModeRow := ⟨2, 3, 0, 8, false⟩

/-- Mode 2 `LZ8.16` (rules R101, R330). -/
def rowLz816 : ModeRow := ⟨3, 8, 0, 16, false⟩

/-- Mode 3 `LZD11.5` (rules R101, R332). -/
def rowLzd115 : ModeRow := ⟨3, 5, 0, 11, true⟩

/-- Mode 4 `LZX4.12` (rules R101, R334). -/
def rowLzx412 : ModeRow := ⟨3, 4, 8, 12, false⟩

/-- The reference construction constants (rule R7): `MODE_TABLE` of rule R101, five modes implemented, six
recognised, the reference transforms and prices. -/
def referenceConstruction : Construction where
  modeTable := [some rowLz412, some rowLz38, some rowLz816, some rowLzd115, some rowLzx412]
  implemented := [0#3, 1#3, 2#3, 3#3, 4#3]
  recognized := [0#3, 1#3, 2#3, 3#3, 4#3, 5#3]
  obf := .reference
  price := .reference

/-- `FMT` for the defaults and reference values of rule R7: `MAGIC = 0x4B`, `SIZE_BYTES = 3`, `BITORDER = MSB`,
`BYTEORDER = LE`, `WORDBYTES = 4`. -/
def referenceFmt : Fmt := 0x104B#13

end Sys2Proof.Machine
end

