-- ==== Sys2Proof/Machine/State.lean ====
section
/-! DEFINITION. The state of one K2CORE instance (10_state.md), the outcomes that are not a next state, and the state
after reset (rule R42). -/

namespace Sys2Proof.Machine

/-- `PHASE`, the state of the command state machine (rule R24). -/
inductive Phase where
  | idle
  | readHeader
  | validateMagic
  | dispatchModes
  | decode
  | deobfuscate
  | done
  | failed
  | checkConfig
  | materialize
  | obfuscate
  | findMatches
  | parse
  | buildTree
  | writeHeader
  | emit
  deriving DecidableEq, Repr, Inhabited

/-- A move that is waiting to be served: a move of the host (rule R43), or an operation word at the engine's operation
port (log entries 1 and 3). -/
inductive Move where
  | op (img : Image)
  | writeReg (n : Nat) (v : Nat)
  | readReg (n : Nat)
  | writeSrc (a : Nat) (b : Byte)
  | readDst (a : Nat)
  deriving DecidableEq, Repr, Inhabited

/-- The whole state of one instance. The fields from `inbox` on are the model's own. -/
structure State where
  /-- `FMT` (rule R21) -/
  fmt : Fmt
  /-- the construction constants that are not in `FMT` (rules R7, R21) -/
  kon : Construction
  /-- `CFG` (rule R22) -/
  cfg : BitVec 9
  /-- `STATUS.PHASE` (rule R24); `BUSY` and `DONE` are views of it (rule R25) -/
  phase : Phase
  /-- `STATUS.ERR` (rule R25): `none` is code 0 -/
  err : Option ErrKind
  /-- `IDENT` (rule R26) -/
  ident : BitVec 8
  /-- `DSIZE` (rule R26) -/
  dsize : Nat
  /-- `SRC_LEN` (rule R27) -/
  srcLen : Nat
  /-- `DST_LEN` (rule R27) -/
  dstLen : Nat
  /-- `SRC` (rule R36) -/
  src : Mem
  /-- `DST` (rule R36) -/
  dst : Mem
  /-- `WORK` (rule R36) -/
  work : Mem
  /-- the datapath registers and tables of the running call (rules R28 to R31, R37, R38) -/
  call : Call
  /-- moves still to be served, oldest first (log entry 3) -/
  inbox : List Move
  /-- the value the last unit operation returned (log entry 14) -/
  ret : Nat
  /-- the value the host last read (log entry 14) -/
  bus : Nat
  /-- free values drawn so far (log entry 8) -/
  draws : Nat
  deriving DecidableEq, Repr, Inhabited

/-- What stops the model. Every error of the block is a next state (`PHASE = Failed`), not one of these. -/
inductive Fault where
  /-- A host access to a byte offset that 32 bits cannot name (rule R36: "Addresses are byte offsets, 32 bits").
  Raised by the host's moves only. Safe: the spec gives such an access no meaning. -/
  | noSuchAddress
  deriving DecidableEq, Repr, Inhabited

/-- Moves the host does not have, and words that are no instruction. All safe: the model stops and claims nothing. -/
inductive Refusal where
  /-- An instruction with no meaning yet. Raised by a refused arm of `exec` only. -/
  | notModelled (mnemonic : String)
  /-- A host move while `STATUS.BUSY = 1` (rule R43; U30). Raised by the host commands and the host's moves. -/
  | hostBusy
  /-- A write of `CFG` while `CFG.VALID = 1` (rules R43, R261; U31). Raised by CONFIGURE and by a write of `CFG`. -/
  | alreadyConfigured
  /-- ENCODE with `SRC_LEN > MAX_INPUT` (rule R272; U32). Raised by ENCODE. -/
  | inputTooLong
  /-- A construction record that is not well formed (rule R8; U34). Raised by the step. -/
  | illFormedRecord
  /-- A register number above 7 (rule R35; U9). Raised by the host's register moves. -/
  | noSuchRegister
  /-- A read of the write-only register `CMD` (rules R23, R35). Raised by the host's register read. -/
  | writeOnlyRegister
  /-- A read of `DST` at or beyond `DST_LEN` (rules R27, R43). Raised by the host's read of `DST`. -/
  | beyondDstLen
  /-- An operation word the decoder refuses. Raised by the fetch. -/
  | undecodable (r : Reject)
  /-- An operation word that decodes to an instruction with an operand out of its range. Raised by the fetch. -/
  | illFormedOperand
  deriving DecidableEq, Repr, Inhabited

/-- The per-call state after reset. The spec gives none of it a value but `MCOUNT = 0` (rule R42); the others are log
entry 7. -/
def Call.reset : Call where
  rd := ⟨0, 0, 0⟩
  wr := ⟨0, 0, 0⟩
  tk := ⟨false, 0, 0, 0, 0⟩
  hw := .raw
  hc := ⟨0, 0, 0⟩
  ht := ⟨List.replicate 16 0, [], 0⟩
  cand := []
  cost := []
  adv := []
  mlist := []
  mcount := 0
  freq := []
  scaled := []
  hnode := []
  hroot := none
  hcode := []

/-- The machine right after reset (rules R42, R401): `CFG`, `STATUS`, the lengths, `IDENT`, `DSIZE` and `MCOUNT` are 0,
`FMT` and the construction constants are those of the instance (here the reference record, log entry 5), and no byte of
any memory is known. -/
def State.reset : State where
  fmt := referenceFmt
  kon := referenceConstruction
  cfg := 0
  phase := .idle
  err := none
  ident := 0
  dsize := 0
  srcLen := 0
  dstLen := 0
  src := ⟨0, []⟩
  dst := ⟨1, []⟩
  work := ⟨2, []⟩
  call := Call.reset
  inbox := []
  ret := 0
  bus := 0
  draws := 3

end Sys2Proof.Machine
end

