-- ==== Sys2Proof/Machine/Flags.lean ====
section
/-! DEFINITION. The block's only flags, `STATUS.BUSY`, `STATUS.DONE` and `STATUS.ERR` (rule R34), and the register
`STATUS` they stand in (rule R25). -/

namespace Sys2Proof.Machine

/-- The number of a phase (rule R24). -/
def Phase.code : Phase → BitVec 4
  | .idle => 0
  | .readHeader => 1
  | .validateMagic => 2
  | .dispatchModes => 3
  | .decode => 4
  | .deobfuscate => 5
  | .done => 6
  | .failed => 7
  | .checkConfig => 8
  | .materialize => 9
  | .obfuscate => 10
  | .findMatches => 11
  | .parse => 12
  | .buildTree => 13
  | .writeHeader => 14
  | .emit => 15

/-- `BUSY`: 1 exactly when `PHASE` is none of 0, 6, 7 (rule R25). -/
def Phase.busy : Phase → Bool
  | .idle => false
  | .done => false
  | .failed => false
  | _ => true

/-- The phases of ENCODE (rule R24). -/
def Phase.ofEncode (p : Phase) : Bool := p.code.getLsbD 3

/-- The code of an error kind in `STATUS.ERR` (rule R361). -/
def errCode : Option ErrKind → BitVec 3
  | none => 0
  | some .formatMismatch => 1
  | some .corruptStream => 2
  | some .unsupportedMode => 3
  | some .notConfiguredForCompression => 4
  | some .unimplementedTransform => 5

/-- `STATUS.BUSY` (rule R25). -/
def State.busy (s : State) : Bool := s.phase.busy

/-- `STATUS.DONE`: 1 exactly when `PHASE = 6` (rule R25). -/
def State.doneFlag (s : State) : Bool := s.phase == .done

/-- The register `STATUS` (rule R25): `PHASE` [3:0], `BUSY` [4], `DONE` [5], `ERR` [8:6]. -/
def State.status (s : State) : BitVec 9 :=
  errCode s.err ++ BitVec.ofBool s.doneFlag ++ BitVec.ofBool s.busy ++ s.phase.code

end Sys2Proof.Machine
end

