-- ==== Sys2Proof/Machine/Operands.lean ====
section
/-! DEFINITION. Operand forms: the three sub-fields of an ident byte (rule R93), the symbol width a huffman mode selects
(rule R95), the mode row of a call, and the assembly of a match's length and displacement from its fields (rules R103,
R104). -/

namespace Sys2Proof.Machine

/-- `CMODE = identByte[2:0]`. -/
def cmodeOf (b : BitVec 8) : BitVec 3 := b.extractLsb' 0 3

/-- `HMODE = identByte[4:3]`. -/
def hmodeOf (b : BitVec 8) : BitVec 2 := b.extractLsb' 3 2

/-- `OMODE = identByte[7:5]`. -/
def omodeOf (b : BitVec 8) : BitVec 3 := b.extractLsb' 5 3

/-- `identByte = (OMODE << 5) or (HMODE << 3) or CMODE`. -/
def identByte (o : BitVec 3) (h : BitVec 2) (c : BitVec 3) : BitVec 8 := o ++ h ++ c

/-- `CFG.VALID`, bit 8 (rule R22). -/
def State.cfgValid (s : State) : Bool := s.cfg.getLsbD 8

/-- `CFG[7:0]`, laid out as an ident byte (rule R22). -/
def State.cfgIdent (s : State) : BitVec 8 := s.cfg.extractLsb' 0 8

/-- `HW <- (h = 0) ? 0 : (h = 1) ? 4 : 8` (rules R266, R271). -/
def widthOf (h : BitVec 2) : SymWidth := if h = 0 then .raw else if h = 1 then .w4 else .w8

/-- The number `W` of bits of a symbol (rule R201). DESIGN CHOICE: on the raw path, where rule R201 gives no `W`, a Huffman row
run alone takes symbols of 0 bits (log entry 37). -/
def symBits : SymWidth → Nat
  | .raw => 0
  | .w4 => 4
  | .w8 => 8

/-- The size `2^W` of the alphabet (rule R201). DESIGN CHOICE: on the raw path, where rule R201 gives no alphabet, a Huffman
row run alone takes the empty one (log entry 37). -/
def alphabet : SymWidth → Nat
  | .raw => 0
  | .w4 => 16
  | .w8 => 256

/-- A sub-field value that no configuration recognises: `c ∉ RECOGNIZED_CMODES or h = 3 or o ≥ 5` (rules R266, R271). -/
def reservedModes (k : Construction) (b : BitVec 8) : Bool :=
  decide (cmodeOf b ∉ k.recognized) || decide (hmodeOf b = 3) || decide (5 ≤ (omodeOf b).toNat)

/-- The coders' row of the call's compression mode `IDENT.CMODE`. -/
def State.row (s : State) : Option ModeRow := s.kon.row (cmodeOf s.ident)

/-- The length a match has whose length field is `f` and, where there is one, extension is `e` (rule R103). -/
def assembleLen (r : ModeRow) (f e : Nat) : Nat :=
  if 0 < r.extBits ∧ f = r.esc then r.minLen + r.esc + e else r.minLen + f

/-- Whether a length is sent with the escape: `EXTBITS > 0` and `L - MINLEN ≥ ESC` (rule R103). DESIGN CHOICE: of a length below
`MINLEN`, which only an emitter run alone can meet, the difference is 0 (log entry 35). -/
def lenEscaped (r : ModeRow) (len : Nat) : Bool := decide (0 < r.extBits) && decide (r.esc ≤ len - r.minLen)

/-- The length field of a length (rules R103, R324). DESIGN CHOICE: a length below `MINLEN`, for which rule R9 foresees no
difference, has the length field 0 (log entry 35). -/
def lenField (r : ModeRow) (len : Nat) : Nat := if lenEscaped r len then r.esc else len - r.minLen

/-- The extension field of an escaped length (rule R103). -/
def extField (r : ModeRow) (len : Nat) : Nat := len - r.minLen - r.esc

/-- The displacement a match has whose displacement field is `d` (rule R104). -/
def assembleDisp (d : Nat) : Nat := d + 1

/-- The count a count byte stands for: 256 exactly when `W = 8`, the level is 8, the byte is 0 and all 256 slots are
free (rules R211, R216). -/
def levelCount (w : SymWidth) (d slots byte : Nat) : Nat :=
  if w = .w8 ∧ d = 8 ∧ byte = 0 ∧ slots = 256 then 256 else byte

end Sys2Proof.Machine
end

