-- ==== Sys2Proof/Machine/Ops.lean ====
section
/-! DEFINITION. The shared operations: byte memories, the result of an operation that may raise, taking an error and the
return from one, and the parts of State a unit operation works on. -/

namespace Sys2Proof.Machine

/-! ## Byte memories (rules R11, R36, R66) -/

/-- The byte an address is listed with. -/
def cellGet : List Host.Cell → Nat → Option Byte
  | [], _ => none
  | (k, b) :: t, a => if k = a then some b else cellGet t a

/-- List address `a` with byte `b`, keeping the addresses strictly rising. -/
def cellPut : List Host.Cell → Nat → Byte → List Host.Cell
  | [], a, b => [(a, b)]
  | (k, c) :: t, a, b => if a < k then (a, b) :: (k, c) :: t else if a = k then (a, b) :: t else (k, c) :: cellPut t a b

/-- The canonical form: addresses strictly rising. An address that is not listed holds no known byte, so no entry can
equal what it holds. -/
abbrev Mem.wf (m : Mem) : Prop := (m.cells.map Prod.fst).Pairwise (· < ·)

/-- What an address that is not listed reads as: a free byte (rules R27, R42; log entry 8). -/
def Mem.unlisted (m : Mem) (a : Nat) : Byte := Config.anyByte m.epoch a

/-- `MemRead(S:a, 1)`. -/
def Mem.read (m : Mem) (a : Nat) : Byte := (cellGet m.cells a).getD (m.unlisted a)

/-- `MemRead(S:a, n)`. -/
def Mem.slice (m : Mem) : Nat → Nat → List Byte
  | _, 0 => []
  | a, n + 1 => m.read a :: m.slice (a + 1) n

/-- `MemWrite(S:a, 1, b)`. -/
def Mem.write (m : Mem) (a : Nat) (b : Byte) : Mem := { m with cells := cellPut m.cells a b }

/-- `MemWrite(S:a, n, v)`, in ascending offset order (rule R64). -/
def Mem.writeList (m : Mem) : Nat → List Byte → Mem
  | _, [] => m
  | a, b :: t => (m.write a b).writeList (a + 1) t

/-! ## Results that may raise (rule R366) -/

/-- What an operation on `σ` gives: a value, or an error. On either side the state holds every effect that came before
("every effect before the `raise` in pseudocode order has happened, no effect after it has"). -/
inductive Run (σ α : Type) where
  | ok (a : α) (s : σ)
  | raised (k : ErrKind) (s : σ)
  deriving DecidableEq, Repr

/-- Go on after an operation that did not raise; an error passes on unchanged. -/
def Run.andThen {σ α β : Type} (r : Run σ α) (f : α → σ → Run σ β) : Run σ β :=
  match r with
  | .ok a s => f a s
  | .raised k s => .raised k s

/-- Change the value of an operation that did not raise. -/
def Run.map {σ α β : Type} (r : Run σ α) (f : α → β) : Run σ β :=
  match r with
  | .ok a s => .ok (f a) s
  | .raised k s => .raised k s

/-- Put the part an operation worked on back into the whole, whichever way it ended. -/
def Run.lift {σ τ α : Type} (r : Run σ α) (f : σ → τ) : Run τ α :=
  match r with
  | .ok a s => .ok a (f s)
  | .raised k s => .raised k (f s)

/-- The state an operation left, whichever way it ended. -/
def Run.state {σ α : Type} : Run σ α → σ
  | .ok _ s => s
  | .raised _ s => s

/-! ## Taking an error, and the return from it (rules R366, R369) -/

/-- `raise K`, the trap entry, "all at once: `STATUS.ERR <- code(K)`, `PHASE <- Failed`. Nothing else is saved or changed
by the entry itself". -/
def takeError (k : ErrKind) (s : State) : State := { s with err := some k, phase := .failed }

/-- There is no return-from-trap operation: "the next DECODE or ENCODE clears `ERR` as it starts and runs exactly as it
would from `Idle`". The start of a command at its first phase. -/
def startCommand (p : Phase) (s : State) : State := { s with err := none, phase := p }

/-- `PHASE <- p`. -/
def setPhase (p : Phase) (s : State) : State := { s with phase := p }

/-- The end of a command without error: `PHASE <- Done`, `ERR` 0 (rule R25). -/
def endDone (s : State) : State := { s with phase := .done, err := none }

/-- The outcome of a unit operation run on its own: its effect, or the error entry (rule R366). DESIGN CHOICE: an error of a row
run alone leaves `DST`, `DST_LEN`, the per-call state and `WORK` with the values they had at the `raise` (log entry 44). -/
def settle {α : Type} (r : Run State α) : Host.Outcome State Fault Refusal :=
  match r with
  | .ok _ s => .next s
  | .raised k s => .next (takeError k s)

/-- The outcome of a unit operation that returns a value, which is left in `ret` (log entry 14). DESIGN CHOICE: an error leaves
everything else as it was at the `raise` (log entry 44). -/
def settleRet (r : Run State Nat) : Host.Outcome State Fault Refusal :=
  match r with
  | .ok v s => .next { s with ret := v }
  | .raised k s => .next (takeError k s)

/-! ## State's parts -/

/-- The state with another per-call state. -/
def State.withCall (s : State) (c : Call) : State := { s with call := c }

/-- The state with other reader registers (rule R28). -/
def State.withReader (s : State) (r : Reader) : State := s.withCall { s.call with rd := r }

/-- The state with other `HC_*` registers and reader registers (rule R219). -/
def State.withHcReader (s : State) (x : HcRegs × Reader) : State := s.withCall { s.call with hc := x.1, rd := x.2 }

/-- The state with another Huffman decoder table and other reader registers (rule R216). -/
def State.withTabReader (s : State) (x : HuffTab × Reader) : State := s.withCall { s.call with ht := x.1, rd := x.2 }

/-- The state with another Huffman decoder table (rule R38). -/
def State.withTab (s : State) (t : HuffTab) : State := s.withCall { s.call with ht := t }

/-- The state with other token registers (rule R30). -/
def State.withTk (s : State) (t : TokenRegs) : State := s.withCall { s.call with tk := t }

/-- The state with another symbol width register `HW` (rule R31). -/
def State.withHw (s : State) (w : SymWidth) : State := s.withCall { s.call with hw := w }

/-- The state with another `IDENT` (rule R26). -/
def State.withIdent (s : State) (b : BitVec 8) : State := { s with ident := b }

/-- The state with other `DST` bytes and `DST_LEN`. -/
def State.withDst (s : State) (m : Mem) (n : Nat) : State := { s with dst := m, dstLen := n }

/-- The state with other `WORK` bytes. -/
def State.withWork (s : State) (m : Mem) : State := { s with work := m }

/-- `MemAppend(DST, b)` (rule R11). -/
def appendDst (b : Byte) (s : State) : State := s.withDst (s.dst.write s.dstLen b) (s.dstLen + 1)

/-- `DST_LEN <- 0`. No byte of `DST` is then below `DST_LEN`, so all of them hold any value (rule R27; U25): the space
becomes a fresh draw of free bytes (log entry 11). -/
def clearDst (s : State) : State := { s with dst := ⟨s.draws, []⟩, dstLen := 0, draws := s.draws + 1 }

/-- `DST` and `DST_LEN` after a DECODE that failed with another kind than `FormatMismatch`: unspecified (rules R76, R367;
U21; log entry 10). -/
def freeDst (s : State) : State :=
  { s with dst := ⟨s.draws, []⟩, dstLen := (Config.anyDstLen s.draws).toNat, draws := s.draws + 1 }

/-- What a command leaves in the per-call state and in `WORK`: any value (rules R41, R367; U23; log entry 9). -/
def freeCall (s : State) : State :=
  { s with call := Config.anyCall s.draws, work := ⟨s.draws, []⟩, draws := s.draws + 1 }

/-- A rule that uses the mode row of the call. A mode with no encoder and no decoder is `UnimplementedTransform` (rules
R266, R271, R336; log entry 18). -/
def withRow {α : Type} (s : State) (f : ModeRow → Run State α) : Run State α :=
  match s.row with
  | some r => f r
  | none => .raised .unimplementedTransform s

end Sys2Proof.Machine
end

