-- ==== Sys2Proof/Machine/BitStream.lean ====
section
/-! DEFINITION. The bit-stream engine (40_bitstream.md): reader and writer, and the meanings of `openWriter`,
`writeBits`, `writeByte`, `flush`, `openReader`, `readBits`, `readByte`. -/

namespace Sys2Proof.Machine

/-! ## Reader (rules R135, R136) -/

/-- What the reader reads from: the format constants and `SRC[0..SRC_LEN)`. -/
structure ReadEnv where
  fmt : Fmt
  src : Mem
  srcLen : Nat

/-- The value of a word's bytes in `BYTEORDER` (rule R63). -/
def wordOfBytes (f : Fmt) (bs : List Byte) : Word := BitVec.ofNat 32 (if f.bigEnd then beNat bs else leNat bs)

/-- The bytes of a word in `BYTEORDER` (rule R132). -/
def bytesOfWord (f : Fmt) (w : Word) : List Byte :=
  if f.bigEnd then beBytes f.wordBytes w.toNat else leBytes f.wordBytes w.toNat

/-- The place in the word of its `j`-th stream bit (rule R132). DESIGN CHOICE: of a `j` of `WORDBITS` or more, which only the free
`WR_FILL` of a write without `openWriter` has, the place is 0 under MSB and `j` under LSB (log entry 43). -/
def bitPlace (f : Fmt) (j : Nat) : Nat := if f.lsbFirst then j else f.wordBits - 1 - j

/-- Pull the next word; fewer than `WORDBYTES` bytes left is `CorruptStream` (rules R136, R137: the check is per word, at
the pull). -/
def Reader.pull (e : ReadEnv) (r : Reader) : Run Reader Unit :=
  if e.srcLen < r.pos + e.fmt.wordBytes then .raised .corruptStream r
  else .ok () ⟨r.pos + e.fmt.wordBytes, wordOfBytes e.fmt (e.src.slice r.pos e.fmt.wordBytes), e.fmt.wordBits⟩

/-- Take the next unconsumed bit of the word held (rule R136). DESIGN CHOICE: with an `RD_AVAIL` above `WORDBITS`, which only the
free reader of a read without `openReader` has, the difference is 0 and the bit is the word's first (log entry 43). -/
def Reader.take (e : ReadEnv) (r : Reader) : Run Reader Bool :=
  .ok (r.word.getLsbD (bitPlace e.fmt (e.fmt.wordBits - r.avail))) { r with avail := r.avail - 1 }

/-- `getBit()` (rule R136). -/
def Reader.getBit (e : ReadEnv) (r : Reader) : Run Reader Bool :=
  if r.avail = 0 then (r.pull e).andThen fun _ r => r.take e else r.take e

/-- The bits of one `readBits` call in stream order. -/
def Reader.getBits (e : ReadEnv) : Nat → Reader → Run Reader (List Bool)
  | 0, r => .ok [] r
  | n + 1, r => (r.getBit e).andThen fun b r => (Reader.getBits e n r).map (b :: ·)

/-- The value whose bits come in stream order: the first is the most significant when `BITORDER = MSB`, the least when
`BITORDER = LSB` (rules R131, R136). -/
def valueOfStream (f : Fmt) (bs : List Bool) : Nat := if f.lsbFirst then natLsb bs else natMsb bs

/-- `readBits(bitCount)` (rule R136). -/
def Reader.readBits (e : ReadEnv) (n : Nat) (r : Reader) : Run Reader Nat :=
  (Reader.getBits e n r).map (valueOfStream e.fmt)

/-- `openReader()` (rule R135). -/
def openedReader (f : Fmt) : Reader := ⟨f.hdrLen, 0, 0⟩

/-! ## Writer (rules R130, R131, R134) -/

/-- What the writer works on: its registers, and `DST` with the output cursor `DST_LEN`. -/
structure Sink where
  wr : Writer
  dst : Mem
  len : Nat

/-- Move the accumulator to `DST` as one word, and clear it. -/
def Sink.emitWord (f : Fmt) (k : Sink) : Sink :=
  ⟨{ k.wr with acc := 0, fill := 0 }, k.dst.writeList k.len (bytesOfWord f k.wr.acc), k.len + f.wordBytes⟩

/-- Put one bit into the accumulator, without emitting it. DESIGN CHOICE: with a `WR_FILL` of `WORDBITS` or more it goes to the
place `bitPlace` gives (log entry 43). -/
def Sink.place (f : Fmt) (b : Bool) (k : Sink) : Sink :=
  { k with wr := ⟨k.wr.acc ||| (BitVec.ofNat 32 b.toNat <<< bitPlace f k.wr.fill), k.wr.fill + 1, k.wr.bits + 1⟩ }

/-- `putBit(b)` (rule R131). DESIGN CHOICE: a `WR_FILL` of `WORDBITS` or more counts on and never comes to `WORDBITS`, so no word
is emitted (log entry 43). -/
def Sink.putBit (f : Fmt) (b : Bool) (k : Sink) : Sink :=
  let k' := k.place f b
  if k'.wr.fill = f.wordBits then k'.emitWord f else k'

/-- `putBit` for each bit of a list, in order. -/
def Sink.putBits (f : Fmt) : List Bool → Sink → Sink
  | [], k => k
  | b :: t, k => (k.putBit f b).putBits f t

/-- The bits of one `writeBits` call in stream order (rule R131). -/
def streamOfValue (f : Fmt) (value n : Nat) : List Bool := if f.lsbFirst then bitsLsb n value else bitsMsb n value

/-- `writeBits(value, bitCount)` (rule R131). -/
def Sink.writeBits (f : Fmt) (value n : Nat) (k : Sink) : Sink := k.putBits f (streamOfValue f value n)

/-- `flush()` (rule R134): nothing when no bit is pending. With a `WR_FILL` of `WORDBITS` or more too it emits one word (log
entry 43). -/
def Sink.flush (f : Fmt) (k : Sink) : Sink := if 0 < k.wr.fill then k.emitWord f else k

/-- The writer registers `openWriter()` leaves (rule R130). -/
def openedWriter : Writer := ⟨0, 0, 0⟩

/-! ## On the whole state -/

/-- The state's reader environment. -/
def State.readEnv (s : State) : ReadEnv := ⟨s.fmt, s.src, s.srcLen⟩

/-- The state's writer and output. -/
def State.sink (s : State) : Sink := ⟨s.call.wr, s.dst, s.dstLen⟩

/-- The state with another writer and output. -/
def State.withSink (s : State) (k : Sink) : State :=
  { s with dst := k.dst, dstLen := k.len, call := { s.call with wr := k.wr } }

/-- `readBits` on the state. -/
def readBits (n : Nat) (s : State) : Run State Nat := (s.call.rd.readBits s.readEnv n).lift s.withReader

/-- `openReader` on the state. -/
def openReader (s : State) : State := s.withReader (openedReader s.fmt)

/-- `openWriter` on the state. -/
def openWriter (s : State) : State := s.withCall { s.call with wr := openedWriter }

/-- `writeBits` on the state. -/
def writeBits (value n : Nat) (s : State) : State := s.withSink (s.sink.writeBits s.fmt value n)

/-- `flush` on the state. -/
def flush (s : State) : State := s.withSink (s.sink.flush s.fmt)

/-! ## The meanings -/

/-- `openWriter` (rule R130). -/
def execOpenWriter (s : State) : Host.Outcome State Fault Refusal := .next (openWriter s)

/-- `writeBits` (rule R131). DESIGN CHOICE: run alone after a command, without `openWriter`, log entry 43. -/
def execWriteBits (value n : Nat) (s : State) : Host.Outcome State Fault Refusal := .next (writeBits value n s)

/-- `writeByte` is `writeBits` with `bitCount = 8` (rule R133). DESIGN CHOICE: as for `writeBits`, log entry 43. -/
def execWriteByte (value : Nat) (s : State) : Host.Outcome State Fault Refusal := .next (writeBits value 8 s)

/-- `flush` (rule R134). -/
def execFlush (s : State) : Host.Outcome State Fault Refusal := .next (flush s)

/-- `openReader` (rule R135). -/
def execOpenReader (s : State) : Host.Outcome State Fault Refusal := .next (openReader s)

/-- `readBits` (rule R136). DESIGN CHOICE: run alone after a command, without `openReader`, log entry 43. -/
def execReadBits (n : Nat) (s : State) : Host.Outcome State Fault Refusal := settleRet (readBits n s)

/-- `readByte`, the mirror of `writeByte` (rule R138). DESIGN CHOICE: as for `readBits`, log entry 43. -/
def execReadByte (s : State) : Host.Outcome State Fault Refusal := settleRet (readBits 8 s)

end Sys2Proof.Machine
end

