-- ==== Sys2Proof/Machine/Parser.lean ====
section
/-! DEFINITION. The LZ match finder (41_match_finder.md) and the optimal parser (42_optimal_parser.md), and the meanings
of `findMatches`, `parse.costToEnd`, `parse.walk`. -/

namespace Sys2Proof.Machine

/-- `WORK[0..DSIZE)`, the buffer `B` of rules R161 and R181. -/
def State.workBytes (s : State) : List Byte := s.work.slice 0 s.dsize

/-! ## Match finder (rules R160 to R162) -/

/-- The valid matches of a buffer (rule R160). -/
def validMatch (B : List Byte) (p l d : Nat) : Prop :=
  1 ≤ d ∧ d ≤ p ∧ 1 ≤ l ∧ p + l ≤ B.length ∧ ∀ i, i < l → B[p - d + i]? = B[p + i]?

/-- How far two byte sequences agree, at most `cap` bytes: `run(p, d)` of rule R162 when the sequences are the buffer
from `p - d` and from `p`. -/
def agree : Nat → List Byte → List Byte → Nat
  | cap + 1, x :: xs, y :: ys => if x = y then agree cap xs ys + 1 else 0
  | _, _, _ => 0

/-- `run(p, d)` (rule R162), with `cap = min(MAXLEN, n - p)`. -/
def matchRun (B : List Byte) (p cap d : Nat) : Nat := agree cap (B.drop (p - d)) (B.drop p)

/-- The inner loop of rule R162: `k` displacements still to try, in ascending order from `d`, with the best so far. A
strictly longer run replaces it, so a tie keeps the nearer. -/
def searchFrom (B : List Byte) (p cap : Nat) : Nat → Nat → Nat → Nat → Nat × Nat
  | 0, _, bestLen, bestDisp => (bestLen, bestDisp)
  | k + 1, d, bestLen, bestDisp =>
    if bestLen < matchRun B p cap d then searchFrom B p cap k (d + 1) (matchRun B p cap d) d
    else searchFrom B p cap k (d + 1) bestLen bestDisp

/-- `CAND[p]` (rule R162). -/
def candidate (row : ModeRow) (B : List Byte) (p : Nat) : Option (Nat × Nat) :=
  let best := searchFrom B p (min row.maxLen (B.length - p)) (min p row.maxDisp) 1 0 0
  if row.minLen ≤ best.1 then some best else none

/-- `findMatches`: `CAND[p]` for every `p` in `0..n)` (rule R162). -/
def findCands (row : ModeRow) (B : List Byte) : List (Option (Nat × Nat)) :=
  (List.range B.length).map (candidate row B)

/-! ## Prices (rules R180, R183) -/

/-- `literalCost(b)`; the default is 9 (rule R183), and no table's is 0 (rule R7). -/
def literalCost (k : Construction) (b : Byte) : Nat :=
  match k.price with
  | .reference => 9
  | .custom n => Config.customLiteralCost n b + 1

/-- `matchCost(l, d, c)`; the default is the number of bits of the token (rule R183). -/
def matchCost (k : Construction) (row : ModeRow) (c : BitVec 3) (l d : Nat) : Nat :=
  match k.price with
  | .reference =>
    if row.extBits = 0 ∨ l - row.minLen < row.esc then 1 + row.lenBits + row.dispBits
    else 1 + row.lenBits + row.extBits + row.dispBits
  | .custom n => Config.customMatchCost n l d c

/-! ## The backward dynamic programme (rules R182, R184, R185) -/

/-- The inner loop of rule R184: `k` lengths still to try, in ascending order from `l`, with the cheapest choice so far
(cost, advance). `costs` is `COST[p+1..n]`. -/
def chooseLen (price : Nat → Nat) (costs : List Nat) : Nat → Nat → Nat → Nat → Nat × Nat
  | 0, _, bestCost, bestAdv => (bestCost, bestAdv)
  | k + 1, l, bestCost, bestAdv =>
    let c := price l + costs.getD (l - 1) 0
    if c < bestCost ∨ (c = bestCost ∧ bestAdv < l) then chooseLen price costs k (l + 1) c l
    else chooseLen price costs k (l + 1) bestCost bestAdv

/-- The choice at one position: its cost-to-end and its advance (rule R184). DESIGN CHOICE: a candidate shorter than `MINLEN`,
which only a parse run alone on another mode's `CAND` meets, gives no length to try, and one longer than `MAXLEN` is tried to its
end (log entry 45). -/
def chooseAt (minLen litPrice : Nat) (price : Nat → Nat → Nat) (cand : Option (Nat × Nat)) (costs : List Nat) : Nat × Nat :=
  let lit := litPrice + costs.getD 0 0
  match cand with
  | none => (lit, 1)
  | some (L, d) => chooseLen (fun l => price l d) costs (L + 1 - minLen) minLen lit 1

/-- `COST[p..n]` and `ADV[p..n)` from the bytes and candidates of `p..n)`, last position first (rule R184). -/
def costToEnd (minLen : Nat) (lit : Byte → Nat) (price : Nat → Nat → Nat) : List (Byte × Option (Nat × Nat)) → List Nat × List Nat
  | [] => ([0], [])
  | (b, c) :: t =>
    let r := costToEnd minLen lit price t
    let x := chooseAt minLen (lit b) price c r.1
    (x.1 :: r.1, x.2 :: r.2)

/-- Each byte of the buffer with its candidate. -/
def withCands (B : List Byte) (cand : List (Option (Nat × Nat))) : List (Byte × Option (Nat × Nat)) :=
  B.zipIdx.map fun x => (x.1, (cand[x.2]?).join)

/-! ## The walk (rule R186) -/

/-- The forward walk from `p` with `fuel` tokens at most: the matches taken, and where the walk ends. A walk over
advances of at least 1 has at most `n` tokens (log entry 20). -/
def walkFrom (n : Nat) (cand : List (Option (Nat × Nat))) (adv : List Nat) : Nat → Nat → List LzMatch × Nat
  | 0, p => ([], p)
  | fuel + 1, p =>
    if p < n then
      let a := adv.getD p 0
      let r := walkFrom n cand adv fuel (p + a)
      match (cand[p]?).join with
      | some (_, d) => if 1 < a then (⟨p, a, d⟩ :: r.1, r.2) else r
      | none => r
    else ([], p)

/-! ## On the whole state -/

/-- The last position a loop over `0..n-1` visits, where there is one (log entry 20). -/
def lastPos (s : State) (n p : Nat) : Nat := if n = 0 then s.call.tk.p else p

/-- `findMatches` on the state. -/
def findMatches (s : State) : Run State Unit :=
  withRow s fun row =>
    .ok () (s.withCall { s.call with
      cand := findCands row s.workBytes
      tk := { s.call.tk with p := lastPos s s.dsize (s.dsize - 1) } })

/-- `parse`, step 1, on the state. -/
def parseCostToEnd (s : State) : Run State Unit :=
  withRow s fun row =>
    let r := costToEnd row.minLen (literalCost s.kon) (matchCost s.kon row (cmodeOf s.ident))
      (withCands s.workBytes s.call.cand)
    .ok () (s.withCall { s.call with cost := r.1, adv := r.2, tk := { s.call.tk with p := lastPos s s.dsize 0 } })

/-- `parse`, step 2, on the state. -/
def parseWalk (s : State) : State :=
  let r := walkFrom s.dsize s.call.cand s.call.adv s.dsize 0
  s.withCall { s.call with mlist := r.1, mcount := r.1.length, tk := { s.call.tk with p := r.2 } }

/-! ## The meanings -/

/-- `findMatches` (rule R162). -/
def execFindMatches (s : State) : Host.Outcome State Fault Refusal := settle (findMatches s)

/-- `parse`, step 1: cost-to-end (rule R184). -/
def execParseCostToEnd (s : State) : Host.Outcome State Fault Refusal := settle (parseCostToEnd s)

/-- `parse`, step 2: the walk (rule R186). -/
def execParseWalk (s : State) : Host.Outcome State Fault Refusal := .next (parseWalk s)

end Sys2Proof.Machine
end

