-- ==== Sys2Proof/Machine/Huffman.lean ====
section
/-! DEFINITION. The Huffman unit (43_huffman.md): tally, build under the depth cap, canonicalise, serialise, assign codes,
deserialise, read a symbol; and the meanings of its rows. -/

namespace Sys2Proof.Machine

/-! ## Residual literals and their symbols (rule R201) -/

/-- Whether a match covers position `p`. -/
def LzMatch.covers (m : LzMatch) (p : Nat) : Bool := decide (m.position ≤ p) && decide (p < m.position + m.length)

/-- The bytes at the positions no match covers, in ascending position (rule R201). -/
def residualLiterals (B : List Byte) (ms : List LzMatch) : List Byte :=
  (B.zipIdx.filter fun x => !(ms.any fun m => m.covers x.2)).map Prod.fst

/-- The symbols of one literal byte: itself, or its high nibble and then its low nibble (rule R201). DESIGN CHOICE: on the raw
path a byte has none (log entry 37). -/
def symbolsOf (w : SymWidth) (v : Byte) : List Nat :=
  match w with
  | .raw => []
  | .w8 => [v.toNat]
  | .w4 => [v.toNat / 16, v.toNat % 16]

/-- `FREQ` over a symbol sequence (rule R202). -/
def tallySymbols (w : SymWidth) (syms : List Nat) : List Nat := (List.range (alphabet w)).map fun s => syms.count s

/-! ## Build (rules R203 to R206, R209) -/

/-- `makeLeaves(F)`: one leaf for each symbol of nonzero frequency, in ascending symbol order (rule R203). -/
def leavesOf (w : SymWidth) (F : List Nat) : List HuffNode :=
  ((List.range (alphabet w)).filter fun s => decide (0 < F.getD s 0)).zipIdx.map fun x =>
    ⟨F.getD x.1 0, true, x.1, none, none, x.2⟩

/-- The lexicographic order on (frequency, `seq`) (rule R204). -/
def HuffNode.before (a b : HuffNode) : Bool :=
  decide (a.frequency < b.frequency) || (decide (a.frequency = b.frequency) && decide (a.seq < b.seq))

/-- The node of a nonempty set with the least (frequency, `seq`), the set given as a first node and the others. -/
def leastNode : HuffNode → List HuffNode → HuffNode
  | a, [] => a
  | a, b :: t => if b.before a then leastNode b t else leastNode a t

/-- Take the least node out of a set. DESIGN CHOICE: the first node equal to it is taken, where a free arena holds a node twice
(log entry 42). -/
def takeLeast : List HuffNode → Option (HuffNode × List HuffNode)
  | [] => none
  | a :: t => let x := leastNode a t; some (x, (a :: t).erase x)

/-- The internal node made of two nodes taken from the set (rule R204). DESIGN CHOICE: its children are named by their `seq`, also
on a free arena where that is not their index (log entry 42). -/
def joinNodes (a b : HuffNode) (seq : Nat) : HuffNode :=
  ⟨a.frequency + b.frequency, false, 0, some a.seq, some b.seq, seq⟩

/-- The loop of rule R204, `fuel` rounds at most: the arena and the set `LIVE`. -/
def mergeLoop : Nat → List HuffNode → List HuffNode → List HuffNode × List HuffNode
  | 0, arena, live => (arena, live)
  | fuel + 1, arena, live =>
    match takeLeast live with
    | none => (arena, live)
    | some (a, live1) =>
      match takeLeast live1 with
      | none => (arena, live)
      | some (b, live2) =>
        let t := joinNodes a b arena.length
        mergeLoop fuel (arena ++ [t]) (live2 ++ [t])

/-- `merge` (rule R204): the arena and the root; `LIVE` starts as the leaves of the arena. One leaf gives the one-symbol
tree of rule R209, no leaf no tree (log entry 21). DESIGN CHOICE: internal nodes the arena already holds stay in it and are not in
`LIVE`, and the root is named by its `seq`, as children are, which rule R203 makes its index (log entry 42). -/
def mergeLeaves (arena : List HuffNode) : List HuffNode × Option Nat :=
  match arena.filter HuffNode.isLeaf with
  | [] => (arena, none)
  | [a] => (arena ++ [⟨a.frequency, false, 0, some a.seq, none, arena.length⟩], some arena.length)
  | live =>
    let r := mergeLoop live.length arena live
    (r.1, r.2.head?.map HuffNode.seq)

/-- The children of a node, child 0 first. -/
def HuffNode.children (n : HuffNode) : List Nat := n.child0.toList ++ n.child1.toList

/-- The largest depth of a leaf below node `i`, followed `fuel` edges at most (rule R205). -/
def depthFrom (arena : List HuffNode) : Nat → Nat → Nat
  | 0, _ => 0
  | fuel + 1, i =>
    match arena[i]? with
    | none => 0
    | some n => if n.isLeaf then 0 else 1 + (n.children.map (depthFrom arena fuel)).foldl max 0

/-- `depth(root)`. -/
def treeDepth (t : List HuffNode × Option Nat) : Nat :=
  match t.2 with
  | none => 0
  | some r => depthFrom t.1 t.1.length r

/-- Halve a nonzero count, rounding up (rule R205). -/
def halveUp (c : Nat) : Nat := (c + 1) / 2

/-- The loop of rule R205: build from `F`, and while the tree is deeper than 16 levels halve the counts. `fuel` bounds
the rounds of scaling. -/
def limitLoop (w : SymWidth) : Nat → List Nat → List Nat × (List HuffNode × Option Nat)
  | 0, F => (F, mergeLeaves (leavesOf w F))
  | fuel + 1, F =>
    let t := mergeLeaves (leavesOf w F)
    if treeDepth t ≤ 16 then (F, t) else limitLoop w fuel (F.map halveUp)

/-- Rounds of scaling after which every count is at most 1 (rule R205, property 2). -/
def scalingRounds (F : List Nat) : Nat := Nat.log2 (F.foldl max 0) + 1

/-! ## Canonicalisation (rule R207) -/

/-- Whether node `i` is a leaf. -/
def isLeafAt (arena : List HuffNode) (i : Nat) : Bool := (arena[i]?).any HuffNode.isLeaf

/-- `CANON[d]` from `LEVEL[d]`: the leaves, then the internal nodes, each in their order (rule R207). -/
def stablePartition (arena : List HuffNode) (level : List Nat) : List Nat :=
  level.filter (isLeafAt arena) ++ level.filter fun i => !isLeafAt arena i

/-- The internal nodes of a level, in order. -/
def internalsOf (arena : List HuffNode) (level : List Nat) : List Nat := level.filter fun i => !isLeafAt arena i

/-- The children of node `i`. -/
def childrenAt (arena : List HuffNode) (i : Nat) : List Nat := ((arena[i]?).map HuffNode.children).getD []

/-- Pass 1: `CANON[0..D]` from `LEVEL[0]` on, `fuel` levels at most. -/
def canonLevels (arena : List HuffNode) : Nat → List Nat → List (List Nat)
  | 0, _ => []
  | fuel + 1, level =>
    let canon := stablePartition arena level
    let ints := internalsOf arena canon
    if ints.isEmpty then [canon] else canon :: canonLevels arena fuel (ints.flatMap (childrenAt arena))

/-- Give internal nodes their children from the next level, two by two (rule R207, pass 2). DESIGN CHOICE: where the next level's
nodes run out, on a free arena, the internal nodes left keep their old children (log entry 42). -/
def rewireLevel : List Nat → List Nat → List HuffNode → List HuffNode
  | i :: is, c0 :: c1 :: cs, arena =>
    rewireLevel is cs (arena.modify i fun n => { n with child0 := some c0, child1 := some c1 })
  | _, _, arena => arena

/-- Pass 2 over all levels, `INT[d]` read off `CANON[d]`. -/
def rewireLevels (arena0 : List HuffNode) : List (List Nat) → List HuffNode → List HuffNode
  | canon :: next :: rest, arena =>
    rewireLevels arena0 (next :: rest) (rewireLevel (internalsOf arena0 canon) next arena)
  | _, arena => arena

/-- The frequency of node `i`. -/
def freqAt (arena : List HuffNode) (i : Nat) : Nat := ((arena[i]?).map HuffNode.frequency).getD 0

/-- Re-sum one internal node from its children. -/
def resumNode (arena : List HuffNode) (i : Nat) : List HuffNode :=
  arena.modify i fun n => { n with frequency := (n.children.map (freqAt arena)).sum }

/-- Pass 3: parent frequency totals, deepest level first (rule R207). -/
def resumLevels : List (List Nat) → List HuffNode → List HuffNode
  | [], arena => arena
  | canon :: rest, arena =>
    let below := resumLevels rest arena
    (internalsOf below canon).foldl resumNode below

/-- `canonicalise` (rule R207). The one-symbol tree is left as it is (rule R209). DESIGN CHOICE: and so is no tree (log
entry 21), and the whole of a free arena whose root has no `child1` (log entry 42). -/
def canonTree (t : List HuffNode × Option Nat) : List HuffNode :=
  match t.2 with
  | none => t.1
  | some r =>
    if (t.1[r]?).any (fun n => n.child1.isNone) then t.1
    else
      let canon := canonLevels t.1 (t.1.length + 1) [r]
      resumLevels canon (rewireLevels t.1 canon t.1)

/-! ## Tables, serialisation, codes (rules R210 to R213) -/

/-- The symbols of the leaves of each level from 1 on, in canonical order (rules R207, R209). DESIGN CHOICE: none without a root,
also where the arena holds leaves (log entry 21), and in canonical order also of a tree not yet canonicalised (log entry 42). -/
def leafLevels (t : List HuffNode × Option Nat) : List (List Byte) :=
  match t.2 with
  | none => []
  | some r =>
    ((canonLevels t.1 (t.1.length + 1) [r]).drop 1).map fun level =>
      (level.filter (isLeafAt t.1)).map fun i => BitVec.ofNat 8 (((t.1[i]?).map HuffNode.code).getD 0)

/-- `HCOUNT`, `HSYM` and `HT_TOTAL` of a canonical tree (first half of rule R210). DESIGN CHOICE: of a tree deeper than 16
levels, the leaves of levels 1 to 16 (log entry 42); without a root, sixteen empty levels, also where the arena holds leaves (log
entry 21). -/
def fillTab (t : List HuffNode × Option Nat) : HuffTab :=
  let levels := (leafLevels t).take 16
  let syms := levels.flatten
  ⟨(List.range 16).map fun d => (levels.getD d []).length, syms, syms.length⟩

/-- `HCOUNT[1..16]` as a list of sixteen counts. -/
def HuffTab.counts (t : HuffTab) : List Nat := (List.range 16).map fun d => t.hcount.getD d 0

/-- The symbols of the levels, split off `HSYM` by the counts; an entry past the end reads as reset leaves it (log
entry 20). -/
def splitLevels : List Nat → List Byte → List (List Byte)
  | [], _ => []
  | c :: cs, syms => (syms.take c ++ List.replicate (c - syms.length) 0) :: splitLevels cs (syms.drop c)

/-- Write one level of the tree table: the count modulo 256 in 8 bits, then its symbols (rules R210, R211). -/
def writeLevel (f : Fmt) (w : SymWidth) (syms : List Byte) (k : Sink) : Sink :=
  syms.foldl (fun k s => k.writeBits f s.toNat (symBits w)) (k.writeBits f (syms.length % 256) 8)

/-- Write the tree table (second half of rule R210). -/
def writeTable (f : Fmt) (w : SymWidth) (t : HuffTab) (k : Sink) : Sink :=
  (splitLevels t.counts t.hsym).foldl (fun k syms => writeLevel f w syms k) k

/-- Give the symbols of one level their codes, from `code` on (rule R212). DESIGN CHOICE: the code of a symbol of `2^W` or more,
for which `HCODE` has no entry, is dropped (log entry 39). -/
def assignLevel (d : Nat) : Nat → List Byte → List (Option HuffCode) → List (Option HuffCode)
  | _, [], codes => codes
  | code, s :: t, codes => assignLevel d (code + 1) t (codes.set s.toNat (some ⟨code, d⟩))

/-- The levels of rule R212 from level `d` with first code `first`. -/
def assignFrom : Nat → Nat → List (List Byte) → List (Option HuffCode) → List (Option HuffCode)
  | _, _, [], codes => codes
  | d, first, syms :: rest, codes =>
    assignFrom (d + 1) ((first + syms.length) <<< 1) rest (assignLevel d first syms codes)

/-- `HCODE` (rule R212). -/
def codesOf (w : SymWidth) (t : HuffTab) : List (Option HuffCode) :=
  assignFrom 1 0 (splitLevels t.counts t.hsym) (List.replicate (alphabet w) none)

/-- The code `writeSymbol` sends for a symbol. An entry `none` holds no code, and a free one stands for it (log
entry 19). -/
def codeFor (draws : Nat) (codes : List (Option HuffCode)) (s : Nat) : HuffCode :=
  match (codes[s]?).join with
  | some c => c
  | none => ⟨(Config.anyCode draws s).1.toNat, (Config.anyCode draws s).2.toNat + 1⟩

/-- `writeSymbol`: the code's bits, root edge first, one `writeBits(bit, 1)` each (rule R213). -/
def Sink.writeCode (f : Fmt) (c : HuffCode) (k : Sink) : Sink :=
  (bitsMsb c.len c.code).foldl (fun k b => k.writeBits f b.toNat 1) k

/-! ## Deserialisation and symbol decoding (rules R216 to R219) -/

/-- `HT_TOTAL <- 0`: `HSYM`, whose entries are 0..`HT_TOTAL - 1` (rule R38), has none left. -/
def HuffTab.empty (t : HuffTab) : HuffTab := { t with hsym := [], total := 0 }

/-- `HCOUNT[d] <- k`. -/
def HuffTab.setCount (t : HuffTab) (d k : Nat) : HuffTab := { t with hcount := t.counts.set (d - 1) k }

/-- `HSYM[HT_TOTAL] <- s; HT_TOTAL <- HT_TOTAL + 1`. -/
def HuffTab.push (t : HuffTab) (s : Byte) : HuffTab := ⟨t.hcount, t.hsym.take t.total ++ [s], t.total + 1⟩

/-- Read `k` symbols of `W` bits into `HSYM`. -/
def readSyms (e : ReadEnv) (w : SymWidth) : Nat → HuffTab × Reader → Run (HuffTab × Reader) Unit
  | 0, x => .ok () x
  | k + 1, x =>
    match x.2.readBits e (symBits w) with
    | .raised err r => .raised err (x.1, r)
    | .ok v r => readSyms e w k (x.1.push (BitVec.ofNat 8 v), r)

/-- The loop of rule R216 from level `d`: `n` levels still to read, `slots` node places at this level. -/
def deserLevels (e : ReadEnv) (w : SymWidth) : Nat → Nat → Nat → HuffTab × Reader → Run (HuffTab × Reader) Unit
  | 0, _, _, x => .ok () x
  | n + 1, d, slots, x =>
    match x.2.readBits e 8 with
    | .raised err r => .raised err (x.1, r)
    | .ok byte r =>
      let k := levelCount w d slots byte
      if slots < k then .raised .corruptStream (x.1, r)
      else (readSyms e w k (x.1.setCount d k, r)).andThen fun _ x => deserLevels e w n (d + 1) (2 * (slots - k)) x

/-- `deserialise` (rule R216). -/
def deserTab (e : ReadEnv) (w : SymWidth) (x : HuffTab × Reader) : Run (HuffTab × Reader) Unit :=
  deserLevels e w 16 1 2 (x.1.empty, x.2)

/-- The same table given as its levels (the row TREETABLE, log entry 17): the slot check and the filling of rule
R216. -/
def fillLevels (d slots : Nat) : List (List Byte) → HuffTab → Run HuffTab Unit
  | [], t => .ok () t
  | syms :: rest, t =>
    if slots < syms.length then .raised .corruptStream t
    else fillLevels (d + 1) (2 * (slots - syms.length)) rest (syms.foldl HuffTab.push (t.setCount d syms.length))

/-- The loop of rule R219 over the levels still to try, the bits coming from `get`. -/
def symWalk {σ : Type} (get : σ → Run σ Nat) (syms : List Byte) : List Nat → HcRegs → σ → Run (HcRegs × σ) Byte
  | [], h, x => .raised .corruptStream (h, x)
  | c :: cs, h, x =>
    match get x with
    | .raised err x => .raised err (h, x)
    | .ok b x =>
      let code := (h.code <<< 1) ||| b
      if code - h.first < c then
        .ok (syms.getD (h.index + (code - h.first)) 0) (⟨code, h.first, h.index⟩, x)
      else symWalk get syms cs ⟨code, (h.first + c) <<< 1, h.index + c⟩ x

/-- `readSymbol()` (rule R219) on a source of bits. -/
def decodeSymbol {σ : Type} (get : σ → Run σ Nat) (t : HuffTab) (x : σ) : Run (HcRegs × σ) Byte :=
  symWalk get t.hsym t.counts ⟨0, 0, 0⟩ x

/-- A list of bits as a source of bits; past its end is `CorruptStream`. -/
def listBit : List Bool → Run (List Bool) Nat
  | [] => .raised .corruptStream []
  | b :: t => .ok b.toNat t

/-! ## On the whole state -/

/-- The tree the arena holds. -/
def State.tree (s : State) : List HuffNode × Option Nat := (s.call.hnode, s.call.hroot)

/-- `tally` on the state. -/
def tally (s : State) : State :=
  s.withCall { s.call with
    freq := tallySymbols s.call.hw
      ((residualLiterals s.workBytes (s.call.mlist.take s.call.mcount)).flatMap (symbolsOf s.call.hw)) }

/-- `makeLeaves(F)` on the state. The arena is emptied first, and with it goes the tree it held. -/
def makeLeaves (src : FreqSource) (s : State) : State :=
  let F := match src with
    | .freq => s.call.freq
    | .scaled => s.call.scaled
  s.withCall { s.call with hnode := leavesOf s.call.hw F, hroot := none }

/-- `merge` on the state. -/
def merge (s : State) : State :=
  let r := mergeLeaves s.call.hnode
  s.withCall { s.call with hnode := r.1, hroot := r.2 }

/-- `limitDepth` on the state. -/
def limitDepth (s : State) : State :=
  let r := limitLoop s.call.hw (scalingRounds s.call.freq) s.call.freq
  s.withCall { s.call with scaled := r.1, hnode := r.2.1, hroot := r.2.2 }

/-- `canonicalise` on the state. -/
def canonicalise (s : State) : State := s.withCall { s.call with hnode := canonTree s.tree }

/-- The filling of `HCOUNT`/`HSYM`, first half of `serialise`, on the state. -/
def fillTables (s : State) : State := s.withTab (fillTab s.tree)

/-- The writing of the tree table, second half of `serialise`, on the state. -/
def writeTreeTable (s : State) : State := s.withSink (writeTable s.fmt s.call.hw s.call.ht s.sink)

/-- `assignCodes` on the state. -/
def assignCodes (s : State) : State := s.withCall { s.call with hcode := codesOf s.call.hw s.call.ht }

/-- `writeSymbol` on the state. -/
def writeSymbol (sym : Nat) (s : State) : State :=
  s.withSink (s.sink.writeCode s.fmt (codeFor s.draws s.call.hcode sym))

/-- `deserialise` on the state. -/
def deserialise (s : State) : Run State Unit :=
  (deserTab s.readEnv s.call.hw (s.call.ht, s.call.rd)).lift s.withTabReader

/-- `readSymbol` on the state. -/
def readSymbol (s : State) : Run State Byte :=
  (decodeSymbol (fun r => Reader.readBits s.readEnv 1 r) s.call.ht s.call.rd).lift s.withHcReader

/-! ## The meanings -/

/-- `tally` (rule R202). DESIGN CHOICE: run alone under `HW = 0` it leaves `FREQ` empty (log entry 37). -/
def execTally (s : State) : Host.Outcome State Fault Refusal := .next (tally s)

/-- `makeLeaves(F)` (rule R203). DESIGN CHOICE: run alone under `HW = 0` it makes no leaf (log entry 37). -/
def execMakeLeaves (f : FreqSource) (s : State) : Host.Outcome State Fault Refusal := .next (makeLeaves f s)

/-- `merge` (rules R204, R209). -/
def execMerge (s : State) : Host.Outcome State Fault Refusal := .next (merge s)

/-- `limitDepth` (rule R205). -/
def execLimitDepth (s : State) : Host.Outcome State Fault Refusal := .next (limitDepth s)

/-- `canonicalise` (rule R207). -/
def execCanonicalise (s : State) : Host.Outcome State Fault Refusal := .next (canonicalise s)

/-- `serialise` (rule R210): both halves. DESIGN CHOICE: run alone under `HW = 0` it writes the counts and symbols of 0 bits, and
under an `HW` narrower than its tree's symbols their low `W` bits (log entry 37). -/
def execSerialise (s : State) : Host.Outcome State Fault Refusal := .next (writeTreeTable (fillTables s))

/-- `assignCodes` (rule R212). DESIGN CHOICE: run alone under `HW = 0` it leaves `HCODE` empty (log entry 37), and a table's symbol
of `2^W` or more gets no code (log entry 39). -/
def execAssignCodes (s : State) : Host.Outcome State Fault Refusal := .next (assignCodes s)

/-- `writeSymbol` (rule R213). -/
def execWriteSymbol (sym : Byte) (s : State) : Host.Outcome State Fault Refusal := .next (writeSymbol sym.toNat s)

/-- `deserialise` (rule R216). DESIGN CHOICE: run alone under `HW = 0` it reads symbols of 0 bits, each 0 (log entry 37). -/
def execDeserialise (s : State) : Host.Outcome State Fault Refusal := settle (deserialise s)

/-- `readSymbol` (rule R219). -/
def execReadSymbol (s : State) : Host.Outcome State Fault Refusal := settleRet ((readSymbol s).map BitVec.toNat)

/-- TREETABLE: the tree table given as one word (rules R96, R216; log entry 17). -/
def execTreetable (_w : SymWidth) (levels : List (List Byte)) (s : State) : Host.Outcome State Fault Refusal :=
  settle ((fillLevels 1 2 levels s.call.ht.empty).lift s.withTab)

end Sys2Proof.Machine
end

