-- ==== Sys2Proof/Machine/Value.lean ====
section
/-! DEFINITION. The value reader and writer (46_value_codec.md) and the meanings of their three rows. -/

namespace Sys2Proof.Machine

/-- `readValue()` by the width `HW` (rules R301 to R303). -/
def readValue (w : SymWidth) (s : State) : Run State Byte :=
  match w with
  | .raw => (readBits 8 s).map (BitVec.ofNat 8)
  | .w8 => readSymbol s
  | .w4 => (readSymbol s).andThen fun hi s => (readSymbol s).map fun lo => (hi <<< 4) ||| lo

/-- `writeValue(v)` on the sink, by the width `HW` (rules R301 to R303): `code` gives the code of a symbol. -/
def Sink.writeValue (f : Fmt) (w : SymWidth) (code : Nat → HuffCode) (v : Byte) (k : Sink) : Sink :=
  match w with
  | .raw => k.writeBits f v.toNat 8
  | .w8 => k.writeCode f (code v.toNat)
  | .w4 => (k.writeCode f (code (v.toNat / 16))).writeCode f (code (v.toNat % 16))

/-- The code the state's `HCODE` gives a symbol. -/
def State.codeOf (s : State) : Nat → HuffCode := codeFor s.draws s.call.hcode

/-- `writeValue(v)` on the state. -/
def writeValue (w : SymWidth) (v : Byte) (s : State) : State := s.withSink (s.sink.writeValue s.fmt w s.codeOf v)

/-- One half of a value codec row: `readValue` leaves its value in `ret`. DESIGN CHOICE: run alone, the row takes its own
path whatever `HW` is, with the tables as they are (log entry 33). -/
def runValue (w : SymWidth) (op : ValueOp) (s : State) : Host.Outcome State Fault Refusal :=
  match op with
  | .read => settleRet ((readValue w s).map BitVec.toNat)
  | .write v => .next (writeValue w v s)

/-! ## The meanings -/

/-- The raw path (rule R301). -/
def execValueRaw (op : ValueOp) (s : State) : Host.Outcome State Fault Refusal := runValue .raw op s

/-- The 8-bit Huffman path (rule R302). -/
def execValueH8 (op : ValueOp) (s : State) : Host.Outcome State Fault Refusal := runValue .w8 op s

/-- The 4-bit Huffman path (rule R303). -/
def execValueH4 (op : ValueOp) (s : State) : Host.Outcome State Fault Refusal := runValue .w4 op s

end Sys2Proof.Machine
end

