-- ==== Sys2Proof/Machine/Coders.lean ====
section
/-! DEFINITION. The format-specific decoders and encoders (47_lz_formats.md): the token loop, `LIT`, `MATCH`, the token
emitter, the five modes and the unimplemented sixth; and the meanings of the TOKEN rows. -/

namespace Sys2Proof.Machine

/-! ## The decoder (rules R320 to R323) -/

/-- `readLen()` (rule R323). -/
def readLen (row : ModeRow) (s : State) : Run State Nat :=
  (readBits row.lenBits s).andThen fun f s =>
    if 0 < row.extBits ∧ f = row.esc then (readBits row.extBits s).map fun e => assembleLen row f e
    else .ok (assembleLen row f 0) s

/-- `readDisp()` (rule R323). -/
def readDisp (row : ModeRow) (s : State) : Run State Nat := (readBits row.dispBits s).map assembleDisp

/-- `TK_LEN <- len`. -/
def setTkLen (len : Nat) (s : State) : State := s.withTk { s.call.tk with len := len }

/-- `TK_DISP <- disp`. -/
def setTkDisp (disp : Nat) (s : State) : State := s.withTk { s.call.tk with disp := disp }

/-- `TK_FLAG <- flag`. -/
def setTkFlag (flag : Bool) (s : State) : State := s.withTk { s.call.tk with flag := flag }

/-- The copy of rule R70: `n` bytes, one at a time in ascending order, each read seeing every earlier write of the same
copy. -/
def copyBytes (disp : Nat) : Nat → Mem → Nat → Mem × Nat
  | 0, m, len => (m, len)
  | n + 1, m, len => copyBytes disp n (m.write len (m.read (len - disp))) (len + 1)

/-- The checks and the copy of a `MATCH` whose registers `TK_LEN` and `TK_DISP` are set (rule R323): the displacement is
checked before the length, and a refused match writes no byte. DESIGN CHOICE: with `DST_LEN` above `DSIZE`, which only a row run
alone meets, `DSIZE - DST_LEN` is 0 and every match is refused (log entry 43). -/
def runMatch (s : State) : Run State Unit :=
  if s.dstLen < s.call.tk.disp then .raised .corruptStream s
  else if s.dsize - s.dstLen < s.call.tk.len then .raised .corruptStream s
  else
    let r := copyBytes s.call.tk.disp s.call.tk.len s.dst s.dstLen
    .ok () (s.withDst r.1 r.2)

/-- `LIT`, after its flag (rule R322). -/
def decodeLit (s : State) : Run State Unit :=
  (readValue s.call.hw s).andThen fun v s => .ok () (appendDst v s)

/-- `MATCH`, after its flag (rule R323): the whole token is read before either check. -/
def decodeMatch (row : ModeRow) (s : State) : Run State Unit :=
  if row.dispFirst then
    (readDisp row s).andThen fun d s => (readLen row (setTkDisp d s)).andThen fun l s => runMatch (setTkLen l s)
  else
    (readLen row s).andThen fun l s => (readDisp row (setTkLen l s)).andThen fun d s => runMatch (setTkDisp d s)

/-- One round of the token loop: the flag, then the token (rule R320). -/
def decodeToken (row : ModeRow) (s : State) : Run State Unit :=
  (readBits 1 s).andThen fun flag s =>
    if flag = 0 then decodeLit (setTkFlag false s) else decodeMatch row (setTkFlag true s)

/-- The token loop, `fuel` tokens at most: the condition is tested before each token (rules R320, R321). -/
def tokenLoopFrom (row : ModeRow) : Nat → State → Run State Unit
  | 0, s => .ok () s
  | fuel + 1, s =>
    if s.dstLen < s.dsize then (decodeToken row s).andThen fun _ s => tokenLoopFrom row fuel s else .ok () s

/-- The token loop (rule R320). Each token adds at least one byte, so `DSIZE - DST_LEN` tokens are enough. -/
def tokenLoop (row : ModeRow) (s : State) : Run State Unit := tokenLoopFrom row (s.dsize - s.dstLen) s

/-! ## The encoder (rule R324) -/

/-- `writeLen(L)` (rule R324). DESIGN CHOICE: an `L` that the mode cannot encode, which only an emitter run alone meets, is written
as its fields cut to their widths, below `MINLEN` as the length field 0 (log entry 35). -/
def Sink.writeLen (f : Fmt) (row : ModeRow) (len : Nat) (k : Sink) : Sink :=
  let k := k.writeBits f (lenField row len) row.lenBits
  if lenEscaped row len then k.writeBits f (extField row len) row.extBits else k

/-- `writeDisp(D)` (rule R324). DESIGN CHOICE: of a `D` of 0, or one the field is too narrow for, as in `writeLen` (log
entry 35). -/
def Sink.writeDisp (f : Fmt) (row : ModeRow) (disp : Nat) (k : Sink) : Sink := k.writeBits f (disp - 1) row.dispBits

/-- A `MATCH` token (rule R102). -/
def Sink.writeMatch (f : Fmt) (row : ModeRow) (m : LzMatch) (k : Sink) : Sink :=
  let k := k.writeBits f 1 1
  if row.dispFirst then (k.writeDisp f row m.displacement).writeLen f row m.length
  else (k.writeLen f row m.length).writeDisp f row m.displacement

/-- A `LIT` token (rule R100). -/
def Sink.writeLit (f : Fmt) (w : SymWidth) (code : Nat → HuffCode) (v : Byte) (k : Sink) : Sink :=
  (k.writeBits f 0 1).writeValue f w code v

/-- What the emitter works from: `WORK[0..DSIZE)`, `MLIST[0..MCOUNT)`, the mode row, the value writer. -/
structure EmitEnv where
  fmt : Fmt
  row : ModeRow
  hw : SymWidth
  code : Nat → HuffCode
  bytes : List Byte
  mlist : List LzMatch

/-- The loop of rule R324 from `P = p`, `MI = mi`. Every round moves `P` or `MI` forward. -/
def emitFrom (e : EmitEnv) : Nat → Nat → Nat → Sink → Nat × Nat × Sink
  | 0, p, mi, k => (p, mi, k)
  | fuel + 1, p, mi, k =>
    if p < e.bytes.length then
      match e.mlist[mi]? with
      | some m =>
        if m.position = p then emitFrom e fuel (p + m.length) (mi + 1) (k.writeMatch e.fmt e.row m)
        else emitFrom e fuel (p + 1) mi (k.writeLit e.fmt e.hw e.code (e.bytes.getD p 0))
      | none => emitFrom e fuel (p + 1) mi (k.writeLit e.fmt e.hw e.code (e.bytes.getD p 0))
    else (p, mi, k)

/-- The emitter's inputs in the state. -/
def State.emitEnv (s : State) (row : ModeRow) : EmitEnv :=
  ⟨s.fmt, row, s.call.hw, s.codeOf, s.workBytes, s.call.mlist.take s.call.mcount⟩

/-- The token emitter on the state (rule R324). -/
def emitTokens (row : ModeRow) (s : State) : State :=
  let e := s.emitEnv row
  let r := emitFrom e (e.bytes.length + e.mlist.length) 0 0 s.sink
  (s.withSink r.2.2).withTk { s.call.tk with p := r.1, mi := r.2.1 }

/-! ## The meanings of the coder rows

DESIGN CHOICE: a row `decode.X` or `encode.X` run alone takes the constants of mode `X` whatever `IDENT.CMODE`, `MODE_TABLE` and
`IMPLEMENTED_CMODES` hold, and raises nothing for them (log entries 28, 41). -/

/-- The token loop in the call's mode (rule R320). -/
def execTokenLoop (s : State) : Host.Outcome State Fault Refusal := settle (withRow s fun row => tokenLoop row s)

/-- `LIT`, decoded from the bit stream after its flag (rule R322). -/
def execDecodeLit (s : State) : Host.Outcome State Fault Refusal := settle (decodeLit s)

/-- `MATCH`, decoded from the bit stream after its flag, in the call's mode (rule R323). -/
def execDecodeMatch (s : State) : Host.Outcome State Fault Refusal := settle (withRow s fun row => decodeMatch row s)

/-- The token emitter in the call's mode (rule R324). -/
def execEmitTokens (s : State) : Host.Outcome State Fault Refusal :=
  settle (withRow s fun row => .ok () (emitTokens row s))

/-- Mode 0 `LZ4.12`, decoder (rule R326): rule R320 with the named constants. DESIGN CHOICE:
run alone, it runs under every `IDENT.CMODE` and every record (log entries 28, 41). -/
def execDecodeLz412 (s : State) : Host.Outcome State Fault Refusal := settle (tokenLoop rowLz412 s)

/-- Mode 0 `LZ4.12`, encoder (rule R327): rule R324 with the named constants. DESIGN CHOICE:
run alone, it runs under every `IDENT.CMODE` and every record (log entries 28, 41). -/
def execEncodeLz412 (s : State) : Host.Outcome State Fault Refusal := .next (emitTokens rowLz412 s)

/-- Mode 1 `LZ3.8`, decoder (rule R328). DESIGN CHOICE: alone, under every `IDENT.CMODE` and record (log entries 28, 41). -/
def execDecodeLz38 (s : State) : Host.Outcome State Fault Refusal := settle (tokenLoop rowLz38 s)

/-- Mode 1 `LZ3.8`, encoder (rule R329). DESIGN CHOICE: alone, under every `IDENT.CMODE` and record (log entries 28, 41). -/
def execEncodeLz38 (s : State) : Host.Outcome State Fault Refusal := .next (emitTokens rowLz38 s)

/-- Mode 2 `LZ8.16`, decoder (rule R330). DESIGN CHOICE: alone, under every `IDENT.CMODE` and record (log entries 28, 41). -/
def execDecodeLz816 (s : State) : Host.Outcome State Fault Refusal := settle (tokenLoop rowLz816 s)

/-- Mode 2 `LZ8.16`, encoder (rule R331). DESIGN CHOICE: alone, under every `IDENT.CMODE` and record (log entries 28, 41). -/
def execEncodeLz816 (s : State) : Host.Outcome State Fault Refusal := .next (emitTokens rowLz816 s)

/-- Mode 3 `LZD11.5`, decoder (rule R332): the displacement is read before the length. DESIGN CHOICE: alone, under every
`IDENT.CMODE` and record (log entries 28, 41). -/
def execDecodeLzd115 (s : State) : Host.Outcome State Fault Refusal := settle (tokenLoop rowLzd115 s)

/-- Mode 3 `LZD11.5`, encoder (rule R333). DESIGN CHOICE: alone, under every `IDENT.CMODE` and record (log entries 28, 41). -/
def execEncodeLzd115 (s : State) : Host.Outcome State Fault Refusal := .next (emitTokens rowLzd115 s)

/-- Mode 4 `LZX4.12`, decoder (rule R334): with the length escape. DESIGN CHOICE: alone, under every `IDENT.CMODE` and record
(log entries 28, 41). -/
def execDecodeLzx412 (s : State) : Host.Outcome State Fault Refusal := settle (tokenLoop rowLzx412 s)

/-- Mode 4 `LZX4.12`, encoder (rule R335). DESIGN CHOICE: alone, under every `IDENT.CMODE` and record (log entries 28, 41). -/
def execEncodeLzx412 (s : State) : Host.Outcome State Fault Refusal := .next (emitTokens rowLzx412 s)

/-- Mode 5 `LZ5` (rule R336): recognised and unimplemented; "No byte of payload is read and no output is produced". DESIGN
CHOICE: run alone, the row does so on every instance (log entry 34). -/
def execLz5 (s : State) : Host.Outcome State Fault Refusal := .next (takeError .unimplementedTransform s)

/-! ## The meanings of the TOKEN rows: a token whose bits are the operation word (log entry 16)

DESIGN CHOICE: a `LIT` row run alone takes the path its mnemonic names whatever `HW` and `IDENT.HMODE` hold (log entry 36), and a
`MATCH` row the constants of its mode whatever `IDENT.CMODE`, `MODE_TABLE` and `IMPLEMENTED_CMODES` hold (log entries 16,
41). -/

/-- A `MATCH` token of length `len` and displacement `disp` (rule R323). -/
def matchToken (len disp : Nat) (s : State) : Run State Unit :=
  runMatch (s.withTk { s.call.tk with flag := true, len := len, disp := disp })

/-- `LIT` with a raw value (rules R100, R322). DESIGN CHOICE: alone, under every `HW` and `IDENT.HMODE` (log entry 36). -/
def execLitRaw (v : Byte) (s : State) : Host.Outcome State Fault Refusal :=
  .next (appendDst v (setTkFlag false s))

/-- The state after a code was looked up bit by bit: the `HC_*` registers. -/
def State.withHc (s : State) (h : HcRegs) : State := s.withCall { s.call with hc := h }

/-- One Huffman code from a list of bits (rule R219): the symbol and the bits left. -/
def codeFromBits (bits : List Bool) (s : State) : Run State (Byte × List Bool) :=
  match decodeSymbol listBit s.call.ht bits with
  | .ok v x => .ok (v, x.2) (s.withHc x.1)
  | .raised k x => .raised k (s.withHc x.1)

/-- End a coded literal: its bits must be used up (log entry 16). -/
def endLit (v : Byte) (left : List Bool) (s : State) : Run State Unit :=
  if left.isEmpty then .ok () (appendDst v s) else .raised .corruptStream s

/-- `LIT` with one Huffman code (rules R100, R302, R322). DESIGN CHOICE: alone, under every `HW` and `IDENT.HMODE` (log
entry 36). -/
def execLitH8 (h : List Bool) (s : State) : Host.Outcome State Fault Refusal :=
  settle ((codeFromBits h (setTkFlag false s)).andThen fun x s => endLit x.1 x.2 s)

/-- `LIT` with two Huffman codes, the high nibble's first (rules R100, R303, R322). DESIGN CHOICE: alone, under every `HW` and
`IDENT.HMODE` (log entry 36). -/
def execLitH4 (hh : List Bool) (s : State) : Host.Outcome State Fault Refusal :=
  settle ((codeFromBits hh (setTkFlag false s)).andThen fun hi s =>
    (codeFromBits hi.2 s).andThen fun lo s => endLit ((hi.1 <<< 4) ||| lo.1) lo.2 s)

/-- `MATCH` in mode 0 (rule R326): length `3 + l`, displacement `d + 1`. DESIGN CHOICE: alone, in every
mode and under every record (log entries 16, 41). -/
def execMatchLz412 (l : BitVec 4) (d : BitVec 12) (s : State) : Host.Outcome State Fault Refusal :=
  settle (matchToken (assembleLen rowLz412 l.toNat 0) (assembleDisp d.toNat) s)

/-- `MATCH` in mode 1 (rule R328): length `2 + l`, displacement `d + 1`. DESIGN CHOICE: alone, in every
mode and under every record (log entries 16, 41). -/
def execMatchLz38 (l : BitVec 3) (d : BitVec 8) (s : State) : Host.Outcome State Fault Refusal :=
  settle (matchToken (assembleLen rowLz38 l.toNat 0) (assembleDisp d.toNat) s)

/-- `MATCH` in mode 2 (rule R330): length `3 + l`, displacement `d + 1`. DESIGN CHOICE: alone, in every
mode and under every record (log entries 16, 41). -/
def execMatchLz816 (l : BitVec 8) (d : BitVec 16) (s : State) : Host.Outcome State Fault Refusal :=
  settle (matchToken (assembleLen rowLz816 l.toNat 0) (assembleDisp d.toNat) s)

/-- `MATCH` in mode 3 (rule R332): displacement `d + 1`, length `3 + l`. DESIGN CHOICE: alone, in every
mode and under every record (log entries 16, 41). -/
def execMatchLzd115 (d : BitVec 11) (l : BitVec 5) (s : State) : Host.Outcome State Fault Refusal :=
  settle (matchToken (assembleLen rowLzd115 l.toNat 0) (assembleDisp d.toNat) s)

/-- `MATCH` in mode 4, short form (rule R334): length `3 + l` with `l ≠ 1111`, displacement `d + 1`. DESIGN CHOICE: alone, in every
mode and under every record (log entries 16, 41). -/
def execMatchLzx412Short (l : BitVec 4) (d : BitVec 12) (s : State) : Host.Outcome State Fault Refusal :=
  settle (matchToken (assembleLen rowLzx412 l.toNat 0) (assembleDisp d.toNat) s)

/-- `MATCH` in mode 4, escaped form (rule R334): length `18 + e`, displacement `d + 1`. DESIGN CHOICE: alone, in every
mode and under every record (log entries 16, 41). -/
def execMatchLzx412Ext (e : BitVec 8) (d : BitVec 12) (s : State) : Host.Outcome State Fault Refusal :=
  settle (matchToken (assembleLen rowLzx412 rowLzx412.esc e.toNat) (assembleDisp d.toNat) s)

end Sys2Proof.Machine
end

