-- ==== Sys2Proof/Machine/Obfuscation.lean ====
section
/-! DEFINITION. The byte transforms (44_obfuscation.md) and the meanings of the five `obfuscate.m/deobfuscate.m` rows. -/

namespace Sys2Proof.Machine

/-- `obf_1 = deobf_1`, complement (rule R242). -/
def complementBytes (B : List Byte) : List Byte := B.map (· ^^^ 0xFF#8)

/-- Mode 2 from offset `i` on. -/
def xorPosFrom : Nat → List Byte → List Byte
  | _, [] => []
  | i, b :: t => (b ^^^ BitVec.ofNat 8 (i % 256)) :: xorPosFrom (i + 1) t

/-- `obf_2 = deobf_2`, XOR keyed by position (rule R243). -/
def xorPosBytes (B : List Byte) : List Byte := xorPosFrom 0 B

/-- `obf_3 = deobf_3`, swap of adjacent pairs (rule R244). -/
def pairSwapBytes : List Byte → List Byte
  | a :: b :: t => b :: a :: pairSwapBytes t
  | l => l

/-- Mode 4 after a byte whose old value is `prev`. -/
def xorChainFrom : Byte → List Byte → List Byte
  | _, [] => []
  | prev, b :: t => (b ^^^ prev) :: xorChainFrom b t

/-- `obf_4`, XOR chain (rule R245): each byte with the old byte before it. -/
def xorChainBytes : List Byte → List Byte
  | [] => []
  | b :: t => b :: xorChainFrom b t

/-- Inverse of mode 4 after a byte recovered as `prev`. -/
def unXorChainFrom : Byte → List Byte → List Byte
  | _, [] => []
  | prev, c :: t => (c ^^^ prev) :: unXorChainFrom (c ^^^ prev) t

/-- `deobf_4` (rule R245): each byte with the recovered byte before it. -/
def unXorChainBytes : List Byte → List Byte
  | [] => []
  | c :: t => c :: unXorChainFrom c t

/-- The reference `obf_m` (rules R241 to R245). No mode above 4 has a transform (rule R247). -/
def obfReference : Nat → List Byte → List Byte
  | 1 => complementBytes
  | 2 => xorPosBytes
  | 3 => pairSwapBytes
  | 4 => xorChainBytes
  | _ => id

/-- The reference `deobf_m` (rules R241 to R245). -/
def deobfReference : Nat → List Byte → List Byte
  | 1 => complementBytes
  | 2 => xorPosBytes
  | 3 => pairSwapBytes
  | 4 => unXorChainBytes
  | _ => id

/-- A transform given as a function on the sequences of each length. -/
def onLengths (f : (n : Nat) → Vector Byte n → Vector Byte n) (B : List Byte) : List Byte :=
  (f B.length ⟨B.toArray, List.size_toArray⟩).toList

/-- `obf_m` of the instance's `OBF_TABLE` (rule R7); mode 0 is the identity under every table (rule R241). -/
def obfOf (k : Construction) (m : Nat) : List Byte → List Byte :=
  match m, k.obf with
  | 0, _ => id
  | m, .reference => obfReference m
  | m, .custom n => onLengths fun len => Config.customObf n m len

/-- `deobf_m` of the instance's `OBF_TABLE` (rule R7). -/
def deobfOf (k : Construction) (m : Nat) : List Byte → List Byte :=
  match m, k.obf with
  | 0, _ => id
  | m, .reference => deobfReference m
  | m, .custom n => onLengths fun len => (Config.customObf n m len).symm

/-- Rule R8's law of the instance's transform table. Every instance satisfies it (`obfWf_all`): a table that breaks the
law is no value of `ObfSelect`, which is how the model refuses such a record. -/
def Construction.obfWf (k : Construction) : Prop := obfTableWf (obfOf k) (deobfOf k)

/-- A transform over `WORK[0..DSIZE)` in place (rules R240, R71). -/
def mapWork (f : List Byte → List Byte) (s : State) : State :=
  s.withWork (s.work.writeList 0 (f (s.work.slice 0 s.dsize)))

/-- A transform over `DST[0..DSIZE)` in place (rules R240, R71). -/
def mapDst (f : List Byte → List Byte) (s : State) : State :=
  s.withDst (s.dst.writeList 0 (f (s.dst.slice 0 s.dsize))) s.dstLen

/-- One half of a transform row: `obfuscate` over `WORK`, `deobfuscate` over `DST` (rule R240). -/
def runTransform (obf deobf : List Byte → List Byte) (dir : Dir) (s : State) : State :=
  match dir with
  | .obfuscate => mapWork obf s
  | .deobfuscate => mapDst deobf s

/-! ## The meanings -/

/-- Mode 0: "No byte is read or written" (rule R241). DESIGN CHOICE: run alone, the row is the identity whatever `IDENT.OMODE` is
(log entry 30). -/
def execObf0 (_dir : Dir) (s : State) : Host.Outcome State Fault Refusal := .next s

/-- Mode 1, complement (rule R242). DESIGN CHOICE: run alone, the row is this transform whatever
`OBF_TABLE` and `IDENT.OMODE` are (log entry 30). -/
def execObf1 (dir : Dir) (s : State) : Host.Outcome State Fault Refusal :=
  .next (runTransform complementBytes complementBytes dir s)

/-- Mode 2, XOR keyed by position (rule R243). DESIGN CHOICE: run alone, the row is this transform whatever
`OBF_TABLE` and `IDENT.OMODE` are (log entry 30). -/
def execObf2 (dir : Dir) (s : State) : Host.Outcome State Fault Refusal :=
  .next (runTransform xorPosBytes xorPosBytes dir s)

/-- Mode 3, swap of adjacent pairs (rule R244). DESIGN CHOICE: run alone, the row is this transform whatever
`OBF_TABLE` and `IDENT.OMODE` are (log entry 30). -/
def execObf3 (dir : Dir) (s : State) : Host.Outcome State Fault Refusal :=
  .next (runTransform pairSwapBytes pairSwapBytes dir s)

/-- Mode 4, XOR chain (rule R245). DESIGN CHOICE: run alone, the row is this transform whatever
`OBF_TABLE` and `IDENT.OMODE` are (log entry 30). -/
def execObf4 (dir : Dir) (s : State) : Host.Outcome State Fault Refusal :=
  .next (runTransform xorChainBytes unXorChainBytes dir s)

end Sys2Proof.Machine
end

