-- ==== Sys2Proof/Machine/Pipeline.lean ====
section
/-! DEFINITION. The mode dispatcher (45_dispatch.md): the phases of DECODE and ENCODE, and the meanings of their rows, of
the IDENT rows, of HEADER and of `raise`. -/

namespace Sys2Proof.Machine

/-! ## DECODE's phases (rules R263 to R269) -/

/-- The rest of `ValidateMagic` once the first byte `m` is read: the magic, the header's length, size and ident byte
(rules R264, R265). `at_ a` is the byte at offset `a` and `len` how many there are. -/
def validateHeader (m : Byte) (at_ : Nat → Byte) (len : Nat) (s : State) : Run State Unit :=
  if m ≠ s.fmt.magic then .raised .formatMismatch s
  else
    let s := clearDst s
    if len < s.fmt.hdrLen then .raised .corruptStream s
    else
      .ok () { s with
        dsize := leNat ((List.range s.fmt.sizeBytes).map fun i => at_ (1 + i))
        ident := at_ (1 + s.fmt.sizeBytes) }

/-- `ReadHeader`, first part of rule R264: an empty source has no marker. -/
def readFirst (s : State) : Run State Byte :=
  if s.srcLen = 0 then .raised .formatMismatch s else .ok (s.src.read 0) s

/-- `ValidateMagic` over `SRC` (rules R264, R265). -/
def validateMagic (m : Byte) (s : State) : Run State Unit := validateHeader m s.src.read s.srcLen s

/-- `ReadHeader` and then `ValidateMagic`. -/
def readHeader (s : State) : Run State Unit := (readFirst s).andThen validateMagic

/-- The mode checks, alike on both commands but for the kind of a reserved value: all three sub-fields are examined for
reserved values first, then the unimplemented compression mode; then `HW` is set (rules R266, R271, R363). -/
def checkModes (reservedKind : ErrKind) (s : State) : Run State Unit :=
  if reservedModes s.kon s.ident then .raised reservedKind s
  else if cmodeOf s.ident ∉ s.kon.implemented then .raised .unimplementedTransform s
  else .ok () (s.withHw (widthOf (hmodeOf s.ident)))

/-- `DispatchModes` (rule R266). -/
def dispatchModes (s : State) : Run State Unit := checkModes .corruptStream s

/-- `Decode` (rules R267, R268). -/
def decodePayload (s : State) : Run State Unit :=
  if s.dsize = 0 then .ok () s
  else
    let s := openReader s
    (if s.call.hw = .raw then .ok () s else deserialise s).andThen fun _ s => withRow s fun row => tokenLoop row s

/-- `Deobfuscate` (rule R269). Mode 0 reads and writes nothing (rule R241); a mode above 4 has no transform and is an
error, not a silent no-op (rule R247). -/
def deobfuscate (s : State) : Run State Unit :=
  if omodeOf s.ident = 0 then .ok () s
  else if 5 ≤ (omodeOf s.ident).toNat then .raised .corruptStream s
  else .ok () (mapDst (deobfOf s.kon (omodeOf s.ident).toNat) s)

/-- Whether the transform phases run: `IDENT.OMODE ≠ 0` and the data is not empty (rules R263, R270, R24). -/
def hasTransform (s : State) : Bool := decide (omodeOf s.ident ≠ 0) && decide (s.dsize ≠ 0)

/-- The phases of DECODE in order (rule R263). -/
def runDecode (s : State) : Run State Unit :=
  (readFirst (startCommand .readHeader s)).andThen fun m s =>
  (validateMagic m (setPhase .validateMagic s)).andThen fun _ s =>
  (dispatchModes (setPhase .dispatchModes s)).andThen fun _ s =>
  (decodePayload (setPhase .decode s)).andThen fun _ s =>
  if hasTransform s then deobfuscate (setPhase .deobfuscate s) else .ok () s

/-- The end of DECODE (rules R263, R366 to R368): `Done`, or `Failed` with the output unspecified unless the marker did
not match; either way no per-call state outlives the command (rule R41). -/
def endDecode (r : Run State Unit) : State :=
  match r with
  | .ok _ s => freeCall (endDone s)
  | .raised k s => if k = .formatMismatch then freeCall (takeError k s) else freeCall (freeDst (takeError k s))

/-! ## ENCODE's phases (rules R270 to R277) -/

/-- `CheckConfig` (rule R271). -/
def checkConfig (s : State) : Run State Unit :=
  if s.cfgValid then checkModes .unsupportedMode (s.withIdent s.cfgIdent)
  else .raised .notConfiguredForCompression s

/-- `Materialize` (rule R273). DESIGN CHOICE: the bytes of `WORK` at and beyond `SRC_LEN` are a fresh draw of free bytes (log
entry 31). -/
def materialize (s : State) : State :=
  let s := clearDst s
  let s := { s with dsize := s.srcLen, work := ⟨s.draws, []⟩, draws := s.draws + 1 }
  let s := s.withWork (s.work.writeList 0 (s.src.slice 0 s.srcLen))
  s.withCall { s.call with mcount := 0 }

/-- `Obfuscate` over `WORK[0..DSIZE)` (rules R240, R270). -/
def obfuscateWork (s : State) : State := mapWork (obfOf s.kon (omodeOf s.ident).toNat) s

/-- `BuildTree` (rule R274), which runs only when `HW ≠ 0` (rules R24, R270). DESIGN CHOICE: run alone with `DSIZE = 0` and
`HW ≠ 0` it runs too, and leaves the tables of no symbol (log entry 38). -/
def buildTree (s : State) : State :=
  if s.call.hw = .raw then s else assignCodes (fillTables (canonicalise (limitDepth (tally s))))

/-- The header bytes (rules R90 to R93, R275). DESIGN CHOICE: of a `DSIZE` above `MAX_INPUT`, which only phases run alone can
leave, the low `SIZE_BYTES` bytes are written (log entry 32). -/
def headerBytes (s : State) : List Byte := s.fmt.magic :: leBytes s.fmt.sizeBytes s.dsize ++ [s.ident]

/-- `WriteHeader` (rule R275). -/
def writeHeader (s : State) : State :=
  let s := s.withDst (s.dst.writeList 0 (headerBytes s)) s.fmt.hdrLen
  if s.dsize = 0 then s
  else
    let s := openWriter s
    if s.call.hw = .raw then s else writeTreeTable s

/-- `Emit` (rule R276): the token emitter; the `flush` after it is the end of ENCODE (rule R277). -/
def emit (s : State) : Run State Unit := withRow s fun row => .ok () (emitTokens row s)

/-- The phases of ENCODE from `FindMatches` on (rule R270), for an input that is not empty. -/
def encodePhases (s : State) : Run State Unit :=
  let s := if hasTransform s then obfuscateWork (setPhase .obfuscate s) else s
  (findMatches (setPhase .findMatches s)).andThen fun _ s =>
  (parseCostToEnd (setPhase .parse s)).andThen fun _ s =>
  let s := parseWalk s
  let s := if s.call.hw = .raw then s else buildTree (setPhase .buildTree s)
  let s := writeHeader (setPhase .writeHeader s)
  (emit (setPhase .emit s)).andThen fun _ s => .ok () (flush s)

/-- The phases of ENCODE in order (rule R270). -/
def runEncode (s : State) : Run State Unit :=
  (checkConfig (startCommand .checkConfig s)).andThen fun _ s =>
  let s := materialize (setPhase .materialize s)
  if s.dsize = 0 then .ok () (writeHeader (setPhase .writeHeader s)) else encodePhases s

/-- The end of ENCODE: every ENCODE error leaves the output untouched (rules R367, R368). -/
def endEncode (r : Run State Unit) : State :=
  match r with
  | .ok _ s => freeCall (endDone s)
  | .raised k s => freeCall (takeError k s)

/-! ## The meanings of the phase rows -/

/-- `ReadHeader` and `ValidateMagic` (rules R264, R265). -/
def execReadHeaderValidateMagic (s : State) : Host.Outcome State Fault Refusal := settle (readHeader s)

/-- `DispatchModes` (rule R266). -/
def execDispatchModes (s : State) : Host.Outcome State Fault Refusal := settle (dispatchModes s)

/-- `Deobfuscate` (rule R269). -/
def execDeobfuscate (s : State) : Host.Outcome State Fault Refusal := settle (deobfuscate s)

/-- `CheckConfig` (rule R271). -/
def execCheckConfig (s : State) : Host.Outcome State Fault Refusal := settle (checkConfig s)

/-- `Materialize` (rule R273). DESIGN CHOICE: run alone with `SRC_LEN > MAX_INPUT` it completes, and `DSIZE` is the whole
`SRC_LEN` (log entry 32). -/
def execMaterialize (s : State) : Host.Outcome State Fault Refusal := .next (materialize s)

/-- `BuildTree` (rule R274). DESIGN CHOICE: run alone with `DSIZE = 0` it leaves the tables of no symbol (log entry 38). -/
def execBuildTree (s : State) : Host.Outcome State Fault Refusal := .next (buildTree s)

/-- `WriteHeader` (rule R275). -/
def execWriteHeader (s : State) : Host.Outcome State Fault Refusal := .next (writeHeader s)

/-- `Emit` (rule R276). DESIGN CHOICE: run alone, the row is the token emitter only and does not flush (log entry 40). -/
def execEmit (s : State) : Host.Outcome State Fault Refusal := settle (emit s)

/-- `raise K` (rule R366). DESIGN CHOICE: run alone it leaves the output as it is (log entry 44). -/
def execRaise (k : ErrKind) (s : State) : Host.Outcome State Fault Refusal := .next (takeError k s)

/-- HEADER: a container's header given as one word (rules R90, R264, R265; log entry 17). -/
def execHeader (magic : Byte) (size : List Byte) (ident : Byte) (s : State) : Host.Outcome State Fault Refusal :=
  let bytes := magic :: size ++ [ident]
  settle (validateHeader magic (fun a => bytes.getD a 0) bytes.length s)

/-! ## The meanings of the IDENT rows (rules R93 to R95, R266, R271, R363; log entry 15) -/

/-- The kind a reserved sub-field value gets: `UnsupportedMode` on ENCODE, `CorruptStream` on DECODE (rule R363). -/
def reservedKind (s : State) : ErrKind := if s.phase.ofEncode then .unsupportedMode else .corruptStream

/-- The ident byte's `CMODE` is `c`: the sub-field is latched, then checked, which selects the decoder and encoder. -/
def selectCmode (c : BitVec 3) (s : State) : Run State Unit :=
  let s := s.withIdent (identByte (omodeOf s.ident) (hmodeOf s.ident) c)
  if c ∉ s.kon.recognized then .raised (reservedKind s) s
  else if c ∉ s.kon.implemented then .raised .unimplementedTransform s
  else .ok () s

/-- The ident byte's `HMODE` is `h`: the sub-field is latched, then checked, and `HW` is set. -/
def selectHmode (h : BitVec 2) (s : State) : Run State Unit :=
  let s := s.withIdent (identByte (omodeOf s.ident) h (cmodeOf s.ident))
  if h = 3 then .raised (reservedKind s) s else .ok () (s.withHw (widthOf h))

/-- The ident byte's `OMODE` is `o`: the sub-field is latched, then checked, which selects the transform. -/
def selectOmode (o : BitVec 3) (s : State) : Run State Unit :=
  let s := s.withIdent (identByte o (hmodeOf s.ident) (cmodeOf s.ident))
  if 5 ≤ o.toNat then .raised (reservedKind s) s else .ok () s

/-- `CMODE = 0`, `LZ4.12` (rule R326). -/
def execCmodeLz412 (s : State) : Host.Outcome State Fault Refusal := settle (selectCmode 0 s)

/-- `CMODE = 1`, `LZ3.8` (rule R328). -/
def execCmodeLz38 (s : State) : Host.Outcome State Fault Refusal := settle (selectCmode 1 s)

/-- `CMODE = 2`, `LZ8.16` (rule R330). -/
def execCmodeLz816 (s : State) : Host.Outcome State Fault Refusal := settle (selectCmode 2 s)

/-- `CMODE = 3`, `LZD11.5` (rule R332). -/
def execCmodeLzd115 (s : State) : Host.Outcome State Fault Refusal := settle (selectCmode 3 s)

/-- `CMODE = 4`, `LZX4.12` (rule R334). -/
def execCmodeLzx412 (s : State) : Host.Outcome State Fault Refusal := settle (selectCmode 4 s)

/-- `CMODE = 5`, `LZ5`, recognised and unimplemented (rules R336, R363). -/
def execCmodeLz5 (s : State) : Host.Outcome State Fault Refusal := settle (selectCmode 5 s)

/-- `CMODE = 6`, reserved (rule R363). -/
def execCmode6 (s : State) : Host.Outcome State Fault Refusal := settle (selectCmode 6 s)

/-- `CMODE = 7`, reserved (rule R363). -/
def execCmode7 (s : State) : Host.Outcome State Fault Refusal := settle (selectCmode 7 s)

/-- `HMODE = 0`, none (rule R301). -/
def execHmodeNone (s : State) : Host.Outcome State Fault Refusal := settle (selectHmode 0 s)

/-- `HMODE = 1`, 4-bit coded (rule R303). -/
def execHmodeH4 (s : State) : Host.Outcome State Fault Refusal := settle (selectHmode 1 s)

/-- `HMODE = 2`, 8-bit coded (rule R302). -/
def execHmodeH8 (s : State) : Host.Outcome State Fault Refusal := settle (selectHmode 2 s)

/-- `HMODE = 3`, reserved (rule R307). -/
def execHmode3 (s : State) : Host.Outcome State Fault Refusal := settle (selectHmode 3 s)

/-- `OMODE = 0`, none (rule R241). -/
def execOmodeNone (s : State) : Host.Outcome State Fault Refusal := settle (selectOmode 0 s)

/-- `OMODE = 1`, complement (rule R242). -/
def execOmodeComplement (s : State) : Host.Outcome State Fault Refusal := settle (selectOmode 1 s)

/-- `OMODE = 2`, XOR keyed by position (rule R243). -/
def execOmodeXorpos (s : State) : Host.Outcome State Fault Refusal := settle (selectOmode 2 s)

/-- `OMODE = 3`, swap of adjacent pairs (rule R244). -/
def execOmodePairswap (s : State) : Host.Outcome State Fault Refusal := settle (selectOmode 3 s)

/-- `OMODE = 4`, XOR chain (rule R245). -/
def execOmodeXorchain (s : State) : Host.Outcome State Fault Refusal := settle (selectOmode 4 s)

/-- `OMODE = 5`, reserved (rule R247). -/
def execOmode5 (s : State) : Host.Outcome State Fault Refusal := settle (selectOmode 5 s)

/-- `OMODE = 6`, reserved (rule R247). -/
def execOmode6 (s : State) : Host.Outcome State Fault Refusal := settle (selectOmode 6 s)

/-- `OMODE = 7`, reserved (rule R247). -/
def execOmode7 (s : State) : Host.Outcome State Fault Refusal := settle (selectOmode 7 s)

end Sys2Proof.Machine
end

