-- ==== Sys2Proof/Machine/Command.lean ====
section
/-! DEFINITION. The host commands (rules R260, R261, R263, R270, R278). A command is one atomic step for the host (rule
R24; log entry 2). -/

namespace Sys2Proof.Machine

/-- A host move, which the host has only while the engine is not busy (rules R23, R43). -/
def hostMove (s : State) (r : Host.Outcome State Fault Refusal) : Host.Outcome State Fault Refusal :=
  if s.busy then .refused .hostBusy else r

/-- The state RESET leaves (rules R42, R260): the reset state, with the construction constants kept. The model's own
fields are kept too, and the contents of the memories are a fresh draw of free bytes (log entry 12). -/
def resetInstance (s : State) : State :=
  { State.reset with
    fmt := s.fmt
    kon := s.kon
    src := ⟨s.draws, []⟩
    dst := ⟨s.draws + 1, []⟩
    work := ⟨s.draws + 2, []⟩
    inbox := s.inbox
    ret := s.ret
    bus := s.bus
    draws := s.draws + 3 }

/-- NOP: "No effect on any state; `STATUS` keeps its value" (rule R278). -/
def execNop (s : State) : Host.Outcome State Fault Refusal := hostMove s (.next s)

/-- DECODE (rule R263). -/
def execDecode (s : State) : Host.Outcome State Fault Refusal := hostMove s (.next (endDecode (runDecode s)))

/-- ENCODE (rule R270); with `SRC_LEN > MAX_INPUT` it is not a move the host has (rule R272). -/
def execEncode (s : State) : Host.Outcome State Fault Refusal :=
  hostMove s (if s.fmt.maxInput < s.srcLen then .refused .inputTooLong else .next (endEncode (runEncode s)))

/-- RESET (rule R260). -/
def execReset (s : State) : Host.Outcome State Fault Refusal := hostMove s (.next (resetInstance s))

/-- `CFG <- value`, a move the host has only while `CFG.VALID = 0` (rules R43, R261). -/
def writeCfg (v : BitVec 9) (s : State) : Host.Outcome State Fault Refusal :=
  hostMove s (if s.cfgValid then .refused .alreadyConfigured else .next { s with cfg := v })

/-- CONFIGURE (rule R261): `CFG <- (1 << 8) or (o << 5) or (h << 3) or c`. -/
def execConfigure (o : BitVec 3) (h : BitVec 2) (c : BitVec 3) (s : State) : Host.Outcome State Fault Refusal :=
  writeCfg (1#1 ++ identByte o h c) s

end Sys2Proof.Machine
end

