-- ==== Sys2Proof/Machine/Dispatch.lean ====
section
/-! DEFINITION. One arm per instruction: its meaning. -/

namespace Sys2Proof.Machine

/-- What an instruction does to a state. -/
def exec (i : Instr) (s : State) : Host.Outcome State Fault Refusal :=
  match i with
  | .cmodeLz412 => Sys2Proof.Machine.execCmodeLz412 s
  | .cmodeLz38 => Sys2Proof.Machine.execCmodeLz38 s
  | .cmodeLz816 => Sys2Proof.Machine.execCmodeLz816 s
  | .cmodeLzd115 => Sys2Proof.Machine.execCmodeLzd115 s
  | .cmodeLzx412 => Sys2Proof.Machine.execCmodeLzx412 s
  | .cmodeLz5 => Sys2Proof.Machine.execCmodeLz5 s
  | .cmode6 => Sys2Proof.Machine.execCmode6 s
  | .cmode7 => Sys2Proof.Machine.execCmode7 s
  | .hmodeNone => Sys2Proof.Machine.execHmodeNone s
  | .hmodeH4 => Sys2Proof.Machine.execHmodeH4 s
  | .hmodeH8 => Sys2Proof.Machine.execHmodeH8 s
  | .hmode3 => Sys2Proof.Machine.execHmode3 s
  | .omodeNone => Sys2Proof.Machine.execOmodeNone s
  | .omodeComplement => Sys2Proof.Machine.execOmodeComplement s
  | .omodeXorpos => Sys2Proof.Machine.execOmodeXorpos s
  | .omodePairswap => Sys2Proof.Machine.execOmodePairswap s
  | .omodeXorchain => Sys2Proof.Machine.execOmodeXorchain s
  | .omode5 => Sys2Proof.Machine.execOmode5 s
  | .omode6 => Sys2Proof.Machine.execOmode6 s
  | .omode7 => Sys2Proof.Machine.execOmode7 s
  | .litRaw v => Sys2Proof.Machine.execLitRaw v s
  | .litH8 h => Sys2Proof.Machine.execLitH8 h s
  | .litH4 hh => Sys2Proof.Machine.execLitH4 hh s
  | .matchLz412 l d => Sys2Proof.Machine.execMatchLz412 l d s
  | .matchLz38 l d => Sys2Proof.Machine.execMatchLz38 l d s
  | .matchLz816 l d => Sys2Proof.Machine.execMatchLz816 l d s
  | .matchLzd115 d l => Sys2Proof.Machine.execMatchLzd115 d l s
  | .matchLzx412Short l d => Sys2Proof.Machine.execMatchLzx412Short l d s
  | .matchLzx412Ext e d => Sys2Proof.Machine.execMatchLzx412Ext e d s
  | .header magic size ident => Sys2Proof.Machine.execHeader magic size ident s
  | .treetable w levels => Sys2Proof.Machine.execTreetable w levels s
  | .nop => Sys2Proof.Machine.execNop s
  | .decode => Sys2Proof.Machine.execDecode s
  | .encode => Sys2Proof.Machine.execEncode s
  | .reset => Sys2Proof.Machine.execReset s
  | .configure o h c => Sys2Proof.Machine.execConfigure o h c s
  | .openWriter => Sys2Proof.Machine.execOpenWriter s
  | .writeBits value bitCount => Sys2Proof.Machine.execWriteBits value bitCount s
  | .writeByte value => Sys2Proof.Machine.execWriteByte value s
  | .flush => Sys2Proof.Machine.execFlush s
  | .openReader => Sys2Proof.Machine.execOpenReader s
  | .readBits bitCount => Sys2Proof.Machine.execReadBits bitCount s
  | .readByte => Sys2Proof.Machine.execReadByte s
  | .findMatches => Sys2Proof.Machine.execFindMatches s
  | .parseCostToEnd => Sys2Proof.Machine.execParseCostToEnd s
  | .parseWalk => Sys2Proof.Machine.execParseWalk s
  | .tally => Sys2Proof.Machine.execTally s
  | .makeLeaves f => Sys2Proof.Machine.execMakeLeaves f s
  | .merge => Sys2Proof.Machine.execMerge s
  | .limitDepth => Sys2Proof.Machine.execLimitDepth s
  | .canonicalise => Sys2Proof.Machine.execCanonicalise s
  | .serialise => Sys2Proof.Machine.execSerialise s
  | .assignCodes => Sys2Proof.Machine.execAssignCodes s
  | .writeSymbol sym => Sys2Proof.Machine.execWriteSymbol sym s
  | .deserialise => Sys2Proof.Machine.execDeserialise s
  | .readSymbol => Sys2Proof.Machine.execReadSymbol s
  | .obf0 dir => Sys2Proof.Machine.execObf0 dir s
  | .obf1 dir => Sys2Proof.Machine.execObf1 dir s
  | .obf2 dir => Sys2Proof.Machine.execObf2 dir s
  | .obf3 dir => Sys2Proof.Machine.execObf3 dir s
  | .obf4 dir => Sys2Proof.Machine.execObf4 dir s
  | .valueRaw op => Sys2Proof.Machine.execValueRaw op s
  | .valueH8 op => Sys2Proof.Machine.execValueH8 op s
  | .valueH4 op => Sys2Proof.Machine.execValueH4 op s
  | .tokenLoop => Sys2Proof.Machine.execTokenLoop s
  | .decodeLit => Sys2Proof.Machine.execDecodeLit s
  | .decodeMatch => Sys2Proof.Machine.execDecodeMatch s
  | .emitTokens => Sys2Proof.Machine.execEmitTokens s
  | .decodeLz412 => Sys2Proof.Machine.execDecodeLz412 s
  | .encodeLz412 => Sys2Proof.Machine.execEncodeLz412 s
  | .decodeLz38 => Sys2Proof.Machine.execDecodeLz38 s
  | .encodeLz38 => Sys2Proof.Machine.execEncodeLz38 s
  | .decodeLz816 => Sys2Proof.Machine.execDecodeLz816 s
  | .encodeLz816 => Sys2Proof.Machine.execEncodeLz816 s
  | .decodeLzd115 => Sys2Proof.Machine.execDecodeLzd115 s
  | .encodeLzd115 => Sys2Proof.Machine.execEncodeLzd115 s
  | .decodeLzx412 => Sys2Proof.Machine.execDecodeLzx412 s
  | .encodeLzx412 => Sys2Proof.Machine.execEncodeLzx412 s
  | .lz5 => Sys2Proof.Machine.execLz5 s
  | .readHeaderValidateMagic => Sys2Proof.Machine.execReadHeaderValidateMagic s
  | .dispatchModes => Sys2Proof.Machine.execDispatchModes s
  | .deobfuscate => Sys2Proof.Machine.execDeobfuscate s
  | .checkConfig => Sys2Proof.Machine.execCheckConfig s
  | .materialize => Sys2Proof.Machine.execMaterialize s
  | .buildTree => Sys2Proof.Machine.execBuildTree s
  | .writeHeader => Sys2Proof.Machine.execWriteHeader s
  | .emit => Sys2Proof.Machine.execEmit s
  | .raise k => Sys2Proof.Machine.execRaise k s

end Sys2Proof.Machine
end

