-- ==== Sys2Proof/WellFormed.lean ====
section
/-! DEFINITION. When an instruction's operands are in the ranges the spec gives them. -/

namespace Sys2Proof

open Sys2Proof.Machine

/-- The levels of a tree table from level `d` with `slots` free places: each count is one the count byte can say (rules
R96, R211), and each symbol has `W` bits. DESIGN CHOICE: after an over-subscribed level no place is free (log entry 17). -/
def treeLevelsWf (w : SymWidth) : Nat → Nat → List (List Byte) → Bool
  | _, _, [] => true
  | d, slots, l :: rest =>
    decide (levelCount w d slots (l.length % 256) = l.length) &&
      l.all (fun s => decide (s.toNat < 2 ^ symBits w)) &&
      treeLevelsWf w (d + 1) (2 * (slots - l.length)) rest

/-- Operand ranges: codes of 1 to 16 bits (rule R107), the unescaped length field of mode 4 (rule R334), a size field of
3 or 4 bytes (rule R8), sixteen levels (rule R96), `bitCount` 0 to 32 (rules R131, R136); and values the operation port
has room for (64 bits, log entry 1). -/
def Instr.wf : Instr → Bool
  | .litH8 h => decide (1 ≤ h.length) && decide (h.length ≤ 16)
  | .litH4 hh => decide (2 ≤ hh.length) && decide (hh.length ≤ 32)
  | .matchLzx412Short l _ => decide (l ≠ 15#4)
  | .header _ size _ => decide (size.length = 3) || decide (size.length = 4)
  | .treetable w levels => decide (w ≠ .raw) && decide (levels.length = 16) && treeLevelsWf w 1 2 levels
  | .writeBits value n => decide (value < 2 ^ 64) && decide (n ≤ 32)
  | .writeByte value => decide (value < 2 ^ 64)
  | .readBits n => decide (n ≤ 32)
  | _ => true

end Sys2Proof
end

