-- ==== Sys2Proof/Decode.lean ====
section
/-! DEFINITION. The decoder, total on operation words and refusing by name, and the encoder, both written from the
encoding tables of 30_encoding.md (rules R90 to R113). The ident byte's three sub-fields are matched by their own masks
(rule R113); tokens are read in stream order, each field most significant bit first as the table's patterns have it
(rules R100, R102). TREETABLE is a field list and has no pattern. DESIGN CHOICE: the fields of its word stand most
significant bit first too, whatever BITORDER is (log entry 17). The numbers of the unit operations, which the spec gives no
binary encoding, are the model's own (log entry 1). -/

namespace Sys2Proof

open Sys2Proof.Machine

/-! ## Reading fields -/

/-- Take a field of `n` bits. -/
def need {α : Type} (n : Nat) (bits : List Bool) (f : List Bool → List Bool → Except Reject α) : Except Reject α :=
  if bits.length < n then .error .tooShort else f (bits.take n) (bits.drop n)

/-- Take one bit. -/
def needBit {α : Type} (bits : List Bool) (f : Bool → List Bool → Except Reject α) : Except Reject α :=
  match bits with
  | [] => .error .tooShort
  | b :: rest => f b rest

/-- An instruction whose last field has been read. -/
def finish (rest : List Bool) (i : Instr) : Except Reject Instr :=
  match rest with
  | [] => .ok i
  | _ :: _ => .error .tooLong

/-- The bit-vector value of a field whose bits come most significant first. -/
def fieldMsb (w : Nat) (bits : List Bool) : BitVec w := BitVec.ofNat w (natMsb bits)

/-! ## Formats CMD and IDENT -/

/-- The command a value of `CMD` starts; only bits [1:0] are decoded (rule R110). -/
def commandOf (v : Nat) : Instr :=
  match v with
  | 0 => .nop
  | 1 => .decode
  | 2 => .encode
  | _ => .reset

/-- CONFIGURE from the nine bits written to `CFG` (rule R261). -/
def decodeCfg (v : BitVec 9) : Except Reject Instr :=
  if v.getLsbD 8 then .ok (.configure (v.extractLsb' 5 3) (v.extractLsb' 3 2) (v.extractLsb' 0 3)) else .error .cfgNotValid

/-- The row of an ident byte under the mask `0x07` (rule R94). -/
def cmodeRow (c : BitVec 3) : Instr :=
  match c.toNat with
  | 0 => .cmodeLz412
  | 1 => .cmodeLz38
  | 2 => .cmodeLz816
  | 3 => .cmodeLzd115
  | 4 => .cmodeLzx412
  | 5 => .cmodeLz5
  | 6 => .cmode6
  | _ => .cmode7

/-- The row of an ident byte under the mask `0x18` (rule R95). -/
def hmodeRow (h : BitVec 2) : Instr :=
  match h.toNat with
  | 0 => .hmodeNone
  | 1 => .hmodeH4
  | 2 => .hmodeH8
  | _ => .hmode3

/-- The row of an ident byte under the mask `0xE0` (rule R95). -/
def omodeRow (o : BitVec 3) : Instr :=
  match o.toNat with
  | 0 => .omodeNone
  | 1 => .omodeComplement
  | 2 => .omodeXorpos
  | 3 => .omodePairswap
  | 4 => .omodeXorchain
  | 5 => .omode5
  | 6 => .omode6
  | _ => .omode7

/-! ## Format TOKEN (rules R99 to R104) -/

/-- A literal, after its flag, in huffman mode `h` (rule R100). -/
def decodeLitBits (h : BitVec 2) (rest : List Bool) : Except Reject Instr :=
  match h.toNat with
  | 0 => need 8 rest fun v rest => finish rest (.litRaw (fieldMsb 8 v))
  | 1 => if rest.isEmpty then .error .tooShort else .ok (.litH4 rest)
  | 2 => if rest.isEmpty then .error .tooShort else .ok (.litH8 rest)
  | _ => .error .noTokenFormat

/-- A match, after its flag, in compression mode `c` (rule R102). -/
def decodeMatchBits (c : BitVec 3) (rest : List Bool) : Except Reject Instr :=
  match c.toNat with
  | 0 => need 4 rest fun l rest => need 12 rest fun d rest => finish rest (.matchLz412 (fieldMsb 4 l) (fieldMsb 12 d))
  | 1 => need 3 rest fun l rest => need 8 rest fun d rest => finish rest (.matchLz38 (fieldMsb 3 l) (fieldMsb 8 d))
  | 2 => need 8 rest fun l rest => need 16 rest fun d rest => finish rest (.matchLz816 (fieldMsb 8 l) (fieldMsb 16 d))
  | 3 => need 11 rest fun d rest => need 5 rest fun l rest => finish rest (.matchLzd115 (fieldMsb 11 d) (fieldMsb 5 l))
  | 4 =>
    need 4 rest fun l rest =>
      if l.all id then
        need 8 rest fun e rest => need 12 rest fun d rest => finish rest (.matchLzx412Ext (fieldMsb 8 e) (fieldMsb 12 d))
      else need 12 rest fun d rest => finish rest (.matchLzx412Short (fieldMsb 4 l) (fieldMsb 12 d))
  | _ => .error .noTokenFormat

/-- A token in the modes `c`, `h`: flag 0 is a literal, flag 1 a match (rule R99). -/
def decodeTokenBits (c : BitVec 3) (h : BitVec 2) (bits : List Bool) : Except Reject Instr :=
  needBit bits fun flag rest => if flag then decodeMatchBits c rest else decodeLitBits h rest

/-! ## Formats HEADER and TREETABLE (rules R90, R96) -/

/-- The five or six bytes of a header: magic, size, ident byte. -/
def decodeHeaderBytes : List Byte → Except Reject Instr
  | [m, s0, s1, s2, i] => .ok (.header m [s0, s1, s2] i)
  | [m, s0, s1, s2, s3, i] => .ok (.header m [s0, s1, s2, s3] i)
  | _ => .error .tooShort

/-- A header from its bits. -/
def decodeHeader (bits : List Bool) : Except Reject Instr :=
  if 48 < bits.length then .error .tooLong else decodeHeaderBytes (bytesOfBits bits)

/-- `k` symbols of `W` bits. DESIGN CHOICE: most significant bit first, also where BITORDER = LSB (log entry 17). -/
def decodeSyms (w : SymWidth) : Nat → List Bool → Except Reject (List Byte × List Bool)
  | 0, bits => .ok ([], bits)
  | k + 1, bits =>
    need (symBits w) bits fun v rest =>
      match decodeSyms w k rest with
      | .ok (syms, rest) => .ok (BitVec.ofNat 8 (natMsb v) :: syms, rest)
      | .error r => .error r

/-- `n` levels of a tree table from level `d`, with `slots` places there (rules R96, R211). DESIGN CHOICE: a count byte stands
most significant bit first in the word, also where BITORDER = LSB; and a level that lists more symbols than it has places,
where rules R216 and R217 stop a reader, is read on, its free places 0, and so are the levels after it (log entry 17). -/
def decodeLevels (w : SymWidth) : Nat → Nat → Nat → List Bool → Except Reject (List (List Byte) × List Bool)
  | 0, _, _, bits => .ok ([], bits)
  | n + 1, d, slots, bits =>
    need 8 bits fun cb rest =>
      match decodeSyms w (levelCount w d slots (natMsb cb)) rest with
      | .ok (syms, rest) =>
        match decodeLevels w n (d + 1) (2 * (slots - syms.length)) rest with
        | .ok (levels, rest) => .ok (syms :: levels, rest)
        | .error r => .error r
      | .error r => .error r

/-- A tree table from its bits. DESIGN CHOICE: all sixteen levels must be there, also after an over-subscribed one: a word that
ends before is refused as too short, and one that has them is `CorruptStream` when it runs (log entry 17). -/
def decodeTreetable (w : SymWidth) (bits : List Bool) : Except Reject Instr :=
  if w = .raw then .error .noSymbolWidth
  else
    match decodeLevels w 16 1 2 bits with
    | .ok (levels, rest) => finish rest (.treetable w levels)
    | .error r => .error r

/-! ## Format UNITOP (log entry 1) -/

/-- The half of a transform row a bit selects. -/
def dirOf (b : Bool) : Dir := if b then .deobfuscate else .obfuscate

/-- The half of a value codec row: a 0 bit reads; a 1 bit, and eight bits of value, write. -/
def decodeValueOp (bits : List Bool) (f : ValueOp → Instr) : Except Reject Instr :=
  needBit bits fun b rest =>
    if b then need 8 rest fun v rest => finish rest (f (.write (BitVec.ofNat 8 (natLsb v)))) else finish rest (f .read)

/-- The kind of a `raise`, by its code (rule R361). -/
def decodeKind (v : Nat) (rest : List Bool) : Except Reject Instr :=
  match v with
  | 1 => finish rest (.raise .formatMismatch)
  | 2 => finish rest (.raise .corruptStream)
  | 3 => finish rest (.raise .unsupportedMode)
  | 4 => finish rest (.raise .notConfiguredForCompression)
  | 5 => finish rest (.raise .unimplementedTransform)
  | _ => .error .noUnitOp

/-- A unit operation by its number, with the bits of its operands. -/
def decodeUnitop (n : Nat) (bits : List Bool) : Except Reject Instr :=
  match n with
  | 0 => finish bits .openWriter
  | 1 => need 64 bits fun v rest => need 6 rest fun n rest => finish rest (.writeBits (natLsb v) (natLsb n))
  | 2 => need 64 bits fun v rest => finish rest (.writeByte (natLsb v))
  | 3 => finish bits .flush
  | 4 => finish bits .openReader
  | 5 => need 6 bits fun n rest => finish rest (.readBits (natLsb n))
  | 6 => finish bits .readByte
  | 7 => finish bits .findMatches
  | 8 => finish bits .parseCostToEnd
  | 9 => finish bits .parseWalk
  | 10 => finish bits .tally
  | 11 => needBit bits fun b rest => finish rest (.makeLeaves (if b then .scaled else .freq))
  | 12 => finish bits .merge
  | 13 => finish bits .limitDepth
  | 14 => finish bits .canonicalise
  | 15 => finish bits .serialise
  | 16 => finish bits .assignCodes
  | 17 => need 8 bits fun v rest => finish rest (.writeSymbol (BitVec.ofNat 8 (natLsb v)))
  | 18 => finish bits .deserialise
  | 19 => finish bits .readSymbol
  | 20 => needBit bits fun b rest => finish rest (.obf0 (dirOf b))
  | 21 => needBit bits fun b rest => finish rest (.obf1 (dirOf b))
  | 22 => needBit bits fun b rest => finish rest (.obf2 (dirOf b))
  | 23 => needBit bits fun b rest => finish rest (.obf3 (dirOf b))
  | 24 => needBit bits fun b rest => finish rest (.obf4 (dirOf b))
  | 25 => decodeValueOp bits .valueRaw
  | 26 => decodeValueOp bits .valueH8
  | 27 => decodeValueOp bits .valueH4
  | 28 => finish bits .tokenLoop
  | 29 => finish bits .decodeLit
  | 30 => finish bits .decodeMatch
  | 31 => finish bits .emitTokens
  | 32 => finish bits .decodeLz412
  | 33 => finish bits .encodeLz412
  | 34 => finish bits .decodeLz38
  | 35 => finish bits .encodeLz38
  | 36 => finish bits .decodeLz816
  | 37 => finish bits .encodeLz816
  | 38 => finish bits .decodeLzd115
  | 39 => finish bits .encodeLzd115
  | 40 => finish bits .decodeLzx412
  | 41 => finish bits .encodeLzx412
  | 42 => finish bits .lz5
  | 43 => finish bits .readHeaderValidateMagic
  | 44 => finish bits .dispatchModes
  | 45 => finish bits .deobfuscate
  | 46 => finish bits .checkConfig
  | 47 => finish bits .materialize
  | 48 => finish bits .buildTree
  | 49 => finish bits .writeHeader
  | 50 => finish bits .emit
  | 51 => need 3 bits fun v rest => decodeKind (natLsb v) rest
  | _ => .error .noUnitOp

/-! ## The decoder -/

/-- The instruction an operation word stands for. -/
def decode (img : Image) : Except Reject Instr :=
  match img.fmt with
  | .cmd => need 2 img.bits fun v _ => .ok (commandOf (natLsb v))
  | .cfg => need 9 img.bits fun v _ => decodeCfg (BitVec.ofNat 9 (natLsb v))
  | .cmode => need 8 img.bits fun v rest => finish rest (cmodeRow (cmodeOf (BitVec.ofNat 8 (natLsb v))))
  | .hmode => need 8 img.bits fun v rest => finish rest (hmodeRow (hmodeOf (BitVec.ofNat 8 (natLsb v))))
  | .omode => need 8 img.bits fun v rest => finish rest (omodeRow (omodeOf (BitVec.ofNat 8 (natLsb v))))
  | .token c h => decodeTokenBits c h img.bits
  | .header => decodeHeader img.bits
  | .treetable w => decodeTreetable w img.bits
  | .unitop => need 8 img.bits fun n rest => decodeUnitop (natLsb n) rest

/-! ## The encoder -/

/-- A word of `CMD`. -/
def cmdWord (v : Nat) : Image := ⟨.cmd, bitsLsb 8 v⟩

/-- A unit operation's word. -/
def unitop (n : Nat) (operands : List Bool) : Image := ⟨.unitop, bitsLsb 8 n ++ operands⟩

/-- A literal token's word, in huffman mode `h`. -/
def litWord (h : BitVec 2) (bits : List Bool) : Image := ⟨.token 0 h, false :: bits⟩

/-- A match token's word, in compression mode `c`. -/
def matchWord (c : BitVec 3) (bits : List Bool) : Image := ⟨.token c 0, true :: bits⟩

/-- The operand bits of a value codec row. -/
def encodeValueOp : ValueOp → List Bool
  | .read => [false]
  | .write v => true :: bitsLsb 8 v.toNat

/-- The code of an error kind (rule R361). -/
def kindCode (k : ErrKind) : Nat := (errCode (some k)).toNat

/-- The bits of one level of a tree table: its count modulo 256, then its symbols (rules R96, R211), each most significant bit
first (DESIGN CHOICE, log entry 17). -/
def encodeLevel (w : SymWidth) (l : List Byte) : List Bool :=
  bitsMsb 8 (l.length % 256) ++ l.flatMap fun s => bitsMsb (symBits w) s.toNat

/-- The word of an instruction. -/
def encode : Instr → Image
  | .cmodeLz412 => ⟨.cmode, bitsLsb 8 0⟩
  | .cmodeLz38 => ⟨.cmode, bitsLsb 8 0x1⟩
  | .cmodeLz816 => ⟨.cmode, bitsLsb 8 0x2⟩
  | .cmodeLzd115 => ⟨.cmode, bitsLsb 8 0x3⟩
  | .cmodeLzx412 => ⟨.cmode, bitsLsb 8 0x4⟩
  | .cmodeLz5 => ⟨.cmode, bitsLsb 8 0x5⟩
  | .cmode6 => ⟨.cmode, bitsLsb 8 0x6⟩
  | .cmode7 => ⟨.cmode, bitsLsb 8 0x7⟩
  | .hmodeNone => ⟨.hmode, bitsLsb 8 0⟩
  | .hmodeH4 => ⟨.hmode, bitsLsb 8 0x8⟩
  | .hmodeH8 => ⟨.hmode, bitsLsb 8 0x10⟩
  | .hmode3 => ⟨.hmode, bitsLsb 8 0x18⟩
  | .omodeNone => ⟨.omode, bitsLsb 8 0⟩
  | .omodeComplement => ⟨.omode, bitsLsb 8 0x20⟩
  | .omodeXorpos => ⟨.omode, bitsLsb 8 0x40⟩
  | .omodePairswap => ⟨.omode, bitsLsb 8 0x60⟩
  | .omodeXorchain => ⟨.omode, bitsLsb 8 0x80⟩
  | .omode5 => ⟨.omode, bitsLsb 8 0xa0⟩
  | .omode6 => ⟨.omode, bitsLsb 8 0xc0⟩
  | .omode7 => ⟨.omode, bitsLsb 8 0xe0⟩
  | .litRaw v => litWord 0 (bitsMsb 8 v.toNat)
  | .litH8 h => litWord 2 h
  | .litH4 hh => litWord 1 hh
  | .matchLz412 l d => matchWord 0 (bitsMsb 4 l.toNat ++ bitsMsb 12 d.toNat)
  | .matchLz38 l d => matchWord 1 (bitsMsb 3 l.toNat ++ bitsMsb 8 d.toNat)
  | .matchLz816 l d => matchWord 2 (bitsMsb 8 l.toNat ++ bitsMsb 16 d.toNat)
  | .matchLzd115 d l => matchWord 3 (bitsMsb 11 d.toNat ++ bitsMsb 5 l.toNat)
  | .matchLzx412Short l d => matchWord 4 (bitsMsb 4 l.toNat ++ bitsMsb 12 d.toNat)
  | .matchLzx412Ext e d => matchWord 4 ([true, true, true, true] ++ bitsMsb 8 e.toNat ++ bitsMsb 12 d.toNat)
  | .header m size ident => ⟨.header, bitsOfBytes (m :: size ++ [ident])⟩
  | .treetable w levels => ⟨.treetable w, levels.flatMap (encodeLevel w)⟩
  | .nop => cmdWord 0
  | .decode => cmdWord 1
  | .encode => cmdWord 2
  | .reset => cmdWord 3
  | .configure o h c => ⟨.cfg, bitsLsb 9 (1#1 ++ identByte o h c).toNat⟩
  | .openWriter => unitop 0 []
  | .writeBits value n => unitop 1 (bitsLsb 64 value ++ bitsLsb 6 n)
  | .writeByte value => unitop 2 (bitsLsb 64 value)
  | .flush => unitop 3 []
  | .openReader => unitop 4 []
  | .readBits n => unitop 5 (bitsLsb 6 n)
  | .readByte => unitop 6 []
  | .findMatches => unitop 7 []
  | .parseCostToEnd => unitop 8 []
  | .parseWalk => unitop 9 []
  | .tally => unitop 10 []
  | .makeLeaves f => unitop 11 [decide (f = .scaled)]
  | .merge => unitop 12 []
  | .limitDepth => unitop 13 []
  | .canonicalise => unitop 14 []
  | .serialise => unitop 15 []
  | .assignCodes => unitop 16 []
  | .writeSymbol s => unitop 17 (bitsLsb 8 s.toNat)
  | .deserialise => unitop 18 []
  | .readSymbol => unitop 19 []
  | .obf0 dir => unitop 20 [decide (dir = .deobfuscate)]
  | .obf1 dir => unitop 21 [decide (dir = .deobfuscate)]
  | .obf2 dir => unitop 22 [decide (dir = .deobfuscate)]
  | .obf3 dir => unitop 23 [decide (dir = .deobfuscate)]
  | .obf4 dir => unitop 24 [decide (dir = .deobfuscate)]
  | .valueRaw op => unitop 25 (encodeValueOp op)
  | .valueH8 op => unitop 26 (encodeValueOp op)
  | .valueH4 op => unitop 27 (encodeValueOp op)
  | .tokenLoop => unitop 28 []
  | .decodeLit => unitop 29 []
  | .decodeMatch => unitop 30 []
  | .emitTokens => unitop 31 []
  | .decodeLz412 => unitop 32 []
  | .encodeLz412 => unitop 33 []
  | .decodeLz38 => unitop 34 []
  | .encodeLz38 => unitop 35 []
  | .decodeLz816 => unitop 36 []
  | .encodeLz816 => unitop 37 []
  | .decodeLzd115 => unitop 38 []
  | .encodeLzd115 => unitop 39 []
  | .decodeLzx412 => unitop 40 []
  | .encodeLzx412 => unitop 41 []
  | .lz5 => unitop 42 []
  | .readHeaderValidateMagic => unitop 43 []
  | .dispatchModes => unitop 44 []
  | .deobfuscate => unitop 45 []
  | .checkConfig => unitop 46 []
  | .materialize => unitop 47 []
  | .buildTree => unitop 48 []
  | .writeHeader => unitop 49 []
  | .emit => unitop 50 []
  | .raise k => unitop 51 (bitsLsb 3 (kindCode k))

/-! ## The opcode table's numbering -/

/-- The operation word of `nbits` bits `w` numbered as `spec/opcode_table.json` numbers them (log entry 4). Five bytes or
more are a header. A value of more than eight bits is one written to `CFG`. A byte below 4 is a value of `CMD`; any other
byte is an ident byte, and of the three rows it selects (rule R113) the one of the lowest sub-field that is not 0. -/
def tableImage (nbits w : Nat) : Image :=
  if 40 ≤ nbits then ⟨.header, bitsLsb nbits w⟩
  else if 8 < nbits then ⟨.cfg, bitsLsb 9 w⟩
  else if w % 256 < 4 then ⟨.cmd, bitsLsb 8 w⟩
  else if w % 8 ≠ 0 then ⟨.cmode, bitsLsb 8 w⟩
  else if w % 32 ≠ 0 then ⟨.hmode, bitsLsb 8 w⟩
  else ⟨.omode, bitsLsb 8 w⟩

/-- The instruction the decoder reads from an instruction whose bits are `w` in the table's numbering. -/
def decodeTableWord (nbits w : Nat) : Option Instr :=
  match decode (tableImage nbits w) with
  | .ok i => some i
  | .error _ => none

end Sys2Proof
end

