-- ==== Sys2Proof/Machine/Fetch.lean ====
section
/-! DEFINITION. Fetching: what the move at the head of the inbox comes to. An operation word, a write of `CMD` and a
write of `CFG` with bit 8 set are instructions; the host's other moves (rule R43) take effect here. -/

namespace Sys2Proof.Machine

/-- The instruction of an operation word, with its operands in range. -/
def fetch (img : Image) : Except Refusal Instr :=
  match decode img with
  | .error r => .error (.undecodable r)
  | .ok i => if i.wf then .ok i else .error .illFormedOperand

/-- What a move comes to: an instruction to run, or an outcome of its own. -/
inductive Served where
  | run (i : Instr)
  | done (o : Host.Outcome State Fault Refusal)

/-- An operation word, served. -/
def serveWord (img : Image) : Served :=
  match fetch img with
  | .ok i => .run i
  | .error r => .done (.refused r)

/-- A write of register `n` (rule R35). A write of `CMD` starts a command (rule R23); a write of `CFG` with bit 8 set is
CONFIGURE, one with bit 8 clear stores a value with `VALID = 0` (rule R261); writes of read-only registers are ignored
(U33), and so are bits above a register's width (U8). -/
def serveWrite (n v : Nat) (s : State) : Served :=
  match n with
  | 0 => serveWord ⟨.cmd, bitsLsb 2 v⟩
  | 2 => if v.testBit 8 then serveWord ⟨.cfg, bitsLsb 9 v⟩ else .done (writeCfg (BitVec.ofNat 9 v) s)
  | 4 => .done (hostMove s (.next { s with srcLen := v % 2 ^ 32 }))
  | 1 => .done (hostMove s (.next s))
  | 3 => .done (hostMove s (.next s))
  | 5 => .done (hostMove s (.next s))
  | 6 => .done (hostMove s (.next s))
  | 7 => .done (hostMove s (.next s))
  | _ => .done (.refused .noSuchRegister)

/-- What register `n` reads as (rule R35; U8: bits above its width read as 0). -/
def regValue (n : Nat) (s : State) : Option Nat :=
  match n with
  | 1 => some s.status.toNat
  | 2 => some s.cfg.toNat
  | 3 => some s.fmt.toNat
  | 4 => some (s.srcLen % 2 ^ 32)
  | 5 => some (s.dstLen % 2 ^ 32)
  | 6 => some s.ident.toNat
  | 7 => some (s.dsize % 2 ^ 32)
  | _ => none

/-- A read of register `n` (rules R35, R43). -/
def serveRead (n : Nat) (s : State) : Host.Outcome State Fault Refusal :=
  match regValue n s with
  | some v => hostMove s (.next { s with bus := v })
  | none => if n = 0 then .refused .writeOnlyRegister else .refused .noSuchRegister

/-- A write of a byte of `SRC` (rules R36, R43). -/
def serveSrc (a : Nat) (b : Byte) (s : State) : Host.Outcome State Fault Refusal :=
  if 2 ^ 32 ≤ a then .fault .noSuchAddress else hostMove s (.next { s with src := s.src.write a b })

/-- A read of a byte of `DST[0..DST_LEN)` (rules R27, R43). -/
def serveDst (a : Nat) (s : State) : Host.Outcome State Fault Refusal :=
  if 2 ^ 32 ≤ a then .fault .noSuchAddress
  else hostMove s (if s.dstLen ≤ a then .refused .beyondDstLen else .next { s with bus := (s.dst.read a).toNat })

/-- Serve a move. -/
def serve (m : Move) (s : State) : Served :=
  match m with
  | .op img => serveWord img
  | .writeReg n v => serveWrite n v s
  | .readReg n => .done (serveRead n s)
  | .writeSrc a b => .done (serveSrc a b s)
  | .readDst a => .done (serveDst a s)

end Sys2Proof.Machine
end

