-- ==== Sys2Proof/Machine/Step.lean ====
section
/-! DEFINITION. One step: the move at the head of the inbox is served (log entries 1 to 3). With no move waiting the
engine rests (rule R400). -/

namespace Sys2Proof.Machine

/-- The outcome of a served move. -/
def runServed (v : Served) (s : State) : Host.Outcome State Fault Refusal :=
  match v with
  | .run i => exec i s
  | .done o => o

/-- One step. An instance whose construction record is not well formed is refused (rule R8; U34). -/
def step (s : State) : Host.Outcome State Fault Refusal :=
  if recordWf s.fmt s.kon then
    match s.inbox with
    | [] => .next s
    | m :: rest => runServed (serve m { s with inbox := rest }) { s with inbox := rest }
  else .refused .illFormedRecord

/-- The state with an operation word, given in the opcode table's numbering, as the next move to serve. -/
def State.withFetchWord (s : State) (nbits w : Nat) : State :=
  { s with inbox := .op (tableImage nbits w) :: s.inbox }

end Sys2Proof.Machine
end

