-- ==== Sys2Proof/Safety.lean ====
section
/-! DEFINITION. What counts as a good state of the machine between steps, and as a safe run, in the terms the statements
use. -/

namespace Sys2Proof.Machine

/-- `ERR ≠ 0` exactly when `PHASE = 7` (rule R25). -/
def State.errMatchesPhase (s : State) : Prop := s.err.isSome = true ↔ s.phase = .failed

/-- The three memories are in canonical form. -/
def State.memoriesWf (s : State) : Prop := s.src.wf ∧ s.dst.wf ∧ s.work.wf

/-- The length registers the host and the header set fit their 32 bits (rules R26, R27). -/
def State.lengthsFit (s : State) : Prop := s.srcLen < 2 ^ 32 ∧ s.dsize < 2 ^ 32

/-- Every memory's free bytes belong to a draw already made, so a later draw is a new one. -/
def State.epochsDrawn (s : State) : Prop := s.src.epoch < s.draws ∧ s.dst.epoch < s.draws ∧ s.work.epoch < s.draws

/-- The invariant of the machine between steps: memories canonical, `ERR` and `PHASE` in step (rule R25), the engine at
rest ("phases 1 to 5 and 8 to 15 are never seen by the host", rule R24), 32-bit lengths, a well-formed construction
record (rule R8). -/
def Inv (s : State) : Prop :=
  s.memoriesWf ∧ s.errMatchesPhase ∧ s.busy = false ∧ s.lengthsFit ∧ s.epochsDrawn ∧ recordWf s.fmt s.kon = true

/-- A run of `n` steps that neither faults nor is refused. -/
def Safe (n : Nat) (s : State) : Prop :=
  match n with
  | 0 => True
  | n + 1 => ∃ t, step s = .next t ∧ Safe n t

/-! ## Several instructions in a row -/

/-- Run instructions one after the other, stopping where one does not answer a next state. -/
def runAll : List Instr → State → Host.Outcome State Fault Refusal
  | [], s => .next s
  | i :: is, s =>
    match exec i s with
    | .next t => runAll is t
    | .fault r => .fault r
    | .refused r => .refused r

/-- `readBits` calls of the given widths, one after the other. -/
def readMany : List Nat → State → Run State (List Nat)
  | [], s => .ok [] s
  | n :: ns, s => (readBits n s).andThen fun v s => (readMany ns s).map (v :: ·)

/-- `WORDBYTES` is 1, 2 or 4 (rule R8): `WORDLOG` is not 3. -/
abbrev Fmt.wf (f : Fmt) : Prop := f.wordLog ≠ 3#2

/-! ## What the reader has ahead of it -/

/-- The bits of a word in stream order (rule R132). -/
def wordStream (f : Fmt) (w : Word) : List Bool := (List.range f.wordBits).map fun j => w.getLsbD (bitPlace f j)

/-- The bits of the word held that have not been consumed, in stream order. -/
def Reader.held (f : Fmt) (r : Reader) : List Bool :=
  (List.range r.avail).map fun i => r.word.getLsbD (bitPlace f (f.wordBits - (r.avail - i)))

/-- Every bit the reader can still give: those of the word held, then those of the whole words left in `SRC` (rules R136,
R137). A tail shorter than a word gives none. -/
def Reader.ahead (e : ReadEnv) (r : Reader) : List Bool :=
  r.held e.fmt ++ (List.range ((e.srcLen - r.pos) / e.fmt.wordBytes)).flatMap fun i =>
    wordStream e.fmt (wordOfBytes e.fmt (e.src.slice (r.pos + i * e.fmt.wordBytes) e.fmt.wordBytes))

/-- The bits ahead of the state's reader. -/
def State.bitsAhead (s : State) : List Bool := s.call.rd.ahead s.readEnv

/-- The whole bit stream of the container in `SRC` (rule R98). -/
def State.containerBits (s : State) : List Bool := (openedReader s.fmt).ahead s.readEnv

/-! ## Huffman tables -/

/-- The free places left after the levels of a table, from `slots` places at the first of them; none when a level lists
more symbols than it has places (rules R216, R217). -/
def slotsLeft : Nat → List Nat → Option Nat
  | slots, [] => some slots
  | slots, c :: cs => if slots < c then none else slotsLeft (2 * (slots - c)) cs

/-- No level of the table is over-subscribed. -/
def HuffTab.fits (t : HuffTab) : Prop := (slotsLeft 2 t.counts).isSome = true

/-- The symbols of a table's levels with their codes, from level `d` with first code `first` (rule R97). -/
def levelCodes : Nat → Nat → List (List Byte) → List (Byte × List Bool)
  | _, _, [] => []
  | d, first, syms :: rest =>
    (syms.zipIdx.map fun x => (x.1, bitsMsb d (first + x.2))) ++ levelCodes (d + 1) ((first + syms.length) * 2) rest

/-- Every symbol a table lists, with its code's bits, root edge first. -/
def HuffTab.codeList (t : HuffTab) : List (Byte × List Bool) := levelCodes 1 0 (splitLevels t.counts t.hsym)

/-- The table whose levels are given. -/
def tabOf (levels : List (List Byte)) : HuffTab := ⟨levels.map List.length, levels.flatten, levels.flatten.length⟩

/-- The bits of a tree table in the stream (rules R96, R211). -/
def tableStream (f : Fmt) (w : SymWidth) (levels : List (List Byte)) : List Bool :=
  levels.flatMap fun l => streamOfValue f (l.length % 256) 8 ++ l.flatMap fun s => streamOfValue f s.toNat (symBits w)

/-- The symbols a frequency table gives a leaf, in ascending order (rule R203). -/
def livingSymbols (w : SymWidth) (F : List Nat) : List Nat := (List.range (alphabet w)).filter fun s => decide (0 < F.getD s 0)

/-- Node `j` is in `LIVE` when node `k` is made: it stands before `k` and no node made before `k` has taken it (rule
R204). -/
def liveAt (arena : List HuffNode) (k j : Nat) : Prop :=
  j < k ∧ ∀ i, i < k → ∀ n, arena[i]? = some n → n.child0 ≠ some j ∧ n.child1 ≠ some j

/-! ## Tokens -/

/-- A token of the payload (rule R99). -/
inductive Token where
  | lit (v : Byte)
  | copy (len disp : Nat)
  deriving DecidableEq, Repr

/-- The bits of a match's length (rule R103). -/
def lenStream (f : Fmt) (row : ModeRow) (len : Nat) : List Bool :=
  streamOfValue f (lenField row len) row.lenBits ++
    if lenEscaped row len then streamOfValue f (extField row len) row.extBits else []

/-- The bits of a match's displacement (rule R104). -/
def dispStream (f : Fmt) (row : ModeRow) (disp : Nat) : List Bool := streamOfValue f (disp - 1) row.dispBits

/-- The bits of a match, after its flag (rule R102). -/
def copyStream (f : Fmt) (row : ModeRow) (len disp : Nat) : List Bool :=
  if row.dispFirst then dispStream f row disp ++ lenStream f row len else lenStream f row len ++ dispStream f row disp

/-- The bits the value writer sends for a byte (rules R301 to R303), `code` giving a symbol's code. -/
def valueStream (f : Fmt) (w : SymWidth) (code : Nat → HuffCode) (v : Byte) : List Bool :=
  match w with
  | .raw => streamOfValue f v.toNat 8
  | .w8 => bitsMsb (code v.toNat).len (code v.toNat).code
  | .w4 =>
    bitsMsb (code (v.toNat / 16)).len (code (v.toNat / 16)).code ++
      bitsMsb (code (v.toNat % 16)).len (code (v.toNat % 16)).code

/-- The bits the emitter sends for a token (rules R100, R102). -/
def Token.stream (f : Fmt) (row : ModeRow) (w : SymWidth) (code : Nat → HuffCode) : Token → List Bool
  | .lit v => false :: valueStream f w code v
  | .copy l d => true :: copyStream f row l d

/-- Bits that stand for a byte value under a decoder's table (rules R301 to R303). -/
def saysValue (f : Fmt) (w : SymWidth) (t : HuffTab) (v : Byte) (bits : List Bool) : Prop :=
  match w with
  | .raw => bits = streamOfValue f v.toNat 8
  | .w8 => (v, bits) ∈ t.codeList
  | .w4 => ∃ (hi lo : Byte) (b c : List Bool), v = (hi <<< 4) ||| lo ∧ bits = b ++ c ∧ (hi, b) ∈ t.codeList ∧ (lo, c) ∈ t.codeList

/-- Bits that stand for a token under a mode row and a decoder's table. -/
def Token.says (f : Fmt) (row : ModeRow) (w : SymWidth) (t : HuffTab) : Token → List Bool → Prop
  | .lit v, bits => ∃ b, bits = false :: b ∧ saysValue f w t v b
  | .copy l d, bits =>
    row.minLen ≤ l ∧ l ≤ row.maxLen ∧ 1 ≤ d ∧ d ≤ row.maxDisp ∧ bits = true :: copyStream f row l d

/-- Bits that stand for a sequence of tokens. -/
def tokensSay (f : Fmt) (row : ModeRow) (w : SymWidth) (t : HuffTab) : List Token → List Bool → Prop
  | [], bits => bits = []
  | k :: ks, bits => ∃ b c, bits = b ++ c ∧ k.says f row w t b ∧ tokensSay f row w t ks c

/-- The bytewise copy of rule R70 on an output held as a list. -/
def copyTail (disp : Nat) : Nat → List Byte → List Byte
  | 0, out => out
  | n + 1, out => copyTail disp n (out ++ [out.getD (out.length - disp) 0])

/-- The output after a token, from the output before it (rules R322, R323); none where a match would start before the
first byte. -/
def Token.expand : Token → List Byte → Option (List Byte)
  | .lit v, out => some (out ++ [v])
  | .copy l d, out => if 1 ≤ d ∧ d ≤ out.length then some (copyTail d l out) else none

/-- The output after a sequence of tokens. -/
def expandAll : List Token → List Byte → Option (List Byte)
  | [], out => some out
  | k :: ks, out => (k.expand out).bind (expandAll ks)

/-- The tokens cover a buffer exactly from position `p` on, each literal with the byte that stands there. -/
def tokensCover (B : List Byte) : Nat → List Token → Prop
  | p, [] => p = B.length
  | p, .lit v :: ks => B[p]? = some v ∧ tokensCover B (p + 1) ks
  | p, .copy l _ :: ks => 1 ≤ l ∧ p + l ≤ B.length ∧ tokensCover B (p + l) ks

/-- The matches among tokens that start at position `p`. -/
def matchesAt : Nat → List Token → List LzMatch
  | _, [] => []
  | p, .lit _ :: ks => matchesAt (p + 1) ks
  | p, .copy l d :: ks => ⟨p, l, d⟩ :: matchesAt (p + l) ks

/-- Each match among the tokens is viable at its position (rule R182). -/
def tokensViable (minLen : Nat) (cand : List (Option (Nat × Nat))) : Nat → List Token → Prop
  | _, [] => True
  | p, .lit _ :: ks => tokensViable minLen cand (p + 1) ks
  | p, .copy l d :: ks =>
    (∃ L, (cand[p]?).join = some (L, d) ∧ minLen ≤ l ∧ l ≤ L) ∧ tokensViable minLen cand (p + l) ks

/-- The priced size of tokens (rules R180, R183). -/
def tokensPrice (k : Construction) (row : ModeRow) (c : BitVec 3) : List Token → Nat
  | [] => 0
  | .lit v :: ks => literalCost k v + tokensPrice k row c ks
  | .copy l d :: ks => matchCost k row c l d + tokensPrice k row c ks

/-! ## Matches -/

/-- `l` is `run(p, d)` with the cap `cap`: the largest run of agreeing bytes (rule R162). -/
def isRun (B : List Byte) (p cap d l : Nat) : Prop :=
  l ≤ cap ∧ (∀ i, i < l → B[p - d + i]? = B[p + i]?) ∧ (l < cap → B[p - d + l]? ≠ B[p + l]?)

/-- The definition of `CAND[p]` (rule R162): no run reaches `MINLEN`, or the longest run with the smallest displacement
that has it. -/
def candSpec (row : ModeRow) (B : List Byte) (p : Nat) (c : Option (Nat × Nat)) : Prop :=
  match c with
  | none =>
    ∀ d l, 1 ≤ d → d ≤ min p row.maxDisp → isRun B p (min row.maxLen (B.length - p)) d l → l < row.minLen
  | some (len, disp) =>
    row.minLen ≤ len ∧ 1 ≤ disp ∧ disp ≤ min p row.maxDisp ∧
      isRun B p (min row.maxLen (B.length - p)) disp len ∧
      ∀ d l, 1 ≤ d → d ≤ min p row.maxDisp → isRun B p (min row.maxLen (B.length - p)) d l →
        l < len ∨ (l = len ∧ disp ≤ d)

/-- A valid match that mode row `row` can encode (rule R160). -/
def encodableMatch (row : ModeRow) (B : List Byte) (p l d : Nat) : Prop :=
  validMatch B p l d ∧ row.minLen ≤ l ∧ l ≤ row.maxLen ∧ d ≤ row.maxDisp

end Sys2Proof.Machine

namespace Sys2Proof

open Sys2Proof.Machine

/-! ## What an instruction may change -/

/-- RESET, DECODE, ENCODE: the commands that set `STATUS` (rule R66). -/
def Instr.isCommand : Instr → Bool
  | .decode => true
  | .encode => true
  | .reset => true
  | _ => false

/-- The instructions that write `CFG`. -/
def Instr.setsCfg : Instr → Bool
  | .configure _ _ _ => true
  | .reset => true
  | _ => false

/-- The instructions that write `IDENT`. -/
def Instr.setsIdent : Instr → Bool
  | .cmodeLz412 => true
  | .cmodeLz38 => true
  | .cmodeLz816 => true
  | .cmodeLzd115 => true
  | .cmodeLzx412 => true
  | .cmodeLz5 => true
  | .cmode6 => true
  | .cmode7 => true
  | .hmodeNone => true
  | .hmodeH4 => true
  | .hmodeH8 => true
  | .hmode3 => true
  | .omodeNone => true
  | .omodeComplement => true
  | .omodeXorpos => true
  | .omodePairswap => true
  | .omodeXorchain => true
  | .omode5 => true
  | .omode6 => true
  | .omode7 => true
  | .header _ _ _ => true
  | .readHeaderValidateMagic => true
  | .checkConfig => true
  | .decode => true
  | .encode => true
  | .reset => true
  | _ => false

/-- The instructions that write `DSIZE`. -/
def Instr.setsDsize : Instr → Bool
  | .header _ _ _ => true
  | .readHeaderValidateMagic => true
  | .materialize => true
  | .decode => true
  | .encode => true
  | .reset => true
  | _ => false

/-- The instructions that return a value. -/
def Instr.returns : Instr → Bool
  | .readBits _ => true
  | .readByte => true
  | .readSymbol => true
  | .valueRaw op => decide (op = .read)
  | .valueH8 op => decide (op = .read)
  | .valueH4 op => decide (op = .read)
  | _ => false

/-- How an instruction may use a byte space it writes. -/
inductive Stores where
  /-- it writes no byte -/
  | nothing
  /-- it appends at `DST_LEN` -/
  | append
  /-- it rewrites the bytes below `DSIZE` in place -/
  | inPlace
  /-- it writes from offset 0 up to its new `DST_LEN` -/
  | fromStart
  /-- it may discard the bytes the space held -/
  | discard
  deriving DecidableEq, Repr

/-- How an instruction uses `DST` (rules R36, R60). -/
def Instr.dstStores : Instr → Stores
  | .litRaw _ => .append
  | .litH8 _ => .append
  | .litH4 _ => .append
  | .matchLz412 _ _ => .append
  | .matchLz38 _ _ => .append
  | .matchLz816 _ _ => .append
  | .matchLzd115 _ _ => .append
  | .matchLzx412Short _ _ => .append
  | .matchLzx412Ext _ _ => .append
  | .header _ _ _ => .discard
  | .decode => .discard
  | .encode => .discard
  | .reset => .discard
  | .writeBits _ _ => .append
  | .writeByte _ => .append
  | .flush => .append
  | .serialise => .append
  | .writeSymbol _ => .append
  | .obf1 dir => if dir = .deobfuscate then .inPlace else .nothing
  | .obf2 dir => if dir = .deobfuscate then .inPlace else .nothing
  | .obf3 dir => if dir = .deobfuscate then .inPlace else .nothing
  | .obf4 dir => if dir = .deobfuscate then .inPlace else .nothing
  | .valueRaw op => if op = .read then .nothing else .append
  | .valueH8 op => if op = .read then .nothing else .append
  | .valueH4 op => if op = .read then .nothing else .append
  | .tokenLoop => .append
  | .decodeLit => .append
  | .decodeMatch => .append
  | .emitTokens => .append
  | .decodeLz412 => .append
  | .encodeLz412 => .append
  | .decodeLz38 => .append
  | .encodeLz38 => .append
  | .decodeLz816 => .append
  | .encodeLz816 => .append
  | .decodeLzd115 => .append
  | .encodeLzd115 => .append
  | .decodeLzx412 => .append
  | .encodeLzx412 => .append
  | .readHeaderValidateMagic => .discard
  | .deobfuscate => .inPlace
  | .materialize => .discard
  | .writeHeader => .fromStart
  | .emit => .append
  | _ => .nothing

/-- How an instruction uses `WORK` (rules R36, R60). -/
def Instr.workStores : Instr → Stores
  | .obf1 dir => if dir = .obfuscate then .inPlace else .nothing
  | .obf2 dir => if dir = .obfuscate then .inPlace else .nothing
  | .obf3 dir => if dir = .obfuscate then .inPlace else .nothing
  | .obf4 dir => if dir = .obfuscate then .inPlace else .nothing
  | .materialize => .discard
  | .decode => .discard
  | .encode => .discard
  | .reset => .discard
  | _ => .nothing

/-- What a use of a byte space leaves unchanged: `m` with length `n` before, `m'` with length `n'` after, `size` the
bytes an in-place use may rewrite. -/
def Stores.keeps (u : Stores) (size : Nat) (m m' : Mem) (n n' : Nat) : Prop :=
  match u with
  | .nothing => m' = m ∧ n' = n
  | .append => n ≤ n' ∧ ∀ a, a < n ∨ n' ≤ a → m'.read a = m.read a
  | .inPlace => n' = n ∧ ∀ a, size ≤ a → m'.read a = m.read a
  | .fromStart => ∀ a, n' ≤ a → m'.read a = m.read a
  | .discard => True

/-- The datapath registers and tables an instruction leaves unchanged: the second state differs from the first at most in
the parts named. -/
def Instr.keepsCall (i : Instr) (c c' : Call) : Prop :=
  match i with
  | .hmodeNone => c' = { c with hw := c'.hw }
  | .hmodeH4 => c' = { c with hw := c'.hw }
  | .hmodeH8 => c' = { c with hw := c'.hw }
  | .litRaw _ => c' = { c with tk := { c.tk with flag := c'.tk.flag } }
  | .litH8 _ => c' = { c with tk := { c.tk with flag := c'.tk.flag }, hc := c'.hc }
  | .litH4 _ => c' = { c with tk := { c.tk with flag := c'.tk.flag }, hc := c'.hc }
  | .matchLz412 _ _ => c' = { c with tk := { c'.tk with p := c.tk.p, mi := c.tk.mi } }
  | .matchLz38 _ _ => c' = { c with tk := { c'.tk with p := c.tk.p, mi := c.tk.mi } }
  | .matchLz816 _ _ => c' = { c with tk := { c'.tk with p := c.tk.p, mi := c.tk.mi } }
  | .matchLzd115 _ _ => c' = { c with tk := { c'.tk with p := c.tk.p, mi := c.tk.mi } }
  | .matchLzx412Short _ _ => c' = { c with tk := { c'.tk with p := c.tk.p, mi := c.tk.mi } }
  | .matchLzx412Ext _ _ => c' = { c with tk := { c'.tk with p := c.tk.p, mi := c.tk.mi } }
  | .treetable _ _ => c' = { c with ht := c'.ht }
  | .decode => True
  | .encode => True
  | .reset => True
  | .openWriter => c' = { c with wr := c'.wr }
  | .writeBits _ _ => c' = { c with wr := c'.wr }
  | .writeByte _ => c' = { c with wr := c'.wr }
  | .flush => c' = { c with wr := c'.wr }
  | .openReader => c' = { c with rd := c'.rd }
  | .readBits _ => c' = { c with rd := c'.rd }
  | .readByte => c' = { c with rd := c'.rd }
  | .findMatches => c' = { c with cand := c'.cand, tk := { c.tk with p := c'.tk.p } }
  | .parseCostToEnd => c' = { c with cost := c'.cost, adv := c'.adv, tk := { c.tk with p := c'.tk.p } }
  | .parseWalk => c' = { c with mlist := c'.mlist, mcount := c'.mcount, tk := { c.tk with p := c'.tk.p } }
  | .tally => c' = { c with freq := c'.freq }
  | .makeLeaves _ => c' = { c with hnode := c'.hnode, hroot := none }
  | .merge => c' = { c with hnode := c'.hnode, hroot := c'.hroot }
  | .limitDepth => c' = { c with scaled := c'.scaled, hnode := c'.hnode, hroot := c'.hroot }
  | .canonicalise => c' = { c with hnode := c'.hnode }
  | .serialise => c' = { c with ht := c'.ht, wr := c'.wr }
  | .assignCodes => c' = { c with hcode := c'.hcode }
  | .writeSymbol _ => c' = { c with wr := c'.wr }
  | .deserialise => c' = { c with rd := c'.rd, ht := c'.ht }
  | .readSymbol => c' = { c with rd := c'.rd, hc := c'.hc }
  | .valueRaw op => if op = .read then c' = { c with rd := c'.rd } else c' = { c with wr := c'.wr }
  | .valueH8 op => if op = .read then c' = { c with rd := c'.rd, hc := c'.hc } else c' = { c with wr := c'.wr }
  | .valueH4 op => if op = .read then c' = { c with rd := c'.rd, hc := c'.hc } else c' = { c with wr := c'.wr }
  | .tokenLoop => c' = { c with rd := c'.rd, hc := c'.hc, tk := { c'.tk with p := c.tk.p, mi := c.tk.mi } }
  | .decodeLit => c' = { c with rd := c'.rd, hc := c'.hc }
  | .decodeMatch => c' = { c with rd := c'.rd, tk := { c'.tk with flag := c.tk.flag, p := c.tk.p, mi := c.tk.mi } }
  | .emitTokens => c' = { c with wr := c'.wr, tk := { c.tk with p := c'.tk.p, mi := c'.tk.mi } }
  | .decodeLz412 => c' = { c with rd := c'.rd, hc := c'.hc, tk := { c'.tk with p := c.tk.p, mi := c.tk.mi } }
  | .encodeLz412 => c' = { c with wr := c'.wr, tk := { c.tk with p := c'.tk.p, mi := c'.tk.mi } }
  | .decodeLz38 => c' = { c with rd := c'.rd, hc := c'.hc, tk := { c'.tk with p := c.tk.p, mi := c.tk.mi } }
  | .encodeLz38 => c' = { c with wr := c'.wr, tk := { c.tk with p := c'.tk.p, mi := c'.tk.mi } }
  | .decodeLz816 => c' = { c with rd := c'.rd, hc := c'.hc, tk := { c'.tk with p := c.tk.p, mi := c.tk.mi } }
  | .encodeLz816 => c' = { c with wr := c'.wr, tk := { c.tk with p := c'.tk.p, mi := c'.tk.mi } }
  | .decodeLzd115 => c' = { c with rd := c'.rd, hc := c'.hc, tk := { c'.tk with p := c.tk.p, mi := c.tk.mi } }
  | .encodeLzd115 => c' = { c with wr := c'.wr, tk := { c.tk with p := c'.tk.p, mi := c'.tk.mi } }
  | .decodeLzx412 => c' = { c with rd := c'.rd, hc := c'.hc, tk := { c'.tk with p := c.tk.p, mi := c.tk.mi } }
  | .encodeLzx412 => c' = { c with wr := c'.wr, tk := { c.tk with p := c'.tk.p, mi := c'.tk.mi } }
  | .dispatchModes => c' = { c with hw := c'.hw }
  | .checkConfig => c' = { c with hw := c'.hw }
  | .materialize => c' = { c with mcount := 0 }
  | .buildTree =>
    c' = { c with
      freq := c'.freq, scaled := c'.scaled, hnode := c'.hnode, hroot := c'.hroot, ht := c'.ht, hcode := c'.hcode }
  | .writeHeader => c' = { c with wr := c'.wr }
  | .emit => c' = { c with wr := c'.wr, tk := { c.tk with p := c'.tk.p, mi := c'.tk.mi } }
  | _ => c' = c

end Sys2Proof

namespace Sys2Proof.Machine

/-! ## The transforms -/

/-- The buffer a half of a transform row works on (rule R240). -/
def bufferOf (dir : Dir) (s : State) : Mem :=
  match dir with
  | .obfuscate => s.work
  | .deobfuscate => s.dst

/-- The state with another such buffer. -/
def withBuffer (dir : Dir) (s : State) (m : Mem) : State :=
  match dir with
  | .obfuscate => { s with work := m }
  | .deobfuscate => { s with dst := m }

/-! ## The coder rows -/

/-- The decoder row, the encoder row and the mode row of each implemented mode (rules R326 to R335). -/
def coderRows : List (Instr × Instr × ModeRow) :=
  [(.decodeLz412, .encodeLz412, rowLz412), (.decodeLz38, .encodeLz38, rowLz38), (.decodeLz816, .encodeLz816, rowLz816),
    (.decodeLzd115, .encodeLzd115, rowLzd115), (.decodeLzx412, .encodeLzx412, rowLzx412)]

/-- Instruction `i` runs the decoder of mode row `row` in state `s`: a mode's own decoder, or the token loop in that
mode. -/
def decodesWith (i : Instr) (row : ModeRow) (s : State) : Prop :=
  (∃ e, (i, e, row) ∈ coderRows) ∨ (i = .tokenLoop ∧ s.row = some row)

/-- Instruction `i` runs the encoder of mode row `row` in state `s`: a mode's own encoder, or the emitter in that mode. -/
def encodesWith (i : Instr) (row : ModeRow) (s : State) : Prop :=
  (∃ d, (d, i, row) ∈ coderRows) ∨ ((i = .emitTokens ∨ i = .emit) ∧ s.row = some row)

/-- The ident byte of the container in `SRC` (rule R265). -/
def State.srcIdent (s : State) : BitVec 8 := s.src.read (1 + s.fmt.sizeBytes)

/-- The size field of the container in `SRC` (rules R62, R265). -/
def State.srcSize (s : State) : Nat := leNat (s.src.slice 1 s.fmt.sizeBytes)

/-- The source begins with the marker and a whole header (rules R264, R265). -/
def State.headerOk (s : State) : Prop := s.fmt.hdrLen ≤ s.srcLen ∧ s.src.read 0 = s.fmt.magic

/-- An ident byte whose three modes are all implemented (rule R262). -/
def modesOk (k : Construction) (b : BitVec 8) : Prop := reservedModes k b = false ∧ cmodeOf b ∈ k.implemented

end Sys2Proof.Machine
end

