-- ==== Sys2Proof/Certificates/Slice0/Obligations.lean ====
section
/-! DEFINITION. The statements about the model, one `def Obligations.<Name> : Prop` each, with the rules of the spec they
come from. Nothing is proved here. -/

open Sys2Proof Sys2Proof.Machine

/-! ## Encoding -/

/-- Decoding the encoding of a well-formed instruction gives it back, for every operand (R93, R96, R100, R102, R110, R113).
The numbers of the unit operations are the model's own (log entry 1), and so is how a token, a header and a tree table stand
in a word of their own (log entries 16, 17) and that an operand out of its range is no instruction (log entry 26). -/
def Obligations.DecodeEncodeRoundTrip : Prop := ∀ i : Instr, i.wf = true → decode (encode i) = .ok i

/-- The command codes of R110, the CONFIGURE example of R261, the ident byte of R93's example, and the tokens written out in
R322, R326, R328, R330, R332 and R334. That a token is a word of its own, most significant bit first, is log entry 16. -/
def Obligations.SpecWordsDecode : Prop :=
  decode ⟨.cmd, [false, false]⟩ = .ok .nop ∧
  decode ⟨.cmd, [true, false]⟩ = .ok .decode ∧
  decode ⟨.cmd, [false, true]⟩ = .ok .encode ∧
  decode ⟨.cmd, [true, true]⟩ = .ok .reset ∧
  decode ⟨.cfg, bitsLsb 9 0x194⟩ = .ok (.configure 4 2 4) ∧
  decode ⟨.cmode, bitsLsb 8 0x94⟩ = .ok .cmodeLzx412 ∧
  decode ⟨.hmode, bitsLsb 8 0x94⟩ = .ok .hmodeH8 ∧
  decode ⟨.omode, bitsLsb 8 0x94⟩ = .ok .omodeXorchain ∧
  decode ⟨.token 0 0, bitsMsb 9 0b001000001⟩ = .ok (.litRaw 0x41) ∧
  decode ⟨.token 0 0, bitsMsb 17 0b10011000000000010⟩ = .ok (.matchLz412 3 2) ∧
  decode ⟨.token 1 0, bitsMsb 12 0b110000000010⟩ = .ok (.matchLz38 4 2) ∧
  decode ⟨.token 2 0, bitsMsb 25 0b1000000110000000000000010⟩ = .ok (.matchLz816 3 2) ∧
  decode ⟨.token 3 0, bitsMsb 17 0b10000000001000011⟩ = .ok (.matchLzd115 2 3) ∧
  decode ⟨.token 4 0, bitsMsb 17 0b10011000000000010⟩ = .ok (.matchLzx412Short 3 2) ∧
  decode ⟨.token 4 0, bitsMsb 25 0b1111100000000000000000000⟩ = .ok (.matchLzx412Ext 0 0)

/-- The ident byte is made of its three sub-fields and gives them back, and each of its values selects exactly one row of
each of the three groups (R93). -/
def Obligations.IdentByteFields : Prop :=
  (∀ o h c, identByte o h c = (o.setWidth 8 <<< 5) ||| (h.setWidth 8 <<< 3) ||| c.setWidth 8 ∧
    cmodeOf (identByte o h c) = c ∧ hmodeOf (identByte o h c) = h ∧ omodeOf (identByte o h c) = o) ∧
  (∀ b : BitVec 8, cmodeOf b = b.extractLsb' 0 3 ∧ hmodeOf b = b.extractLsb' 3 2 ∧ omodeOf b = b.extractLsb' 5 3) ∧
  (∀ b, identByte (omodeOf b) (hmodeOf b) (cmodeOf b) = b) ∧
  (∀ b : BitVec 8, decode ⟨.cmode, bitsLsb 8 b.toNat⟩ = .ok (cmodeRow (cmodeOf b)) ∧
    decode ⟨.hmode, bitsLsb 8 b.toNat⟩ = .ok (hmodeRow (hmodeOf b)) ∧
    decode ⟨.omode, bitsLsb 8 b.toNat⟩ = .ok (omodeRow (omodeOf b))) ∧
  (∀ c c', cmodeRow c = cmodeRow c' → c = c') ∧ (∀ h h', hmodeRow h = hmodeRow h' → h = h') ∧
  ∀ o o', omodeRow o = omodeRow o' → o = o'

/-- Length and displacement assembly of every well-formed mode row: each length of `MINLEN..MAXLEN` and each displacement
of `1..MAXDISP` has one encoding, its fields fit their widths, and every field value stands for a value in range (R103,
R104, R105). -/
def Obligations.LengthAssembly : Prop :=
  ∀ row : ModeRow, row.wf = true →
    (∀ L, row.minLen ≤ L → L ≤ row.maxLen →
      lenField row L < 2 ^ row.lenBits ∧ (lenEscaped row L = true → extField row L < 2 ^ row.extBits) ∧
      assembleLen row (lenField row L) (if lenEscaped row L then extField row L else 0) = L) ∧
    (∀ f e, f < 2 ^ row.lenBits → e < 2 ^ row.extBits →
      row.minLen ≤ assembleLen row f e ∧ assembleLen row f e ≤ row.maxLen) ∧
    (∀ f e f' e', f < 2 ^ row.lenBits → e < 2 ^ row.extBits → f' < 2 ^ row.lenBits → e' < 2 ^ row.extBits →
      assembleLen row f e = assembleLen row f' e' → f = f' ∧ (0 < row.extBits → f = row.esc → e = e')) ∧
    (∀ D, 1 ≤ D → D ≤ row.maxDisp → D - 1 < 2 ^ row.dispBits ∧ assembleDisp (D - 1) = D) ∧
    ∀ d, d < 2 ^ row.dispBits → 1 ≤ assembleDisp d ∧ assembleDisp d ≤ row.maxDisp

/-! ## The machine -/

/-- A step whose next move is an operation word that decodes to a well-formed instruction is that instruction's meaning,
with the move taken off the inbox; and so is a write of `CMD`, and a write of `CFG` with bit 8 set (R23, R261, R110; log
entries 1 and 3). -/
def Obligations.StepRunsDecoded : Prop :=
  ∀ s : State, recordWf s.fmt s.kon = true →
    (∀ img rest i, s.inbox = .op img :: rest → decode img = .ok i → i.wf = true →
      step s = exec i { s with inbox := rest }) ∧
    (∀ v rest, s.inbox = .writeReg 0 v :: rest → step s = exec (commandOf (v % 4)) { s with inbox := rest }) ∧
    ∀ o h c rest, s.inbox = .writeReg 2 (1#1 ++ identByte o h c).toNat :: rest →
      step s = exec (.configure o h c) { s with inbox := rest }

/-- The host's other moves, while the engine is not busy: it writes `SRC` bytes and `SRC_LEN`, reads the registers and
`DST[0..DST_LEN)`; a write of `CFG` without bit 8 is stored while `VALID = 0`. While the engine is busy it has no move (R27,
R35, R36, R43, R261); the model refuses it (log entry 22). Writes of read-only registers are ignored (the spec's U33). That
moves wait in an inbox, and that a read leaves its value in `bus`, is log entries 3 and 14; that a length beyond 32 bits
reads modulo `2^32`, log entry 13. -/
def Obligations.HostMoves : Prop :=
  ∀ s : State, recordWf s.fmt s.kon = true →
    (s.busy = false →
      (∀ a b rest, a < 2 ^ 32 → s.inbox = .writeSrc a b :: rest →
        step s = .next { s with inbox := rest, src := s.src.write a b }) ∧
      (∀ a rest, a < s.dstLen → a < 2 ^ 32 → s.inbox = .readDst a :: rest →
        step s = .next { s with inbox := rest, bus := (s.dst.read a).toNat }) ∧
      (∀ v rest, v < 2 ^ 32 → s.inbox = .writeReg 4 v :: rest → step s = .next { s with inbox := rest, srcLen := v }) ∧
      (∀ v rest, v < 256 → s.cfgValid = false → s.inbox = .writeReg 2 v :: rest →
        step s = .next { s with inbox := rest, cfg := BitVec.ofNat 9 v }) ∧
      (∀ n v rest, n ∈ [1, 3, 5, 6, 7] → s.inbox = .writeReg n v :: rest → step s = .next { s with inbox := rest }) ∧
      ∀ n v rest, (n, v) ∈ [(1, s.status.toNat), (2, s.cfg.toNat), (3, s.fmt.toNat), (4, s.srcLen % 2 ^ 32),
          (5, s.dstLen % 2 ^ 32), (6, s.ident.toNat), (7, s.dsize % 2 ^ 32)] →
        s.inbox = .readReg n :: rest → step s = .next { s with inbox := rest, bus := v }) ∧
    (s.busy = true → ∀ rest,
      (∀ n v, n < 8 → s.inbox = .writeReg n v :: rest → step s = .refused .hostBusy) ∧
      (∀ n, 1 ≤ n → n < 8 → s.inbox = .readReg n :: rest → step s = .refused .hostBusy) ∧
      (∀ a b, a < 2 ^ 32 → s.inbox = .writeSrc a b :: rest → step s = .refused .hostBusy) ∧
      ∀ a, a < 2 ^ 32 → s.inbox = .readDst a :: rest → step s = .refused .hostBusy)

/-- `STATUS` as R25 lays it out: `PHASE` in [3:0] by R24's numbers 0 to 15, `BUSY` 1 exactly when `PHASE` is none of `Idle`,
`Done`, `Failed`, `DONE` exactly when it is `Done`, `ERR` in [8:6] by R361's codes 0 to 5. -/
def Obligations.StatusRegister : Prop :=
  ∀ s : State,
    (∀ p n, (p, n) ∈ [(Phase.idle, 0#4), (.readHeader, 1#4), (.validateMagic, 2#4), (.dispatchModes, 3#4), (.decode, 4#4),
        (.deobfuscate, 5#4), (.done, 6#4), (.failed, 7#4), (.checkConfig, 8#4), (.materialize, 9#4), (.obfuscate, 10#4),
        (.findMatches, 11#4), (.parse, 12#4), (.buildTree, 13#4), (.writeHeader, 14#4), (.emit, 15#4)] →
      (s.phase = p ↔ s.status.extractLsb' 0 4 = n)) ∧
    (s.status.getLsbD 4 = true ↔ s.phase ≠ .idle ∧ s.phase ≠ .done ∧ s.phase ≠ .failed) ∧
    (s.status.getLsbD 5 = true ↔ s.phase = .done) ∧
    ∀ e n, (e, n) ∈ [(none, 0#3), (some ErrKind.formatMismatch, 1#3), (some .corruptStream, 2#3), (some .unsupportedMode, 3#3),
        (some .notConfiguredForCompression, 4#3), (some .unimplementedTransform, 5#3)] →
      (s.err = e ↔ s.status.extractLsb' 6 3 = n)

/-- Every instruction answers a next state: the only host commands that are refused are those the host does not have (R43,
R261, R272; R370; log entry 22). That unit operations, tokens and ident values run alone is log entry 1. -/
def Obligations.EveryInstructionAnswers : Prop :=
  ∀ (i : Instr) (s : State), s.busy = false → (i = .encode → s.srcLen ≤ s.fmt.maxInput) →
    (∀ o h c, i = .configure o h c → s.cfgValid = false) → ∃ t, exec i s = .next t

/-- The invariant holds right after reset. That the record is the reference one is log entry 5; the draws are log entry 8. -/
def Obligations.InvAtReset : Prop := Inv State.reset

/-- Every step keeps the invariant: memories canonical, `ERR ≠ 0` exactly when `PHASE = 7`, the engine at rest, `SRC_LEN`
and `DSIZE` within 32 bits, a fresh draw for every memory's free bytes, a well-formed record (R24, R25, R26, R27, R8). That
a command is one step is log entry 2, that the step refuses an ill-formed record log entry 6; the draws are log entry 8. -/
def Obligations.InvKeptByEveryStep : Prop := ∀ s t : State, Inv s → step s = .next t → Inv t

/-- What no instruction changes but those named: the construction constants by none; `SRC`, `SRC_LEN` by RESET only; `CFG`
by CONFIGURE and RESET only; `IDENT`, `DSIZE`, the returned value by those listed; `STATUS` by the commands, and else only
by an error (R20, R21, R22, R26, R27, R36, R76, R366). That rows run alone leave `STATUS` unless they raise is log entry 1;
the row HEADER and the ident rows, log entries 17 and 15; what RESET keeps, log entry 12; `ret` and `bus`, log entry 14;
what an error of a row run alone leaves, log entry 44. -/
def Obligations.RegisterFrame : Prop :=
  ∀ (i : Instr) (s t : State), exec i s = .next t →
    t.fmt = s.fmt ∧ t.kon = s.kon ∧ t.inbox = s.inbox ∧ t.bus = s.bus ∧ s.draws ≤ t.draws ∧
    (i ≠ .reset → t.src = s.src ∧ t.srcLen = s.srcLen) ∧
    (i.setsCfg = false → t.cfg = s.cfg) ∧ (i.setsIdent = false → t.ident = s.ident) ∧
    (i.setsDsize = false → t.dsize = s.dsize) ∧ (i.returns = false → t.ret = s.ret) ∧
    (i.isCommand = false → (t.phase = s.phase ∧ t.err = s.err) ∨ (t.phase = .failed ∧ t.err.isSome = true))

/-- Each unit operation leaves every datapath register and every table unchanged but those its rule writes (R28 to R32, R37,
R38). That an error of a row run alone changes no other register or table (R366) is log entry 44; that `makeLeaves` drops
the root, and that `F` and root are state, log entry 27; what the ident, TOKEN and TREETABLE rows write, log entries 15, 16,
17. -/
def Obligations.CallFrame : Prop :=
  ∀ (i : Instr) (s t : State), exec i s = .next t → i.keepsCall s.call t.call

/-- Each instruction but HEADER, `ReadHeader`/`ValidateMagic`, `Materialize`, DECODE, ENCODE and RESET leaves every byte of
`DST` and `WORK` unchanged but those it stores: at `DST_LEN` on, up to the new `DST_LEN`; in place, below `DSIZE`; the
header, from offset 0 (R36, R60). The rows excepted leave bytes of one of the two spaces free, or clear them (log entries
10, 11, 12, 31), and nothing is said of a space such a row discards; of the other space, the frame is. That a byte at or
beyond `DST_LEN`, which U25 lets hold any value, keeps its own is log entry 11. Of `deobfuscate` under a construction's own
transform table it is said for a table that keeps lengths, as R246 asks. That rows run alone that raise (token loop, LIT,
MATCH, `deserialise`, `raise K`) leave the bytes as they were at the error is log entry 44; how a transform row run alone
finds its buffer, log entry 30. -/
def Obligations.MemoryFrame : Prop :=
  ∀ (i : Instr) (s t : State), exec i s = .next t →
    (i = .deobfuscate → ∀ m b, (deobfOf s.kon m b).length = b.length) →
    i.dstStores.keeps s.dsize s.dst t.dst s.dstLen t.dstLen ∧ i.workStores.keeps s.dsize s.work t.work s.dsize s.dsize

/-- DECODE and ENCODE end in `Done` or `Failed`, with `ERR` 0 in `Done` and a kind of that command's own in `Failed`; a
DECODE that is `Done` has produced `DSIZE` bytes (R25, R263, R270, R360, R362, R370). -/
def Obligations.CommandsEndAtRest : Prop :=
  ∀ s t : State, recordWf s.fmt s.kon = true →
    (exec .decode s = .next t →
      (t.phase = .done ∧ t.err = none ∧ t.dstLen = t.dsize) ∨
      (t.phase = .failed ∧ t.err ∈ [some .formatMismatch, some .corruptStream, some .unimplementedTransform])) ∧
    (exec .encode s = .next t →
      (t.phase = .done ∧ t.err = none) ∨
      (t.phase = .failed ∧
        t.err ∈ [some .notConfiguredForCompression, some .unsupportedMode, some .unimplementedTransform]))

/-- No per-call state outlives a command: a DECODE or ENCODE from any of the three resting phases, with any error kind of
the last command and anything left in the datapath registers, the tables and `WORK`, comes to the same (R41, R369,
R405). The next states are equated whole: that what U21 and U23 leave free afterwards (the per-call state and `WORK`, and
`DST` and `DST_LEN` of a DECODE that failed) is equal too is the model's choice (log entries 8, 9, 10: free values are functions
of a counter of draws). -/
def Obligations.CommandsForgetCallState : Prop :=
  ∀ (i : Instr) (s : State) (c : Call) (w : Mem) (p : Phase) (e : Option ErrKind),
    (i = .decode ∨ i = .encode) → s.busy = false → p.busy = false →
    exec i { s with call := c, work := w, phase := p, err := e } = exec i s

/-- DECODE neither reads nor needs `CFG`: with another `CFG` it does the same and leaves that `CFG` as it is (R22,
R263). The next states are equated whole: that what U21 and U23 leave free afterwards is equal too is the model's choice (log
entries 8, 9, 10: free values are functions of a counter of draws). -/
def Obligations.DecodeIgnoresConfiguration : Prop :=
  ∀ (s t : State) (v : BitVec 9), exec .decode s = .next t → exec .decode { s with cfg := v } = .next { t with cfg := v }

/-- Both commands are functions of their inputs: of `SRC[0..SRC_LEN)` and the construction constants, and for ENCODE of
`CFG`; two instances that agree on those end alike, with the same output when they are `Done` (R40, R282). -/
def Obligations.CommandsAreFunctions : Prop :=
  ∀ (i : Instr) (s s' t t' : State), (i = .decode ∨ i = .encode) → recordWf s.fmt s.kon = true →
    s'.fmt = s.fmt → s'.kon = s.kon → s'.srcLen = s.srcLen → (i = .encode → s'.cfg = s.cfg) →
    (∀ a, a < s.srcLen → s'.src.read a = s.src.read a) → exec i s = .next t → exec i s' = .next t' →
    t'.phase = t.phase ∧ t'.err = t.err ∧
    (t.phase = .done →
      t'.ident = t.ident ∧ t'.dsize = t.dsize ∧ t'.dstLen = t.dstLen ∧ ∀ a, a < t.dstLen → t'.dst.read a = t.dst.read a)

/-! ## The plain commands, and errors -/

/-- NOP changes nothing; CONFIGURE stores the three modes with `VALID = 1` and changes nothing else; both only while the
engine is not busy, CONFIGURE only while `VALID = 0` (R43, R261, R278; its refusal else is log entry 22). `raise K` writes
`ERR` and `PHASE` and nothing else, so that `BUSY` and `DONE` are 0 (R366); the row of mode 5 raises
`UnimplementedTransform` (R336; that it does so under every record is log entry 34). That `raise K` run alone leaves the
output too is log entry 44. -/
def Obligations.PlainRows : Prop :=
  (∀ (k : ErrKind) (s : State), exec (.raise k) s = .next { s with err := some k, phase := .failed }) ∧
  (∀ s : State, exec .lz5 s = .next { s with err := some .unimplementedTransform, phase := .failed }) ∧
  ∀ s : State, s.busy = false →
    exec .nop s = .next s ∧
    ∀ (o : BitVec 3) (h : BitVec 2) (c : BitVec 3),
      (s.cfgValid = false →
        exec (.configure o h c) s = .next
          { s with cfg := (1#9 <<< 8) ||| (o.setWidth 9 <<< 5) ||| (h.setWidth 9 <<< 3) ||| c.setWidth 9 }) ∧
      (s.cfgValid = true → exec (.configure o h c) s = .refused .alreadyConfigured)

/-- RESET gives `CFG`, `STATUS`, the lengths, `IDENT`, `DSIZE` and `MCOUNT` the value 0 and keeps the construction constants;
the machine after power-on has the same values (R42, R260, R400, R401, R402). -/
def Obligations.ResetValues : Prop :=
  (∀ s : State, s.busy = false → ∃ t, exec .reset s = .next t ∧
    t.cfg = 0 ∧ t.status = 0 ∧ t.phase = .idle ∧ t.err = none ∧ t.srcLen = 0 ∧ t.dstLen = 0 ∧ t.ident = 0 ∧ t.dsize = 0 ∧
    t.call.mcount = 0 ∧ t.fmt = s.fmt ∧ t.kon = s.kon ∧ t.cfgValid = false) ∧
  State.reset.cfg = 0 ∧ State.reset.status = 0 ∧ State.reset.srcLen = 0 ∧ State.reset.dstLen = 0 ∧
  State.reset.ident = 0 ∧ State.reset.dsize = 0 ∧ State.reset.call.mcount = 0

/-- The twenty rows of the ident byte: each writes its sub-field of `IDENT`; an implemented value selects (for `HMODE`, it
sets `HW`), `CMODE = 5` of the reference table is `UnimplementedTransform`, a reserved value is an error of the kind R363
gives the command: `UnsupportedMode` in ENCODE's phases, 8 to 15, else `CorruptStream`. That the sub-field is written before
the check, and the kind read off the phase, is log entry 15. What an error of a row run alone leaves is log entry 44. The
rows of one sub-field alone, `HW` among what they set, are log entry 15. -/
def Obligations.IdentRowsSelect : Prop :=
  ∀ s : State,
    (∀ i c, (i, c) ∈ [(Instr.cmodeLz412, 0#3), (.cmodeLz38, 1#3), (.cmodeLz816, 2#3), (.cmodeLzd115, 3#3),
        (.cmodeLzx412, 4#3), (.cmodeLz5, 5#3), (.cmode6, 6#3), (.cmode7, 7#3)] →
      (c ∈ s.kon.recognized → c ∈ s.kon.implemented →
        exec i s = .next { s with ident := identByte (omodeOf s.ident) (hmodeOf s.ident) c }) ∧
      (c ∈ s.kon.recognized → c ∉ s.kon.implemented →
        exec i s = .next { s with
          ident := identByte (omodeOf s.ident) (hmodeOf s.ident) c, err := some .unimplementedTransform, phase := .failed }) ∧
      (c ∉ s.kon.recognized →
        exec i s = .next { s with
          ident := identByte (omodeOf s.ident) (hmodeOf s.ident) c, phase := .failed
          err := some (if 8 ≤ s.phase.code.toNat then .unsupportedMode else .corruptStream) })) ∧
    (∀ i h w, (i, h, w) ∈ [(Instr.hmodeNone, 0#2, SymWidth.raw), (.hmodeH4, 1#2, .w4), (.hmodeH8, 2#2, .w8)] →
      exec i s = .next { s with
        ident := identByte (omodeOf s.ident) h (cmodeOf s.ident), call := { s.call with hw := w } }) ∧
    exec .hmode3 s = .next { s with
      ident := identByte (omodeOf s.ident) 3 (cmodeOf s.ident), phase := .failed
      err := some (if 8 ≤ s.phase.code.toNat then .unsupportedMode else .corruptStream) } ∧
    (∀ i o, (i, o) ∈ [(Instr.omodeNone, 0#3), (.omodeComplement, 1#3), (.omodeXorpos, 2#3), (.omodePairswap, 3#3),
        (.omodeXorchain, 4#3)] →
      exec i s = .next { s with ident := identByte o (hmodeOf s.ident) (cmodeOf s.ident) }) ∧
    ∀ i o, (i, o) ∈ [(Instr.omode5, 5#3), (.omode6, 6#3), (.omode7, 7#3)] →
      exec i s = .next { s with
        ident := identByte o (hmodeOf s.ident) (cmodeOf s.ident), phase := .failed
        err := some (if 8 ≤ s.phase.code.toNat then .unsupportedMode else .corruptStream) }

/-! ## The bit-stream engine -/

/-- `openWriter`, `writeBits`, `writeByte`, `flush`, `openReader`: what each does to the registers; the bits a write appends
are the low `bitCount` bits of its value, the most significant first under `BITORDER = MSB` (R130, R131, R133, R134, R135).
Where appended bits go, and that `flush` pads with zero bits, is the statement `BitPlacement`. Of a writer with `WR_FILL` at
or above `WORDBITS`, which a write run alone without `openWriter` can find, it is log entry 43. That bytes beyond the new
`DST_LEN` keep their values is log entry 11. -/
def Obligations.WriterOperations : Prop :=
  ∀ s : State,
    exec .openWriter s = .next { s with call := { s.call with wr := ⟨0, 0, 0⟩ } } ∧
    (∀ i value n, i = .writeBits value n ∨ (i = .writeByte value ∧ n = 8) →
      exec i s = .next (s.withSink (s.sink.putBits s.fmt
        (if s.fmt.lsbFirst then (List.range n).map value.testBit else ((List.range n).map value.testBit).reverse)))) ∧
    (s.call.wr.fill = 0 → exec .flush s = .next s) ∧
    (0 < s.call.wr.fill → exec .flush s = .next { s with
      dst := s.dst.writeList s.dstLen (bytesOfWord s.fmt s.call.wr.acc)
      dstLen := s.dstLen + s.fmt.wordBytes
      call := { s.call with wr := ⟨0, 0, s.call.wr.bits⟩ } }) ∧
    exec .openReader s = .next { s with call := { s.call with rd := ⟨s.fmt.hdrLen, 0, 0⟩ } }

/-- Where the bits of a stream stand: bit `k` is the bit `j = k mod WORDBITS` of word `k div WORDBITS`, at place
`WORDBITS - 1 - j` (MSB) or `j` (LSB) of the word's value, which stands in `WORDBYTES` bytes from the base on, in
`BYTEORDER`; the padding of `flush` is zero bits (R132, R131, R134). -/
def Obligations.BitPlacement : Prop :=
  ∀ (s t : State) (ws : List (Nat × Nat)), s.fmt.wf →
    runAll (.openWriter :: ws.map (fun w => .writeBits w.1 w.2) ++ [.flush]) s = .next t →
    ∀ k, s.dstLen + k / s.fmt.wordBits * s.fmt.wordBytes < t.dstLen →
      (let bytes := t.dst.slice (s.dstLen + k / s.fmt.wordBits * s.fmt.wordBytes) s.fmt.wordBytes
       let j := k % s.fmt.wordBits
       (if s.fmt.bigEnd then beNat bytes else leNat bytes).testBit (if s.fmt.lsbFirst then j else s.fmt.wordBits - 1 - j)) =
      (ws.flatMap fun w => streamOfValue s.fmt w.1 w.2).getD k false

/-- R141: "After `openWriter`, writes totalling `T` bits and `flush`, exactly `WORDBYTES * ceil(T / WORDBITS)` bytes have
been appended to `DST`, and `WR_BITS = T`"; the bytes below the old `DST_LEN` are unchanged. -/
def Obligations.WrittenLength : Prop :=
  ∀ (s : State) (ws : List (Nat × Nat)), s.fmt.wf →
    ∃ t, runAll (.openWriter :: ws.map (fun w => .writeBits w.1 w.2) ++ [.flush]) s = .next t ∧
      t.dstLen = s.dstLen + s.fmt.wordBytes * (((ws.map Prod.snd).sum + s.fmt.wordBits - 1) / s.fmt.wordBits) ∧
      t.call.wr.bits = (ws.map Prod.snd).sum ∧ ∀ a, a < s.dstLen → t.dst.read a = s.dst.read a

/-- R139, the mirror law: values written, flushed, and read back with the same widths by a reader opened where the writer
was come back modulo their widths, and then the padding reads as zeros. -/
def Obligations.MirrorLaw : Prop :=
  ∀ (s t u : State) (ws : List (Nat × Nat)), s.fmt.wf →
    runAll (.openWriter :: ws.map (fun w => .writeBits w.1 w.2) ++ [.flush]) s = .next t →
    u.fmt = s.fmt → u.srcLen = t.dstLen → (∀ a, s.dstLen ≤ a → a < t.dstLen → u.src.read a = t.dst.read a) →
    u.call.rd = ⟨s.dstLen, 0, 0⟩ →
    ∃ v, readMany (ws.map Prod.snd) u = .ok (ws.map fun w => w.1 % 2 ^ w.2) v ∧
      ∀ n, (ws.map Prod.snd).sum + n ≤ s.fmt.wordBits * (((ws.map Prod.snd).sum + s.fmt.wordBits - 1) / s.fmt.wordBits) →
        ∃ x, readBits n v = .ok 0 x

/-- R136 to R138, R301: a read completes exactly when its bits are among those of the word held and of the words wholly
present, and then its value is those bits, first most significant under `BITORDER = MSB`; else it raises `CorruptStream`
(R136, R138; R301 for `readValue` on the raw path). Of a reader with `RD_AVAIL` above `WORDBITS` it is log entry 43. What an
error of a row run alone leaves is log entry 44. That the value is left in `ret` is log entry 14; that `readValue` on the
raw path run alone does so under every `HW`, log entry 33. -/
def Obligations.ReaderOperations : Prop :=
  ∀ (i : Instr) (s : State) (n : Nat), i = .readBits n ∨ ((i = .readByte ∨ i = .valueRaw .read) ∧ n = 8) →
    (n ≤ s.bitsAhead.length → ∃ r : Reader,
      exec i s = .next { s.withReader r with
        ret := if s.fmt.lsbFirst then natLsb (s.bitsAhead.take n) else natLsb (s.bitsAhead.take n).reverse } ∧
      (s.withReader r).bitsAhead = s.bitsAhead.drop n) ∧
    (s.bitsAhead.length < n → ∃ r : Reader, exec i s = .next (takeError .corruptStream (s.withReader r)))

/-! ## Match finder and parser -/

/-- The definition of R162: after `findMatches`, `CAND` has one entry for each position of `WORK[0..DSIZE)`, the longest run
and the smallest displacement that has it, or none below `MINLEN`. -/
def Obligations.FindMatchesSpec : Prop :=
  ∀ (s : State) (row : ModeRow), s.row = some row → row.wf = true →
    ∃ t, exec .findMatches s = .next t ∧ t.call.cand.length = s.dsize ∧
      (∀ p, p < s.dsize → candSpec row s.workBytes p (t.call.cand[p]?).join) ∧
      t = { s with call := { s.call with cand := t.call.cand, tk := { s.call.tk with p := t.call.tk.p } } }

/-- R163: a candidate and every shortening of it down to `MINLEN` is a valid, encodable match; and where an encodable match
exists there is a candidate at least as long. R165: "More precisely no candidate exists when `n ≤ MINLEN`". -/
def Obligations.CandidatesEncodable : Prop :=
  ∀ (s t : State) (row : ModeRow), s.row = some row → row.wf = true → exec .findMatches s = .next t →
    (∀ (p l d : Nat), (t.call.cand[p]?).join = some (l, d) →
      ∀ l', row.minLen ≤ l' → l' ≤ l → encodableMatch row s.workBytes p l' d) ∧
    (∀ (p l d : Nat), encodableMatch row s.workBytes p l d → ∃ l' d', (t.call.cand[p]?).join = some (l', d') ∧ l ≤ l') ∧
    (s.dsize ≤ row.minLen → ∀ p : Nat, (t.call.cand[p]?).join = none)

/-- R184 and R185, for every price calculator: `COST[n] = 0`; at each position `COST[p]` is the cost of the choice `ADV[p]`,
no choice costs less, and none of the same cost advances further. The premises admit candidates of another mode, below
`MINLEN` or above `MAXLEN` (log entry 45), and a `CAND` with entries missing or to spare (log entry 20); where `P` ends is
left open. -/
def Obligations.CostToEndRecurrence : Prop :=
  ∀ (s : State) (row : ModeRow), s.row = some row → row.wf = true →
    (∀ (p L d : Nat), (s.call.cand[p]?).join = some (L, d) → p + L ≤ s.dsize) →
    ∃ t, exec .parseCostToEnd s = .next t ∧ t.call.cost.length = s.dsize + 1 ∧ t.call.adv.length = s.dsize ∧
      t.call.cost.getD s.dsize 0 = 0 ∧
      (let choice : Nat → Nat → Nat → Prop := fun p a c =>
         (a = 1 ∧ c = literalCost s.kon (s.workBytes.getD p 0) + t.call.cost.getD (p + 1) 0) ∨
         ∃ L d, (s.call.cand[p]?).join = some (L, d) ∧ row.minLen ≤ a ∧ a ≤ L ∧
           c = matchCost s.kon row (cmodeOf s.ident) a d + t.call.cost.getD (p + a) 0
       ∀ p, p < s.dsize →
         choice p (t.call.adv.getD p 0) (t.call.cost.getD p 0) ∧
         ∀ a c, choice p a c → t.call.cost.getD p 0 < c ∨ (t.call.cost.getD p 0 = c ∧ a ≤ t.call.adv.getD p 0)) ∧
      t = { s with call := { s.call with
        cost := t.call.cost, adv := t.call.adv, tk := { s.call.tk with p := t.call.tk.p } } }

/-- R188 (1) and (3), R186: the two steps of `parse` give the matches of a token sequence that covers the buffer exactly, of
priced size `COST[0]`, and no covering sequence of literals and viable matches has a smaller one. The premises admit
candidates of another mode (log entry 45) and a `CAND` with entries missing or to spare (log entry 20). -/
def Obligations.ParseOptimal : Prop :=
  ∀ (s : State) (row : ModeRow), s.row = some row → row.wf = true →
    (∀ (p L d : Nat), (s.call.cand[p]?).join = some (L, d) → p + L ≤ s.dsize) →
    ∃ t ks, runAll [.parseCostToEnd, .parseWalk] s = .next t ∧
      tokensCover s.workBytes 0 ks ∧ tokensViable row.minLen s.call.cand 0 ks ∧
      t.call.mlist = matchesAt 0 ks ∧ t.call.mcount = t.call.mlist.length ∧
      t.call.cost.getD 0 0 = tokensPrice s.kon row (cmodeOf s.ident) ks ∧
      ∀ ks', tokensCover s.workBytes 0 ks' → tokensViable row.minLen s.call.cand 0 ks' →
        tokensPrice s.kon row (cmodeOf s.ident) ks ≤ tokensPrice s.kon row (cmodeOf s.ident) ks'

/-- R186: the walk's matches are strictly increasing by position and do not overlap; and R187: without candidates there is
none, which is no error (that this holds whatever `ADV` and `CAND` say, in range or not, is log entry 20). -/
def Obligations.WalkOrdered : Prop :=
  ∀ s : State, ∃ t, exec .parseWalk s = .next t ∧ t.call.mcount = t.call.mlist.length ∧
    (t.call.mlist.Pairwise fun a b => a.position < b.position ∧ a.position + a.length ≤ b.position) ∧
    (∀ m ∈ t.call.mlist, m.position < s.dsize ∧ m.length = s.call.adv.getD m.position 0 ∧ 1 < m.length ∧
      ∃ L, (s.call.cand[m.position]?).join = some (L, m.displacement)) ∧
    ((∀ p : Nat, (s.call.cand[p]?).join = none) → t.call.mlist = [] ∧ t.call.mcount = 0) ∧
    t = { s with call := { s.call with
      mlist := t.call.mlist, mcount := t.call.mcount, tk := { s.call.tk with p := t.call.tk.p } } }

/-! ## The Huffman unit -/

/-- `tally` counts each symbol among the bytes of `WORK` that no match covers (R201, R202); `makeLeaves(F)` makes one leaf
for each symbol of nonzero frequency, in ascending order of symbols, `seq` its index (R203). That there is no symbol under
`HW = 0` is log entry 37. That `makeLeaves` drops the root of the tree the arena held is log entry 27; a table shorter than
the alphabet, and an `MCOUNT` above the entries `MLIST` has, log entry 20. -/
def Obligations.TallyAndLeaves : Prop :=
  ∀ s : State,
    (∃ t, exec .tally s = .next t ∧ t = { s with call := { s.call with freq := t.call.freq } } ∧
      t.call.freq.length = alphabet s.call.hw ∧
      ∀ sym, sym < alphabet s.call.hw → t.call.freq.getD sym 0 =
        (((List.range s.dsize).filter fun p => (s.call.mlist.take s.call.mcount).all fun m => !m.covers p).flatMap
          fun p => match s.call.hw with
            | .raw => []
            | .w4 => [(s.work.read p).toNat / 16, (s.work.read p).toNat % 16]
            | .w8 => [(s.work.read p).toNat]).count sym) ∧
    ∀ src F, (src, F) ∈ [(FreqSource.freq, s.call.freq), (.scaled, s.call.scaled)] →
      ∃ t, exec (.makeLeaves src) s = .next t ∧
        t = { s with call := { s.call with hnode := t.call.hnode, hroot := none } } ∧
        t.call.hnode.length = (livingSymbols s.call.hw F).length ∧
        ∀ k sym, (livingSymbols s.call.hw F)[k]? = some sym →
          t.call.hnode[k]? = some (HuffNode.mk (F.getD sym 0) true sym none none k)

/-- R204: from `m ≥ 2` leaves, node `k` from `m` on joins the two live nodes of least (frequency, `seq`), the least as child
0; the root is node `2m - 2`, and its frequency is the sum of all. R209: one leaf gives a root with that leaf as its only
child (the root's frequency, and what no leaf gives, are log entry 21). `F` shorter than the alphabet is log entry 20, an
empty alphabet log entry 37; that the root is state, log entry 27. -/
def Obligations.MergeLeastPairs : Prop :=
  ∀ (s : State) (F : List Nat), s.call.hnode = leavesOf s.call.hw F →
    ∃ t, exec .merge s = .next t ∧
      t = { s with call := { s.call with hnode := t.call.hnode, hroot := t.call.hroot } } ∧
      (∀ j, j < s.call.hnode.length → t.call.hnode[j]? = s.call.hnode[j]?) ∧
      (s.call.hnode.length = 0 → t.call.hnode = [] ∧ t.call.hroot = none) ∧
      (∀ leaf, s.call.hnode = [leaf] →
        t.call.hnode = [leaf, HuffNode.mk leaf.frequency false 0 (some 0) none 1] ∧ t.call.hroot = some 1) ∧
      (2 ≤ s.call.hnode.length →
        t.call.hnode.length = 2 * s.call.hnode.length - 1 ∧ t.call.hroot = some (2 * s.call.hnode.length - 2) ∧
        (∃ r, t.call.hnode[2 * s.call.hnode.length - 2]? = some r ∧
          r.frequency = ((livingSymbols s.call.hw F).map fun sym => F.getD sym 0).sum) ∧
        ∀ k, s.call.hnode.length ≤ k → k < 2 * s.call.hnode.length - 1 → ∃ a b x y,
          t.call.hnode[a]? = some x ∧ t.call.hnode[b]? = some y ∧ a ≠ b ∧
          t.call.hnode[k]? = some (HuffNode.mk (x.frequency + y.frequency) false 0 (some a) (some b) k) ∧
          liveAt t.call.hnode k a ∧ liveAt t.call.hnode k b ∧
          (∀ j z, liveAt t.call.hnode k j → t.call.hnode[j]? = some z → j = a ∨ x.before z = true) ∧
          ∀ j z, liveAt t.call.hnode k j → t.call.hnode[j]? = some z → j = a ∨ j = b ∨ y.before z = true)

/-- R205: `limitDepth` halves the counts, rounding up, as often as the tree is deeper than 16 levels and no oftener; the
tree it leaves is the merge tree of the scaled counts, at most 16 levels deep; a symbol has a leaf exactly if it had a
count; with 4-bit symbols nothing is scaled. Without a count it leaves no leaf and no tree (log entry 21), and under `HW =
0` too (log entry 37); a `FREQ` shorter than the alphabet is log entry 20, one longer log entry 37; that `F` and root are
state, log entry 27. -/
def Obligations.LimitDepthSpec : Prop :=
  ∀ s : State, ∃ t r, exec .limitDepth s = .next t ∧
    t.call.scaled = (List.map halveUp)^[r] s.call.freq ∧
    t.tree = mergeLeaves (leavesOf s.call.hw t.call.scaled) ∧ treeDepth t.tree ≤ 16 ∧
    (∀ k, k < r → 16 < treeDepth (mergeLeaves (leavesOf s.call.hw ((List.map halveUp)^[k] s.call.freq)))) ∧
    (∀ sym, 0 < t.call.scaled.getD sym 0 ↔ 0 < s.call.freq.getD sym 0) ∧ (s.call.hw = .w4 → r = 0) ∧
    t = { s with call := { s.call with scaled := t.call.scaled, hnode := t.call.hnode, hroot := t.call.hroot } }

/-- R207, R208 (1), (2), (4), R209: the three passes of `canonicalise`. Level by level from the root, the next level is the
old children of the level's internal nodes in its canonical order, its leaves first across the whole level; the `k`-th
internal node of a level gets the nodes `2k` and `2k + 1` of the next; each internal node's frequency is the sum of its
children's. Every node keeps its level and what it is, leaves and the root their frequency; the symbols of each level stand
in that canonical order; done twice it is done once. The one-symbol tree it leaves as it is (R209), and no tree too (log
entry 21). Of a tree deeper than 16 levels, which `limitDepth` leaves none of, it is log entry 42. -/
def Obligations.CanonicaliseKeepsLeaves : Prop :=
  ∀ (s : State) (F : List Nat), s.tree = mergeLeaves (leavesOf s.call.hw F) →
    ∃ t, exec .canonicalise s = .next t ∧ t = { s with call := { s.call with hnode := t.call.hnode } } ∧
      t.call.hnode.length = s.call.hnode.length ∧
      (∀ i n, s.call.hnode[i]? = some n → ∃ n', t.call.hnode[i]? = some n' ∧
        n'.isLeaf = n.isLeaf ∧ n'.code = n.code ∧ n'.seq = n.seq ∧ (n.isLeaf = true → n' = n) ∧
        (s.call.hroot = some i → n'.frequency = n.frequency)) ∧
      leafLevels t.tree = leafLevels s.tree ∧
      (∀ n c0 c1, n ∈ t.call.hnode → n.child0 = some c0 → n.child1 = some c1 →
        n.frequency = freqAt t.call.hnode c0 + freqAt t.call.hnode c1 ∧
        (isLeafAt t.call.hnode c1 = true → isLeafAt t.call.hnode c0 = true)) ∧
      (s.call.hroot = none → t = s) ∧
      (∀ r n, s.call.hroot = some r → s.call.hnode[r]? = some n → n.child1 = none → t = s) ∧
      (∀ r n, s.call.hroot = some r → s.call.hnode[r]? = some n → n.child1.isSome = true → ∃ canon : List (List Nat),
        canon[0]? = some [r] ∧ List.Perm canon.flatten (List.range s.call.hnode.length) ∧
        (∀ d level, canon[d]? = some level →
          (canon[d + 1]? = none ↔ level.filter (fun i => !isLeafAt s.call.hnode i) = [])) ∧
        (∀ d level next, canon[d]? = some level → canon[d + 1]? = some next →
          let ints := level.filter fun i => !isLeafAt s.call.hnode i
          let old := ints.flatMap (childrenAt s.call.hnode)
          next = old.filter (isLeafAt s.call.hnode) ++ old.filter (fun i => !isLeafAt s.call.hnode i) ∧
          next.length = 2 * ints.length ∧
          ∀ k i, ints[k]? = some i → ∃ n', t.call.hnode[i]? = some n' ∧
            n'.child0 = next[2 * k]? ∧ n'.child1 = next[2 * k + 1]?) ∧
        leafLevels t.tree = (canon.drop 1).map fun level =>
          (level.filter (isLeafAt s.call.hnode)).map fun i => BitVec.ofNat 8 (((s.call.hnode[i]?).map HuffNode.code).getD 0)) ∧
      exec .canonicalise t = .next t

/-- R210: `serialise` fills `HCOUNT` and `HSYM` with the leaves of levels 1 to 16 in canonical order, and appends, level by
level, the count modulo 256 in 8 bits and the symbols in `W` bits each: `128 + W * m` bits. Run alone under `HW = 0`, where
`W` is 0, or under another `HW` than the tree was made with, this is log entry 37; without a root, log entry 21; of one
deeper than 16 levels, log entry 42. Of a writer with `WR_FILL` at or above `WORDBITS` it is log entry 43. Of an arena that
is no tree, or a tree not yet canonicalised, it is log entry 42. -/
def Obligations.SerialiseWritesTable : Prop :=
  ∀ s : State, ∃ levels : List (List Byte),
    levels = (leafLevels s.tree ++ List.replicate 16 []).take 16 ∧
    exec .serialise s = .next ({ s with call := { s.call with ht := tabOf levels } }.withSink
      (s.sink.putBits s.fmt (tableStream s.fmt s.call.hw levels))) ∧
    (tableStream s.fmt s.call.hw levels).length = 128 + symBits s.call.hw * levels.flatten.length

/-- R205 (1), R208 (1), R209, R214, R218: for the counts of any nonempty set of symbols, build, canonicalise and serialise
give a table that lists each of those symbols once, that no level of over-subscribes, that leaves no place free when there
are two symbols or more (and the code `1` free when there is one), and whose count bytes read back as they were. A `FREQ`
shorter or longer than the alphabet is log entries 20 and 37. -/
def Obligations.BuiltTableSound : Prop :=
  ∀ s : State, livingSymbols s.call.hw s.call.freq ≠ [] →
    ∃ t, runAll [.limitDepth, .canonicalise, .serialise] s = .next t ∧
      List.Perm t.call.ht.hsym ((livingSymbols s.call.hw s.call.freq).map (BitVec.ofNat 8)) ∧
      t.call.ht.total = t.call.ht.hsym.length ∧ t.call.ht.counts.sum = t.call.ht.hsym.length ∧
      (2 ≤ (livingSymbols s.call.hw s.call.freq).length → slotsLeft 2 t.call.ht.counts = some 0) ∧
      ((livingSymbols s.call.hw s.call.freq).length = 1 → t.call.ht.counts = 1 :: List.replicate 15 0) ∧
      treeLevelsWf s.call.hw 1 2 (splitLevels t.call.ht.counts t.call.ht.hsym) = true

/-- R97, R212, R214: `assignCodes` gives each symbol of a table that is not over-subscribed and lists no symbol twice the
code of its place in its level, 1 to 16 bits, and every other symbol none; no code is a prefix of another; and when no place
is left free every sixteen bits begin with a code. (Of a table with a symbol of `2^W` or more, log entry 39, nothing is
said.) Under `HW = 0`, where a table without symbols meets the premises, that `HCODE` has no entry is log entry 37. -/
def Obligations.AssignedCodesPrefixFree : Prop :=
  ∀ s : State, s.call.ht.fits → (s.call.ht.codeList.map Prod.fst).Nodup →
    (∀ p ∈ s.call.ht.codeList, p.1.toNat < alphabet s.call.hw) →
    ∃ t, exec .assignCodes s = .next t ∧ t = { s with call := { s.call with hcode := t.call.hcode } } ∧
      t.call.hcode.length = alphabet s.call.hw ∧
      (∀ sym bits, (sym, bits) ∈ s.call.ht.codeList ↔ ∃ c, t.call.hcode[sym.toNat]? = some (some c) ∧
        1 ≤ c.len ∧ c.len ≤ 16 ∧ c.code < 2 ^ c.len ∧ bits = bitsMsb c.len c.code) ∧
      (∀ p ∈ s.call.ht.codeList, ∀ q ∈ s.call.ht.codeList, p.2 <+: q.2 → p = q) ∧
      (slotsLeft 2 s.call.ht.counts = some 0 → ∀ bits : List Bool, bits.length = 16 →
        ∃ p ∈ s.call.ht.codeList, p.2 <+: bits)

/-- R213: `writeSymbol(s)` appends the bits of the symbol's code, root edge first, under either bit order. Of a symbol with
no code (which R213 says is never passed) it appends a free code of 1 to 16 bits (log entry 19). Of a writer with `WR_FILL`
at or above `WORDBITS`, and of a code outside R38's range, it is log entry 43. -/
def Obligations.WriteSymbolBits : Prop :=
  ∀ (s : State) (sym : Byte),
    (∀ c, s.call.hcode[sym.toNat]? = some (some c) →
      exec (.writeSymbol sym) s = .next (s.withSink (s.sink.putBits s.fmt (bitsMsb c.len c.code)))) ∧
    ∃ c : HuffCode, ((s.call.hcode[sym.toNat]?).join = none → 1 ≤ c.len ∧ c.len ≤ 16) ∧
      exec (.writeSymbol sym) s = .next (s.withSink (s.sink.putBits s.fmt (bitsMsb c.len c.code)))

/-- R216, R217 (1), for a tree table given as one word (log entry 17): a table no level of which is over-subscribed fills
`HCOUNT`, `HSYM` and `HT_TOTAL`, an incomplete one too; an over-subscribed level raises `CorruptStream`. What an error of a
row run alone leaves is log entry 44. That all sixteen levels of the word are read, also after an over-subscribed one, is
log entry 17. -/
def Obligations.TreetableFills : Prop :=
  ∀ (w : SymWidth) (levels : List (List Byte)) (s : State), levels.length = 16 →
    ((slotsLeft 2 (levels.map List.length)).isSome = true →
      exec (.treetable w levels) s = .next { s with call := { s.call with ht := tabOf levels } }) ∧
    (slotsLeft 2 (levels.map List.length) = none →
      ∃ tab, exec (.treetable w levels) s = .next (takeError .corruptStream (s.withTab tab)))

/-- R216, R217, R218: `deserialise` reads a tree table back from the stream as R210 writes it, consuming exactly its bits;
an over-subscribed level raises `CorruptStream`. Of a reader with `RD_AVAIL` above `WORDBITS` it is log entry 43. What an
error of a row run alone leaves is log entry 44. -/
def Obligations.DeserialiseReadsTable : Prop :=
  ∀ (s : State) (levels : List (List Byte)) (rest : List Bool), s.call.hw ≠ .raw → levels.length = 16 →
    treeLevelsWf s.call.hw 1 2 levels = true → s.bitsAhead = tableStream s.fmt s.call.hw levels ++ rest →
    ((slotsLeft 2 (levels.map List.length)).isSome = true →
      ∃ t, exec .deserialise s = .next t ∧
        t = { s with call := { s.call with rd := t.call.rd, ht := tabOf levels } } ∧ t.bitsAhead = rest) ∧
    (slotsLeft 2 (levels.map List.length) = none →
      ∃ x, exec .deserialise s = .next (takeError .corruptStream (s.withTabReader x)))

/-- R97, R219, R220: `readSymbol` on a stream that begins with a code of the table gives that code's symbol and consumes
exactly the code; on a stream that begins with no code of the table it raises `CorruptStream`. Of a reader with `RD_AVAIL`
above `WORDBITS` it is log entry 43. What an error of a row run alone leaves is log entry 44. That the symbol is left in
`ret` is log entry 14. -/
def Obligations.ReadSymbolDecodes : Prop :=
  ∀ s : State, s.call.ht.fits →
    (∀ sym bits rest, (sym, bits) ∈ s.call.ht.codeList → s.bitsAhead = bits ++ rest →
      ∃ t, exec .readSymbol s = .next t ∧ t.bitsAhead = rest ∧
        t = { s with call := { s.call with rd := t.call.rd, hc := t.call.hc }, ret := sym.toNat }) ∧
    ((∀ p ∈ s.call.ht.codeList, ¬ p.2 <+: s.bitsAhead) →
      ∃ x, exec .readSymbol s = .next (takeError .corruptStream (s.withHcReader x)))

/-! ## The transforms -/

/-- R241 to R245: what each transform row leaves in each byte of its buffer, `obfuscate` over `WORK` and `deobfuscate` over
`DST` (R240); bytes from `DSIZE` on, and everything else, are unchanged. That the rows do so on an instance with a
transform table of its own, and whatever `IDENT.OMODE` is, is log entry 30; that bytes of `DST` at or beyond `DST_LEN` keep their
values is log entry 11. -/
def Obligations.TransformBytes : Prop :=
  ∀ (s : State) (dir : Dir),
    exec (.obf0 dir) s = .next s ∧
    (∃ m, exec (.obf1 dir) s = .next (withBuffer dir s m) ∧ ∀ i,
      m.read i = if i < s.dsize then (bufferOf dir s).read i ^^^ 0xFF#8 else (bufferOf dir s).read i) ∧
    (∃ m, exec (.obf2 dir) s = .next (withBuffer dir s m) ∧ ∀ i,
      m.read i = if i < s.dsize then (bufferOf dir s).read i ^^^ BitVec.ofNat 8 (i % 256) else (bufferOf dir s).read i) ∧
    (∃ m, exec (.obf3 dir) s = .next (withBuffer dir s m) ∧
      (∀ k, 2 * k + 1 < s.dsize → m.read (2 * k) = (bufferOf dir s).read (2 * k + 1) ∧
        m.read (2 * k + 1) = (bufferOf dir s).read (2 * k)) ∧
      (s.dsize % 2 = 1 → m.read (s.dsize - 1) = (bufferOf dir s).read (s.dsize - 1)) ∧
      ∀ i, s.dsize ≤ i → m.read i = (bufferOf dir s).read i) ∧
    ∃ m, exec (.obf4 dir) s = .next (withBuffer dir s m) ∧
      (0 < s.dsize → m.read 0 = (bufferOf dir s).read 0) ∧
      (∀ i, i + 1 < s.dsize → m.read (i + 1) =
        (bufferOf dir s).read (i + 1) ^^^ (if dir = .obfuscate then (bufferOf dir s).read i else m.read i)) ∧
      ∀ i, s.dsize ≤ i → m.read i = (bufferOf dir s).read i

/-- R246: every transform of the reference table is undone by its inverse, both ways, and keeps the length. -/
def Obligations.TransformsInverse : Prop :=
  ∀ (m : Nat) (B : List Byte), m ≤ 4 →
    deobfReference m (obfReference m B) = B ∧ obfReference m (deobfReference m B) = B ∧
    (obfReference m B).length = B.length ∧ (deobfReference m B).length = B.length

/-! ## Values and tokens -/

/-- R301, R302, R303: what each value codec row appends for a byte; and what each reads back, from bits that stand for a
byte under the decoder's table, consuming exactly those; the coded rows raise `CorruptStream` on a stream that begins with
no byte's bits. For a symbol that has no code the row appends the free code of log entry 19; that a row takes its own path
whatever `HW` is, is log entry 33. Of a reader with `RD_AVAIL` above `WORDBITS`, a writer with `WR_FILL` at or above it, or
a code outside R38's range, it is log entry 43. What an error of a row run alone leaves is log entry 44. That `readValue`
leaves the byte in `ret` is log entry 14. -/
def Obligations.ValueRows : Prop :=
  ∀ (s : State) (row : ValueOp → Instr) (w : SymWidth),
    (row, w) ∈ [(Instr.valueRaw, SymWidth.raw), (.valueH8, .w8), (.valueH4, .w4)] →
    (∀ v, exec (row (.write v)) s = .next (s.withSink (s.sink.putBits s.fmt (valueStream s.fmt w s.codeOf v)))) ∧
    (w = .raw ∨ s.call.ht.fits →
      (∀ v bits rest, saysValue s.fmt w s.call.ht v bits → s.bitsAhead = bits ++ rest →
        ∃ t, exec (row .read) s = .next t ∧ t.bitsAhead = rest ∧
          t = { s with call := { s.call with rd := t.call.rd, hc := t.call.hc }, ret := v.toNat }) ∧
      ((∀ v bits, saysValue s.fmt w s.call.ht v bits → ¬ bits <+: s.bitsAhead) →
        ∃ x, exec (row .read) s = .next (takeError .corruptStream (s.withHcReader x))))

/-- R100, R322: the three forms of a `LIT` token (the code operand is the word's bits, log entry 16): the byte is appended
at `DST_LEN`; a code operand that is not the code of a symbol, or of two, raises `CorruptStream` and appends nothing. That
each row run alone takes its own path under every `HW` and `IDENT.HMODE` is log entry 36. That bytes beyond the new
`DST_LEN` keep their values is log entry 11. What an error of a row run alone leaves is log entry 44. -/
def Obligations.LiteralTokens : Prop :=
  ∀ s : State,
    (∀ v, exec (.litRaw v) s = .next { s with
      dst := s.dst.write s.dstLen v, dstLen := s.dstLen + 1
      call := { s.call with tk := { s.call.tk with flag := false } } }) ∧
    ∀ (i : Instr) (w : SymWidth) (bits : List Bool), (i = .litH8 bits ∧ w = .w8) ∨ (i = .litH4 bits ∧ w = .w4) →
      s.call.ht.fits →
      (∀ v, saysValue s.fmt w s.call.ht v bits → ∃ h, exec i s = .next { s with
        dst := s.dst.write s.dstLen v, dstLen := s.dstLen + 1
        call := { s.call with tk := { s.call.tk with flag := false }, hc := h } }) ∧
      ((∀ v, ¬ saysValue s.fmt w s.call.ht v bits) → ∃ h, exec i s = .next { s with
        err := some .corruptStream, phase := .failed
        call := { s.call with tk := { s.call.tk with flag := false }, hc := h } })

/-- R70, R323, R326, R328, R330, R332, R334: the six forms of a `MATCH` token. Its length and displacement are those the
mode gives its fields; each byte copied is the one `disp` before it in the output, the copy's own bytes included; a
displacement past the output or a length past the declared size raises `CorruptStream` and copies nothing. That the rows run
alone use the constants of rule R101 under every `MODE_TABLE` is log entry 16, and under every `IDENT.CMODE` and record log
entry 41; that bytes beyond the new `DST_LEN` keep their values is log entry 11. With `DST_LEN` above `DSIZE` it is log
entry 43. What an error of a row run alone leaves is log entry 44. -/
def Obligations.MatchTokens : Prop :=
  ∀ (s : State) (i : Instr) (len disp : Nat),
    ((∃ l d, i = .matchLz412 l d ∧ len = 3 + l.toNat ∧ disp = d.toNat + 1) ∨
      (∃ l d, i = .matchLz38 l d ∧ len = 2 + l.toNat ∧ disp = d.toNat + 1) ∨
      (∃ l d, i = .matchLz816 l d ∧ len = 3 + l.toNat ∧ disp = d.toNat + 1) ∨
      (∃ d l, i = .matchLzd115 d l ∧ len = 3 + l.toNat ∧ disp = d.toNat + 1) ∨
      (∃ l d, i = .matchLzx412Short l d ∧ len = 3 + l.toNat ∧ disp = d.toNat + 1) ∨
      ∃ e d, i = .matchLzx412Ext e d ∧ len = 18 + e.toNat ∧ disp = d.toNat + 1) →
    (disp ≤ s.dstLen → len ≤ s.dsize - s.dstLen → ∃ m,
      exec i s = .next { s with
        dst := m, dstLen := s.dstLen + len
        call := { s.call with tk := { s.call.tk with flag := true, len := len, disp := disp } } } ∧
      (∀ k, k < len → m.read (s.dstLen + k) = m.read (s.dstLen + k - disp)) ∧
      ∀ a, a < s.dstLen ∨ s.dstLen + len ≤ a → m.read a = s.dst.read a) ∧
    (s.dstLen < disp ∨ s.dsize - s.dstLen < len →
      exec i s = .next { s with
        err := some .corruptStream, phase := .failed
        call := { s.call with tk := { s.call.tk with flag := true, len := len, disp := disp } } })

/-- R322, R323: `LIT` and `MATCH` decoded from the bit stream after their flags, on bits that stand for a byte, or for a
length and a displacement the call's mode can encode. That bytes at or beyond the new `DST_LEN` keep their values is log
entry 11. Of a reader with `RD_AVAIL` above `WORDBITS`, and with `DST_LEN` above `DSIZE`, it is log entry 43. What an error
of a row run alone leaves is log entry 44. With 4-bit symbols, a table's symbol above 15 is log entry 33. -/
def Obligations.DecodeTokensFromStream : Prop :=
  ∀ s : State,
    (∀ v bits rest, s.call.hw = .raw ∨ s.call.ht.fits → saysValue s.fmt s.call.hw s.call.ht v bits →
      s.bitsAhead = bits ++ rest → ∃ t, exec .decodeLit s = .next t ∧ t.bitsAhead = rest ∧
        t = { s with
          dst := s.dst.write s.dstLen v, dstLen := s.dstLen + 1
          call := { s.call with rd := t.call.rd, hc := t.call.hc } }) ∧
    ∀ row len disp rest, s.row = some row → row.wf = true → row.minLen ≤ len → len ≤ row.maxLen → 1 ≤ disp →
      disp ≤ row.maxDisp → s.bitsAhead = copyStream s.fmt row len disp ++ rest →
      (disp ≤ s.dstLen → len ≤ s.dsize - s.dstLen → ∃ t, exec .decodeMatch s = .next t ∧ t.bitsAhead = rest ∧
        t = { s with
          dst := t.dst, dstLen := s.dstLen + len
          call := { s.call with rd := t.call.rd, tk := { s.call.tk with len := len, disp := disp } } } ∧
        (∀ k, k < len → t.dst.read (s.dstLen + k) = t.dst.read (s.dstLen + k - disp)) ∧
        ∀ a, a < s.dstLen ∨ s.dstLen + len ≤ a → t.dst.read a = s.dst.read a) ∧
      (s.dstLen < disp ∨ s.dsize - s.dstLen < len → ∃ t, exec .decodeMatch s = .next t ∧ t.dst = s.dst ∧
        t.dstLen = s.dstLen ∧ t.phase = .failed ∧ t.err = some .corruptStream)

/-- R320, R322, R323, R326, R328, R330, R332, R334: a decoder on a stream that begins with the bits of a token sequence
whose output has `DSIZE` bytes produces that output and consumes exactly those bits, in every mode and symbol width. That
the rows `decode.X` run alone use the constants of rule R101 under every `MODE_TABLE` is log entry 28, and under every
`IDENT.CMODE` and record log entry 41. Of a reader with `RD_AVAIL` above `WORDBITS` it is log entry 43. With 4-bit symbols,
a table's symbol above 15 is log entry 33; with `DST_LEN` above `DSIZE` nothing is said. -/
def Obligations.TokenLoopRuns : Prop :=
  ∀ (i : Instr) (s : State) (row : ModeRow) (ks : List Token) (bits rest : List Bool) (out : List Byte),
    decodesWith i row s → row.wf = true → s.call.hw = .raw ∨ s.call.ht.fits →
    tokensSay s.fmt row s.call.hw s.call.ht ks bits → s.bitsAhead = bits ++ rest →
    expandAll ks (s.dst.slice 0 s.dstLen) = some out → out.length = s.dsize →
    ∃ t, exec i s = .next t ∧ t.dstLen = s.dsize ∧ t.dst.slice 0 s.dsize = out ∧ t.bitsAhead = rest ∧
      t.phase = s.phase ∧ t.err = s.err

/-- R321: whatever the stream, a decoder stops with `DST_LEN = DSIZE`, or raises `CorruptStream`; `DST_LEN` never passes
`DSIZE`. That the rows `decode.X` run alone use the constants of rule R101 under every `MODE_TABLE` is log entry 28, and
under every `IDENT.CMODE` and record log entry 41. Of a reader with `RD_AVAIL` above `WORDBITS` it is log entry 43. What an
error of a row run alone leaves is log entry 44. -/
def Obligations.TokenLoopStops : Prop :=
  ∀ (i : Instr) (s : State) (row : ModeRow), decodesWith i row s → row.wf = true → s.dstLen ≤ s.dsize →
    ∃ t, t.dstLen ≤ s.dsize ∧
      ((exec i s = .next t ∧ t.dstLen = s.dsize ∧ t.phase = s.phase ∧ t.err = s.err) ∨
        exec i s = .next (takeError .corruptStream t))

/-- R102, R324, R327, R329, R331, R333, R335: an encoder on the matches of a token sequence that covers `WORK[0..DSIZE)`
appends exactly the bits of those tokens, in every mode and symbol width, and ends with `P = DSIZE`, `MI = MCOUNT`. For a
literal's symbol that has no code these are the bits of the free code of log entry 19; that the rows `encode.X` use the
constants of rule R101 under another `MODE_TABLE` too is log entry 28, and under every `IDENT.CMODE` and record log entry
41; that the row `Emit` run alone does not flush is log entry 40. The premises admit matches the mode cannot encode; the
bits of such a match are log entry 35. Of a writer with `WR_FILL` at or above `WORDBITS`, and of a code outside R38's range,
it is log entry 43. -/
def Obligations.EmitTokensBits : Prop :=
  ∀ (i : Instr) (s : State) (row : ModeRow) (ks : List Token), encodesWith i row s → tokensCover s.workBytes 0 ks →
    s.call.mlist = matchesAt 0 ks → s.call.mcount = s.call.mlist.length →
    exec i s = .next ((s.withSink
      (s.sink.putBits s.fmt (ks.flatMap fun k => k.stream s.fmt row s.call.hw s.codeOf))).withTk
        { s.call.tk with p := s.dsize, mi := s.call.mcount })

/-! ## The phases -/

/-- R264, R265: the exact cases of `ReadHeader` and `ValidateMagic`, over `SRC` and for a header given as one word (log
entry 17): an empty source or a wrong marker is `FormatMismatch` and changes nothing else; then `DST_LEN` is 0; a short
header is `CorruptStream`; else size and ident byte are latched. What an error of a row run alone leaves is log entry 44.
That `DST_LEN <- 0` leaves the bytes of `DST` a fresh draw of free bytes (`clearDst`) is log entry 11. -/
def Obligations.HeaderPhases : Prop :=
  ∀ s : State,
    (s.srcLen = 0 ∨ s.src.read 0 ≠ s.fmt.magic →
      exec .readHeaderValidateMagic s = .next { s with err := some .formatMismatch, phase := .failed }) ∧
    (s.srcLen ≠ 0 → s.src.read 0 = s.fmt.magic → s.srcLen < s.fmt.hdrLen →
      ∃ t, exec .readHeaderValidateMagic s = .next t ∧ t.dstLen = 0 ∧ t.err = some .corruptStream ∧ t.phase = .failed ∧
        t.dsize = s.dsize ∧ t.ident = s.ident) ∧
    (s.headerOk → ∃ t, exec .readHeaderValidateMagic s = .next t ∧ t.dstLen = 0 ∧ t.dsize = s.srcSize ∧
      t.ident = s.srcIdent ∧ t.phase = s.phase ∧ t.err = s.err) ∧
    ∀ magic size ident,
      (magic ≠ s.fmt.magic → exec (.header magic size ident) s = .next (takeError .formatMismatch s)) ∧
      (magic = s.fmt.magic → size.length < s.fmt.sizeBytes →
        exec (.header magic size ident) s = .next (takeError .corruptStream (clearDst s))) ∧
      (magic = s.fmt.magic → s.fmt.sizeBytes ≤ size.length →
        exec (.header magic size ident) s = .next { clearDst s with
          dsize := leNat (size.take s.fmt.sizeBytes), ident := (size ++ [ident]).getD s.fmt.sizeBytes 0 })

/-- R266, R271, R363: the mode checks of `DispatchModes` and of `CheckConfig`: a reserved value in any sub-field first, then
the unimplemented compression mode; then `HW` is set. `CheckConfig` first needs `CFG.VALID` and copies `CFG[7:0]` to
`IDENT`. What an error of a row run alone leaves is log entry 44. -/
def Obligations.ModeChecks : Prop :=
  ∀ (s : State) (i : Instr) (s' : State) (reserved : ErrKind),
    (i = .dispatchModes ∧ s' = s ∧ reserved = .corruptStream) ∨
      (i = .checkConfig ∧ s.cfgValid = true ∧ s' = { s with ident := s.cfgIdent } ∧ reserved = .unsupportedMode) →
    (cmodeOf s'.ident ∉ s.kon.recognized ∨ hmodeOf s'.ident = 3 ∨ 5 ≤ (omodeOf s'.ident).toNat →
      exec i s = .next (takeError reserved s')) ∧
    (cmodeOf s'.ident ∈ s.kon.recognized → hmodeOf s'.ident ≠ 3 → (omodeOf s'.ident).toNat < 5 →
      (cmodeOf s'.ident ∉ s.kon.implemented → exec i s = .next (takeError .unimplementedTransform s')) ∧
      (cmodeOf s'.ident ∈ s.kon.implemented →
        exec i s = .next { s' with call := { s.call with
          hw := if hmodeOf s'.ident = 0 then .raw else if hmodeOf s'.ident = 1 then .w4 else .w8 } })) ∧
    (s.cfgValid = false → exec .checkConfig s = .next (takeError .notConfiguredForCompression s))

/-- R273, R274, R90 to R93, R275: `Materialize` copies the source into `WORK`; `BuildTree` is `tally`, `limitDepth`,
`canonicalise`, the filling of the tables and `assignCodes`, and on the raw path, where R24 and R270 do not run it, nothing
(run alone with `DSIZE = 0` under another `HW` it is log entry 38); `WriteHeader` writes the header bytes from offset 0 and,
for data that is not empty, opens the writer and writes the tree table. With `SRC_LEN` or `DSIZE` above `MAX_INPUT`, which
no command leaves, this is log entry 32; that `WriteHeader` keeps the bytes beyond the header, log entry 11. `WriteHeader`
on tables whose entries are missing or too wide is log entries 20 and 37. -/
def Obligations.EncodePhases : Prop :=
  ∀ s : State,
    (∃ t, exec .materialize s = .next t ∧ t.dstLen = 0 ∧ t.dsize = s.srcLen ∧ t.call = { s.call with mcount := 0 } ∧
      t.ident = s.ident ∧ t.phase = s.phase ∧ t.err = s.err ∧ ∀ a, a < s.srcLen → t.work.read a = s.src.read a) ∧
    (s.call.hw = .raw → exec .buildTree s = .next s) ∧
    (s.call.hw ≠ .raw → ∃ u v, runAll [.tally, .limitDepth, .canonicalise] s = .next u ∧
      exec .assignCodes { u with call := { u.call with ht := fillTab u.tree } } = .next v ∧
      exec .buildTree s = .next v) ∧
    ∃ m, (∀ a, s.fmt.hdrLen ≤ a → m.read a = s.dst.read a) ∧
      m.slice 0 s.fmt.hdrLen = s.fmt.magic :: leBytes s.fmt.sizeBytes s.dsize ++ [s.ident] ∧
      (s.dsize = 0 → exec .writeHeader s = .next { s with dst := m, dstLen := s.fmt.hdrLen }) ∧
      (s.dsize ≠ 0 → exec .writeHeader s = .next (s.withSink
        (Sink.putBits s.fmt
          (if s.call.hw = .raw then []
            else tableStream s.fmt s.call.hw (splitLevels s.call.ht.counts s.call.ht.hsym))
          ⟨⟨0, 0, 0⟩, m, s.fmt.hdrLen⟩)))

/-- R241, R247, R269: `Deobfuscate` does what `deobfuscate` of mode `IDENT.OMODE` does, nothing for mode 0; a mode above 4
has no transform and is an error (its kind, in a phase that runs alone, is log entry 18). What an error of a row run alone
leaves is log entry 44. That a transform row of one mode runs whatever `IDENT.OMODE` is, is log entry 30. That bytes of
`DST` at or beyond `DST_LEN` are taken and kept as they are is log entries 11 and 30; a transform table of a construction's
own, log entry 5. -/
def Obligations.DeobfuscatePhase : Prop :=
  ∀ s : State,
    (omodeOf s.ident = 0 → exec .deobfuscate s = .next s) ∧
    (s.kon.obf = .reference →
      (omodeOf s.ident = 1 → exec .deobfuscate s = exec (.obf1 .deobfuscate) s) ∧
      (omodeOf s.ident = 2 → exec .deobfuscate s = exec (.obf2 .deobfuscate) s) ∧
      (omodeOf s.ident = 3 → exec .deobfuscate s = exec (.obf3 .deobfuscate) s) ∧
      (omodeOf s.ident = 4 → exec .deobfuscate s = exec (.obf4 .deobfuscate) s)) ∧
    (omodeOf s.ident ≠ 0 → (omodeOf s.ident).toNat < 5 →
      exec .deobfuscate s = .next { s with
        dst := s.dst.writeList 0 (deobfOf s.kon (omodeOf s.ident).toNat (s.dst.slice 0 s.dsize)) }) ∧
    (5 ≤ (omodeOf s.ident).toNat → exec .deobfuscate s = .next (takeError .corruptStream s))

/-! ## The commands -/

/-- DECODE's outcomes that the header decides (R264 to R267, R367, R368): a foreign source leaves the output, `IDENT` and
`DSIZE` as they were; a reserved or unimplemented mode fails with the header's values latched, whatever the size; a
container of size 0 is `Done` with no output. -/
def Obligations.DecodeHeaderOutcomes : Prop :=
  ∀ s : State, s.busy = false →
    (s.srcLen = 0 ∨ s.src.read 0 ≠ s.fmt.magic → ∃ t, exec .decode s = .next t ∧ t.phase = .failed ∧
      t.err = some .formatMismatch ∧ t.dst = s.dst ∧ t.dstLen = s.dstLen ∧ t.ident = s.ident ∧ t.dsize = s.dsize) ∧
    (s.srcLen ≠ 0 → s.src.read 0 = s.fmt.magic → s.srcLen < s.fmt.hdrLen → ∃ t, exec .decode s = .next t ∧
      t.phase = .failed ∧ t.err = some .corruptStream ∧ t.ident = s.ident ∧ t.dsize = s.dsize) ∧
    (s.headerOk →
      (reservedModes s.kon s.srcIdent = true → ∃ t, exec .decode s = .next t ∧ t.phase = .failed ∧
        t.err = some .corruptStream ∧ t.ident = s.srcIdent ∧ t.dsize = s.srcSize) ∧
      (reservedModes s.kon s.srcIdent = false → cmodeOf s.srcIdent ∉ s.kon.implemented →
        ∃ t, exec .decode s = .next t ∧ t.phase = .failed ∧ t.err = some .unimplementedTransform ∧
          t.ident = s.srcIdent ∧ t.dsize = s.srcSize) ∧
      (modesOk s.kon s.srcIdent → s.srcSize = 0 → ∃ t, exec .decode s = .next t ∧ t.phase = .done ∧ t.err = none ∧
        t.dstLen = 0 ∧ t.dsize = 0 ∧ t.ident = s.srcIdent))

/-- R263, R267 to R269, R320, R325: DECODE of a container whose stream is a tree table (if the huffman mode has one) and tokens
whose output has the declared size ends `Done` with that output, deobfuscated, whatever bits and bytes follow. -/
def Obligations.DecodeContainer : Prop :=
  ∀ (s : State) (row : ModeRow) (levels : List (List Byte)) (ks : List Token) (bits rest : List Bool) (out : List Byte),
    s.busy = false → recordWf s.fmt s.kon = true → s.headerOk → modesOk s.kon s.srcIdent → s.srcSize ≠ 0 →
    s.kon.row (cmodeOf s.srcIdent) = some row →
    (hmodeOf s.srcIdent = 0 ∧ s.containerBits = bits ++ rest ∨
      hmodeOf s.srcIdent ≠ 0 ∧ levels.length = 16 ∧ treeLevelsWf (widthOf (hmodeOf s.srcIdent)) 1 2 levels = true ∧
        (slotsLeft 2 (levels.map List.length)).isSome = true ∧
        s.containerBits = tableStream s.fmt (widthOf (hmodeOf s.srcIdent)) levels ++ (bits ++ rest)) →
    tokensSay s.fmt row (widthOf (hmodeOf s.srcIdent)) (tabOf levels) ks bits →
    expandAll ks [] = some out → out.length = s.srcSize →
    (deobfOf s.kon (omodeOf s.srcIdent).toNat out).length = out.length →
    ∃ t, exec .decode s = .next t ∧ t.phase = .done ∧ t.err = none ∧ t.ident = s.srcIdent ∧ t.dsize = s.srcSize ∧
      t.dstLen = s.srcSize ∧ t.dst.slice 0 s.srcSize = deobfOf s.kon (omodeOf s.srcIdent).toNat out

/-- ENCODE's outcomes that the configuration decides (R271, R272, R367, R368): every error leaves `DST`, `DST_LEN` and `DSIZE`
as they were; an oversize input is not a move the host has (refused, log entry 22); an empty input gives a header (R267, R275). -/
def Obligations.EncodeConfigOutcomes : Prop :=
  ∀ s : State, s.busy = false →
    (s.fmt.maxInput < s.srcLen → exec .encode s = .refused .inputTooLong) ∧
    (s.srcLen ≤ s.fmt.maxInput →
      (s.cfgValid = false → ∃ t, exec .encode s = .next t ∧ t.phase = .failed ∧
        t.err = some .notConfiguredForCompression ∧ t.dst = s.dst ∧ t.dstLen = s.dstLen ∧ t.dsize = s.dsize ∧
        t.ident = s.ident) ∧
      (s.cfgValid = true → ¬ modesOk s.kon s.cfgIdent → ∃ t, exec .encode s = .next t ∧ t.phase = .failed ∧
        t.err = some (if reservedModes s.kon s.cfgIdent then .unsupportedMode else .unimplementedTransform) ∧
        t.dst = s.dst ∧ t.dstLen = s.dstLen ∧ t.dsize = s.dsize ∧ t.ident = s.cfgIdent) ∧
      (s.cfgValid = true → modesOk s.kon s.cfgIdent → s.srcLen = 0 → ∃ t, exec .encode s = .next t ∧ t.phase = .done ∧
        t.err = none ∧ t.dsize = 0 ∧ t.ident = s.cfgIdent ∧ t.dstLen = s.fmt.hdrLen ∧
        t.dst.slice 0 s.fmt.hdrLen = s.fmt.magic :: leBytes s.fmt.sizeBytes 0 ++ [s.cfgIdent]))

/-- R90, R182, R188, R270, R275 to R277: on the raw path ENCODE of data that is not empty ends `Done` with a container: the
header, then the bits of tokens that cover the transformed data, each match valid and encodable, and zero padding to a word;
and under the default prices no such token sequence over the same transformed data has fewer bits. An output beyond 32 bits
is log entry 13. -/
def Obligations.EncodeContainer : Prop :=
  ∀ (s : State) (row : ModeRow) (W : List Byte),
    s.busy = false → recordWf s.fmt s.kon = true → s.cfgValid = true → modesOk s.kon s.cfgIdent →
    hmodeOf s.cfgIdent = 0 → 0 < s.srcLen → s.srcLen ≤ s.fmt.maxInput → s.kon.row (cmodeOf s.cfgIdent) = some row →
    W = obfOf s.kon (omodeOf s.cfgIdent).toNat (s.src.slice 0 s.srcLen) → W.length = s.srcLen →
    ∃ t ks pad, exec .encode s = .next t ∧ t.phase = .done ∧ t.err = none ∧ t.ident = s.cfgIdent ∧ t.dsize = s.srcLen ∧
      t.dst.slice 0 s.fmt.hdrLen = s.fmt.magic :: leBytes s.fmt.sizeBytes s.srcLen ++ [s.cfgIdent] ∧
      tokensCover W 0 ks ∧ (∀ m ∈ matchesAt 0 ks, encodableMatch row W m.position m.length m.displacement) ∧
      (openedReader s.fmt).ahead ⟨s.fmt, t.dst, t.dstLen⟩ =
        (ks.flatMap fun k => k.stream s.fmt row .raw s.codeOf) ++ List.replicate pad false ∧
      pad < s.fmt.wordBits ∧
      t.dstLen = s.fmt.hdrLen + s.fmt.wordBytes *
        (((ks.flatMap fun k => k.stream s.fmt row .raw s.codeOf).length + pad) / s.fmt.wordBits) ∧
      (s.kon.price = .reference → ∀ ks', tokensCover W 0 ks' →
        (∀ m ∈ matchesAt 0 ks', encodableMatch row W m.position m.length m.displacement) →
        (ks.flatMap fun k => k.stream s.fmt row .raw s.codeOf).length ≤
          (ks'.flatMap fun k => k.stream s.fmt row .raw s.codeOf).length)

/-- R281 for the raw path: with huffman mode 0, DECODE of the container ENCODE makes gives the data back, in every implemented
compression mode and every transform. -/
def Obligations.RoundTripRaw : Prop :=
  ∀ s : State, recordWf s.fmt s.kon = true → s.kon.obfWf → s.busy = false → s.cfgValid = true →
    modesOk s.kon s.cfgIdent → hmodeOf s.cfgIdent = 0 → s.srcLen ≤ s.fmt.maxInput →
    ∃ t, exec .encode s = .next t ∧ t.phase = .done ∧
      ∀ u : State, u.fmt = s.fmt → u.kon = s.kon → u.busy = false → u.srcLen = t.dstLen →
        (∀ a, a < t.dstLen → u.src.read a = t.dst.read a) →
        ∃ v, exec .decode u = .next v ∧ v.phase = .done ∧ v.dstLen = s.srcLen ∧
          ∀ a, a < s.srcLen → v.dst.read a = s.src.read a

/-- R281, the round trip: for every well-formed configuration record, every combination of implemented modes (R262) and every
input that fits, ENCODE ends in `Done`, and DECODE of its output, on any instance with the same constants, ends in `Done`
with the input. -/
def Obligations.RoundTrip : Prop :=
  ∀ s : State, recordWf s.fmt s.kon = true → s.kon.obfWf → s.busy = false → s.cfgValid = true →
    modesOk s.kon s.cfgIdent → s.srcLen ≤ s.fmt.maxInput →
    ∃ t, exec .encode s = .next t ∧ t.phase = .done ∧
      ∀ u : State, u.fmt = s.fmt → u.kon = s.kon → u.busy = false → u.srcLen = t.dstLen →
        (∀ a, a < t.dstLen → u.src.read a = t.dst.read a) →
        ∃ v, exec .decode u = .next v ∧ v.phase = .done ∧ v.dstLen = s.srcLen ∧
          ∀ a, a < s.srcLen → v.dst.read a = s.src.read a
end

