-- ==== Sys2Proof/Laws/Memory.lean ====
section
/-! SUPPORT. Byte memories: a read after a write, every other address, and the canonical form. -/

namespace Sys2Proof.Machine

/-! ## Reads and writes -/

/-- The entry written is the one found. -/
@[simp] theorem cellGet_cellPut_self (cs : List Host.Cell) (a : Nat) (b : Byte) : cellGet (cellPut cs a b) a = some b := by
  induction cs with
  | nil => simp [cellPut, cellGet]
  | cons x t ih =>
    obtain ⟨k, c⟩ := x
    unfold cellPut
    split
    · simp [cellGet]
    · split
      · simp [cellGet]
      · have hk : ¬ k = a := by omega
        simp [cellGet, hk, ih]

/-- Every other entry is found as before. -/
theorem cellGet_cellPut_other (cs : List Host.Cell) (a x : Nat) (b : Byte) (h : x ≠ a) :
    cellGet (cellPut cs a b) x = cellGet cs x := by
  induction cs with
  | nil => simp [cellPut, cellGet, Ne.symm h]
  | cons y t ih =>
    obtain ⟨k, c⟩ := y
    unfold cellPut
    split
    · simp [cellGet, Ne.symm h]
    · split
      · rename_i h2
        simp [cellGet, Ne.symm h, ← h2]
      · simp [cellGet, ih]

@[simp] theorem read_write_self (m : Mem) (a : Nat) (b : Byte) : (m.write a b).read a = b := by
  simp [Mem.read, Mem.write]

theorem read_write_other (m : Mem) (a x : Nat) (b : Byte) (h : x ≠ a) : (m.write a b).read x = m.read x := by
  simp [Mem.read, Mem.write, Mem.unlisted, cellGet_cellPut_other _ _ _ _ h]

/-- A read after a write, either way. -/
theorem read_write (m : Mem) (a x : Nat) (b : Byte) : (m.write a b).read x = if x = a then b else m.read x := by
  by_cases h : x = a
  · simp [h]
  · simp [h, read_write_other _ _ _ _ h]

/-- A read after a write of several bytes. -/
theorem read_writeList (bs : List Byte) (m : Mem) (a x : Nat) :
    (m.writeList a bs).read x = if a ≤ x ∧ x < a + bs.length then bs.getD (x - a) 0 else m.read x := by
  induction bs generalizing m a with
  | nil => simp [Mem.writeList]
  | cons b t ih =>
    rw [Mem.writeList, ih, read_write]
    by_cases hx : x = a
    · subst hx; simp
    · by_cases hl : a ≤ x
      · have : x - a = (x - (a + 1)) + 1 := by omega
        simp only [List.length_cons, this, List.getD_cons_succ, hx, if_false]
        split <;> split <;> first | rfl | omega
      · have h1 : ¬ (a + 1 ≤ x ∧ x < a + 1 + t.length) := by omega
        have h2 : ¬ (a ≤ x ∧ x < a + (b :: t).length) := by omega
        rw [if_neg h1, if_neg h2, if_neg hx]

@[simp] theorem slice_length (m : Mem) (a n : Nat) : (m.slice a n).length = n := by
  induction n generalizing a with
  | zero => rfl
  | succ n ih => simp [Mem.slice, ih]

/-- The bytes of a slice. -/
theorem slice_getElem? (m : Mem) (a n i : Nat) : (m.slice a n)[i]? = if i < n then some (m.read (a + i)) else none := by
  induction n generalizing a i with
  | zero => simp [Mem.slice]
  | succ n ih =>
    cases i with
    | zero => simp [Mem.slice]
    | succ i =>
      simp only [Mem.slice, List.getElem?_cons_succ, ih, Nat.add_lt_add_iff_right]
      rw [show a + 1 + i = a + (i + 1) by omega]

/-- Slices are equal when their bytes are. -/
theorem slice_congr (m m' : Mem) (a n : Nat) (h : ∀ x, a ≤ x → x < a + n → m'.read x = m.read x) :
    m'.slice a n = m.slice a n := by
  induction n generalizing a with
  | zero => rfl
  | succ n ih =>
    simp only [Mem.slice]
    rw [h a (Nat.le_refl a) (by omega), ih (a + 1) fun x h1 h2 => h x (by omega) (by omega)]

/-! ## The canonical form -/

/-- The addresses after a write: one more at most, and none below both. -/
theorem mem_cellPut (cs : List Host.Cell) (a k : Nat) (b : Byte) (h : k ∈ (cellPut cs a b).map Prod.fst) :
    k = a ∨ k ∈ cs.map Prod.fst := by
  induction cs with
  | nil => simp_all [cellPut]
  | cons y t ih =>
    obtain ⟨j, c⟩ := y
    unfold cellPut at h
    split at h
    · simpa using h
    · split at h
      · simp only [List.map_cons, List.mem_cons] at h ⊢
        rcases h with h | h
        · exact .inl h
        · exact .inr (.inr h)
      · simp only [List.map_cons, List.mem_cons] at h ⊢
        rcases h with h | h
        · exact .inr (.inl h)
        · rcases ih h with h | h
          · exact .inl h
          · exact .inr (.inr h)

/-- A write keeps the addresses strictly rising. -/
theorem cellPut_rising (cs : List Host.Cell) (a : Nat) (b : Byte) (h : (cs.map Prod.fst).Pairwise (· < ·)) :
    ((cellPut cs a b).map Prod.fst).Pairwise (· < ·) := by
  induction cs with
  | nil => simp [cellPut]
  | cons y t ih =>
    obtain ⟨k, c⟩ := y
    simp only [List.map_cons, List.pairwise_cons] at h
    unfold cellPut
    split
    · rename_i hlt
      simp only [List.map_cons, List.pairwise_cons, List.mem_cons]
      exact ⟨fun x hx => hx.elim (fun e => e ▸ hlt) fun e => Nat.lt_trans hlt (h.1 x e), h⟩
    · split
      · rename_i _ heq
        simp only [List.map_cons, List.pairwise_cons]
        exact ⟨fun x hx => heq ▸ h.1 x hx, h.2⟩
      · simp only [List.map_cons, List.pairwise_cons]
        refine ⟨fun x hx => ?_, ih h.2⟩
        rcases mem_cellPut _ _ _ _ hx with e | e
        · omega
        · exact h.1 x e

/-- A write keeps the canonical form. -/
theorem write_wf (m : Mem) (a : Nat) (b : Byte) (h : m.wf) : (m.write a b).wf := cellPut_rising _ _ _ h

/-- A write of several bytes keeps the canonical form. -/
theorem writeList_wf (bs : List Byte) (m : Mem) (a : Nat) (h : m.wf) : (m.writeList a bs).wf := by
  induction bs generalizing m a with
  | nil => exact h
  | cons b t ih => exact ih _ _ (write_wf _ _ _ h)

/-- A space nothing has been written to is in canonical form. -/
theorem empty_wf (e : Nat) : (Mem.mk e []).wf := List.Pairwise.nil

/-- The memories right after reset are in canonical form. -/
theorem reset_memories_wf : State.reset.src.wf ∧ State.reset.dst.wf ∧ State.reset.work.wf :=
  ⟨empty_wf _, empty_wf _, empty_wf _⟩

@[simp] theorem write_epoch (m : Mem) (a : Nat) (b : Byte) : (m.write a b).epoch = m.epoch := rfl

@[simp] theorem writeList_epoch (bs : List Byte) (m : Mem) (a : Nat) : (m.writeList a bs).epoch = m.epoch := by
  induction bs generalizing m a with
  | nil => rfl
  | cons b t ih => simp [Mem.writeList, ih]

end Sys2Proof.Machine
end

