-- ==== Sys2Proof/Laws/Run.lean ====
section
/-! SUPPORT. Results that may raise: how a composed result came about. -/

namespace Sys2Proof.Machine

variable {σ τ α β : Type}

@[simp] theorem andThen_ok (a : α) (s : σ) (f : α → σ → Run σ β) : (Run.ok a s).andThen f = f a s := rfl
@[simp] theorem andThen_raised (k : ErrKind) (s : σ) (f : α → σ → Run σ β) : (Run.raised k s).andThen f = .raised k s := rfl
@[simp] theorem map_ok (a : α) (s : σ) (f : α → β) : (Run.ok a s).map f = .ok (f a) s := rfl
@[simp] theorem map_raised (k : ErrKind) (s : σ) (f : α → β) : (Run.raised k s : Run σ α).map f = .raised k s := rfl
@[simp] theorem lift_ok (a : α) (s : σ) (f : σ → τ) : (Run.ok a s).lift f = .ok a (f s) := rfl
@[simp] theorem lift_raised (k : ErrKind) (s : σ) (f : σ → τ) : (Run.raised k s : Run σ α).lift f = .raised k (f s) := rfl

/-- A composition that completed: both parts did. -/
theorem andThen_eq_ok {r : Run σ α} {f : α → σ → Run σ β} {b : β} {s : σ} :
    r.andThen f = .ok b s ↔ ∃ a t, r = .ok a t ∧ f a t = .ok b s := by
  cases r <;> simp [Run.andThen]

/-- A composition that raised: the first part did, or the second did. -/
theorem andThen_eq_raised {r : Run σ α} {f : α → σ → Run σ β} {k : ErrKind} {s : σ} :
    r.andThen f = .raised k s ↔ r = .raised k s ∨ ∃ a t, r = .ok a t ∧ f a t = .raised k s := by
  cases r <;> simp [Run.andThen]

theorem map_eq_ok {r : Run σ α} {f : α → β} {b : β} {s : σ} : r.map f = .ok b s ↔ ∃ a, r = .ok a s ∧ f a = b := by
  cases r with
  | ok a t => simp only [map_ok, Run.ok.injEq]; exact ⟨fun h => ⟨a, ⟨rfl, h.2⟩, h.1⟩, fun ⟨_, h, e⟩ => ⟨h.1 ▸ e, h.2⟩⟩
  | raised k t => simp

theorem map_eq_raised {r : Run σ α} {f : α → β} {k : ErrKind} {s : σ} : r.map f = .raised k s ↔ r = .raised k s := by
  cases r <;> simp

theorem lift_eq_ok {r : Run σ α} {f : σ → τ} {a : α} {t : τ} : r.lift f = .ok a t ↔ ∃ s, r = .ok a s ∧ f s = t := by
  cases r with
  | ok b s => simp only [lift_ok, Run.ok.injEq]; exact ⟨fun h => ⟨s, ⟨h.1, rfl⟩, h.2⟩, fun ⟨_, h, e⟩ => ⟨h.1, h.2 ▸ e⟩⟩
  | raised k s => simp

theorem lift_eq_raised {r : Run σ α} {f : σ → τ} {k : ErrKind} {t : τ} :
    r.lift f = .raised k t ↔ ∃ s, r = .raised k s ∧ f s = t := by
  cases r with
  | ok b s => simp
  | raised j s =>
    simp only [lift_raised, Run.raised.injEq]
    exact ⟨fun h => ⟨s, ⟨h.1, rfl⟩, h.2⟩, fun ⟨_, h, e⟩ => ⟨h.1, h.2 ▸ e⟩⟩

/-- Either end of an operation carries `P`, when each end does. -/
theorem Run.state_of {P : σ → Prop} {r : Run σ α} (ho : ∀ a s, r = .ok a s → P s) (hr : ∀ k s, r = .raised k s → P s) :
    P r.state := by
  cases r with
  | ok a s => exact ho a s rfl
  | raised k s => exact hr k s rfl

@[simp] theorem andThen_state_ok (a : α) (s : σ) (f : α → σ → Run σ β) : ((Run.ok a s).andThen f).state = (f a s).state := rfl
@[simp] theorem state_ok (a : α) (s : σ) : (Run.ok a s).state = s := rfl
@[simp] theorem state_raised (k : ErrKind) (s : σ) : (Run.raised k s : Run σ α).state = s := rfl
@[simp] theorem map_state (r : Run σ α) (f : α → β) : (r.map f).state = r.state := by cases r <;> rfl
@[simp] theorem lift_state (r : Run σ α) (f : σ → τ) : (r.lift f).state = f r.state := by cases r <;> rfl

/-- What a relation that holds over each part of a composition holds over the whole. -/
theorem andThen_rel {R : σ → Prop} {r : Run σ α} {f : α → σ → Run σ β} (h1 : R r.state)
    (h2 : ∀ a s, r = .ok a s → R (f a s).state) : R (r.andThen f).state := by
  cases r with
  | ok a s => exact h2 a s rfl
  | raised k s => exact h1

/-- The outcome of a unit operation is always a next state: its own, or the error entry over it. -/
theorem settle_cases (r : Run State α) :
    settle r = .next r.state ∨ ∃ k, settle r = .next (takeError k r.state) := by
  cases r with
  | ok a s => exact .inl rfl
  | raised k s => exact .inr ⟨k, rfl⟩

/-- The same for a unit operation that returns a value. -/
theorem settleRet_cases (r : Run State Nat) :
    (∃ v, settleRet r = .next { r.state with ret := v }) ∨ ∃ k, settleRet r = .next (takeError k r.state) := by
  cases r with
  | ok v s => exact .inl ⟨v, rfl⟩
  | raised k s => exact .inr ⟨k, rfl⟩

/-- A rule that uses the mode row: with the row, or `UnimplementedTransform`. -/
theorem withRow_cases (s : State) (f : ModeRow → Run State α) :
    (∃ row, s.row = some row ∧ withRow s f = f row) ∨ (s.row = none ∧ withRow s f = .raised .unimplementedTransform s) := by
  unfold withRow
  split
  · rename_i row h; exact .inl ⟨row, h, rfl⟩
  · rename_i h; exact .inr ⟨h, rfl⟩

end Sys2Proof.Machine
end

