-- ==== Sys2Proof/Laws/State.lean ====
section
/-! SUPPORT. Each field of `State` after each update, and the updates of a part of the per-call state as updates of the
whole of it. -/

namespace Sys2Proof.Machine

/-! ## `withCall` -/

@[simp] theorem withCall_fmt (s : State) (c : Call) : (s.withCall c).fmt = s.fmt := rfl
@[simp] theorem withCall_kon (s : State) (c : Call) : (s.withCall c).kon = s.kon := rfl
@[simp] theorem withCall_cfg (s : State) (c : Call) : (s.withCall c).cfg = s.cfg := rfl
@[simp] theorem withCall_phase (s : State) (c : Call) : (s.withCall c).phase = s.phase := rfl
@[simp] theorem withCall_err (s : State) (c : Call) : (s.withCall c).err = s.err := rfl
@[simp] theorem withCall_ident (s : State) (c : Call) : (s.withCall c).ident = s.ident := rfl
@[simp] theorem withCall_dsize (s : State) (c : Call) : (s.withCall c).dsize = s.dsize := rfl
@[simp] theorem withCall_srcLen (s : State) (c : Call) : (s.withCall c).srcLen = s.srcLen := rfl
@[simp] theorem withCall_dstLen (s : State) (c : Call) : (s.withCall c).dstLen = s.dstLen := rfl
@[simp] theorem withCall_src (s : State) (c : Call) : (s.withCall c).src = s.src := rfl
@[simp] theorem withCall_dst (s : State) (c : Call) : (s.withCall c).dst = s.dst := rfl
@[simp] theorem withCall_work (s : State) (c : Call) : (s.withCall c).work = s.work := rfl
@[simp] theorem withCall_call (s : State) (c : Call) : (s.withCall c).call = c := rfl
@[simp] theorem withCall_inbox (s : State) (c : Call) : (s.withCall c).inbox = s.inbox := rfl
@[simp] theorem withCall_ret (s : State) (c : Call) : (s.withCall c).ret = s.ret := rfl
@[simp] theorem withCall_bus (s : State) (c : Call) : (s.withCall c).bus = s.bus := rfl
@[simp] theorem withCall_draws (s : State) (c : Call) : (s.withCall c).draws = s.draws := rfl

/-! ## `withIdent` -/

@[simp] theorem withIdent_fmt (s : State) (b : BitVec 8) : (s.withIdent b).fmt = s.fmt := rfl
@[simp] theorem withIdent_kon (s : State) (b : BitVec 8) : (s.withIdent b).kon = s.kon := rfl
@[simp] theorem withIdent_cfg (s : State) (b : BitVec 8) : (s.withIdent b).cfg = s.cfg := rfl
@[simp] theorem withIdent_phase (s : State) (b : BitVec 8) : (s.withIdent b).phase = s.phase := rfl
@[simp] theorem withIdent_err (s : State) (b : BitVec 8) : (s.withIdent b).err = s.err := rfl
@[simp] theorem withIdent_ident (s : State) (b : BitVec 8) : (s.withIdent b).ident = b := rfl
@[simp] theorem withIdent_dsize (s : State) (b : BitVec 8) : (s.withIdent b).dsize = s.dsize := rfl
@[simp] theorem withIdent_srcLen (s : State) (b : BitVec 8) : (s.withIdent b).srcLen = s.srcLen := rfl
@[simp] theorem withIdent_dstLen (s : State) (b : BitVec 8) : (s.withIdent b).dstLen = s.dstLen := rfl
@[simp] theorem withIdent_src (s : State) (b : BitVec 8) : (s.withIdent b).src = s.src := rfl
@[simp] theorem withIdent_dst (s : State) (b : BitVec 8) : (s.withIdent b).dst = s.dst := rfl
@[simp] theorem withIdent_work (s : State) (b : BitVec 8) : (s.withIdent b).work = s.work := rfl
@[simp] theorem withIdent_call (s : State) (b : BitVec 8) : (s.withIdent b).call = s.call := rfl
@[simp] theorem withIdent_inbox (s : State) (b : BitVec 8) : (s.withIdent b).inbox = s.inbox := rfl
@[simp] theorem withIdent_ret (s : State) (b : BitVec 8) : (s.withIdent b).ret = s.ret := rfl
@[simp] theorem withIdent_bus (s : State) (b : BitVec 8) : (s.withIdent b).bus = s.bus := rfl
@[simp] theorem withIdent_draws (s : State) (b : BitVec 8) : (s.withIdent b).draws = s.draws := rfl

/-! ## `withDst` -/

@[simp] theorem withDst_fmt (s : State) (m : Mem) (n : Nat) : (s.withDst m n).fmt = s.fmt := rfl
@[simp] theorem withDst_kon (s : State) (m : Mem) (n : Nat) : (s.withDst m n).kon = s.kon := rfl
@[simp] theorem withDst_cfg (s : State) (m : Mem) (n : Nat) : (s.withDst m n).cfg = s.cfg := rfl
@[simp] theorem withDst_phase (s : State) (m : Mem) (n : Nat) : (s.withDst m n).phase = s.phase := rfl
@[simp] theorem withDst_err (s : State) (m : Mem) (n : Nat) : (s.withDst m n).err = s.err := rfl
@[simp] theorem withDst_ident (s : State) (m : Mem) (n : Nat) : (s.withDst m n).ident = s.ident := rfl
@[simp] theorem withDst_dsize (s : State) (m : Mem) (n : Nat) : (s.withDst m n).dsize = s.dsize := rfl
@[simp] theorem withDst_srcLen (s : State) (m : Mem) (n : Nat) : (s.withDst m n).srcLen = s.srcLen := rfl
@[simp] theorem withDst_dstLen (s : State) (m : Mem) (n : Nat) : (s.withDst m n).dstLen = n := rfl
@[simp] theorem withDst_src (s : State) (m : Mem) (n : Nat) : (s.withDst m n).src = s.src := rfl
@[simp] theorem withDst_dst (s : State) (m : Mem) (n : Nat) : (s.withDst m n).dst = m := rfl
@[simp] theorem withDst_work (s : State) (m : Mem) (n : Nat) : (s.withDst m n).work = s.work := rfl
@[simp] theorem withDst_call (s : State) (m : Mem) (n : Nat) : (s.withDst m n).call = s.call := rfl
@[simp] theorem withDst_inbox (s : State) (m : Mem) (n : Nat) : (s.withDst m n).inbox = s.inbox := rfl
@[simp] theorem withDst_ret (s : State) (m : Mem) (n : Nat) : (s.withDst m n).ret = s.ret := rfl
@[simp] theorem withDst_bus (s : State) (m : Mem) (n : Nat) : (s.withDst m n).bus = s.bus := rfl
@[simp] theorem withDst_draws (s : State) (m : Mem) (n : Nat) : (s.withDst m n).draws = s.draws := rfl

/-! ## `withWork` -/

@[simp] theorem withWork_fmt (s : State) (m : Mem) : (s.withWork m).fmt = s.fmt := rfl
@[simp] theorem withWork_kon (s : State) (m : Mem) : (s.withWork m).kon = s.kon := rfl
@[simp] theorem withWork_cfg (s : State) (m : Mem) : (s.withWork m).cfg = s.cfg := rfl
@[simp] theorem withWork_phase (s : State) (m : Mem) : (s.withWork m).phase = s.phase := rfl
@[simp] theorem withWork_err (s : State) (m : Mem) : (s.withWork m).err = s.err := rfl
@[simp] theorem withWork_ident (s : State) (m : Mem) : (s.withWork m).ident = s.ident := rfl
@[simp] theorem withWork_dsize (s : State) (m : Mem) : (s.withWork m).dsize = s.dsize := rfl
@[simp] theorem withWork_srcLen (s : State) (m : Mem) : (s.withWork m).srcLen = s.srcLen := rfl
@[simp] theorem withWork_dstLen (s : State) (m : Mem) : (s.withWork m).dstLen = s.dstLen := rfl
@[simp] theorem withWork_src (s : State) (m : Mem) : (s.withWork m).src = s.src := rfl
@[simp] theorem withWork_dst (s : State) (m : Mem) : (s.withWork m).dst = s.dst := rfl
@[simp] theorem withWork_work (s : State) (m : Mem) : (s.withWork m).work = m := rfl
@[simp] theorem withWork_call (s : State) (m : Mem) : (s.withWork m).call = s.call := rfl
@[simp] theorem withWork_inbox (s : State) (m : Mem) : (s.withWork m).inbox = s.inbox := rfl
@[simp] theorem withWork_ret (s : State) (m : Mem) : (s.withWork m).ret = s.ret := rfl
@[simp] theorem withWork_bus (s : State) (m : Mem) : (s.withWork m).bus = s.bus := rfl
@[simp] theorem withWork_draws (s : State) (m : Mem) : (s.withWork m).draws = s.draws := rfl

/-! ## `withSink` -/

@[simp] theorem withSink_fmt (s : State) (k : Sink) : (s.withSink k).fmt = s.fmt := rfl
@[simp] theorem withSink_kon (s : State) (k : Sink) : (s.withSink k).kon = s.kon := rfl
@[simp] theorem withSink_cfg (s : State) (k : Sink) : (s.withSink k).cfg = s.cfg := rfl
@[simp] theorem withSink_phase (s : State) (k : Sink) : (s.withSink k).phase = s.phase := rfl
@[simp] theorem withSink_err (s : State) (k : Sink) : (s.withSink k).err = s.err := rfl
@[simp] theorem withSink_ident (s : State) (k : Sink) : (s.withSink k).ident = s.ident := rfl
@[simp] theorem withSink_dsize (s : State) (k : Sink) : (s.withSink k).dsize = s.dsize := rfl
@[simp] theorem withSink_srcLen (s : State) (k : Sink) : (s.withSink k).srcLen = s.srcLen := rfl
@[simp] theorem withSink_dstLen (s : State) (k : Sink) : (s.withSink k).dstLen = k.len := rfl
@[simp] theorem withSink_src (s : State) (k : Sink) : (s.withSink k).src = s.src := rfl
@[simp] theorem withSink_dst (s : State) (k : Sink) : (s.withSink k).dst = k.dst := rfl
@[simp] theorem withSink_work (s : State) (k : Sink) : (s.withSink k).work = s.work := rfl
@[simp] theorem withSink_call (s : State) (k : Sink) : (s.withSink k).call = { s.call with wr := k.wr } := rfl
@[simp] theorem withSink_inbox (s : State) (k : Sink) : (s.withSink k).inbox = s.inbox := rfl
@[simp] theorem withSink_ret (s : State) (k : Sink) : (s.withSink k).ret = s.ret := rfl
@[simp] theorem withSink_bus (s : State) (k : Sink) : (s.withSink k).bus = s.bus := rfl
@[simp] theorem withSink_draws (s : State) (k : Sink) : (s.withSink k).draws = s.draws := rfl

/-! ## `takeError` -/

@[simp] theorem takeError_fmt (s : State) (k : ErrKind) : (takeError k s).fmt = s.fmt := rfl
@[simp] theorem takeError_kon (s : State) (k : ErrKind) : (takeError k s).kon = s.kon := rfl
@[simp] theorem takeError_cfg (s : State) (k : ErrKind) : (takeError k s).cfg = s.cfg := rfl
@[simp] theorem takeError_phase (s : State) (k : ErrKind) : (takeError k s).phase = .failed := rfl
@[simp] theorem takeError_err (s : State) (k : ErrKind) : (takeError k s).err = some k := rfl
@[simp] theorem takeError_ident (s : State) (k : ErrKind) : (takeError k s).ident = s.ident := rfl
@[simp] theorem takeError_dsize (s : State) (k : ErrKind) : (takeError k s).dsize = s.dsize := rfl
@[simp] theorem takeError_srcLen (s : State) (k : ErrKind) : (takeError k s).srcLen = s.srcLen := rfl
@[simp] theorem takeError_dstLen (s : State) (k : ErrKind) : (takeError k s).dstLen = s.dstLen := rfl
@[simp] theorem takeError_src (s : State) (k : ErrKind) : (takeError k s).src = s.src := rfl
@[simp] theorem takeError_dst (s : State) (k : ErrKind) : (takeError k s).dst = s.dst := rfl
@[simp] theorem takeError_work (s : State) (k : ErrKind) : (takeError k s).work = s.work := rfl
@[simp] theorem takeError_call (s : State) (k : ErrKind) : (takeError k s).call = s.call := rfl
@[simp] theorem takeError_inbox (s : State) (k : ErrKind) : (takeError k s).inbox = s.inbox := rfl
@[simp] theorem takeError_ret (s : State) (k : ErrKind) : (takeError k s).ret = s.ret := rfl
@[simp] theorem takeError_bus (s : State) (k : ErrKind) : (takeError k s).bus = s.bus := rfl
@[simp] theorem takeError_draws (s : State) (k : ErrKind) : (takeError k s).draws = s.draws := rfl

/-! ## `startCommand` -/

@[simp] theorem startCommand_fmt (s : State) (p : Phase) : (startCommand p s).fmt = s.fmt := rfl
@[simp] theorem startCommand_kon (s : State) (p : Phase) : (startCommand p s).kon = s.kon := rfl
@[simp] theorem startCommand_cfg (s : State) (p : Phase) : (startCommand p s).cfg = s.cfg := rfl
@[simp] theorem startCommand_phase (s : State) (p : Phase) : (startCommand p s).phase = p := rfl
@[simp] theorem startCommand_err (s : State) (p : Phase) : (startCommand p s).err = none := rfl
@[simp] theorem startCommand_ident (s : State) (p : Phase) : (startCommand p s).ident = s.ident := rfl
@[simp] theorem startCommand_dsize (s : State) (p : Phase) : (startCommand p s).dsize = s.dsize := rfl
@[simp] theorem startCommand_srcLen (s : State) (p : Phase) : (startCommand p s).srcLen = s.srcLen := rfl
@[simp] theorem startCommand_dstLen (s : State) (p : Phase) : (startCommand p s).dstLen = s.dstLen := rfl
@[simp] theorem startCommand_src (s : State) (p : Phase) : (startCommand p s).src = s.src := rfl
@[simp] theorem startCommand_dst (s : State) (p : Phase) : (startCommand p s).dst = s.dst := rfl
@[simp] theorem startCommand_work (s : State) (p : Phase) : (startCommand p s).work = s.work := rfl
@[simp] theorem startCommand_call (s : State) (p : Phase) : (startCommand p s).call = s.call := rfl
@[simp] theorem startCommand_inbox (s : State) (p : Phase) : (startCommand p s).inbox = s.inbox := rfl
@[simp] theorem startCommand_ret (s : State) (p : Phase) : (startCommand p s).ret = s.ret := rfl
@[simp] theorem startCommand_bus (s : State) (p : Phase) : (startCommand p s).bus = s.bus := rfl
@[simp] theorem startCommand_draws (s : State) (p : Phase) : (startCommand p s).draws = s.draws := rfl

/-! ## `setPhase` -/

@[simp] theorem setPhase_fmt (s : State) (p : Phase) : (setPhase p s).fmt = s.fmt := rfl
@[simp] theorem setPhase_kon (s : State) (p : Phase) : (setPhase p s).kon = s.kon := rfl
@[simp] theorem setPhase_cfg (s : State) (p : Phase) : (setPhase p s).cfg = s.cfg := rfl
@[simp] theorem setPhase_phase (s : State) (p : Phase) : (setPhase p s).phase = p := rfl
@[simp] theorem setPhase_err (s : State) (p : Phase) : (setPhase p s).err = s.err := rfl
@[simp] theorem setPhase_ident (s : State) (p : Phase) : (setPhase p s).ident = s.ident := rfl
@[simp] theorem setPhase_dsize (s : State) (p : Phase) : (setPhase p s).dsize = s.dsize := rfl
@[simp] theorem setPhase_srcLen (s : State) (p : Phase) : (setPhase p s).srcLen = s.srcLen := rfl
@[simp] theorem setPhase_dstLen (s : State) (p : Phase) : (setPhase p s).dstLen = s.dstLen := rfl
@[simp] theorem setPhase_src (s : State) (p : Phase) : (setPhase p s).src = s.src := rfl
@[simp] theorem setPhase_dst (s : State) (p : Phase) : (setPhase p s).dst = s.dst := rfl
@[simp] theorem setPhase_work (s : State) (p : Phase) : (setPhase p s).work = s.work := rfl
@[simp] theorem setPhase_call (s : State) (p : Phase) : (setPhase p s).call = s.call := rfl
@[simp] theorem setPhase_inbox (s : State) (p : Phase) : (setPhase p s).inbox = s.inbox := rfl
@[simp] theorem setPhase_ret (s : State) (p : Phase) : (setPhase p s).ret = s.ret := rfl
@[simp] theorem setPhase_bus (s : State) (p : Phase) : (setPhase p s).bus = s.bus := rfl
@[simp] theorem setPhase_draws (s : State) (p : Phase) : (setPhase p s).draws = s.draws := rfl

/-! ## `endDone` -/

@[simp] theorem endDone_fmt (s : State) : (endDone s).fmt = s.fmt := rfl
@[simp] theorem endDone_kon (s : State) : (endDone s).kon = s.kon := rfl
@[simp] theorem endDone_cfg (s : State) : (endDone s).cfg = s.cfg := rfl
@[simp] theorem endDone_phase (s : State) : (endDone s).phase = .done := rfl
@[simp] theorem endDone_err (s : State) : (endDone s).err = none := rfl
@[simp] theorem endDone_ident (s : State) : (endDone s).ident = s.ident := rfl
@[simp] theorem endDone_dsize (s : State) : (endDone s).dsize = s.dsize := rfl
@[simp] theorem endDone_srcLen (s : State) : (endDone s).srcLen = s.srcLen := rfl
@[simp] theorem endDone_dstLen (s : State) : (endDone s).dstLen = s.dstLen := rfl
@[simp] theorem endDone_src (s : State) : (endDone s).src = s.src := rfl
@[simp] theorem endDone_dst (s : State) : (endDone s).dst = s.dst := rfl
@[simp] theorem endDone_work (s : State) : (endDone s).work = s.work := rfl
@[simp] theorem endDone_call (s : State) : (endDone s).call = s.call := rfl
@[simp] theorem endDone_inbox (s : State) : (endDone s).inbox = s.inbox := rfl
@[simp] theorem endDone_ret (s : State) : (endDone s).ret = s.ret := rfl
@[simp] theorem endDone_bus (s : State) : (endDone s).bus = s.bus := rfl
@[simp] theorem endDone_draws (s : State) : (endDone s).draws = s.draws := rfl

/-! ## `clearDst` -/

@[simp] theorem clearDst_fmt (s : State) : (clearDst s).fmt = s.fmt := rfl
@[simp] theorem clearDst_kon (s : State) : (clearDst s).kon = s.kon := rfl
@[simp] theorem clearDst_cfg (s : State) : (clearDst s).cfg = s.cfg := rfl
@[simp] theorem clearDst_phase (s : State) : (clearDst s).phase = s.phase := rfl
@[simp] theorem clearDst_err (s : State) : (clearDst s).err = s.err := rfl
@[simp] theorem clearDst_ident (s : State) : (clearDst s).ident = s.ident := rfl
@[simp] theorem clearDst_dsize (s : State) : (clearDst s).dsize = s.dsize := rfl
@[simp] theorem clearDst_srcLen (s : State) : (clearDst s).srcLen = s.srcLen := rfl
@[simp] theorem clearDst_dstLen (s : State) : (clearDst s).dstLen = 0 := rfl
@[simp] theorem clearDst_src (s : State) : (clearDst s).src = s.src := rfl
@[simp] theorem clearDst_dst (s : State) : (clearDst s).dst = ⟨s.draws, []⟩ := rfl
@[simp] theorem clearDst_work (s : State) : (clearDst s).work = s.work := rfl
@[simp] theorem clearDst_call (s : State) : (clearDst s).call = s.call := rfl
@[simp] theorem clearDst_inbox (s : State) : (clearDst s).inbox = s.inbox := rfl
@[simp] theorem clearDst_ret (s : State) : (clearDst s).ret = s.ret := rfl
@[simp] theorem clearDst_bus (s : State) : (clearDst s).bus = s.bus := rfl
@[simp] theorem clearDst_draws (s : State) : (clearDst s).draws = s.draws + 1 := rfl

/-! ## `freeDst` -/

@[simp] theorem freeDst_fmt (s : State) : (freeDst s).fmt = s.fmt := rfl
@[simp] theorem freeDst_kon (s : State) : (freeDst s).kon = s.kon := rfl
@[simp] theorem freeDst_cfg (s : State) : (freeDst s).cfg = s.cfg := rfl
@[simp] theorem freeDst_phase (s : State) : (freeDst s).phase = s.phase := rfl
@[simp] theorem freeDst_err (s : State) : (freeDst s).err = s.err := rfl
@[simp] theorem freeDst_ident (s : State) : (freeDst s).ident = s.ident := rfl
@[simp] theorem freeDst_dsize (s : State) : (freeDst s).dsize = s.dsize := rfl
@[simp] theorem freeDst_srcLen (s : State) : (freeDst s).srcLen = s.srcLen := rfl
@[simp] theorem freeDst_dstLen (s : State) : (freeDst s).dstLen = (Config.anyDstLen s.draws).toNat := rfl
@[simp] theorem freeDst_src (s : State) : (freeDst s).src = s.src := rfl
@[simp] theorem freeDst_dst (s : State) : (freeDst s).dst = ⟨s.draws, []⟩ := rfl
@[simp] theorem freeDst_work (s : State) : (freeDst s).work = s.work := rfl
@[simp] theorem freeDst_call (s : State) : (freeDst s).call = s.call := rfl
@[simp] theorem freeDst_inbox (s : State) : (freeDst s).inbox = s.inbox := rfl
@[simp] theorem freeDst_ret (s : State) : (freeDst s).ret = s.ret := rfl
@[simp] theorem freeDst_bus (s : State) : (freeDst s).bus = s.bus := rfl
@[simp] theorem freeDst_draws (s : State) : (freeDst s).draws = s.draws + 1 := rfl

/-! ## `freeCall` -/

@[simp] theorem freeCall_fmt (s : State) : (freeCall s).fmt = s.fmt := rfl
@[simp] theorem freeCall_kon (s : State) : (freeCall s).kon = s.kon := rfl
@[simp] theorem freeCall_cfg (s : State) : (freeCall s).cfg = s.cfg := rfl
@[simp] theorem freeCall_phase (s : State) : (freeCall s).phase = s.phase := rfl
@[simp] theorem freeCall_err (s : State) : (freeCall s).err = s.err := rfl
@[simp] theorem freeCall_ident (s : State) : (freeCall s).ident = s.ident := rfl
@[simp] theorem freeCall_dsize (s : State) : (freeCall s).dsize = s.dsize := rfl
@[simp] theorem freeCall_srcLen (s : State) : (freeCall s).srcLen = s.srcLen := rfl
@[simp] theorem freeCall_dstLen (s : State) : (freeCall s).dstLen = s.dstLen := rfl
@[simp] theorem freeCall_src (s : State) : (freeCall s).src = s.src := rfl
@[simp] theorem freeCall_dst (s : State) : (freeCall s).dst = s.dst := rfl
@[simp] theorem freeCall_work (s : State) : (freeCall s).work = ⟨s.draws, []⟩ := rfl
@[simp] theorem freeCall_call (s : State) : (freeCall s).call = Config.anyCall s.draws := rfl
@[simp] theorem freeCall_inbox (s : State) : (freeCall s).inbox = s.inbox := rfl
@[simp] theorem freeCall_ret (s : State) : (freeCall s).ret = s.ret := rfl
@[simp] theorem freeCall_bus (s : State) : (freeCall s).bus = s.bus := rfl
@[simp] theorem freeCall_draws (s : State) : (freeCall s).draws = s.draws + 1 := rfl

/-! ## Updates of a part of the per-call state -/

@[simp] theorem withReader_eq (s : State) (r : Reader) : s.withReader r = s.withCall { s.call with rd := r } := rfl
@[simp] theorem withHcReader_eq (s : State) (x : HcRegs × Reader) :
    s.withHcReader x = s.withCall { s.call with hc := x.1, rd := x.2 } := rfl
@[simp] theorem withTabReader_eq (s : State) (x : HuffTab × Reader) :
    s.withTabReader x = s.withCall { s.call with ht := x.1, rd := x.2 } := rfl
@[simp] theorem withTab_eq (s : State) (t : HuffTab) : s.withTab t = s.withCall { s.call with ht := t } := rfl
@[simp] theorem withTk_eq (s : State) (t : TokenRegs) : s.withTk t = s.withCall { s.call with tk := t } := rfl
@[simp] theorem withHw_eq (s : State) (w : SymWidth) : s.withHw w = s.withCall { s.call with hw := w } := rfl
@[simp] theorem withHc_eq (s : State) (h : HcRegs) : s.withHc h = s.withCall { s.call with hc := h } := rfl
@[simp] theorem setTkLen_eq (n : Nat) (s : State) : setTkLen n s = s.withTk { s.call.tk with len := n } := rfl
@[simp] theorem setTkDisp_eq (n : Nat) (s : State) : setTkDisp n s = s.withTk { s.call.tk with disp := n } := rfl
@[simp] theorem setTkFlag_eq (b : Bool) (s : State) : setTkFlag b s = s.withTk { s.call.tk with flag := b } := rfl
@[simp] theorem appendDst_eq (b : Byte) (s : State) :
    appendDst b s = s.withDst (s.dst.write s.dstLen b) (s.dstLen + 1) := rfl
@[simp] theorem withCall_withCall (s : State) (c d : Call) : (s.withCall c).withCall d = s.withCall d := rfl
@[simp] theorem withCall_self (s : State) : s.withCall s.call = s := rfl
@[simp] theorem withSink_self (s : State) : s.withSink s.sink = s := rfl
@[simp] theorem withSink_withSink (s : State) (k l : Sink) : (s.withSink k).withSink l = s.withSink l := rfl
@[simp] theorem sink_withSink (s : State) (k : Sink) : (s.withSink k).sink = k := rfl

/-! ## What the parts read of the state -/

@[simp] theorem withCall_readEnv (s : State) (c : Call) : (s.withCall c).readEnv = s.readEnv := rfl
@[simp] theorem withSink_readEnv (s : State) (k : Sink) : (s.withSink k).readEnv = s.readEnv := rfl
@[simp] theorem withDst_readEnv (s : State) (m : Mem) (n : Nat) : (s.withDst m n).readEnv = s.readEnv := rfl
@[simp] theorem readEnv_fmt (s : State) : s.readEnv.fmt = s.fmt := rfl
@[simp] theorem readEnv_src (s : State) : s.readEnv.src = s.src := rfl
@[simp] theorem readEnv_srcLen (s : State) : s.readEnv.srcLen = s.srcLen := rfl
@[simp] theorem sink_wr (s : State) : s.sink.wr = s.call.wr := rfl
@[simp] theorem sink_dst (s : State) : s.sink.dst = s.dst := rfl
@[simp] theorem sink_len (s : State) : s.sink.len = s.dstLen := rfl
@[simp] theorem withCall_row (s : State) (c : Call) : (s.withCall c).row = s.row := rfl
@[simp] theorem withSink_row (s : State) (k : Sink) : (s.withSink k).row = s.row := rfl
@[simp] theorem withDst_row (s : State) (m : Mem) (n : Nat) : (s.withDst m n).row = s.row := rfl
@[simp] theorem takeError_busy (k : ErrKind) (s : State) : (takeError k s).busy = false := rfl
@[simp] theorem endDone_busy (s : State) : (endDone s).busy = false := rfl
@[simp] theorem freeCall_busy (s : State) : (freeCall s).busy = s.busy := rfl

end Sys2Proof.Machine
end

