-- ==== Sys2Proof/Laws/BitStream.lean ====
section
/-! SUPPORT. What the bit-stream engine can do: which parts of the state it changes, the only error it raises, and every
write of it as bits put one after the other. -/

namespace Sys2Proof.Machine

/-! ## The bit helpers -/

@[simp] theorem bitsLsb_length (n v : Nat) : (bitsLsb n v).length = n := by
  induction n generalizing v with
  | zero => rfl
  | succ n ih => simp [bitsLsb, ih]

@[simp] theorem bitsMsb_length (n v : Nat) : (bitsMsb n v).length = n := by simp [bitsMsb]

@[simp] theorem streamOfValue_length (f : Fmt) (v n : Nat) : (streamOfValue f v n).length = n := by
  unfold streamOfValue; split <;> simp

@[simp] theorem leBytes_length (n v : Nat) : (leBytes n v).length = n := by
  induction n generalizing v with
  | zero => rfl
  | succ n ih => simp [leBytes, ih]

@[simp] theorem bytesOfWord_length (f : Fmt) (w : Word) : (bytesOfWord f w).length = f.wordBytes := by
  unfold bytesOfWord; split <;> simp [beBytes]

/-! ## The reader -/

/-- `getBit` raises `CorruptStream` only. -/
theorem getBit_raised {e : ReadEnv} {r r' : Reader} {k : ErrKind} (h : r.getBit e = .raised k r') : k = .corruptStream := by
  unfold Reader.getBit Reader.pull Reader.take at h
  split at h
  · split at h
    · simp only [andThen_raised, Run.raised.injEq] at h; exact h.1.symm
    · simp at h
  · simp at h

theorem getBits_raised {e : ReadEnv} {n : Nat} {r r' : Reader} {k : ErrKind} (h : Reader.getBits e n r = .raised k r') :
    k = .corruptStream := by
  induction n generalizing r with
  | zero => simp [Reader.getBits] at h
  | succ n ih =>
    rw [Reader.getBits, andThen_eq_raised] at h
    rcases h with h | ⟨b, t, _, h⟩
    · exact getBit_raised h
    · exact ih (map_eq_raised.1 h)

/-- `readBits` changes the reader registers only. -/
theorem readBits_state (n : Nat) (s : State) : ∃ r, (readBits n s).state = s.withReader r :=
  ⟨(s.call.rd.readBits s.readEnv n).state, by simp [readBits]⟩

theorem readBits_ok {n v : Nat} {s t : State} (h : readBits n s = .ok v t) : ∃ r, t = s.withReader r := by
  obtain ⟨r, _, h⟩ := lift_eq_ok.1 h
  exact ⟨r, h.symm⟩

/-- `readBits` raises `CorruptStream` only. -/
theorem readBits_raised {n : Nat} {s t : State} {k : ErrKind} (h : readBits n s = .raised k t) :
    k = .corruptStream ∧ ∃ r, t = s.withReader r := by
  obtain ⟨r, hr, h⟩ := lift_eq_raised.1 h
  exact ⟨getBits_raised (map_eq_raised.1 hr), r, h.symm⟩

/-! ## The writer -/

/-- A bit is placed, and the word it fills is emitted. -/
theorem putBit_cases (f : Fmt) (b : Bool) (k : Sink) :
    (k.wr.fill + 1 = f.wordBits ∧ k.putBit f b = (k.place f b).emitWord f) ∨
      (k.wr.fill + 1 ≠ f.wordBits ∧ k.putBit f b = k.place f b) := by
  by_cases h : k.wr.fill + 1 = f.wordBits
  · exact .inl ⟨h, if_pos h⟩
  · exact .inr ⟨h, if_neg h⟩

theorem putBits_append (f : Fmt) (a b : List Bool) (k : Sink) : k.putBits f (a ++ b) = (k.putBits f a).putBits f b := by
  induction a generalizing k with
  | nil => rfl
  | cons x t ih => exact ih _

/-- What is true of a sink before, and kept by placing a bit and by emitting a word, is true after any bits. -/
theorem putBits_induct {P : Sink → Prop} (f : Fmt) (hp : ∀ b k, P k → P (k.place f b)) (he : ∀ k, P k → P (k.emitWord f))
    (bits : List Bool) (k : Sink) (h : P k) : P (k.putBits f bits) := by
  induction bits generalizing k with
  | nil => exact h
  | cons b t ih =>
    refine ih _ ?_
    rcases putBit_cases f b k with ⟨_, e⟩ | ⟨_, e⟩ <;> rw [e]
    · exact he _ (hp _ _ h)
    · exact hp _ _ h

/-- Where a sink `k` came from a sink `k0`: the cursor only moves up, and only bytes between the two cursors are written. -/
def Sink.extends (k0 k : Sink) : Prop :=
  k0.len ≤ k.len ∧ (∀ a, a < k0.len ∨ k.len ≤ a → k.dst.read a = k0.dst.read a) ∧ (k0.dst.wf → k.dst.wf) ∧
    k.dst.epoch = k0.dst.epoch

theorem Sink.extends_refl (k : Sink) : k.extends k := ⟨Nat.le_refl _, fun _ _ => rfl, id, rfl⟩

theorem Sink.extends_trans {a b c : Sink} (h1 : a.extends b) (h2 : b.extends c) : a.extends c := by
  obtain ⟨l1, r1, w1, e1⟩ := h1
  obtain ⟨l2, r2, w2, e2⟩ := h2
  refine ⟨Nat.le_trans l1 l2, fun x hx => ?_, fun h => w2 (w1 h), e2.trans e1⟩
  rw [r2 x (by omega), r1 x (by omega)]

theorem emitWord_extends (f : Fmt) (k : Sink) : k.extends (k.emitWord f) := by
  refine ⟨by simp [Sink.emitWord], fun a ha => ?_, fun h => writeList_wf _ _ _ h, by simp [Sink.emitWord]⟩
  simp only [Sink.emitWord] at ha ⊢
  rw [read_writeList, if_neg]
  simp only [bytesOfWord_length]
  omega

/-- Bits put into a sink reach memory only between the old cursor and the new. -/
theorem putBits_extends (f : Fmt) (bits : List Bool) (k : Sink) : k.extends (k.putBits f bits) :=
  putBits_induct (P := fun x => k.extends x) f (fun _ _ h => h) (fun _ h => Sink.extends_trans h (emitWord_extends f _)) bits k
    (Sink.extends_refl k)

theorem flush_extends (f : Fmt) (k : Sink) : k.extends (k.flush f) := by
  unfold Sink.flush
  split
  · exact emitWord_extends f k
  · exact Sink.extends_refl k

/-- The bits written are counted. -/
theorem putBits_count (f : Fmt) (bits : List Bool) (k : Sink) : (k.putBits f bits).wr.bits = k.wr.bits + bits.length := by
  induction bits generalizing k with
  | nil => rfl
  | cons b t ih =>
    rw [Sink.putBits, ih]
    have : (k.putBit f b).wr.bits = k.wr.bits + 1 := by
      rcases putBit_cases f b k with ⟨_, e⟩ | ⟨_, e⟩ <;> rw [e] <;> rfl
    simp only [this, List.length_cons]; omega

theorem writeBit_eq (f : Fmt) (b : Bool) (k : Sink) : k.writeBits f b.toNat 1 = k.putBits f [b] := by
  unfold Sink.writeBits streamOfValue
  cases b <;> (split <;> rfl)

/-- A symbol's code is its bits, put root edge first. -/
theorem writeCode_eq (f : Fmt) (c : HuffCode) (k : Sink) : k.writeCode f c = k.putBits f (bitsMsb c.len c.code) := by
  unfold Sink.writeCode
  induction bitsMsb c.len c.code generalizing k with
  | nil => rfl
  | cons b t ih => rw [List.foldl_cons, ih, writeBit_eq]; rfl

/-- The bits of a value. -/
theorem writeValue_eq (f : Fmt) (w : SymWidth) (code : Nat → HuffCode) (v : Byte) (k : Sink) :
    k.writeValue f w code v = k.putBits f (valueStream f w code v) := by
  cases w <;> simp [Sink.writeValue, valueStream, writeCode_eq, putBits_append, Sink.writeBits]

/-- The bits of a match's length. -/
theorem writeLen_eq (f : Fmt) (row : ModeRow) (len : Nat) (k : Sink) :
    k.writeLen f row len = k.putBits f (lenStream f row len) := by
  unfold Sink.writeLen lenStream
  split <;> simp [putBits_append, Sink.writeBits]

/-- The bits of a match. -/
theorem writeMatch_eq (f : Fmt) (row : ModeRow) (w : SymWidth) (code : Nat → HuffCode) (m : LzMatch) (k : Sink) :
    k.writeMatch f row m = k.putBits f ((Token.copy m.length m.displacement).stream f row w code) := by
  have h1 (k : Sink) : k.writeBits f 1 1 = k.putBits f [true] := writeBit_eq f true k
  change _ = (k.putBits f [true]).putBits f (copyStream f row m.length m.displacement)
  rw [Sink.writeMatch, h1, copyStream]
  split <;> simp only [writeLen_eq, Sink.writeDisp, dispStream, putBits_append, Sink.writeBits]

/-- The bits of a literal. -/
theorem writeLit_eq (f : Fmt) (row : ModeRow) (w : SymWidth) (code : Nat → HuffCode) (v : Byte) (k : Sink) :
    k.writeLit f w code v = k.putBits f ((Token.lit v).stream f row w code) := by
  have h0 : k.writeBits f 0 1 = k.putBits f [false] := writeBit_eq f false k
  simp [Sink.writeLit, h0, writeValue_eq, Token.stream, Sink.putBits]

/-- The bits of a tree table. -/
theorem writeTable_eq (f : Fmt) (w : SymWidth) (t : HuffTab) (k : Sink) :
    writeTable f w t k = k.putBits f (tableStream f w (splitLevels t.counts t.hsym)) := by
  have hs (syms : List Byte) (k : Sink) : syms.foldl (fun k s => k.writeBits f s.toNat (symBits w)) k =
      k.putBits f (syms.flatMap fun s => streamOfValue f s.toNat (symBits w)) := by
    induction syms generalizing k with
    | nil => rfl
    | cons s t ih => rw [List.foldl_cons, ih, List.flatMap_cons, putBits_append, Sink.writeBits]
  unfold writeTable tableStream
  induction splitLevels t.counts t.hsym generalizing k with
  | nil => rfl
  | cons l ls ih =>
    rw [List.foldl_cons, ih, List.flatMap_cons, putBits_append, putBits_append, writeLevel, hs, Sink.writeBits]

end Sys2Proof.Machine
end

