-- ==== Sys2Proof/Laws/Decoding.lean ====
section
/-! SUPPORT. What symbol decoding, the tree table reader and the token loop can do: which parts of the state they change,
and the only error they raise. -/

namespace Sys2Proof.Machine

/-! ## Symbols and tables -/

/-- `readSymbol` on any source of bits raises `CorruptStream` only, when its source does. -/
theorem symWalk_raised {σ : Type} {get : σ → Run σ Nat} (hg : ∀ x k y, get x = .raised k y → k = .corruptStream)
    {syms : List Byte} {counts : List Nat} {h : HcRegs} {x : σ} {k : ErrKind} {y : HcRegs × σ}
    (hw : symWalk get syms counts h x = .raised k y) : k = .corruptStream := by
  induction counts generalizing h x with
  | nil => simp only [symWalk, Run.raised.injEq] at hw; exact hw.1.symm
  | cons c cs ih =>
    rw [symWalk] at hw
    split at hw
    · rename_i err x' hx
      simp only [Run.raised.injEq] at hw
      exact hw.1 ▸ hg _ _ _ hx
    · dsimp only at hw
      split at hw
      · simp at hw
      · exact ih hw

/-- `readSymbol` changes the `HC_*` and reader registers only. -/
theorem readSymbol_state (s : State) : ∃ x, (readSymbol s).state = s.withHcReader x := ⟨_, by rw [readSymbol, lift_state]⟩

theorem readBitsReader_raised {e : ReadEnv} {n : Nat} {r r' : Reader} {k : ErrKind} (h : r.readBits e n = .raised k r') :
    k = .corruptStream := getBits_raised (map_eq_raised.1 h)

theorem readSymbol_raised {s t : State} {k : ErrKind} (h : readSymbol s = .raised k t) : k = .corruptStream := by
  obtain ⟨x, hx, _⟩ := lift_eq_raised.1 h
  exact symWalk_raised (fun _ _ _ h => readBitsReader_raised h) hx

/-- `readValue` changes the `HC_*` and reader registers only. -/
theorem readValue_state (w : SymWidth) (s : State) : ∃ x, (readValue w s).state = s.withHcReader x := by
  cases w with
  | raw =>
    obtain ⟨r, h⟩ := readBits_state 8 s
    exact ⟨(s.call.hc, r), by rw [readValue, map_state, h]; rfl⟩
  | w8 => exact readSymbol_state s
  | w4 =>
    obtain ⟨x, h⟩ := readSymbol_state s
    rw [readValue]
    refine andThen_rel (R := fun t => ∃ x, t = s.withHcReader x) ⟨x, h⟩ fun hi u hu => ?_
    rw [hu, state_ok] at h
    obtain ⟨y, hy⟩ := readSymbol_state u
    exact ⟨y, by rw [map_state, hy, h]; rfl⟩

theorem readValue_raised {w : SymWidth} {s t : State} {k : ErrKind} (h : readValue w s = .raised k t) :
    k = .corruptStream := by
  cases w with
  | raw => exact (readBits_raised (map_eq_raised.1 h)).1
  | w8 => exact readSymbol_raised h
  | w4 =>
    rcases andThen_eq_raised.1 h with h | ⟨a, u, _, h⟩
    · exact readSymbol_raised h
    · exact readSymbol_raised (map_eq_raised.1 h)

theorem readSyms_raised {e : ReadEnv} {w : SymWidth} {n : Nat} {x y : HuffTab × Reader} {k : ErrKind}
    (h : readSyms e w n x = .raised k y) : k = .corruptStream := by
  induction n generalizing x with
  | zero => simp [readSyms] at h
  | succ n ih =>
    rw [readSyms] at h
    split at h
    · rename_i err r hr
      simp only [Run.raised.injEq] at h
      exact h.1 ▸ readBitsReader_raised hr
    · exact ih h

theorem deserLevels_raised {e : ReadEnv} {w : SymWidth} {n d slots : Nat} {x y : HuffTab × Reader} {k : ErrKind}
    (h : deserLevels e w n d slots x = .raised k y) : k = .corruptStream := by
  induction n generalizing d slots x with
  | zero => simp [deserLevels] at h
  | succ n ih =>
    rw [deserLevels] at h
    split at h
    · rename_i err r hr
      simp only [Run.raised.injEq] at h
      exact h.1 ▸ readBitsReader_raised hr
    · dsimp only at h
      split at h
      · simp only [Run.raised.injEq] at h; exact h.1.symm
      · rcases andThen_eq_raised.1 h with h | ⟨_, u, _, h⟩
        · exact readSyms_raised h
        · exact ih h

/-- `deserialise` changes the table and the reader registers only, and raises `CorruptStream` only. -/
theorem deserialise_state (s : State) : ∃ x, (deserialise s).state = s.withTabReader x := ⟨_, by rw [deserialise, lift_state]⟩

theorem deserialise_raised {s t : State} {k : ErrKind} (h : deserialise s = .raised k t) : k = .corruptStream := by
  obtain ⟨x, hx, _⟩ := lift_eq_raised.1 h
  exact deserLevels_raised hx

/-! ## The copy -/

@[simp] theorem copyBytes_len (disp n : Nat) (m : Mem) (len : Nat) : (copyBytes disp n m len).2 = len + n := by
  induction n generalizing m len with
  | zero => rfl
  | succ n ih => rw [copyBytes, ih]; omega

/-- A copy writes only from its start on, for its length. -/
theorem copyBytes_outside (disp n : Nat) (m : Mem) (len a : Nat) (h : a < len ∨ len + n ≤ a) :
    (copyBytes disp n m len).1.read a = m.read a := by
  induction n generalizing m len with
  | zero => rfl
  | succ n ih => rw [copyBytes, ih _ _ (by omega), read_write_other _ _ _ _ (by omega)]

/-- Each byte copied is the one `disp` before it, the copy's own bytes included (rule R70). -/
theorem copyBytes_byte (disp n : Nat) (m : Mem) (len k : Nat) (hd : 1 ≤ disp) (hdl : disp ≤ len) (hk : k < n) :
    (copyBytes disp n m len).1.read (len + k) = (copyBytes disp n m len).1.read (len + k - disp) := by
  induction n generalizing m len k with
  | zero => omega
  | succ n ih =>
    rw [copyBytes]
    cases k with
    | zero =>
      rw [copyBytes_outside _ _ _ _ _ (by omega), copyBytes_outside _ _ _ _ _ (by omega), Nat.add_zero, read_write_self,
        read_write_other _ _ _ _ (by omega)]
    | succ k =>
      have := ih (m.write len (m.read (len - disp))) (len + 1) k (by omega) (by omega)
      rwa [show len + 1 + k = len + (k + 1) by omega] at this

theorem copyBytes_wf (disp n : Nat) (m : Mem) (len : Nat) (h : m.wf) : (copyBytes disp n m len).1.wf := by
  induction n generalizing m len with
  | zero => exact h
  | succ n ih => exact ih _ _ (write_wf _ _ _ h)

@[simp] theorem copyBytes_epoch (disp n : Nat) (m : Mem) (len : Nat) : (copyBytes disp n m len).1.epoch = m.epoch := by
  induction n generalizing m len with
  | zero => rfl
  | succ n ih => rw [copyBytes, ih]; rfl

/-! ## Tokens -/

/-- What decoding tokens may change: output from the old cursor on, the reader, `HC_*` and `TK_*` registers. -/
structure Decoded (s t : State) : Prop where
  whole : t = (s.withDst t.dst t.dstLen).withCall t.call
  call : t.call = { s.call with
    rd := t.call.rd, hc := t.call.hc, tk := { t.call.tk with p := s.call.tk.p, mi := s.call.tk.mi } }
  grows : s.dstLen ≤ t.dstLen
  outside : ∀ a, a < s.dstLen ∨ t.dstLen ≤ a → t.dst.read a = s.dst.read a
  wf : s.dst.wf → t.dst.wf
  epoch : t.dst.epoch = s.dst.epoch

theorem Decoded.refl (s : State) : Decoded s s := ⟨rfl, rfl, Nat.le_refl _, fun _ _ => rfl, id, rfl⟩

theorem Decoded.trans {s t u : State} (h1 : Decoded s t) (h2 : Decoded t u) : Decoded s u where
  whole := by
    have a := h1.whole
    have b := h2.whole
    rw [a] at b
    exact b
  call := by
    rw [h2.call, h1.call]
  grows := Nat.le_trans h1.grows h2.grows
  outside a ha := by
    have g1 := h1.grows
    have g2 := h2.grows
    rw [h2.outside a (by omega), h1.outside a (by omega)]
  wf h := h2.wf (h1.wf h)
  epoch := h2.epoch.trans h1.epoch

theorem decoded_withHcReader (s : State) (x : HcRegs × Reader) : Decoded s (s.withHcReader x) :=
  ⟨rfl, rfl, Nat.le_refl _, fun _ _ => rfl, id, rfl⟩

theorem decoded_withReader (s : State) (r : Reader) : Decoded s (s.withReader r) :=
  ⟨rfl, rfl, Nat.le_refl _, fun _ _ => rfl, id, rfl⟩

theorem decoded_setTkLen (n : Nat) (s : State) : Decoded s (setTkLen n s) :=
  ⟨rfl, rfl, Nat.le_refl _, fun _ _ => rfl, id, rfl⟩

theorem decoded_setTkDisp (n : Nat) (s : State) : Decoded s (setTkDisp n s) :=
  ⟨rfl, rfl, Nat.le_refl _, fun _ _ => rfl, id, rfl⟩

theorem decoded_setTkFlag (b : Bool) (s : State) : Decoded s (setTkFlag b s) :=
  ⟨rfl, rfl, Nat.le_refl _, fun _ _ => rfl, id, rfl⟩

theorem decoded_appendDst (b : Byte) (s : State) : Decoded s (appendDst b s) where
  whole := rfl
  call := rfl
  grows := Nat.le_succ _
  outside a ha := by
    simp only [appendDst_eq, withDst_dst, withDst_dstLen] at ha ⊢
    exact read_write_other _ _ _ _ (by omega)
  wf h := write_wf _ _ _ h
  epoch := rfl

/-- `runMatch`: the two refusals, which change nothing, or the copy. -/
theorem runMatch_cases (s : State) :
    ((s.dstLen < s.call.tk.disp ∨ s.dsize - s.dstLen < s.call.tk.len) ∧ runMatch s = .raised .corruptStream s) ∨
      (s.call.tk.disp ≤ s.dstLen ∧ s.call.tk.len ≤ s.dsize - s.dstLen ∧
        runMatch s = .ok () (s.withDst (copyBytes s.call.tk.disp s.call.tk.len s.dst s.dstLen).1
          (s.dstLen + s.call.tk.len))) := by
  unfold runMatch
  split
  · exact .inl ⟨.inl ‹_›, rfl⟩
  · split
    · exact .inl ⟨.inr ‹_›, rfl⟩
    · exact .inr ⟨by omega, by omega, by simp⟩

theorem decoded_runMatch (s : State) : Decoded s (runMatch s).state := by
  rcases runMatch_cases s with ⟨_, h⟩ | ⟨_, _, h⟩ <;> rw [h]
  · exact Decoded.refl s
  · exact ⟨rfl, rfl, Nat.le_add_right _ _, fun a ha => copyBytes_outside _ _ _ _ _ (by simpa using ha),
      fun h => copyBytes_wf _ _ _ _ h, by simp⟩

theorem decoded_readBits (n : Nat) (s : State) : Decoded s (readBits n s).state := by
  obtain ⟨r, h⟩ := readBits_state n s
  exact h ▸ decoded_withReader s r

theorem decoded_andThen {α β : Type} {s : State} {r : Run State α} {f : α → State → Run State β} (h1 : Decoded s r.state)
    (h2 : ∀ a t, Decoded t (f a t).state) : Decoded s (r.andThen f).state := by
  refine andThen_rel h1 fun a t ht => ?_
  rw [ht, state_ok] at h1
  exact h1.trans (h2 a t)

theorem decoded_readLen (row : ModeRow) (s : State) : Decoded s (readLen row s).state := by
  refine decoded_andThen (decoded_readBits _ _) fun f t => ?_
  split
  · rw [map_state]; exact decoded_readBits _ _
  · exact Decoded.refl _

theorem decoded_readDisp (row : ModeRow) (s : State) : Decoded s (readDisp row s).state := by
  rw [readDisp, map_state]; exact decoded_readBits _ _

theorem decoded_decodeLit (s : State) : Decoded s (decodeLit s).state := by
  obtain ⟨x, h⟩ := readValue_state s.call.hw s
  exact decoded_andThen (h ▸ decoded_withHcReader s x) fun v t => decoded_appendDst v t

theorem decoded_decodeMatch (row : ModeRow) (s : State) : Decoded s (decodeMatch row s).state := by
  unfold decodeMatch
  split
  · exact decoded_andThen (decoded_readDisp _ _) fun d t =>
      (decoded_setTkDisp d t).trans (decoded_andThen (decoded_readLen _ _) fun l u =>
        (decoded_setTkLen l u).trans (decoded_runMatch _))
  · exact decoded_andThen (decoded_readLen _ _) fun l t =>
      (decoded_setTkLen l t).trans (decoded_andThen (decoded_readDisp _ _) fun d u =>
        (decoded_setTkDisp d u).trans (decoded_runMatch _))

theorem decoded_decodeToken (row : ModeRow) (s : State) : Decoded s (decodeToken row s).state := by
  refine decoded_andThen (decoded_readBits _ _) fun flag t => ?_
  split
  · exact (decoded_setTkFlag _ _).trans (decoded_decodeLit _)
  · exact (decoded_setTkFlag _ _).trans (decoded_decodeMatch _ _)

/-- All the token loop can change. -/
theorem decoded_tokenLoopFrom (row : ModeRow) (n : Nat) (s : State) : Decoded s (tokenLoopFrom row n s).state := by
  induction n generalizing s with
  | zero => exact Decoded.refl s
  | succ n ih =>
    rw [tokenLoopFrom]
    split
    · exact decoded_andThen (decoded_decodeToken _ _) fun _ t => ih t
    · exact Decoded.refl s

theorem runMatch_raised {s t : State} {k : ErrKind} (h : runMatch s = .raised k t) : k = .corruptStream := by
  rcases runMatch_cases s with ⟨_, e⟩ | ⟨_, _, e⟩ <;> rw [e] at h
  · simp only [Run.raised.injEq] at h; exact h.1.symm
  · cases h

theorem readLen_raised {row : ModeRow} {s t : State} {k : ErrKind} (h : readLen row s = .raised k t) :
    k = .corruptStream := by
  rcases andThen_eq_raised.1 h with h | ⟨_, _, _, h⟩
  · exact (readBits_raised h).1
  · split at h
    · exact (readBits_raised (map_eq_raised.1 h)).1
    · cases h

theorem readDisp_raised {row : ModeRow} {s t : State} {k : ErrKind} (h : readDisp row s = .raised k t) :
    k = .corruptStream := (readBits_raised (map_eq_raised.1 h)).1

theorem decodeLit_raised {s t : State} {k : ErrKind} (h : decodeLit s = .raised k t) : k = .corruptStream := by
  rcases andThen_eq_raised.1 h with h | ⟨_, _, _, h⟩
  · exact readValue_raised h
  · cases h

theorem decodeMatch_raised {row : ModeRow} {s t : State} {k : ErrKind} (h : decodeMatch row s = .raised k t) :
    k = .corruptStream := by
  unfold decodeMatch at h
  split at h
  · rcases andThen_eq_raised.1 h with h | ⟨_, _, _, h⟩
    · exact readDisp_raised h
    · rcases andThen_eq_raised.1 h with h | ⟨_, _, _, h⟩
      · exact readLen_raised h
      · exact runMatch_raised h
  · rcases andThen_eq_raised.1 h with h | ⟨_, _, _, h⟩
    · exact readLen_raised h
    · rcases andThen_eq_raised.1 h with h | ⟨_, _, _, h⟩
      · exact readDisp_raised h
      · exact runMatch_raised h

theorem decodeToken_raised {row : ModeRow} {s t : State} {k : ErrKind} (h : decodeToken row s = .raised k t) :
    k = .corruptStream := by
  rcases andThen_eq_raised.1 h with h | ⟨_, _, _, h⟩
  · exact (readBits_raised h).1
  · split at h
    · exact decodeLit_raised h
    · exact decodeMatch_raised h

/-- The token loop raises `CorruptStream` only. -/
theorem tokenLoopFrom_raised {row : ModeRow} {n : Nat} {s t : State} {k : ErrKind}
    (h : tokenLoopFrom row n s = .raised k t) : k = .corruptStream := by
  induction n generalizing s with
  | zero => cases h
  | succ n ih =>
    rw [tokenLoopFrom] at h
    split at h
    · rcases andThen_eq_raised.1 h with h | ⟨_, _, _, h⟩
      · exact decodeToken_raised h
      · exact ih h
    · cases h

end Sys2Proof.Machine
end

