-- ==== Sys2Proof/Laws/Pipeline.lean ====
section
/-! SUPPORT. What the phases and the commands can do: the cases of the header and mode checks, the ends of the commands. -/

namespace Sys2Proof.Machine

/-- The host's move when the engine is at rest. -/
@[simp] theorem hostMove_idle {s : State} (h : s.busy = false) (r : Host.Outcome State Fault Refusal) : hostMove s r = r := by
  simp [hostMove, h]

/-- The host has no move while the engine is busy. -/
@[simp] theorem hostMove_busy {s : State} (h : s.busy = true) (r : Host.Outcome State Fault Refusal) :
    hostMove s r = .refused .hostBusy := by
  simp [hostMove, h]

/-- `ReadHeader`, first part. -/
theorem readFirst_cases (s : State) :
    (s.srcLen = 0 ∧ readFirst s = .raised .formatMismatch s) ∨ (s.srcLen ≠ 0 ∧ readFirst s = .ok (s.src.read 0) s) := by
  unfold readFirst
  split
  · exact .inl ⟨‹_›, rfl⟩
  · exact .inr ⟨‹_›, rfl⟩

/-- The cases of the header check. -/
theorem validateHeader_cases (m : Byte) (g : Nat → Byte) (len : Nat) (s : State) :
    (m ≠ s.fmt.magic ∧ validateHeader m g len s = .raised .formatMismatch s) ∨
      (m = s.fmt.magic ∧ len < s.fmt.hdrLen ∧ validateHeader m g len s = .raised .corruptStream (clearDst s)) ∨
      (m = s.fmt.magic ∧ s.fmt.hdrLen ≤ len ∧ validateHeader m g len s = .ok () { clearDst s with
        dsize := leNat ((List.range s.fmt.sizeBytes).map fun i => g (1 + i)), ident := g (1 + s.fmt.sizeBytes) }) := by
  by_cases hm : m = s.fmt.magic
  · by_cases hl : len < s.fmt.hdrLen
    · refine .inr (.inl ⟨hm, hl, ?_⟩)
      unfold validateHeader
      rw [if_neg (fun h => h hm)]
      exact if_pos hl
    · refine .inr (.inr ⟨hm, by omega, ?_⟩)
      unfold validateHeader
      rw [if_neg (fun h => h hm)]
      exact if_neg hl
  · exact .inl ⟨hm, if_pos hm⟩

/-- The cases of the mode check. -/
theorem checkModes_cases (k : ErrKind) (s : State) :
    (reservedModes s.kon s.ident = true ∧ checkModes k s = .raised k s) ∨
      (reservedModes s.kon s.ident = false ∧ cmodeOf s.ident ∉ s.kon.implemented ∧
        checkModes k s = .raised .unimplementedTransform s) ∨
      (reservedModes s.kon s.ident = false ∧ cmodeOf s.ident ∈ s.kon.implemented ∧
        checkModes k s = .ok () (s.withHw (widthOf (hmodeOf s.ident)))) := by
  unfold checkModes
  by_cases h : reservedModes s.kon s.ident = true
  · exact .inl ⟨h, if_pos h⟩
  · have hf : reservedModes s.kon s.ident = false := by simpa using h
    rw [if_neg h]
    by_cases hi : cmodeOf s.ident ∈ s.kon.implemented
    · exact .inr (.inr ⟨hf, hi, by simp [hi]⟩)
    · exact .inr (.inl ⟨hf, hi, by simp [hi]⟩)

/-- A well-formed record has a row for every implemented mode, and it is well formed. -/
theorem row_of_implemented {f : Fmt} {k : Construction} (h : recordWf f k = true) {c : BitVec 3} (hc : c ∈ k.implemented) :
    ∃ row, k.row c = some row ∧ row.wf = true := by
  simp only [recordWf, Bool.and_eq_true, List.all_eq_true] at h
  have hr := (h.2 c hc).1
  cases ht : k.tableRow c with
  | none => simp [ht] at hr
  | some row => exact ⟨row, by simp [Construction.row, hc, ht], by simpa [ht] using hr⟩

/-- The end of DECODE. -/
@[simp] theorem endDecode_ok (s : State) : endDecode (.ok () s) = freeCall (endDone s) := rfl

@[simp] theorem endDecode_mismatch (s : State) :
    endDecode (.raised .formatMismatch s) = freeCall (takeError .formatMismatch s) := rfl

/-- The end of a DECODE that failed after the marker matched. -/
theorem endDecode_raised {k : ErrKind} (h : k ≠ .formatMismatch) (s : State) :
    endDecode (.raised k s) = freeCall (freeDst (takeError k s)) := if_neg h

/-- The end of ENCODE. -/
@[simp] theorem endEncode_ok (s : State) : endEncode (.ok () s) = freeCall (endDone s) := rfl

@[simp] theorem endEncode_raised (k : ErrKind) (s : State) :
    endEncode (.raised k s) = freeCall (takeError k s) := rfl

end Sys2Proof.Machine
end

