-- ==== Sys2Proof/Laws/Encoding.lean ====
section
/-! SUPPORT. What the operations of ENCODE can do: the parts of the state each of them changes, and when one raises. -/

namespace Sys2Proof.Machine

/-- The finder writes `CAND` and `P`. -/
theorem findMatches_cases (s : State) :
    (s.row = none ∧ findMatches s = .raised .unimplementedTransform s) ∨
      ∃ row, s.row = some row ∧ findMatches s = .ok () (s.withCall { s.call with
        cand := findCands row s.workBytes, tk := { s.call.tk with p := lastPos s s.dsize (s.dsize - 1) } }) := by
  unfold findMatches withRow
  cases s.row with
  | none => exact .inl ⟨rfl, rfl⟩
  | some row => exact .inr ⟨row, rfl, rfl⟩

/-- Step 1 of the parse writes `COST`, `ADV` and `P`. -/
theorem parseCostToEnd_cases (s : State) :
    (s.row = none ∧ parseCostToEnd s = .raised .unimplementedTransform s) ∨
      ∃ row costs adv, s.row = some row ∧
        (costs, adv) = costToEnd row.minLen (literalCost s.kon) (matchCost s.kon row (cmodeOf s.ident))
          (withCands s.workBytes s.call.cand) ∧
        parseCostToEnd s = .ok () (s.withCall { s.call with
          cost := costs, adv := adv, tk := { s.call.tk with p := lastPos s s.dsize 0 } }) := by
  unfold parseCostToEnd withRow
  cases s.row with
  | none => exact .inl ⟨rfl, rfl⟩
  | some row => exact .inr ⟨row, _, _, rfl, rfl, rfl⟩

/-- Step 2 of the parse writes `MLIST`, `MCOUNT` and `P`, and `MCOUNT` is the number of matches. -/
theorem parseWalk_eq (s : State) : ∃ ms p,
    (ms, p) = walkFrom s.dsize s.call.cand s.call.adv s.dsize 0 ∧
    parseWalk s = s.withCall { s.call with mlist := ms, mcount := ms.length, tk := { s.call.tk with p := p } } :=
  ⟨_, _, rfl, rfl⟩

/-- The parts of the per-call state that building the tree writes, and nothing else. -/
structure Built (s t : State) : Prop where
  whole : t = s.withCall t.call
  call : t.call = { s.call with
    freq := t.call.freq, scaled := t.call.scaled, hnode := t.call.hnode, hroot := t.call.hroot
    ht := t.call.ht, hcode := t.call.hcode }

theorem Built.refl (s : State) : Built s s := ⟨rfl, rfl⟩

theorem Built.trans {s t u : State} (h1 : Built s t) (h2 : Built t u) : Built s u where
  whole := by
    have a := h1.whole
    have b := h2.whole
    rw [a] at b
    exact b
  call := by
    have a := h1.call
    have b := h2.call
    rw [a] at b
    exact b

theorem built_tally (s : State) : Built s (tally s) := ⟨rfl, rfl⟩

theorem built_makeLeaves (f : FreqSource) (s : State) : Built s (makeLeaves f s) := ⟨rfl, rfl⟩

theorem built_merge (s : State) : Built s (merge s) := ⟨rfl, rfl⟩

theorem built_limitDepth (s : State) : Built s (limitDepth s) := ⟨rfl, rfl⟩

theorem built_canonicalise (s : State) : Built s (canonicalise s) := ⟨rfl, rfl⟩

theorem built_fillTables (s : State) : Built s (fillTables s) := ⟨rfl, rfl⟩

theorem built_assignCodes (s : State) : Built s (assignCodes s) := ⟨rfl, rfl⟩

/-- `BuildTree` writes the Huffman tables only. -/
theorem built_buildTree (s : State) : Built s (buildTree s) := by
  unfold buildTree
  split
  · exact Built.refl s
  · exact ((((built_tally s).trans (built_limitDepth _)).trans (built_canonicalise _)).trans (built_fillTables _)).trans
      (built_assignCodes _)

/-- Writing symbols and the tree table changes the writer and `DST` only. -/
theorem writeSymbol_eq (sym : Nat) (s : State) : ∃ k, writeSymbol sym s = s.withSink k := ⟨_, rfl⟩

theorem writeTreeTable_eq (s : State) : ∃ k, writeTreeTable s = s.withSink k := ⟨_, rfl⟩

/-- The emitter changes the writer, `DST`, `P` and `MI` only. -/
theorem emitTokens_eq (row : ModeRow) (s : State) : ∃ k p mi,
    emitTokens row s = (s.withSink k).withTk { s.call.tk with p := p, mi := mi } := ⟨_, _, _, rfl⟩

/-- `WriteHeader` puts the header bytes at offset 0, and for data that is not empty opens the writer and may write the
tree table. -/
theorem writeHeader_cases (s : State) :
    (s.dsize = 0 ∧ writeHeader s = s.withDst (s.dst.writeList 0 (headerBytes s)) s.fmt.hdrLen) ∨
      (s.dsize ≠ 0 ∧ s.call.hw = .raw ∧
        writeHeader s = openWriter (s.withDst (s.dst.writeList 0 (headerBytes s)) s.fmt.hdrLen)) ∨
      (s.dsize ≠ 0 ∧ s.call.hw ≠ .raw ∧
        writeHeader s = writeTreeTable (openWriter (s.withDst (s.dst.writeList 0 (headerBytes s)) s.fmt.hdrLen))) := by
  by_cases h : s.dsize = 0
  · exact .inl ⟨h, if_pos h⟩
  · by_cases hw : s.call.hw = .raw
    · exact .inr (.inl ⟨h, hw, (if_neg h).trans (if_pos hw)⟩)
    · exact .inr (.inr ⟨h, hw, (if_neg h).trans (if_neg hw)⟩)

/-- `CheckConfig`: an instance without `VALID` raises; else `IDENT` is copied and the modes are checked. -/
theorem checkConfig_cases (s : State) :
    (s.cfgValid = false ∧ checkConfig s = .raised .notConfiguredForCompression s) ∨
      (s.cfgValid = true ∧ checkConfig s = checkModes .unsupportedMode (s.withIdent s.cfgIdent)) := by
  unfold checkConfig
  cases h : s.cfgValid
  · exact .inl ⟨rfl, by simp⟩
  · exact .inr ⟨rfl, by simp⟩

end Sys2Proof.Machine
end

