-- ==== Sys2Proof/Laws/Obfuscation.lean ====
section
/-! SUPPORT. The transforms keep the length and are undone by their inverses, so every record satisfies rule R8's law of
its transform table. -/

namespace Sys2Proof.Machine

@[simp] theorem complementBytes_length (B : List Byte) : (complementBytes B).length = B.length := by simp [complementBytes]

@[simp] theorem xorPosFrom_length (i : Nat) (B : List Byte) : (xorPosFrom i B).length = B.length := by
  induction B generalizing i with
  | nil => rfl
  | cons b t ih => simp [xorPosFrom, ih]

@[simp] theorem xorPosBytes_length (B : List Byte) : (xorPosBytes B).length = B.length := xorPosFrom_length 0 B

@[simp] theorem pairSwapBytes_length (B : List Byte) : (pairSwapBytes B).length = B.length := by
  induction B using pairSwapBytes.induct with
  | case1 a b t ih => simp [pairSwapBytes, ih]
  | case2 l h => rw [pairSwapBytes]; exact h

@[simp] theorem xorChainFrom_length (p : Byte) (B : List Byte) : (xorChainFrom p B).length = B.length := by
  induction B generalizing p with
  | nil => rfl
  | cons b t ih => simp [xorChainFrom, ih]

@[simp] theorem unXorChainFrom_length (p : Byte) (B : List Byte) : (unXorChainFrom p B).length = B.length := by
  induction B generalizing p with
  | nil => rfl
  | cons b t ih => simp [unXorChainFrom, ih]

/-- No transform of the reference table changes the length. -/
theorem deobfReference_length (m : Nat) (B : List Byte) : (deobfReference m B).length = B.length := by
  unfold deobfReference
  split
  · exact complementBytes_length B
  · exact xorPosBytes_length B
  · exact pairSwapBytes_length B
  · cases B <;> simp [unXorChainBytes]
  · rfl

theorem xorPosFrom_twice (i : Nat) (B : List Byte) : xorPosFrom i (xorPosFrom i B) = B := by
  induction B generalizing i with
  | nil => rfl
  | cons b t ih => simp [xorPosFrom, ih]

theorem pairSwap_twice (B : List Byte) : pairSwapBytes (pairSwapBytes B) = B := by
  induction B using pairSwapBytes.induct with
  | case1 a b t ih => simp [pairSwapBytes, ih]
  | case2 l h =>
    have e : pairSwapBytes l = l := by rw [pairSwapBytes]; exact h
    rw [e, e]

theorem unXorChain_xorChain (p : Byte) (B : List Byte) : unXorChainFrom p (xorChainFrom p B) = B := by
  induction B generalizing p with
  | nil => rfl
  | cons b t ih => simp [xorChainFrom, unXorChainFrom, ih]

/-- The reference table satisfies rule R8's law. -/
theorem reference_obfWf : referenceConstruction.obfWf := by
  intro m h1 h4 B
  have hm : m = 1 ∨ m = 2 ∨ m = 3 ∨ m = 4 := by omega
  rcases hm with rfl | rfl | rfl | rfl
  · refine ⟨?_, complementBytes_length B⟩
    change complementBytes (complementBytes B) = B
    simp [complementBytes, Function.comp_def]
  · exact ⟨xorPosFrom_twice 0 B, xorPosBytes_length B⟩
  · exact ⟨pairSwap_twice B, pairSwapBytes_length B⟩
  · cases B with
    | nil => exact ⟨rfl, rfl⟩
    | cons b t =>
      refine ⟨?_, ?_⟩
      · change b :: unXorChainFrom b (xorChainFrom b t) = b :: t
        rw [unXorChain_xorChain]
      · change (b :: xorChainFrom b t).length = (b :: t).length
        simp

/-- What a transform given length by length does to a sequence held as a vector. -/
theorem onLengths_toList (f : (n : Nat) → Vector Byte n → Vector Byte n) {n : Nat} (v : Vector Byte n) :
    onLengths f v.toList = (f n v).toList := by
  obtain ⟨⟨l⟩, rfl⟩ := v
  rfl

@[simp] theorem onLengths_length (f : (n : Nat) → Vector Byte n → Vector Byte n) (B : List Byte) :
    (onLengths f B).length = B.length := by simp [onLengths]

/-- A transform given as permutations is undone by the inverse permutations. -/
theorem onLengths_symm (σ : (n : Nat) → Equiv.Perm (Vector Byte n)) (B : List Byte) :
    onLengths (fun n => (σ n).symm) (onLengths (fun n => σ n) B) = B := by
  rw [onLengths.eq_1 (fun n => σ n), onLengths_toList, Equiv.symm_apply_apply]
  simp

/-- Every instance's transform table satisfies rule R8's law. -/
theorem obfWf_all (k : Construction) : k.obfWf := by
  intro m h1 h4 B
  obtain ⟨mt, im, re, obf, pr⟩ := k
  cases obf with
  | reference =>
    have h := reference_obfWf m h1 h4 B
    match m, h1 with
    | m + 1, _ => exact h
  | custom n =>
    match m, h1 with
    | m + 1, _ =>
      exact ⟨onLengths_symm (Config.customObf n (m + 1)) B, onLengths_length (fun len => Config.customObf n (m + 1) len) B⟩

/-- No instance's inverse transform changes the length of any bytes. -/
theorem deobfOf_length (k : Construction) (m : Nat) (B : List Byte) : (deobfOf k m B).length = B.length := by
  obtain ⟨mt, im, re, obf, pr⟩ := k
  cases m with
  | zero => cases obf <;> rfl
  | succ m =>
    cases obf with
    | reference => exact deobfReference_length _ _
    | custom n => exact onLengths_length (fun len => (Config.customObf n (m + 1) len).symm) B

end Sys2Proof.Machine
end

