-- ==== Sys2Proof/Tests/Slice0.lean ====
section
/-! SUPPORT. The model's own tests: each check of WellFormed refuses an ill-formed term; the spec's words decode to their
instructions; one step of each family on the spec's examples (95_test_vectors.md and the rules' own); and for each
statement with hypotheses a state and operands that meet them. -/

open Sys2Proof Sys2Proof.Machine

namespace Sys2Proof.Tests

/- One theorem after the other: kernel evaluations that wait for each other would each hold a thread. -/
set_option Elab.async false

/-! ## Helpers -/

/-- A memory holding the bytes from offset 0. -/
def memOf (bs : List Byte) : Mem := ⟨0, bs.zipIdx.map fun x => (x.2, x.1)⟩

/-- The reset machine with a source. -/
def withSrc (bs : List Byte) : State := { State.reset with src := memOf bs, srcLen := bs.length }

/-- The reset machine encoding `bs` from `WORK` in compression mode `c`. -/
def withWorkOf (c : BitVec 3) (bs : List Byte) : State :=
  { State.reset with work := memOf bs, dsize := bs.length, ident := identByte 0 0 c }

/-- The reset machine in the middle of DECODE: output so far, size to reach. -/
def decoding (out : List Byte) (size : Nat) : State :=
  { State.reset with dst := memOf out, dstLen := out.length, dsize := size }

/-- What an outcome leaves, or `d`. -/
def look {α : Type} (o : Host.Outcome State Fault Refusal) (d : α) (f : State → α) : α :=
  match o with
  | .next t => f t
  | .fault _ => d
  | .refused _ => d

/-- The table of vector V40: levels 1:0, 2:1, 3:2,3. -/
def levelsV40 : List (List Byte) := [[0], [1], [2, 3]] ++ List.replicate 13 []

/-- The reset machine with V40's table, on a stream of the given bytes. -/
def withV40 (w : SymWidth) (bs : List Byte) : State :=
  { withSrc bs with call := { Call.reset with hw := w, ht := tabOf levelsV40 } }

/-! ## WellFormed refuses -/

theorem test_wf_litH8_empty : (Instr.litH8 []).wf = false := by decide
theorem test_wf_litH8_long : (Instr.litH8 (List.replicate 17 true)).wf = false := by decide
theorem test_wf_litH4_one_bit : (Instr.litH4 [true]).wf = false := by decide
theorem test_wf_litH4_long : (Instr.litH4 (List.replicate 33 true)).wf = false := by decide
theorem test_wf_short_escape : (Instr.matchLzx412Short 15 0).wf = false := by decide
theorem test_wf_header_size : (Instr.header 0x4B [1, 2] 0).wf = false := by decide
theorem test_wf_treetable_raw : (Instr.treetable .raw (List.replicate 16 [])).wf = false := by decide
theorem test_wf_treetable_levels : (Instr.treetable .w4 (List.replicate 15 [])).wf = false := by decide
theorem test_wf_treetable_symbol : (Instr.treetable .w4 ([16] :: List.replicate 15 [])).wf = false := by decide
theorem test_wf_treetable_count :
    (Instr.treetable .w8 (List.replicate 256 0 :: List.replicate 15 [])).wf = false := by decide +kernel
theorem test_wf_writeBits_value : (Instr.writeBits (2 ^ 64) 1).wf = false := by decide
theorem test_wf_writeBits_count : (Instr.writeBits 0 33).wf = false := by decide
theorem test_wf_writeByte_value : (Instr.writeByte (2 ^ 64)).wf = false := by decide
theorem test_wf_readBits_count : (Instr.readBits 33).wf = false := by decide

/-! ## Decoding: words written out from the spec's encodings -/

/-- R94, R113: the ident byte under mask 0x07. -/
theorem test_decode_cmode :
    decode ⟨.cmode, bitsLsb 8 0b00000000⟩ = .ok .cmodeLz412 ∧ decode ⟨.cmode, bitsLsb 8 0b00000001⟩ = .ok .cmodeLz38 ∧
    decode ⟨.cmode, bitsLsb 8 0b00000010⟩ = .ok .cmodeLz816 ∧ decode ⟨.cmode, bitsLsb 8 0b00000011⟩ = .ok .cmodeLzd115 ∧
    decode ⟨.cmode, bitsLsb 8 0b11111100⟩ = .ok .cmodeLzx412 ∧ decode ⟨.cmode, bitsLsb 8 0b00011101⟩ = .ok .cmodeLz5 ∧
    decode ⟨.cmode, bitsLsb 8 0b00000110⟩ = .ok .cmode6 ∧ decode ⟨.cmode, bitsLsb 8 0b00000111⟩ = .ok .cmode7 := by
  decide

/-- R95, R113: the ident byte under masks 0x18 and 0xE0. -/
theorem test_decode_hmode_omode :
    decode ⟨.hmode, bitsLsb 8 0b11100111⟩ = .ok .hmodeNone ∧ decode ⟨.hmode, bitsLsb 8 0b00001000⟩ = .ok .hmodeH4 ∧
    decode ⟨.hmode, bitsLsb 8 0b10010100⟩ = .ok .hmodeH8 ∧ decode ⟨.hmode, bitsLsb 8 0b00011101⟩ = .ok .hmode3 ∧
    decode ⟨.omode, bitsLsb 8 0b00011111⟩ = .ok .omodeNone ∧ decode ⟨.omode, bitsLsb 8 0b00100000⟩ = .ok .omodeComplement ∧
    decode ⟨.omode, bitsLsb 8 0b01000000⟩ = .ok .omodeXorpos ∧ decode ⟨.omode, bitsLsb 8 0b01100000⟩ = .ok .omodePairswap ∧
    decode ⟨.omode, bitsLsb 8 0b10010100⟩ = .ok .omodeXorchain ∧ decode ⟨.omode, bitsLsb 8 0b10100000⟩ = .ok .omode5 ∧
    decode ⟨.omode, bitsLsb 8 0b11000000⟩ = .ok .omode6 ∧ decode ⟨.omode, bitsLsb 8 0b11100000⟩ = .ok .omode7 := by
  decide

/-- R100: `0 vvvvvvvv`; one code (V44: symbol 9 has code 1); two codes (V40: nibbles 0 and 1 are `0 10`). -/
theorem test_decode_literals :
    decode ⟨.token 0 0, [false, false, true, false, false, false, false, false, true]⟩ = .ok (.litRaw 0x41) ∧
    decode ⟨.token 2 2, [false, true]⟩ = .ok (.litH8 [true]) ∧
    decode ⟨.token 2 1, [false, false, true, false]⟩ = .ok (.litH4 [false, true, false]) := by
  decide

/-- R102 with the examples of R326, R328, R330, R332, R334. -/
theorem test_decode_matches :
    decode ⟨.token 0 0, bitsMsb 17 0b1_0011_000000000010⟩ = .ok (.matchLz412 3 2) ∧
    decode ⟨.token 1 0, bitsMsb 12 0b1_100_00000010⟩ = .ok (.matchLz38 4 2) ∧
    decode ⟨.token 2 0, bitsMsb 25 0b1_00000011_0000000000000010⟩ = .ok (.matchLz816 3 2) ∧
    decode ⟨.token 3 0, bitsMsb 17 0b1_00000000010_00011⟩ = .ok (.matchLzd115 2 3) ∧
    decode ⟨.token 4 0, bitsMsb 17 0b1_0011_000000000010⟩ = .ok (.matchLzx412Short 3 2) ∧
    decode ⟨.token 4 0, bitsMsb 25 0b1_1111_00000001_000000000000⟩ = .ok (.matchLzx412Ext 1 0) := by
  decide

/-- R90 with R265's example `4B 09 00 00 03`. -/
theorem test_decode_header :
    decode ⟨.header, bitsOfBytes [0x4B, 0x09, 0x00, 0x00, 0x03]⟩ = .ok (.header 0x4B [9, 0, 0] 3) := by decide +kernel

/-- R96 with R210's example: the 144 bits of V40's table. -/
theorem test_decode_treetable :
    decode ⟨.treetable .w4, bitsMsb 40 0b00000001_0000_00000001_0001_00000010_0010_0011 ++ List.replicate 104 false⟩ =
      .ok (.treetable .w4 levelsV40) := by decide +kernel

/-- R110, R261: the commands, and CONFIGURE(4, 2, 4). -/
theorem test_decode_commands :
    decode ⟨.cmd, bitsLsb 8 0⟩ = .ok .nop ∧ decode ⟨.cmd, bitsLsb 8 1⟩ = .ok .decode ∧
    decode ⟨.cmd, bitsLsb 8 2⟩ = .ok .encode ∧ decode ⟨.cmd, bitsLsb 8 3⟩ = .ok .reset ∧
    decode ⟨.cfg, bitsLsb 9 0x194⟩ = .ok (.configure 4 2 4) := by decide

/-- The unit operations by the port's numbers (log entry 1), 0 to 26. -/
theorem test_decode_unitops_low :
    decode ⟨.unitop, bitsLsb 8 0⟩ = .ok .openWriter ∧
    decode ⟨.unitop, bitsLsb 8 1 ++ bitsLsb 64 0x1FF ++ bitsLsb 6 4⟩ = .ok (.writeBits 0x1FF 4) ∧
    decode ⟨.unitop, bitsLsb 8 2 ++ bitsLsb 64 0xAB⟩ = .ok (.writeByte 0xAB) ∧
    decode ⟨.unitop, bitsLsb 8 3⟩ = .ok .flush ∧ decode ⟨.unitop, bitsLsb 8 4⟩ = .ok .openReader ∧
    decode ⟨.unitop, bitsLsb 8 5 ++ bitsLsb 6 8⟩ = .ok (.readBits 8) ∧ decode ⟨.unitop, bitsLsb 8 6⟩ = .ok .readByte ∧
    decode ⟨.unitop, bitsLsb 8 7⟩ = .ok .findMatches ∧ decode ⟨.unitop, bitsLsb 8 8⟩ = .ok .parseCostToEnd ∧
    decode ⟨.unitop, bitsLsb 8 9⟩ = .ok .parseWalk ∧ decode ⟨.unitop, bitsLsb 8 10⟩ = .ok .tally ∧
    decode ⟨.unitop, bitsLsb 8 11 ++ [true]⟩ = .ok (.makeLeaves .scaled) ∧ decode ⟨.unitop, bitsLsb 8 12⟩ = .ok .merge ∧
    decode ⟨.unitop, bitsLsb 8 13⟩ = .ok .limitDepth ∧ decode ⟨.unitop, bitsLsb 8 14⟩ = .ok .canonicalise ∧
    decode ⟨.unitop, bitsLsb 8 15⟩ = .ok .serialise ∧ decode ⟨.unitop, bitsLsb 8 16⟩ = .ok .assignCodes ∧
    decode ⟨.unitop, bitsLsb 8 17 ++ bitsLsb 8 9⟩ = .ok (.writeSymbol 9) ∧
    decode ⟨.unitop, bitsLsb 8 18⟩ = .ok .deserialise ∧ decode ⟨.unitop, bitsLsb 8 19⟩ = .ok .readSymbol ∧
    decode ⟨.unitop, bitsLsb 8 20 ++ [false]⟩ = .ok (.obf0 .obfuscate) ∧
    decode ⟨.unitop, bitsLsb 8 21 ++ [true]⟩ = .ok (.obf1 .deobfuscate) ∧
    decode ⟨.unitop, bitsLsb 8 22 ++ [false]⟩ = .ok (.obf2 .obfuscate) ∧
    decode ⟨.unitop, bitsLsb 8 23 ++ [true]⟩ = .ok (.obf3 .deobfuscate) ∧
    decode ⟨.unitop, bitsLsb 8 24 ++ [false]⟩ = .ok (.obf4 .obfuscate) ∧
    decode ⟨.unitop, bitsLsb 8 25 ++ [false]⟩ = .ok (.valueRaw .read) ∧
    decode ⟨.unitop, bitsLsb 8 26 ++ [true] ++ bitsLsb 8 0x41⟩ = .ok (.valueH8 (.write 0x41)) := by decide +kernel

/-- The unit operations by the port's numbers, 27 to 51. -/
theorem test_decode_unitops_high :
    decode ⟨.unitop, bitsLsb 8 27 ++ [false]⟩ = .ok (.valueH4 .read) ∧ decode ⟨.unitop, bitsLsb 8 28⟩ = .ok .tokenLoop ∧
    decode ⟨.unitop, bitsLsb 8 29⟩ = .ok .decodeLit ∧ decode ⟨.unitop, bitsLsb 8 30⟩ = .ok .decodeMatch ∧
    decode ⟨.unitop, bitsLsb 8 31⟩ = .ok .emitTokens ∧ decode ⟨.unitop, bitsLsb 8 32⟩ = .ok .decodeLz412 ∧
    decode ⟨.unitop, bitsLsb 8 33⟩ = .ok .encodeLz412 ∧ decode ⟨.unitop, bitsLsb 8 34⟩ = .ok .decodeLz38 ∧
    decode ⟨.unitop, bitsLsb 8 35⟩ = .ok .encodeLz38 ∧ decode ⟨.unitop, bitsLsb 8 36⟩ = .ok .decodeLz816 ∧
    decode ⟨.unitop, bitsLsb 8 37⟩ = .ok .encodeLz816 ∧ decode ⟨.unitop, bitsLsb 8 38⟩ = .ok .decodeLzd115 ∧
    decode ⟨.unitop, bitsLsb 8 39⟩ = .ok .encodeLzd115 ∧ decode ⟨.unitop, bitsLsb 8 40⟩ = .ok .decodeLzx412 ∧
    decode ⟨.unitop, bitsLsb 8 41⟩ = .ok .encodeLzx412 ∧ decode ⟨.unitop, bitsLsb 8 42⟩ = .ok .lz5 ∧
    decode ⟨.unitop, bitsLsb 8 43⟩ = .ok .readHeaderValidateMagic ∧ decode ⟨.unitop, bitsLsb 8 44⟩ = .ok .dispatchModes ∧
    decode ⟨.unitop, bitsLsb 8 45⟩ = .ok .deobfuscate ∧ decode ⟨.unitop, bitsLsb 8 46⟩ = .ok .checkConfig ∧
    decode ⟨.unitop, bitsLsb 8 47⟩ = .ok .materialize ∧ decode ⟨.unitop, bitsLsb 8 48⟩ = .ok .buildTree ∧
    decode ⟨.unitop, bitsLsb 8 49⟩ = .ok .writeHeader ∧ decode ⟨.unitop, bitsLsb 8 50⟩ = .ok .emit ∧
    decode ⟨.unitop, bitsLsb 8 51 ++ bitsLsb 3 5⟩ = .ok (.raise .unimplementedTransform) := by decide +kernel

/-- Reserved words are refused by name. -/
theorem test_decode_refuses :
    decode ⟨.unitop, bitsLsb 8 52⟩ = .error .noUnitOp ∧ decode ⟨.token 5 0, [true]⟩ = .error .noTokenFormat ∧
    decode ⟨.token 0 3, [false]⟩ = .error .noTokenFormat ∧ decode ⟨.token 0 0, []⟩ = .error .tooShort ∧
    decode ⟨.cfg, bitsLsb 9 0x94⟩ = .error .cfgNotValid ∧ decode ⟨.treetable .raw, []⟩ = .error .noSymbolWidth ∧
    decode ⟨.unitop, bitsLsb 8 3 ++ [true]⟩ = .error .tooLong := by decide

/-- The opcode table's numbering. -/
theorem test_table_words :
    decodeTableWord 8 1 = some .decode ∧ decodeTableWord 16 0x194 = some (.configure 4 2 4) ∧
    decodeTableWord 8 0x05 = some .cmodeLz5 ∧ decodeTableWord 8 0x10 = some .hmodeH8 ∧
    decodeTableWord 8 0x80 = some .omodeXorchain ∧
    decodeTableWord 40 0x030000094B = some (.header 0x4B [9, 0, 0] 3) := by decide +kernel

theorem test_fetched_word_runs :
    look (step (State.reset.withFetchWord 16 0x194)) 0 State.cfg = 0x194 ∧
    look (step (State.reset.withFetchWord 8 0x10)) .raw (fun t => t.call.hw) = .w8 := by decide +kernel

/-! ## One step of each family -/

/-- R131's examples: `writeBits(1,1); writeBits(0x41,8); flush` (V2) and `writeBits(0x1FF, 4); flush` (V11). -/
theorem test_writer_v2 :
    look (runAll [.openWriter, .writeBits 1 1, .writeBits 0x41 8, .flush] State.reset) []
      (fun t => t.dst.slice 0 t.dstLen) = [0x00, 0x00, 0x80, 0xA0] := by decide +kernel
theorem test_writer_v11 :
    look (runAll [.openWriter, .writeBits 0x1FF 4, .flush] State.reset) [] (fun t => t.dst.slice 0 t.dstLen) =
      [0x00, 0x00, 0x00, 0xF0] := by decide +kernel

/-- V10: LSB first, big-endian words of two bytes. -/
theorem test_writer_v10 :
    look (runAll [.openWriter, .writeBits 1 1, .writeBits 0x41 8, .writeBits 3 2, .flush] { State.reset with fmt := 0xE4B }) []
      (fun t => t.dst.slice 0 t.dstLen) = [0x06, 0x83] := by decide +kernel

/-- R133's example: `writeByte(0xAB); flush` gives `00 00 00 AB`. -/
theorem test_writeByte :
    look (runAll [.openWriter, .writeByte 0xAB, .flush] State.reset) [] (fun t => t.dst.slice 0 t.dstLen) =
      [0x00, 0x00, 0x00, 0xAB] := by decide +kernel

/-- V13: the reader on `00 00 80 A0` after a five-byte header. -/
theorem test_reader_v13 :
    look (runAll [.openReader, .readBits 1, .readBits 8] (withSrc [0, 0, 0, 0, 0, 0x00, 0x00, 0x80, 0xA0])) 0 State.ret = 0x41 ∧
    look (runAll [.openReader, .readBits 32, .readBits 1] (withSrc [0, 0, 0, 0, 0, 0x00, 0x00, 0x80, 0xA0])) none State.err =
      some .corruptStream := by decide +kernel

/-- V14: three bytes are no word, for `readByte` either. -/
theorem test_reader_v14 :
    look (runAll [.openReader, .readByte] (withSrc [0, 0, 0, 0, 0, 0x00, 0x00, 0x80])) none State.err =
      some .corruptStream := by decide +kernel

/-- R162's example: `"ABCDxABCDyABCD"`, mode 0. -/
theorem test_findMatches :
    look (exec .findMatches (withWorkOf 0 [65, 66, 67, 68, 120, 65, 66, 67, 68, 121, 65, 66, 67, 68])) []
      (fun t => t.call.cand) = [none, none, none, none, none, some (4, 5), some (3, 5), none, none, none, some (4, 5),
        some (3, 5), none, none] := by decide +kernel

/-- R184's example: `"ABCABCABC"`, mode 0. -/
theorem test_costToEnd :
    look (runAll [.findMatches, .parseCostToEnd] (withWorkOf 0 [65, 66, 67, 65, 66, 67, 65, 66, 67])) ([], [])
      (fun t => (t.call.cost, t.call.adv)) = ([44, 35, 26, 17, 17, 17, 17, 18, 9, 0], [1, 1, 1, 6, 5, 4, 3, 1, 1]) := by
  decide +kernel

/-- R188's example, where the greedy parse loses (V33). -/
theorem test_parseWalk :
    look (runAll [.findMatches, .parseCostToEnd, .parseWalk] (withWorkOf 0 [120, 66, 67, 68, 69, 70, 71, 72, 121, 65, 66, 67,
      122, 65, 66, 67, 68, 69, 70, 71, 72])) [] (fun t => t.call.mlist) = [⟨14, 7, 13⟩] := by decide +kernel

/-- R202's example: literals `41 42` with `W = 4`. -/
theorem test_tally :
    look (exec .tally { withWorkOf 0 [0x41, 0x42] with call := { Call.reset with hw := .w4 } }) [] (fun t => t.call.freq) =
      [0, 1, 1, 0, 2, 0, 0, 0, 0, 0, 0, 0, 0, 0, 0, 0] := by decide +kernel

/-- R203's and R204's first example: the root is node 6, (node 5, leaf 0), of frequency 9. -/
theorem test_merge :
    look (runAll [.makeLeaves .freq, .merge] { State.reset with call := { Call.reset with hw := .w4, freq := [5, 2, 1, 1] } })
      none (fun t => t.call.hnode[6]?) = some ⟨9, false, 0, some 5, some 0, 6⟩ := by decide +kernel

/-- R207's example 2, where parents change: levels 1: 0; 3: 3, 4, 5; 4: 1, 2 (V45). -/
theorem test_canonicalise :
    look (runAll [.limitDepth, .canonicalise] { State.reset with
      call := { Call.reset with hw := .w4, freq := [10, 1, 1, 2, 3, 3] } }) [] (fun t => leafLevels t.tree) =
      [[0], [], [3, 4, 5], [1, 2]] := by decide +kernel

/-- R207's example 2: node 8 becomes (leaf 5, node 6), of frequency 5. -/
theorem test_canonical_node :
    look (runAll [.limitDepth, .canonicalise] { State.reset with
      call := { Call.reset with hw := .w4, freq := [10, 1, 1, 2, 3, 3] } }) none (fun t => t.call.hnode[8]?) =
      some ⟨5, false, 0, some 5, some 6, 8⟩ := by decide +kernel

/-- R210's example: V40's table alone in a stream. -/
theorem test_serialise :
    look (runAll [.openWriter, .limitDepth, .canonicalise, .serialise, .flush] { State.reset with
      call := { Call.reset with hw := .w4, freq := [5, 2, 1, 1] } }) [] (fun t => t.dst.slice 0 t.dstLen) =
      [0x02, 0x11, 0x00, 0x01, 0x00, 0x00, 0x00, 0x23, 0, 0, 0, 0, 0, 0, 0, 0, 0, 0, 0, 0] := by decide +kernel

/-- R212's example: V40's codes. -/
theorem test_assignCodes :
    look (exec .assignCodes (withV40 .w4 [])) [] (fun t => t.call.hcode.take 4) =
      [some ⟨0, 1⟩, some ⟨2, 2⟩, some ⟨6, 3⟩, some ⟨7, 3⟩] := by decide +kernel

/-- R213's example: code `1110`, flushed alone. -/
theorem test_writeSymbol :
    look (runAll [.openWriter, .writeSymbol 1, .flush] { State.reset with
      call := { Call.reset with hcode := [none, some ⟨14, 4⟩] } }) [] (fun t => t.dst.slice 0 t.dstLen) =
      [0x00, 0x00, 0x00, 0xE0] := by decide +kernel

/-- R216's example: V40's table read back. -/
theorem test_deserialise :
    look (runAll [.openReader, .deserialise] { withSrc ([0, 0, 0, 0, 0, 0x02, 0x11, 0x00, 0x01, 0x00, 0x00, 0x00, 0x23] ++
      List.replicate 12 0) with call := { Call.reset with hw := .w4 } }) Call.reset.ht (fun t => t.call.ht) =
      tabOf levelsV40 := by decide +kernel

/-- R219's example: stream bits `1 1 0` are symbol 2. -/
theorem test_readSymbol :
    look (runAll [.openReader, .readSymbol] (withV40 .w4 [0, 0, 0, 0, 0, 0, 0, 0, 0xC0])) 0 State.ret = 2 := by decide +kernel

/-- R219, V49: with the one-leaf table, bits of all ones are no code. -/
theorem test_readSymbol_unassigned :
    look (runAll [.openReader, .readSymbol] { withSrc [0, 0, 0, 0, 0, 255, 255, 255, 255] with
      call := { Call.reset with hw := .w4, ht := tabOf ([7] :: List.replicate 15 []) } }) none State.err =
      some .corruptStream := by decide +kernel

/-- V50: the four transforms of `00 01 02 03 10`. -/
theorem test_obfuscate :
    look (exec (.obf1 .obfuscate) (withWorkOf 0 [0, 1, 2, 3, 0x10])) [] (fun t => t.workBytes) = [0xFF, 0xFE, 0xFD, 0xFC, 0xEF] ∧
    look (exec (.obf2 .obfuscate) (withWorkOf 0 [0, 1, 2, 3, 0x10])) [] (fun t => t.workBytes) = [0, 0, 0, 0, 0x14] ∧
    look (exec (.obf3 .obfuscate) (withWorkOf 0 [0, 1, 2, 3, 0x10])) [] (fun t => t.workBytes) = [1, 0, 3, 2, 0x10] ∧
    look (exec (.obf4 .obfuscate) (withWorkOf 0 [0, 1, 2, 3, 0x10])) [] (fun t => t.workBytes) = [0, 1, 3, 1, 0x13] := by
  decide +kernel

/-- V51: mode 4 undone over `DST`. -/
theorem test_deobfuscate :
    look (exec (.obf4 .deobfuscate) (decoding [0x12, 0x26, 0x62, 0x2E] 4)) [] (fun t => t.dst.slice 0 4) =
      [0x12, 0x34, 0x56, 0x78] := by decide +kernel

/-- R303's example: with codes 4 to `0`, 1 to `10`, 2 to `110`, 3 to `1110`, 5 to `1111`, `writeValue(0x52)` appends `1111`
then `110`. -/
theorem test_valueH4_write :
    look (runAll [.openWriter, .valueH4 (.write 0x52), .flush] { State.reset with
      call := { Call.reset with hcode := [none, some ⟨2, 2⟩, some ⟨6, 3⟩, some ⟨14, 4⟩, some ⟨0, 1⟩, some ⟨15, 4⟩] } }) []
      (fun t => t.dst.slice 0 t.dstLen) = [0, 0, 0, 0xFC] := by decide +kernel

/-- V40's tree: `readValue` on bits `0 10` returns `0x01`. -/
theorem test_valueH4_read :
    look (runAll [.openReader, .valueH4 .read] (withV40 .w4 [0, 0, 0, 0, 0, 0, 0, 0, 0x40])) 0 State.ret = 1 := by
  decide +kernel

/-- R323's examples: a `MATCH` as the first token; `LIT 41`, `MATCH len=3 disp=1` with a size of 4, and with a size of 3. -/
theorem test_match_first : look (exec (.matchLz412 0 0) (decoding [] 3)) none State.err = some .corruptStream := by
  decide +kernel
theorem test_match_overlaps :
    look (exec (.matchLz412 0 0) (decoding [0x41] 4)) [] (fun t => t.dst.slice 0 t.dstLen) = [0x41, 0x41, 0x41, 0x41] := by
  decide +kernel
theorem test_match_overruns : look (exec (.matchLz412 0 0) (decoding [0x41] 3)) none State.err = some .corruptStream := by
  decide +kernel

/-- R326's example, by the mode's own decoder. -/
theorem test_decodeLz412 :
    look (runAll [.openReader, .decodeLz412] { withSrc [0x4B, 9, 0, 0, 0, 0x73, 0x88, 0x90, 0x20, 0x00, 0x00, 0x20, 0x00] with
      dsize := 9 }) [] (fun t => t.dst.slice 0 t.dstLen) = [65, 66, 67, 65, 66, 67, 65, 66, 67] := by decide +kernel

/-- R332's example: the displacement comes first. -/
theorem test_decodeLzd115 :
    look (runAll [.openReader, .decodeLzd115] { withSrc [0x4B, 9, 0, 0, 3, 0x70, 0x88, 0x90, 0x20, 0x00, 0x00, 0x30, 0x04] with
      dsize := 9 }) [] (fun t => t.dst.slice 0 t.dstLen) = [65, 66, 67, 65, 66, 67, 65, 66, 67] := by decide +kernel

/-- R264's and R265's examples. -/
theorem test_header_phases :
    look (exec .readHeaderValidateMagic (withSrc [0x4A, 0, 0, 0, 0])) none State.err = some .formatMismatch ∧
    look (exec .readHeaderValidateMagic (withSrc [0x4B, 1, 0])) none State.err = some .corruptStream ∧
    look (exec .readHeaderValidateMagic (withSrc [0x4B, 9, 0, 0, 3])) (0, 0) (fun t => (t.dsize, t.ident)) = (9, 3) := by
  decide +kernel

/-- R266's examples: `0x06`, `0x18`, `0xA0`, `0x1D` are `CorruptStream`, `0x05` is `UnimplementedTransform`. -/
theorem test_dispatchModes :
    look (exec .dispatchModes { State.reset with ident := 0x06 }) none State.err = some .corruptStream ∧
    look (exec .dispatchModes { State.reset with ident := 0x18 }) none State.err = some .corruptStream ∧
    look (exec .dispatchModes { State.reset with ident := 0xA0 }) none State.err = some .corruptStream ∧
    look (exec .dispatchModes { State.reset with ident := 0x1D }) none State.err = some .corruptStream ∧
    look (exec .dispatchModes { State.reset with ident := 0x05 }) none State.err = some .unimplementedTransform := by
  decide +kernel

/-- R271's examples. -/
theorem test_encode_refusals :
    look (exec .encode State.reset) none State.err = some .notConfiguredForCompression ∧
    look (runAll [.configure 0 0 6, .encode] State.reset) none State.err = some .unsupportedMode ∧
    look (runAll [.configure 0 3 0, .encode] State.reset) none State.err = some .unsupportedMode ∧
    look (runAll [.configure 0 0 5, .encode] State.reset) none State.err = some .unimplementedTransform ∧
    look (runAll [.configure 0 3 5, .encode] State.reset) none State.err = some .unsupportedMode := by decide +kernel

/-- R275's example: the empty input under CONFIGURE(4, 2, 4) (V61). -/
theorem test_encode_empty :
    look (runAll [.configure 4 2 4, .encode] State.reset) [] (fun t => t.dst.slice 0 t.dstLen) =
      [0x4B, 0, 0, 0, 0x94] := by decide +kernel

/-- R327's example: `"ABCABCABC"`. -/
theorem test_encode_abc :
    look (runAll [.configure 0 0 0, .encode] (withSrc [65, 66, 67, 65, 66, 67, 65, 66, 67])) []
      (fun t => t.dst.slice 0 t.dstLen) =
      [0x4B, 9, 0, 0, 0, 0x73, 0x88, 0x90, 0x20, 0x00, 0x00, 0x20, 0x00] := by decide +kernel

/-- R325's example: trailing bytes are ignored. -/
theorem test_decode_trailing :
    look (exec .decode (withSrc [0x4B, 1, 0, 0, 0, 0, 0, 0x80, 0x20, 0xFF, 0xFF])) [] (fun t => t.dst.slice 0 t.dstLen) =
      [0x41] := by decide +kernel

/-- R334's example: nineteen bytes from the escaped length. -/
theorem test_decode_escape :
    look (exec .decode (withSrc [0x4B, 0x13, 0, 0, 4, 0, 0, 0xFC, 0x03, 0, 0, 0, 0])) [] (fun t => t.dst.slice 0 t.dstLen) =
      List.replicate 19 7 := by decide +kernel

/-- `STATUS` after an error: phase 7, not busy, not done, kind 4. -/
theorem test_status_failed : look (exec .encode State.reset) 0 State.status = 0b100_0_0_0111 := by decide +kernel

/-! ## The hypotheses of the statements can be met

One theorem for each statement that has hypotheses, with a boundary value for each clause that has a range. -/

/-- A busy machine. -/
def busyState : State := { State.reset with phase := .decode }

/-- The container of R326's example. -/
def abcContainer : List Byte := [0x4B, 9, 0, 0, 0, 0x73, 0x88, 0x90, 0x20, 0x00, 0x00, 0x20, 0x00]

/-- The container of one byte `41` (R325's example, without the trailing bytes). -/
def oneByte : List Byte := [0x4B, 1, 0, 0, 0, 0, 0, 0x80, 0x20]

/-- A machine configured for mode 0 with `"ABCABCABC"` as its source. -/
def encodable : State := { withSrc [65, 66, 67, 65, 66, 67, 65, 66, 67] with cfg := 0x100 }

theorem witness_DecodeEncodeRoundTrip :
    (Instr.litH8 (List.replicate 16 true)).wf = true ∧ (Instr.litH4 (List.replicate 32 true)).wf = true ∧
    (Instr.matchLzx412Short 14 0xFFF).wf = true ∧ (Instr.header 0x4B [1, 2, 3, 4] 0).wf = true ∧
    (Instr.treetable .w4 levelsV40).wf = true ∧ (Instr.writeBits (2 ^ 64 - 1) 32).wf = true ∧
    (Instr.readBits 32).wf = true := by decide +kernel

theorem witness_LengthAssembly :
    rowLzx412.wf = true ∧ rowLzx412.minLen ≤ 3 ∧ 273 ≤ rowLzx412.maxLen ∧ 15 < 2 ^ rowLzx412.lenBits ∧
    255 < 2 ^ rowLzx412.extBits ∧ 4096 ≤ rowLzx412.maxDisp ∧ 4095 < 2 ^ rowLzx412.dispBits ∧
    assembleLen rowLzx412 15 255 = 273 := by decide

theorem witness_StepRunsDecoded :
    recordWf State.reset.fmt State.reset.kon = true ∧ decode ⟨.cmd, bitsLsb 8 1⟩ = .ok .decode ∧ Instr.decode.wf = true ∧
    ({ State.reset with inbox := [.op ⟨.cmd, bitsLsb 8 1⟩] } : State).inbox = .op ⟨.cmd, bitsLsb 8 1⟩ :: [] := by decide

theorem witness_HostMoves :
    recordWf State.reset.fmt State.reset.kon = true ∧ State.reset.busy = false ∧ State.reset.cfgValid = false ∧
    busyState.busy = true ∧ recordWf busyState.fmt busyState.kon = true ∧ 2 ^ 32 - 1 < 2 ^ 32 ∧
    0 < (decoding [0x41] 1).dstLen ∧ (decoding [0x41] 1).busy = false := by decide

theorem witness_EveryInstructionAnswers :
    State.reset.busy = false ∧ State.reset.srcLen ≤ State.reset.fmt.maxInput ∧ State.reset.cfgValid = false := by decide

theorem witness_InvKeptByEveryStep :
    Inv { State.reset with inbox := [.op ⟨.cmd, bitsLsb 8 0⟩] } ∧
    step { State.reset with inbox := [.op ⟨.cmd, bitsLsb 8 0⟩] } = .next State.reset :=
  ⟨⟨⟨List.Pairwise.nil, List.Pairwise.nil, List.Pairwise.nil⟩, by unfold State.errMatchesPhase; decide, by decide,
    by unfold State.lengthsFit; decide, by unfold State.epochsDrawn; decide, by decide⟩, rfl⟩

theorem witness_RegisterFrame_CallFrame : exec .nop State.reset = .next State.reset ∧
    exec (.raise .corruptStream) State.reset = .next (takeError .corruptStream State.reset) := ⟨rfl, rfl⟩

theorem witness_MemoryFrame :
    exec .deobfuscate State.reset = .next State.reset ∧
    ∀ m b, (deobfOf State.reset.kon m b).length = b.length :=
  ⟨rfl, deobfOf_length referenceConstruction⟩

theorem witness_CommandsEndAtRest :
    recordWf State.reset.fmt State.reset.kon = true ∧ (∃ t, exec .decode (withSrc oneByte) = .next t) ∧
    ∃ t, exec .encode encodable = .next t := ⟨by decide, ⟨_, rfl⟩, ⟨_, rfl⟩⟩

theorem witness_CommandsForgetCallState : State.reset.busy = false ∧ Phase.failed.busy = false := by decide

theorem witness_DecodeIgnoresConfiguration : ∃ t, exec .decode (withSrc oneByte) = .next t := ⟨_, rfl⟩

theorem witness_CommandsAreFunctions :
    recordWf encodable.fmt encodable.kon = true ∧ look (exec .encode encodable) .idle State.phase = .done ∧
    look (exec .decode (withSrc oneByte)) .idle State.phase = .done := by decide +kernel

theorem witness_PlainRows :
    State.reset.busy = false ∧ State.reset.cfgValid = false ∧ encodable.busy = false ∧ encodable.cfgValid = true := by decide

theorem witness_IdentRowsSelect :
    (∀ c ∈ [0#3, 1#3, 2#3, 3#3, 4#3], c ∈ State.reset.kon.recognized ∧ c ∈ State.reset.kon.implemented) ∧
    5#3 ∈ State.reset.kon.recognized ∧ 5#3 ∉ State.reset.kon.implemented ∧
    6#3 ∉ State.reset.kon.recognized ∧ 7#3 ∉ State.reset.kon.recognized := by decide

theorem witness_WriterOperations :
    State.reset.call.wr.fill = 0 ∧ 0 < look (exec (.writeBits 1 1) State.reset) 0 (fun t => t.call.wr.fill) := by
  decide +kernel

theorem witness_BitPlacement :
    State.reset.fmt.wf ∧ (∃ t, runAll (.openWriter :: [(0x41, 8)].map (fun w => .writeBits w.1 w.2) ++ [.flush]) State.reset =
      .next t ∧ State.reset.dstLen + 31 / State.reset.fmt.wordBits * State.reset.fmt.wordBytes < t.dstLen) :=
  ⟨by decide, _, rfl, by decide +kernel⟩

theorem witness_MirrorLaw :
    State.reset.fmt.wf ∧ ∃ (t u : State), runAll (.openWriter :: [(0x41, 8)].map (fun w => .writeBits w.1 w.2) ++ [.flush]) State.reset =
      .next t ∧ u.fmt = State.reset.fmt ∧ u.srcLen = t.dstLen ∧
      (∀ a, State.reset.dstLen ≤ a → a < t.dstLen → u.src.read a = t.dst.read a) ∧
      u.call.rd = ⟨State.reset.dstLen, 0, 0⟩ :=
  ⟨by decide, _, { State.reset with
    src := look (runAll [.openWriter, .writeBits 0x41 8, .flush] State.reset) ⟨0, []⟩ State.dst, srcLen := 4 },
    rfl, rfl, by decide +kernel, fun _ _ _ => rfl, rfl⟩

/-- The reader opened on `00 00 80 A0` has 32 bits ahead. -/
theorem witness_ReaderOperations :
    look (exec .openReader (withSrc [0, 0, 0, 0, 0, 0x00, 0x00, 0x80, 0xA0])) 0 (fun t => t.bitsAhead.length) = 32 ∧
    look (exec .openReader (withSrc [0, 0, 0, 0, 0, 0x00, 0x00, 0x80])) 1 (fun t => t.bitsAhead.length) = 0 := by
  decide +kernel

theorem witness_FindMatchesSpec : (withWorkOf 4 [1, 2]).row = some rowLzx412 ∧ rowLzx412.wf = true := by decide

theorem witness_CandidatesEncodable :
    (withWorkOf 0 [7, 7, 7, 7]).row = some rowLz412 ∧ rowLz412.wf = true ∧
    (∃ t, exec .findMatches (withWorkOf 0 [7, 7, 7, 7]) = .next t ∧ (t.call.cand[1]?).join = some (3, 1)) ∧
    encodableMatch rowLz412 [7, 7, 7, 7] 1 3 1 ∧ (withWorkOf 0 [7, 7, 7]).dsize ≤ rowLz412.minLen :=
  ⟨by decide, by decide, ⟨_, rfl, by decide +kernel⟩,
    ⟨⟨by decide, by decide, by decide, by decide, by decide⟩, by decide, by decide, by decide⟩, by decide⟩

/-- The state of a parse: one candidate that reaches the end. -/
def parsing : State := { withWorkOf 0 [7, 7, 7, 7] with call := { Call.reset with cand := [none, some (3, 1), none, none] } }

theorem parsing_fits (p L d : Nat) (h : (parsing.call.cand[p]?).join = some (L, d)) : p + L ≤ parsing.dsize := by
  match p with
  | 0 => cases h
  | 1 => cases h; decide
  | 2 => cases h
  | 3 => cases h
  | n + 4 => cases h

theorem witness_CostToEnd_ParseOptimal :
    parsing.row = some rowLz412 ∧ rowLz412.wf = true ∧
    (∀ p L d : Nat, (parsing.call.cand[p]?).join = some (L, d) → p + L ≤ parsing.dsize) ∧
    tokensCover parsing.workBytes 0 [.lit 7, .copy 3 1] ∧
    tokensViable rowLz412.minLen parsing.call.cand 0 [.lit 7, .copy 3 1] :=
  ⟨by decide, by decide, parsing_fits, ⟨by decide, by decide, by decide, rfl⟩, ⟨⟨3, by decide, by decide, by decide⟩, trivial⟩⟩

theorem witness_WalkOrdered : ∀ p : Nat, (State.reset.call.cand[p]?).join = none := fun _ => rfl

theorem witness_TallyAndLeaves : (livingSymbols .w4 [0, 0, 5])[0]? = some 2 ∧ 15 < alphabet .w4 := by decide

theorem witness_MergeLeastPairs :
    (∃ s : State, s.call.hnode = leavesOf s.call.hw [5, 2, 1, 1] ∧ 2 ≤ s.call.hnode.length ∧
      s.call.hnode.length ≤ 6 ∧ 6 < 2 * s.call.hnode.length - 1) ∧
    (∃ s : State, s.call.hnode = leavesOf s.call.hw [0, 3] ∧ s.call.hnode = [⟨3, true, 1, none, none, 0⟩]) ∧
    State.reset.call.hnode = leavesOf State.reset.call.hw [] :=
  ⟨⟨{ State.reset with call := { Call.reset with hw := .w4, hnode := leavesOf .w4 [5, 2, 1, 1] } }, rfl, by decide, by decide,
    by decide⟩, ⟨{ State.reset with call := { Call.reset with hw := .w4, hnode := leavesOf .w4 [0, 3] } }, rfl, by decide⟩, rfl⟩

/-- The state whose arena is the merge tree of the counts `F`. -/
def mergedOf (w : SymWidth) (F : List Nat) : State :=
  { State.reset with call := { Call.reset with
    hw := w, freq := F, hnode := (mergeLeaves (leavesOf w F)).1, hroot := (mergeLeaves (leavesOf w F)).2 } }

/-- Rule R207's second example, whose children change parents; the one-symbol tree; and no tree. -/
theorem witness_CanonicaliseKeepsLeaves :
    (∀ F, (mergedOf .w4 F).tree = mergeLeaves (leavesOf (mergedOf .w4 F).call.hw F)) ∧
    (mergedOf .w4 [10, 1, 1, 2, 3, 3]).call.hroot = some 10 ∧
    ((mergedOf .w4 [10, 1, 1, 2, 3, 3]).call.hnode[10]?).any (fun n => n.child1.isSome) = true ∧
    (mergedOf .w4 [0, 3]).call.hroot = some 1 ∧
    ((mergedOf .w4 [0, 3]).call.hnode[1]?).any (fun n => n.child1.isNone) = true ∧
    (mergedOf .w4 []).call.hroot = none :=
  ⟨fun _ => rfl, by decide +kernel, by decide +kernel, by decide +kernel, by decide +kernel, by decide +kernel⟩

/-- Pass 2 and pass 3 on that example: node 7 gets the leaves 3 and 4, node 8 leaf 5 and node 6, both with frequency 5. -/
theorem test_canonicalise_rewires :
    look (exec .canonicalise (mergedOf .w4 [10, 1, 1, 2, 3, 3])) [] (fun t => (t.call.hnode.drop 7).map fun n =>
      (n.frequency, n.child0, n.child1)) =
    [(5, some 3, some 4), (5, some 5, some 6), (10, some 7, some 8), (20, some 0, some 9)] := by decide +kernel

/-- The counts of rule R205's example, whose tree is deeper than 16 levels, and counts of 4-bit symbols. -/
theorem witness_LimitDepthSpec :
    16 < treeDepth (mergeLeaves (leavesOf .w8 [1, 1, 2, 3, 5, 8, 13, 21, 34, 55, 89, 144, 233, 377, 610, 987, 1597, 2584,
      4181])) ∧
    treeDepth (mergeLeaves (leavesOf .w8 ([1, 1, 2, 3, 5, 8, 13, 21, 34, 55, 89, 144, 233, 377, 610, 987, 1597, 2584,
      4181].map halveUp))) = 10 ∧
    (mergedOf .w4 [5, 2, 1, 1]).call.hw = .w4 := by decide +kernel

theorem witness_BuiltTableSound :
    livingSymbols .w4 [5, 2, 1, 1] ≠ [] ∧ 2 ≤ (livingSymbols .w4 [5, 2, 1, 1]).length ∧
    (livingSymbols .w8 [0, 3]).length = 1 := by decide +kernel

theorem witness_AssignedCodesPrefixFree :
    (withV40 .w4 []).call.ht.fits ∧ ((withV40 .w4 []).call.ht.codeList.map Prod.fst).Nodup ∧
    (∀ p ∈ (withV40 .w4 []).call.ht.codeList, p.1.toNat < alphabet .w4) ∧
    slotsLeft 2 (withV40 .w4 []).call.ht.counts = some 0 :=
  ⟨rfl, by decide +kernel, by decide +kernel, by decide +kernel⟩

theorem witness_WriteSymbolBits :
    ({ Call.reset with hcode := [none, some ⟨14, 4⟩] } : Call).hcode[(1 : Byte).toNat]? = some (some ⟨14, 4⟩) ∧
    (({ Call.reset with hcode := [none, some ⟨14, 4⟩] } : Call).hcode[(0 : Byte).toNat]?).join = none := by decide

/-- V40's table, an incomplete one and V48's over-subscribed one. -/
theorem witness_TreetableFills :
    levelsV40.length = 16 ∧ (slotsLeft 2 (levelsV40.map List.length)).isSome = true ∧
    ([7] :: List.replicate 15 ([] : List Byte)).length = 16 ∧
    (slotsLeft 2 (([7] :: List.replicate 15 ([] : List Byte)).map List.length)).isSome = true ∧
    ([1, 2, 3] :: List.replicate 15 ([] : List Byte)).length = 16 ∧
    slotsLeft 2 (([1, 2, 3] :: List.replicate 15 ([] : List Byte)).map List.length) = none := by decide

/-- The reader at the start of V40's table, and at the start of V48's. -/
theorem witness_DeserialiseReadsTable :
    (∃ s : State, s.call.hw ≠ .raw ∧ treeLevelsWf s.call.hw 1 2 levelsV40 = true ∧
      s.bitsAhead = tableStream s.fmt s.call.hw levelsV40 ++ List.replicate 16 false) ∧
    ∃ s : State, s.call.hw ≠ .raw ∧ treeLevelsWf s.call.hw 1 2 ([1, 2, 3] :: List.replicate 15 []) = true ∧
      s.bitsAhead = tableStream s.fmt s.call.hw ([1, 2, 3] :: List.replicate 15 []) ++ List.replicate 20 false :=
  ⟨⟨{ withSrc ([0x02, 0x11, 0x00, 0x01, 0x00, 0x00, 0x00, 0x23] ++ List.replicate 12 0) with
      call := { Call.reset with hw := .w4 } }, by decide, by decide +kernel, by decide +kernel⟩,
    ⟨{ withSrc ([0x00, 0x30, 0x12, 0x03] ++ List.replicate 16 0) with
      call := { Call.reset with hw := .w4 } }, by decide, by decide +kernel, by decide +kernel⟩⟩

/-- The reader at the start of symbol 2's code in V40's table; and at sixteen ones under the one-leaf table. -/
theorem witness_ReadSymbolDecodes :
    (withV40 .w4 [0, 0, 0, 0xC0]).call.ht.fits ∧ (2, [true, true, false]) ∈ (withV40 .w4 []).call.ht.codeList ∧
    (withV40 .w4 [0, 0, 0, 0xC0]).bitsAhead = [true, true, false] ++ List.replicate 29 false ∧
    (tabOf ([7] :: List.replicate 15 [])).fits ∧
    ∀ p ∈ (tabOf ([7] :: List.replicate 15 [])).codeList, ¬ p.2 <+: List.replicate 16 true :=
  ⟨rfl, by decide +kernel, by decide +kernel, rfl, by decide +kernel⟩

theorem witness_TransformBytes :
    0 < (decoding [1, 2, 3] 3).dsize ∧ 2 * 0 + 1 < (decoding [1, 2, 3] 3).dsize ∧ (decoding [1, 2, 3] 3).dsize % 2 = 1 := by
  decide

theorem witness_ValueRows :
    saysValue State.reset.fmt .raw State.reset.call.ht 0x41 [false, true, false, false, false, false, false, true] ∧
    saysValue State.reset.fmt .w8 (tabOf ([7, 9] :: List.replicate 15 [])) 9 [true] ∧
    (tabOf ([7, 9] :: List.replicate 15 [])).fits ∧
    saysValue State.reset.fmt .w4 (tabOf levelsV40) 0x01 [false, true, false] ∧
    (withSrc []).bitsAhead = [] ∧ ∀ v, ¬ saysValue State.reset.fmt .raw State.reset.call.ht v [] :=
  ⟨rfl, by unfold saysValue; decide +kernel, rfl, ⟨0, 1, [false], [true, false], by decide, rfl, by decide +kernel,
    by decide +kernel⟩, by decide +kernel, fun _ h => by cases h⟩

theorem witness_LiteralTokens :
    (tabOf ([7] :: List.replicate 15 [])).fits ∧
    saysValue State.reset.fmt .w8 (tabOf ([7] :: List.replicate 15 [])) 7 [false] ∧
    ∀ v, ¬ saysValue State.reset.fmt .w8 (tabOf ([7] :: List.replicate 15 [])) v [true] :=
  ⟨rfl, by unfold saysValue; decide +kernel, by unfold saysValue; decide +kernel⟩

theorem witness_MatchTokens :
    (0 : BitVec 12).toNat + 1 ≤ (decoding [0x41] 4).dstLen ∧
    3 + (0 : BitVec 4).toNat ≤ (decoding [0x41] 4).dsize - (decoding [0x41] 4).dstLen ∧
    (decoding [] 3).dstLen < (0 : BitVec 12).toNat + 1 ∧
    (decoding [0x41] 3).dsize - (decoding [0x41] 3).dstLen < 3 + (0 : BitVec 4).toNat := by decide

/-- 32 zero bits ahead of the reader, `out` already put out, `size` bytes declared. -/
def aheadOf (out : List Byte) (size : Nat) : State :=
  { withSrc [0, 0, 0, 0] with dst := memOf out, dstLen := out.length, dsize := size }

/-- A literal's value ahead of the reader. -/
theorem witness_DecodeTokensFromStream_literal :
    (aheadOf [] 4).call.hw = .raw ∧
    saysValue (aheadOf [] 4).fmt (aheadOf [] 4).call.hw (aheadOf [] 4).call.ht 0 (List.replicate 8 false) ∧
    (aheadOf [] 4).bitsAhead = List.replicate 8 false ++ List.replicate 24 false :=
  ⟨rfl, rfl, by decide +kernel⟩

/-- A match's fields ahead of the reader: one that just fits, one that starts too early, one that is one byte too long. -/
theorem witness_DecodeTokensFromStream_match :
    (∀ x ∈ [aheadOf [0x41] 4, aheadOf [] 4, aheadOf [0x41] 3],
      x.row = some rowLz412 ∧ x.bitsAhead = copyStream x.fmt rowLz412 3 1 ++ List.replicate 16 false) ∧
    rowLz412.wf = true ∧ rowLz412.minLen ≤ 3 ∧ 3 ≤ rowLz412.maxLen ∧ 1 ≤ rowLz412.maxDisp ∧
    (1 ≤ (aheadOf [0x41] 4).dstLen ∧ 3 ≤ (aheadOf [0x41] 4).dsize - (aheadOf [0x41] 4).dstLen) ∧
    (aheadOf [] 4).dstLen < 1 ∧ (aheadOf [0x41] 3).dsize - (aheadOf [0x41] 3).dstLen < 3 := by
  decide +kernel

/-- The token sequence of R323's example, `LIT 41`, `MATCH len=3 disp=1`, ahead of a decoder for mode 0. -/
theorem witness_TokenLoopRuns :
    ∃ s : State, decodesWith .decodeLz412 rowLz412 s ∧ decodesWith .tokenLoop rowLz412 s ∧ rowLz412.wf = true ∧
      s.call.hw = .raw ∧
      tokensSay s.fmt rowLz412 s.call.hw s.call.ht [.lit 0x41, .copy 3 1]
        ([false, false, true, false, false, false, false, false, true] ++ (true :: List.replicate 16 false)) ∧
      s.bitsAhead = ([false, false, true, false, false, false, false, false, true] ++ (true :: List.replicate 16 false)) ++
        List.replicate 6 false ∧
      expandAll [.lit 0x41, .copy 3 1] (s.dst.slice 0 s.dstLen) = some [0x41, 0x41, 0x41, 0x41] ∧
      [0x41, 0x41, 0x41, 0x41].length = s.dsize ∧ s.dstLen ≤ s.dsize :=
  ⟨{ withSrc [0x00, 0x00, 0xC0, 0x20] with dsize := 4 }, .inl ⟨.encodeLz412, by simp [coderRows]⟩, .inr ⟨rfl, by decide⟩,
    by decide, rfl,
    ⟨[false, false, true, false, false, false, false, false, true], true :: List.replicate 16 false, rfl,
      ⟨[false, true, false, false, false, false, false, true], rfl, rfl⟩,
      ⟨true :: List.replicate 16 false, [], rfl, ⟨by decide, by decide, by decide, by decide, by decide⟩, rfl⟩⟩,
    by decide +kernel, by decide +kernel, by decide, by decide⟩

/-- The same tokens with 8-bit symbols, the literal's code being `0`. -/
theorem witness_TokenLoopRuns_coded :
    ∃ s : State, decodesWith .tokenLoop rowLz412 s ∧ s.call.hw = .w8 ∧ s.call.ht.fits ∧
      tokensSay s.fmt rowLz412 s.call.hw s.call.ht [.lit 0x41, .copy 3 1]
        ([false, false] ++ (true :: List.replicate 16 false)) ∧
      s.bitsAhead = ([false, false] ++ (true :: List.replicate 16 false)) ++ List.replicate 13 false ∧
      expandAll [.lit 0x41, .copy 3 1] (s.dst.slice 0 s.dstLen) = some [0x41, 0x41, 0x41, 0x41] ∧ s.dsize = 4 :=
  ⟨{ withSrc [0x00, 0x00, 0x00, 0x20] with
      dsize := 4, call := { Call.reset with hw := .w8, ht := tabOf ([0x41] :: List.replicate 15 []) } },
    .inr ⟨rfl, by decide⟩, rfl, rfl,
    ⟨[false, false], true :: List.replicate 16 false, rfl, ⟨[false], rfl, by show (_, _) ∈ _; decide +kernel⟩,
      ⟨true :: List.replicate 16 false, [], rfl, ⟨by decide, by decide, by decide, by decide, by decide⟩, rfl⟩⟩,
    by decide +kernel, by decide +kernel, rfl⟩

theorem witness_EmitTokensBits :
    ∃ s : State, encodesWith .emit rowLz412 s ∧ encodesWith .encodeLz412 rowLz412 s ∧
      tokensCover s.workBytes 0 [.lit 7, .copy 3 1] ∧ s.call.mlist = matchesAt 0 [.lit 7, .copy 3 1] ∧
      s.call.mcount = s.call.mlist.length :=
  ⟨{ withWorkOf 0 [7, 7, 7, 7] with call := { Call.reset with mlist := [⟨1, 3, 1⟩], mcount := 1 } },
    .inr ⟨.inr rfl, by decide⟩, .inl ⟨.decodeLz412, by simp [coderRows]⟩, ⟨by decide, by decide, by decide, rfl⟩, rfl, rfl⟩

theorem witness_HeaderPhases :
    (withSrc []).srcLen = 0 ∧ (withSrc [0x4A]).src.read 0 ≠ State.reset.fmt.magic ∧
    (withSrc [0x4B, 1, 0, 0]).src.read 0 = State.reset.fmt.magic ∧
    (withSrc [0x4B, 1, 0, 0]).srcLen < State.reset.fmt.hdrLen ∧ (withSrc oneByte).headerOk ∧
    (0x4B : Byte) = State.reset.fmt.magic ∧ [1, 2].length < State.reset.fmt.sizeBytes ∧
    State.reset.fmt.sizeBytes ≤ [1, 2, 3].length :=
  ⟨by decide, by decide, by decide, by decide, ⟨by decide, by decide⟩, by decide, by decide, by decide⟩

theorem witness_ModeChecks :
    cmodeOf 0x06 ∉ State.reset.kon.recognized ∧ hmodeOf 0x18 = 3 ∧ 5 ≤ (omodeOf 0xA0).toNat ∧
    cmodeOf 0x05 ∈ State.reset.kon.recognized ∧ hmodeOf 0x05 ≠ 3 ∧ (omodeOf 0x05).toNat < 5 ∧
    cmodeOf 0x05 ∉ State.reset.kon.implemented ∧ cmodeOf 0x94 ∈ State.reset.kon.implemented ∧
    cmodeOf 0x94 ∈ State.reset.kon.recognized ∧ hmodeOf 0x94 ≠ 3 ∧ (omodeOf 0x94).toNat < 5 ∧
    encodable.cfgValid = true ∧ State.reset.cfgValid = false := by decide

theorem witness_EncodePhases :
    State.reset.call.hw = .raw ∧ (withV40 .w4 []).call.hw ≠ .raw ∧ State.reset.dsize = 0 ∧
    (withWorkOf 0 [1]).dsize ≠ 0 ∧ 0 < encodable.srcLen := by decide

theorem witness_DeobfuscatePhase :
    omodeOf State.reset.ident = 0 ∧ State.reset.kon.obf = .reference ∧
    omodeOf 0x20 = 1 ∧ omodeOf 0x40 = 2 ∧ omodeOf 0x60 = 3 ∧ omodeOf 0x80 = 4 ∧ 5 ≤ (omodeOf 0xA0).toNat := by decide

theorem witness_DecodeHeaderOutcomes :
    (withSrc []).busy = false ∧ (withSrc []).srcLen = 0 ∧ (withSrc [0x4A]).src.read 0 ≠ State.reset.fmt.magic ∧
    (withSrc [0x4B, 1, 0, 0]).src.read 0 = State.reset.fmt.magic ∧ (withSrc [0x4B, 1, 0, 0, 6]).headerOk ∧
    reservedModes State.reset.kon (withSrc [0x4B, 1, 0, 0, 6]).srcIdent = true ∧
    cmodeOf (withSrc [0x4B, 1, 0, 0, 5]).srcIdent ∉ State.reset.kon.implemented ∧
    reservedModes State.reset.kon (withSrc [0x4B, 1, 0, 0, 5]).srcIdent = false ∧
    modesOk State.reset.kon (withSrc [0x4B, 0, 0, 0, 0x94]).srcIdent ∧ (withSrc [0x4B, 0, 0, 0, 0x94]).srcSize = 0 :=
  ⟨by decide, by decide, by decide, by decide, ⟨by decide, by decide⟩, by decide, by decide, by decide,
    ⟨by decide, by decide⟩, by decide⟩

/-- One literal `41`, in mode 0, in a container: `oneByte`. -/
theorem witness_DecodeContainer :
    (withSrc oneByte).busy = false ∧ recordWf (withSrc oneByte).fmt (withSrc oneByte).kon = true ∧
    (withSrc oneByte).headerOk ∧ modesOk (withSrc oneByte).kon (withSrc oneByte).srcIdent ∧
    (withSrc oneByte).srcSize ≠ 0 ∧ (withSrc oneByte).kon.row (cmodeOf (withSrc oneByte).srcIdent) = some rowLz412 ∧
    hmodeOf (withSrc oneByte).srcIdent = 0 ∧
    (withSrc oneByte).containerBits =
      [false, false, true, false, false, false, false, false, true] ++ List.replicate 23 false ∧
    tokensSay (withSrc oneByte).fmt rowLz412 (widthOf (hmodeOf (withSrc oneByte).srcIdent)) (tabOf []) [.lit 0x41]
      [false, false, true, false, false, false, false, false, true] ∧
    expandAll [.lit 0x41] [] = some [0x41] ∧ [(0x41 : Byte)].length = (withSrc oneByte).srcSize ∧
    (deobfOf (withSrc oneByte).kon (omodeOf (withSrc oneByte).srcIdent).toNat [0x41]).length = [(0x41 : Byte)].length :=
  ⟨by decide, by decide, ⟨by decide, by decide⟩, ⟨by decide, by decide⟩, by decide, by decide, by decide, by decide +kernel,
    ⟨_, [], (List.append_nil _).symm, ⟨_, rfl, rfl⟩, rfl⟩, by decide, by decide, by decide⟩

/-- One literal `41` coded with the one-symbol table of level 1, the code `0`. -/
def codedByte : List Byte := [0x4B, 1, 0, 0, 0x10, 0, 0, 0x41, 1] ++ List.replicate 16 0

theorem witness_DecodeContainer_coded :
    (withSrc codedByte).busy = false ∧ (withSrc codedByte).headerOk ∧
    modesOk (withSrc codedByte).kon (withSrc codedByte).srcIdent ∧ (withSrc codedByte).srcSize ≠ 0 ∧
    (withSrc codedByte).kon.row (cmodeOf (withSrc codedByte).srcIdent) = some rowLz412 ∧
    hmodeOf (withSrc codedByte).srcIdent ≠ 0 ∧ ([0x41] :: List.replicate 15 [] : List (List Byte)).length = 16 ∧
    treeLevelsWf (widthOf (hmodeOf (withSrc codedByte).srcIdent)) 1 2 ([0x41] :: List.replicate 15 []) = true ∧
    (slotsLeft 2 (([0x41] :: List.replicate 15 [] : List (List Byte)).map List.length)).isSome = true ∧
    (withSrc codedByte).containerBits =
      tableStream (withSrc codedByte).fmt (widthOf (hmodeOf (withSrc codedByte).srcIdent)) ([0x41] :: List.replicate 15 []) ++
        ([false, false] ++ List.replicate 22 false) ∧
    tokensSay (withSrc codedByte).fmt rowLz412 (widthOf (hmodeOf (withSrc codedByte).srcIdent))
      (tabOf ([0x41] :: List.replicate 15 [])) [.lit 0x41] [false, false] ∧
    (withSrc codedByte).srcSize = 1 :=
  ⟨by decide, ⟨by decide, by decide⟩, ⟨by decide, by decide⟩, by decide, by decide, by decide, by decide, by decide,
    by decide, by decide +kernel,
    ⟨_, [], (List.append_nil _).symm, ⟨[false], rfl, by show (_, _) ∈ _; decide +kernel⟩, rfl⟩, by decide⟩

theorem witness_EncodeConfigOutcomes :
    State.reset.busy = false ∧ ({ State.reset with srcLen := 2 ^ 24 } : State).fmt.maxInput < 2 ^ 24 ∧
    2 ^ 24 - 1 ≤ State.reset.fmt.maxInput ∧ State.reset.cfgValid = false ∧ encodable.cfgValid = true ∧
    ¬ modesOk State.reset.kon 0x05 ∧ modesOk State.reset.kon encodable.cfgIdent ∧ State.reset.srcLen = 0 :=
  ⟨by decide, by decide, by decide, by decide, by decide, fun h => absurd h.2 (by decide), ⟨by decide, by decide⟩, by decide⟩

/-- `encodable` meets the hypotheses of the container and round trip statements. -/
theorem witness_EncodeContainer_RoundTrip :
    encodable.busy = false ∧ recordWf encodable.fmt encodable.kon = true ∧ encodable.kon.obfWf ∧
    encodable.cfgValid = true ∧ modesOk encodable.kon encodable.cfgIdent ∧ hmodeOf encodable.cfgIdent = 0 ∧
    0 < encodable.srcLen ∧ encodable.srcLen ≤ encodable.fmt.maxInput ∧
    encodable.kon.row (cmodeOf encodable.cfgIdent) = some rowLz412 ∧
    (obfOf encodable.kon (omodeOf encodable.cfgIdent).toNat (encodable.src.slice 0 encodable.srcLen)).length =
      encodable.srcLen ∧ encodable.kon.price = .reference :=
  ⟨by decide, by decide, reference_obfWf, by decide, ⟨by decide, by decide⟩, by decide, by decide, by decide, by decide,
    by decide, rfl⟩

/-- The container of `"ABCABCABC"` is a source the round trip's second half speaks of. -/
theorem witness_RoundTrip_source :
    look (exec .encode encodable) [] (fun t => t.dst.slice 0 t.dstLen) = abcContainer ∧
    look (exec .decode (withSrc abcContainer)) [] (fun t => t.dst.slice 0 t.dstLen) =
      [65, 66, 67, 65, 66, 67, 65, 66, 67] := by decide +kernel

end Sys2Proof.Tests
end

section
/-! SUPPORT. What every meaning keeps: the record, its inputs, and the well-formedness of its memories. -/

namespace Sys2Proof.Machine

/-! ## What every meaning but RESET and CONFIGURE keeps -/

/-- What the phases of a command and the rows run alone keep: the record, `CFG`, `SRC`, the model's own fields, the
canonical form of the memories, and draws that only rise. `PHASE`, `ERR`, `IDENT`, `DSIZE` and the output may change. -/
structure Keeps (s t : State) : Prop where
  fmt : t.fmt = s.fmt
  kon : t.kon = s.kon
  cfg : t.cfg = s.cfg
  src : t.src = s.src
  srcLen : t.srcLen = s.srcLen
  inbox : t.inbox = s.inbox
  bus : t.bus = s.bus
  ret : t.ret = s.ret
  draws : s.draws ≤ t.draws
  memories : s.memoriesWf → t.memoriesWf
  epochs : s.epochsDrawn → t.epochsDrawn
  lengths : s.lengthsFit → t.lengthsFit

theorem Keeps.refl (s : State) : Keeps s s := ⟨rfl, rfl, rfl, rfl, rfl, rfl, rfl, rfl, Nat.le_refl _, id, id, id⟩

theorem Keeps.trans {s t u : State} (h1 : Keeps s t) (h2 : Keeps t u) : Keeps s u where
  fmt := h2.fmt.trans h1.fmt
  kon := h2.kon.trans h1.kon
  cfg := h2.cfg.trans h1.cfg
  src := h2.src.trans h1.src
  srcLen := h2.srcLen.trans h1.srcLen
  inbox := h2.inbox.trans h1.inbox
  bus := h2.bus.trans h1.bus
  ret := h2.ret.trans h1.ret
  draws := Nat.le_trans h1.draws h2.draws
  memories h := h2.memories (h1.memories h)
  epochs h := h2.epochs (h1.epochs h)
  lengths h := h2.lengths (h1.lengths h)

theorem keeps_withCall (s : State) (c : Call) : Keeps s (s.withCall c) :=
  ⟨rfl, rfl, rfl, rfl, rfl, rfl, rfl, rfl, Nat.le_refl _, id, id, id⟩

theorem keeps_withIdent (s : State) (b : BitVec 8) : Keeps s (s.withIdent b) :=
  ⟨rfl, rfl, rfl, rfl, rfl, rfl, rfl, rfl, Nat.le_refl _, id, id, id⟩

theorem keeps_takeError (k : ErrKind) (s : State) : Keeps s (takeError k s) :=
  ⟨rfl, rfl, rfl, rfl, rfl, rfl, rfl, rfl, Nat.le_refl _, id, id, id⟩

theorem keeps_startCommand (p : Phase) (s : State) : Keeps s (startCommand p s) :=
  ⟨rfl, rfl, rfl, rfl, rfl, rfl, rfl, rfl, Nat.le_refl _, id, id, id⟩

theorem keeps_setPhase (p : Phase) (s : State) : Keeps s (setPhase p s) :=
  ⟨rfl, rfl, rfl, rfl, rfl, rfl, rfl, rfl, Nat.le_refl _, id, id, id⟩

theorem keeps_endDone (s : State) : Keeps s (endDone s) :=
  ⟨rfl, rfl, rfl, rfl, rfl, rfl, rfl, rfl, Nat.le_refl _, id, id, id⟩

/-- Other bytes in `DST`, of the same draw. -/
theorem keeps_withDst {s : State} {m : Mem} (n : Nat) (hw : s.dst.wf → m.wf) (he : m.epoch = s.dst.epoch) :
    Keeps s (s.withDst m n) where
  fmt := rfl
  kon := rfl
  cfg := rfl
  src := rfl
  srcLen := rfl
  inbox := rfl
  bus := rfl
  ret := rfl
  draws := Nat.le_refl _
  memories := fun ⟨h1, h2, h3⟩ => ⟨h1, hw h2, h3⟩
  epochs := fun ⟨h1, h2, h3⟩ => ⟨h1, he.symm ▸ h2, h3⟩
  lengths := id

/-- Other bytes in `WORK`, of the same draw. -/
theorem keeps_withWork {s : State} {m : Mem} (hw : s.work.wf → m.wf) (he : m.epoch = s.work.epoch) :
    Keeps s (s.withWork m) where
  fmt := rfl
  kon := rfl
  cfg := rfl
  src := rfl
  srcLen := rfl
  inbox := rfl
  bus := rfl
  ret := rfl
  draws := Nat.le_refl _
  memories := fun ⟨h1, h2, h3⟩ => ⟨h1, h2, hw h3⟩
  epochs := fun ⟨h1, h2, h3⟩ => ⟨h1, h2, he.symm ▸ h3⟩
  lengths := id

theorem keeps_withSink {s : State} {k : Sink} (h : s.sink.extends k) : Keeps s (s.withSink k) := by
  obtain ⟨_, _, hwf, hep⟩ := h
  exact (keeps_withDst k.len hwf hep).trans (keeps_withCall _ _)

/-- A space that takes a fresh draw is in canonical form, and its draw is one already made afterwards. -/
theorem keeps_clearDst (s : State) : Keeps s (clearDst s) where
  fmt := rfl
  kon := rfl
  cfg := rfl
  src := rfl
  srcLen := rfl
  inbox := rfl
  bus := rfl
  ret := rfl
  draws := Nat.le_succ _
  memories := fun ⟨h1, _, h3⟩ => ⟨h1, empty_wf _, h3⟩
  epochs := fun ⟨h1, _, h3⟩ => ⟨Nat.lt_succ_of_lt h1, Nat.lt_succ_self _, Nat.lt_succ_of_lt h3⟩
  lengths := id

theorem keeps_freeDst (s : State) : Keeps s (freeDst s) where
  fmt := rfl
  kon := rfl
  cfg := rfl
  src := rfl
  srcLen := rfl
  inbox := rfl
  bus := rfl
  ret := rfl
  draws := Nat.le_succ _
  memories := fun ⟨h1, _, h3⟩ => ⟨h1, empty_wf _, h3⟩
  epochs := fun ⟨h1, _, h3⟩ => ⟨Nat.lt_succ_of_lt h1, Nat.lt_succ_self _, Nat.lt_succ_of_lt h3⟩
  lengths := id

theorem keeps_freeCall (s : State) : Keeps s (freeCall s) where
  fmt := rfl
  kon := rfl
  cfg := rfl
  src := rfl
  srcLen := rfl
  inbox := rfl
  bus := rfl
  ret := rfl
  draws := Nat.le_succ _
  memories := fun ⟨h1, h2, _⟩ => ⟨h1, h2, empty_wf _⟩
  epochs := fun ⟨h1, h2, _⟩ => ⟨Nat.lt_succ_of_lt h1, Nat.lt_succ_of_lt h2, Nat.lt_succ_self _⟩
  lengths := id

theorem keeps_decoded {s t : State} (h : Decoded s t) : Keeps s t := by
  rw [h.whole]
  exact (keeps_withDst _ h.wf h.epoch).trans (keeps_withCall _ _)

theorem keeps_built {s t : State} (h : Built s t) : Keeps s t := h.whole ▸ keeps_withCall _ _

/-! ## Relations along a composed result -/

/-- A transitive relation that holds along both parts of a composition holds along the whole. -/
theorem andThen_trans {α β : Type} {R : State → State → Prop} (htrans : ∀ {a b c}, R a b → R b c → R a c) {s : State}
    {r : Run State α} {f : α → State → Run State β} (h1 : R s r.state) (h2 : ∀ a t, R t (f a t).state) :
    R s (r.andThen f).state := by
  refine andThen_rel h1 fun a t ht => ?_
  rw [ht, state_ok] at h1
  exact htrans h1 (h2 a t)

theorem keeps_andThen {α β : Type} {s : State} {r : Run State α} {f : α → State → Run State β} (h1 : Keeps s r.state)
    (h2 : ∀ a t, Keeps t (f a t).state) : Keeps s (r.andThen f).state :=
  andThen_trans (R := Keeps) Keeps.trans h1 h2

theorem keeps_withRow {α : Type} {s : State} {f : ModeRow → Run State α} (h : ∀ row, Keeps s (f row).state) :
    Keeps s (withRow s f).state := by
  rcases withRow_cases s f with ⟨row, _, e⟩ | ⟨_, e⟩ <;> rw [e]
  · exact h row
  · exact Keeps.refl s

/-! ## The writer's operations reach memory only beyond the cursor -/

theorem writeBits_extends (value n : Nat) (s : State) : s.sink.extends (s.sink.writeBits s.fmt value n) :=
  putBits_extends _ _ _

theorem writeTable_extends (f : Fmt) (w : SymWidth) (t : HuffTab) (k : Sink) : k.extends (writeTable f w t k) :=
  writeTable_eq f w t k ▸ putBits_extends _ _ _

theorem writeCode_extends (f : Fmt) (c : HuffCode) (k : Sink) : k.extends (k.writeCode f c) :=
  writeCode_eq f c k ▸ putBits_extends _ _ _

theorem writeValue_extends (f : Fmt) (w : SymWidth) (code : Nat → HuffCode) (v : Byte) (k : Sink) :
    k.extends (k.writeValue f w code v) := writeValue_eq f w code v k ▸ putBits_extends _ _ _

theorem writeMatch_extends (f : Fmt) (row : ModeRow) (m : LzMatch) (k : Sink) : k.extends (k.writeMatch f row m) :=
  writeMatch_eq f row .raw (fun _ => ⟨0, 0⟩) m k ▸ putBits_extends _ _ _

theorem writeLit_extends (f : Fmt) (row : ModeRow) (w : SymWidth) (code : Nat → HuffCode) (v : Byte) (k : Sink) :
    k.extends (k.writeLit f w code v) := writeLit_eq f row w code v k ▸ putBits_extends _ _ _

theorem emitFrom_extends (e : EmitEnv) (fuel p mi : Nat) (k : Sink) : k.extends (emitFrom e fuel p mi k).2.2 := by
  induction fuel generalizing p mi k with
  | zero => exact Sink.extends_refl k
  | succ fuel ih =>
    have lit := Sink.extends_trans (writeLit_extends e.fmt e.row e.hw e.code (e.bytes.getD p 0) k) (ih (p + 1) mi _)
    rw [emitFrom]
    split
    · split
      · split
        · exact Sink.extends_trans (writeMatch_extends e.fmt e.row _ k) (ih _ _ _)
        · exact lit
      · exact lit
    · exact Sink.extends_refl k

/-- The emitter moves the writer on, and sets `P` and `MI`. -/
theorem emitTokens_extends (row : ModeRow) (s : State) : ∃ k p mi, s.sink.extends k ∧
    emitTokens row s = (s.withSink k).withTk { s.call.tk with p := p, mi := mi } :=
  ⟨_, _, _, emitFrom_extends _ _ _ _ _, rfl⟩

/-! ## The phases keep -/

theorem leNat_lt (bs : List Byte) : leNat bs < 256 ^ bs.length := by
  induction bs with
  | nil => simp [leNat]
  | cons b t ih =>
    have hb : b.toNat < 256 := b.isLt
    rw [leNat, List.length_cons, Nat.pow_succ]
    omega

theorem sizeBytes_le (f : Fmt) : f.sizeBytes ≤ 4 := by unfold Fmt.sizeBytes; split <;> omega

/-- Every value of the size field fits 32 bits. -/
theorem leNat_size_lt (f : Fmt) (g : Nat → Byte) : leNat ((List.range f.sizeBytes).map g) < 2 ^ 32 := by
  have h1 := leNat_lt ((List.range f.sizeBytes).map g)
  have h2 : 256 ^ f.sizeBytes ≤ 256 ^ 4 := Nat.pow_le_pow_right (by decide) (sizeBytes_le f)
  rw [List.length_map, List.length_range] at h1
  omega

/-- The header's size and ident byte, latched. -/
theorem keeps_latch {s : State} {n : Nat} (b : BitVec 8) (h : n < 2 ^ 32) : Keeps s { s with dsize := n, ident := b } :=
  ⟨rfl, rfl, rfl, rfl, rfl, rfl, rfl, rfl, Nat.le_refl _, id, id, fun ⟨h1, _⟩ => ⟨h1, h⟩⟩

theorem keeps_validateHeader (m : Byte) (g : Nat → Byte) (len : Nat) (s : State) :
    Keeps s (validateHeader m g len s).state := by
  rcases validateHeader_cases m g len s with ⟨_, e⟩ | ⟨_, _, e⟩ | ⟨_, _, e⟩ <;> rw [e]
  · exact Keeps.refl s
  · exact keeps_clearDst s
  · exact (keeps_clearDst s).trans (keeps_latch _ (leNat_size_lt _ _))

theorem keeps_readFirst (s : State) : Keeps s (readFirst s).state := by
  rcases readFirst_cases s with ⟨_, e⟩ | ⟨_, e⟩ <;> rw [e] <;> exact Keeps.refl s

theorem keeps_checkModes (k : ErrKind) (s : State) : Keeps s (checkModes k s).state := by
  rcases checkModes_cases k s with ⟨_, e⟩ | ⟨_, _, e⟩ | ⟨_, _, e⟩ <;> rw [e]
  · exact Keeps.refl s
  · exact Keeps.refl s
  · exact keeps_withCall s _

theorem keeps_deserialise (s : State) : Keeps s (deserialise s).state := by
  obtain ⟨x, h⟩ := deserialise_state s
  exact h ▸ keeps_withCall s _

theorem keeps_tokenLoop (row : ModeRow) (s : State) : Keeps s (tokenLoop row s).state :=
  keeps_decoded (decoded_tokenLoopFrom row _ s)

theorem keeps_openReader (s : State) : Keeps s (openReader s) := keeps_withCall s _

theorem keeps_openWriter (s : State) : Keeps s (openWriter s) := keeps_withCall s _

theorem keeps_decodePayload (s : State) : Keeps s (decodePayload s).state := by
  unfold decodePayload
  split
  · exact Keeps.refl s
  · refine (keeps_openReader s).trans (keeps_andThen ?_ fun _ t => keeps_withRow fun row => keeps_tokenLoop row t)
    split
    · exact Keeps.refl _
    · exact keeps_deserialise _

theorem keeps_mapDst (f : List Byte → List Byte) (s : State) : Keeps s (mapDst f s) :=
  keeps_withDst _ (writeList_wf _ _ _) (writeList_epoch _ _ _)

theorem keeps_mapWork (f : List Byte → List Byte) (s : State) : Keeps s (mapWork f s) :=
  keeps_withWork (writeList_wf _ _ _) (writeList_epoch _ _ _)

/-- The cases of `Deobfuscate`. -/
theorem deobfuscate_cases (s : State) :
    (omodeOf s.ident = 0 ∧ deobfuscate s = .ok () s) ∨
      (5 ≤ (omodeOf s.ident).toNat ∧ deobfuscate s = .raised .corruptStream s) ∨
      ((omodeOf s.ident).toNat < 5 ∧
        deobfuscate s = .ok () (mapDst (deobfOf s.kon (omodeOf s.ident).toNat) s)) := by
  unfold deobfuscate
  split
  · exact .inl ⟨‹_›, rfl⟩
  · split
    · exact .inr (.inl ⟨‹_›, rfl⟩)
    · exact .inr (.inr ⟨by omega, rfl⟩)

theorem keeps_deobfuscate (s : State) : Keeps s (deobfuscate s).state := by
  rcases deobfuscate_cases s with ⟨_, e⟩ | ⟨_, e⟩ | ⟨_, e⟩ <;> rw [e]
  · exact Keeps.refl s
  · exact Keeps.refl s
  · exact keeps_mapDst _ s

theorem keeps_runDecode (s : State) : Keeps s (runDecode s).state := by
  unfold runDecode
  refine (keeps_startCommand .readHeader s).trans (keeps_andThen (keeps_readFirst _) fun m s1 => ?_)
  refine (keeps_setPhase .validateMagic s1).trans (keeps_andThen (keeps_validateHeader _ _ _ _) fun _ s2 => ?_)
  refine (keeps_setPhase .dispatchModes s2).trans (keeps_andThen (keeps_checkModes _ _) fun _ s3 => ?_)
  refine (keeps_setPhase .decode s3).trans (keeps_andThen (keeps_decodePayload _) fun _ s4 => ?_)
  split
  · exact (keeps_setPhase .deobfuscate s4).trans (keeps_deobfuscate _)
  · exact Keeps.refl s4

theorem keeps_endDecode (r : Run State Unit) : Keeps r.state (endDecode r) := by
  cases r with
  | ok a s => exact (keeps_endDone s).trans (keeps_freeCall _)
  | raised k s =>
    by_cases hk : k = .formatMismatch
    · subst hk
      exact (keeps_takeError _ s).trans (keeps_freeCall _)
    · rw [endDecode_raised hk]
      exact ((keeps_takeError _ s).trans (keeps_freeDst _)).trans (keeps_freeCall _)

theorem keeps_checkConfig (s : State) : Keeps s (checkConfig s).state := by
  rcases checkConfig_cases s with ⟨_, e⟩ | ⟨_, e⟩ <;> rw [e]
  · exact Keeps.refl s
  · exact (keeps_withIdent s _).trans (keeps_checkModes _ _)

theorem keeps_materialize (s : State) : Keeps s (materialize s) where
  fmt := rfl
  kon := rfl
  cfg := rfl
  src := rfl
  srcLen := rfl
  inbox := rfl
  bus := rfl
  ret := rfl
  draws := Nat.le_add_right s.draws 2
  memories := fun ⟨h1, _, _⟩ => ⟨h1, empty_wf _, writeList_wf _ _ _ (empty_wf _)⟩
  epochs := fun ⟨h1, _, _⟩ => by
    refine ⟨Nat.lt_add_right 2 h1, show s.draws < s.draws + 2 by omega, ?_⟩
    simp [materialize]
  lengths := fun ⟨h1, _⟩ => ⟨h1, h1⟩

theorem keeps_withHeader (s : State) : Keeps s (s.withDst (s.dst.writeList 0 (headerBytes s)) s.fmt.hdrLen) :=
  keeps_withDst _ (writeList_wf _ _ _) (writeList_epoch _ _ _)

theorem keeps_writeTreeTable (s : State) : Keeps s (writeTreeTable s) := keeps_withSink (writeTable_extends _ _ _ _)

theorem keeps_writeHeader (s : State) : Keeps s (writeHeader s) := by
  rcases writeHeader_cases s with ⟨_, e⟩ | ⟨_, _, e⟩ | ⟨_, _, e⟩ <;> rw [e]
  · exact keeps_withHeader s
  · exact (keeps_withHeader s).trans (keeps_openWriter _)
  · exact ((keeps_withHeader s).trans (keeps_openWriter _)).trans (keeps_writeTreeTable _)

theorem keeps_emitTokens (row : ModeRow) (s : State) : Keeps s (emitTokens row s) := by
  obtain ⟨k, p, mi, hk, e⟩ := emitTokens_extends row s
  exact e ▸ (keeps_withSink hk).trans (keeps_withCall _ _)

theorem keeps_findMatches (s : State) : Keeps s (findMatches s).state := by
  rcases findMatches_cases s with ⟨_, e⟩ | ⟨row, _, e⟩ <;> rw [e]
  · exact Keeps.refl s
  · exact keeps_withCall s _

theorem keeps_parseCostToEnd (s : State) : Keeps s (parseCostToEnd s).state := by
  rcases parseCostToEnd_cases s with ⟨_, e⟩ | ⟨row, _, _, _, _, e⟩ <;> rw [e]
  · exact Keeps.refl s
  · exact keeps_withCall s _

theorem keeps_parseWalk (s : State) : Keeps s (parseWalk s) := keeps_withCall s _

theorem keeps_flush (s : State) : Keeps s (flush s) := keeps_withSink (flush_extends _ _)

theorem keeps_emit (s : State) : Keeps s (emit s).state := keeps_withRow fun row => keeps_emitTokens row s

theorem keeps_buildPhase (s : State) : Keeps s (if s.call.hw = .raw then s else buildTree (setPhase .buildTree s)) := by
  split
  · exact Keeps.refl s
  · exact (keeps_setPhase _ s).trans (keeps_built (built_buildTree _))

theorem keeps_obfuscatePhase (s : State) :
    Keeps s (if hasTransform s then obfuscateWork (setPhase .obfuscate s) else s) := by
  split
  · exact (keeps_setPhase _ s).trans (keeps_mapWork _ _)
  · exact Keeps.refl s

theorem keeps_encodePhases (s : State) : Keeps s (encodePhases s).state := by
  unfold encodePhases
  refine ((keeps_obfuscatePhase s).trans (keeps_setPhase .findMatches _)).trans
    (keeps_andThen (keeps_findMatches _) fun _ s1 => ?_)
  refine (keeps_setPhase .parse s1).trans (keeps_andThen (keeps_parseCostToEnd _) fun _ s2 => ?_)
  refine (((keeps_parseWalk s2).trans (keeps_buildPhase _)).trans (keeps_setPhase .writeHeader _)).trans ?_
  refine ((keeps_writeHeader _).trans (keeps_setPhase .emit _)).trans (keeps_andThen (keeps_emit _) fun _ s3 => ?_)
  exact keeps_flush s3

theorem keeps_runEncode (s : State) : Keeps s (runEncode s).state := by
  unfold runEncode
  refine (keeps_startCommand .checkConfig s).trans (keeps_andThen (keeps_checkConfig _) fun _ s1 => ?_)
  refine ((keeps_setPhase .materialize s1).trans (keeps_materialize _)).trans ?_
  dsimp only
  split
  · exact (keeps_setPhase _ _).trans (keeps_writeHeader _)
  · exact keeps_encodePhases _

theorem keeps_endEncode (r : Run State Unit) : Keeps r.state (endEncode r) := by
  cases r with
  | ok a s => exact (keeps_endDone s).trans (keeps_freeCall _)
  | raised k s => exact (keeps_takeError _ s).trans (keeps_freeCall _)

end Sys2Proof.Machine
end

section
/-! SUPPORT. What each row run alone may change, said once for all rows: its effect, and how it ends. -/

namespace Sys2Proof.Machine

/-- What row `i` may change in going from `s` to `t`, before an error is entered or a value returned. -/
structure RowEffect (i : Instr) (s t : State) : Prop where
  keeps : Keeps s t
  phase : t.phase = s.phase
  err : t.err = s.err
  ident : i.setsIdent = false → t.ident = s.ident
  dsize : i.setsDsize = false → t.dsize = s.dsize
  call : i.keepsCall s.call t.call
  dst : i.dstStores.keeps s.dsize s.dst t.dst s.dstLen t.dstLen
  work : i.workStores.keeps s.dsize s.work t.work s.dsize s.dsize

/-- How a row run alone ends: with its effect, with a value returned, or with an error entered. -/
inductive RowEnds (i : Instr) (s : State) : Host.Outcome State Fault Refusal → Prop where
  | done {t : State} (h : RowEffect i s t) : RowEnds i s (.next t)
  | returned {t : State} (h : RowEffect i s t) (hr : i.returns = true) (v : Nat) :
      RowEnds i s (.next { t with ret := v })
  | raised {t : State} (h : RowEffect i s t) (k : ErrKind) : RowEnds i s (.next (takeError k t))

theorem ends_settle {α : Type} {i : Instr} {s : State} {r : Run State α} (h : RowEffect i s r.state) :
    RowEnds i s (settle r) := by
  cases r with
  | ok a t => exact .done h
  | raised k t => exact .raised h k

theorem ends_settleRet {i : Instr} {s : State} {r : Run State Nat} (hr : i.returns = true) (h : RowEffect i s r.state) :
    RowEnds i s (settleRet r) := by
  cases r with
  | ok v t => exact .returned h hr v
  | raised k t => exact .raised h k

/-! ## Byte spaces -/

theorem keeps_nothing {u : Stores} (h : u = .nothing) (size : Nat) (m : Mem) (n : Nat) : u.keeps size m m n n := by
  subst h; exact ⟨rfl, rfl⟩

theorem keeps_append {u : Stores} (h : u = .append) (size : Nat) {m m' : Mem} {n n' : Nat} (hn : n ≤ n')
    (ho : ∀ a, a < n ∨ n' ≤ a → m'.read a = m.read a) : u.keeps size m m' n n' := by
  subst h; exact ⟨hn, ho⟩

theorem keeps_discard {u : Stores} (h : u = .discard) (size : Nat) (m m' : Mem) (n n' : Nat) :
    u.keeps size m m' n n' := by
  subst h; trivial

/-- A transform that keeps the length rewrites only the bytes below `DSIZE`. -/
theorem keeps_inPlace {u : Stores} (h : u = .inPlace) {f : List Byte → List Byte} (hf : ∀ b, (f b).length = b.length)
    (size : Nat) (m : Mem) (n : Nat) : u.keeps size m (m.writeList 0 (f (m.slice 0 size))) n n := by
  subst h
  refine ⟨rfl, fun a ha => ?_⟩
  rw [read_writeList, if_neg]
  rw [hf, slice_length]
  omega

/-! ## The families of effects -/

/-- A row that writes registers and tables only. -/
theorem effect_call (i : Instr) (s : State) (c : Call) (hd : i.dstStores = .nothing) (hw : i.workStores = .nothing)
    (hc : i.keepsCall s.call c) : RowEffect i s (s.withCall c) :=
  ⟨keeps_withCall s c, rfl, rfl, fun _ => rfl, fun _ => rfl, hc, keeps_nothing hd _ _ _, keeps_nothing hw _ _ _⟩

/-- A row that changes nothing. -/
theorem effect_refl (i : Instr) (s : State) (hd : i.dstStores = .nothing) (hw : i.workStores = .nothing)
    (hc : i.keepsCall s.call s.call) : RowEffect i s s := effect_call i s s.call hd hw hc

/-- A row that appends to `DST`, and writes registers and tables. -/
theorem effect_append {i : Instr} {s t : State} (whole : t = (s.withDst t.dst t.dstLen).withCall t.call)
    (h : s.sink.extends t.sink) (hd : i.dstStores = .append) (hw : i.workStores = .nothing)
    (hc : i.keepsCall s.call t.call) : RowEffect i s t := by
  obtain ⟨hlen, hout, hwf, hep⟩ := h
  have hk : Keeps s t := whole ▸ (keeps_withDst _ hwf hep).trans (keeps_withCall _ _)
  exact ⟨hk, by rw [whole]; rfl, by rw [whole]; rfl, fun _ => by rw [whole]; rfl, fun _ => by rw [whole]; rfl, hc,
    keeps_append hd _ hlen hout, by rw [whole]; exact keeps_nothing hw _ _ _⟩

/-- A row that decodes tokens. -/
theorem effect_decoded {i : Instr} {s t : State} (h : Decoded s t) (hd : i.dstStores = .append)
    (hw : i.workStores = .nothing) (hc : i.keepsCall s.call t.call) : RowEffect i s t :=
  effect_append h.whole ⟨h.grows, h.outside, h.wf, h.epoch⟩ hd hw hc

/-- A row that writes bits. -/
theorem effect_sink {i : Instr} {s : State} {k : Sink} (h : s.sink.extends k) (hd : i.dstStores = .append)
    (hw : i.workStores = .nothing) (hc : i.keepsCall s.call { s.call with wr := k.wr }) :
    RowEffect i s (s.withSink k) :=
  effect_append rfl h hd hw hc

/-- A row that writes `IDENT`, and registers. -/
theorem effect_identCall (i : Instr) (s : State) (b : BitVec 8) (c : Call) (hi : i.setsIdent = true)
    (hd : i.dstStores = .nothing) (hw : i.workStores = .nothing) (hc : i.keepsCall s.call c) :
    RowEffect i s ((s.withIdent b).withCall c) :=
  ⟨(keeps_withIdent s b).trans (keeps_withCall _ c), rfl, rfl, fun h => by simp [hi] at h, fun _ => rfl, hc,
    keeps_nothing hd _ _ _, keeps_nothing hw _ _ _⟩

/-- A row that writes `IDENT` only. -/
theorem effect_ident (i : Instr) (s : State) (b : BitVec 8) (hi : i.setsIdent = true) (hd : i.dstStores = .nothing)
    (hw : i.workStores = .nothing) (hc : i.keepsCall s.call s.call) : RowEffect i s (s.withIdent b) :=
  effect_identCall i s b s.call hi hd hw hc

/-- A row with the mode row of the call, or none. -/
theorem effect_withRow {α : Type} {i : Instr} {s : State} {f : ModeRow → Run State α} (h0 : RowEffect i s s)
    (h : ∀ row, RowEffect i s (f row).state) : RowEffect i s (withRow s f).state := by
  rcases withRow_cases s f with ⟨row, _, e⟩ | ⟨_, e⟩ <;> rw [e]
  · exact h row
  · exact h0

/-- The dispatch rows of IDENT change IDENT, whether or not they raise; those of HMODE also `HW`. -/
theorem effect_selectCmode (i : Instr) (s : State) (c : BitVec 3) (hi : i.setsIdent = true)
    (hd : i.dstStores = .nothing)
    (hw : i.workStores = .nothing) (hc : i.keepsCall s.call s.call) : RowEffect i s (selectCmode c s).state := by
  have h : RowEffect i s (s.withIdent (identByte (omodeOf s.ident) (hmodeOf s.ident) c)) :=
    effect_ident i s _ hi hd hw hc
  unfold selectCmode
  dsimp only
  split
  · exact h
  · split <;> exact h

theorem effect_selectHmode (i : Instr) (s : State) (h : BitVec 2) (hi : i.setsIdent = true)
    (hd : i.dstStores = .nothing) (hw : i.workStores = .nothing) (hc : i.keepsCall s.call s.call)
    (hcw : h ≠ 3 → i.keepsCall s.call { s.call with hw := widthOf h }) : RowEffect i s (selectHmode h s).state := by
  unfold selectHmode
  dsimp only
  split
  · exact effect_ident i s _ hi hd hw hc
  · exact effect_identCall i s _ _ hi hd hw (hcw ‹_›)

theorem effect_selectOmode (i : Instr) (s : State) (o : BitVec 3) (hi : i.setsIdent = true)
    (hd : i.dstStores = .nothing)
    (hw : i.workStores = .nothing) (hc : i.keepsCall s.call s.call) : RowEffect i s (selectOmode o s).state := by
  unfold selectOmode
  dsimp only
  split <;> exact effect_ident i s _ hi hd hw hc

/-- One half of a transform row. -/
theorem effect_transform {i : Instr} {s : State} {obf deobf : List Byte → List Byte} (dir : Dir)
    (ho : ∀ b, (obf b).length = b.length) (hf : ∀ b, (deobf b).length = b.length)
    (hd : i.dstStores = if dir = .deobfuscate then .inPlace else .nothing)
    (hw : i.workStores = if dir = .obfuscate then .inPlace else .nothing) (hc : i.keepsCall s.call s.call) :
    RowEffect i s (runTransform obf deobf dir s) := by
  cases dir with
  | obfuscate =>
    exact ⟨keeps_mapWork obf s, rfl, rfl, fun _ => rfl, fun _ => rfl, hc, keeps_nothing hd _ _ _,
      keeps_inPlace hw ho _ _ _⟩
  | deobfuscate =>
    exact ⟨keeps_mapDst deobf s, rfl, rfl, fun _ => rfl, fun _ => rfl, hc, keeps_inPlace hd hf _ _ _,
      keeps_nothing hw _ _ _⟩

@[simp] theorem xorChainBytes_length (B : List Byte) : (xorChainBytes B).length = B.length := by
  cases B <;> simp [xorChainBytes]

@[simp] theorem unXorChainBytes_length (B : List Byte) : (unXorChainBytes B).length = B.length := by
  cases B <;> simp [unXorChainBytes]

/-! ## Coded literals and matches -/

theorem codeFromBits_state (bits : List Bool) (s : State) : ∃ h, (codeFromBits bits s).state = s.withHc h := by
  unfold codeFromBits
  split <;> exact ⟨_, rfl⟩

theorem decoded_codeFromBits (bits : List Bool) (s : State) : Decoded s (codeFromBits bits s).state := by
  obtain ⟨h, e⟩ := codeFromBits_state bits s
  exact e ▸ decoded_withHcReader s (h, s.call.rd)

theorem decoded_endLit (v : Byte) (left : List Bool) (s : State) : Decoded s (endLit v left s).state := by
  unfold endLit
  split
  · exact decoded_appendDst v s
  · exact Decoded.refl s

theorem endLit_call (v : Byte) (left : List Bool) (s : State) : (endLit v left s).state.call = s.call := by
  unfold endLit
  split <;> rfl

/-- A coded literal run alone writes `TK_FLAG` and `HC_*`. -/
def keepsLit (s t : State) : Prop :=
  t.call = { s.call with tk := { s.call.tk with flag := t.call.tk.flag }, hc := t.call.hc }

theorem keepsLit_trans {s t u : State} (h1 : keepsLit s t) (h2 : keepsLit t u) : keepsLit s u := by
  unfold keepsLit at *
  rw [h2, h1]

theorem keepsLit_codeFromBits (bits : List Bool) (s : State) : keepsLit s (codeFromBits bits s).state := by
  obtain ⟨x, e⟩ := codeFromBits_state bits s
  rw [e]
  rfl

theorem keepsLit_endLit (v : Byte) (left : List Bool) (s : State) : keepsLit s (endLit v left s).state := by
  rw [keepsLit, endLit_call]

theorem effect_litH8 (h : List Bool) (s : State) : RowEffect (.litH8 h) s
    ((codeFromBits h (setTkFlag false s)).andThen fun x s => endLit x.1 x.2 s).state := by
  refine effect_decoded ((decoded_setTkFlag false s).trans
    (decoded_andThen (decoded_codeFromBits _ _) fun x t => decoded_endLit _ _ t)) rfl rfl ?_
  exact keepsLit_trans (t := setTkFlag false s) rfl (andThen_trans (R := keepsLit) keepsLit_trans
    (keepsLit_codeFromBits h _) fun x t => keepsLit_endLit _ _ t)

theorem effect_litH4 (h : List Bool) (s : State) : RowEffect (.litH4 h) s
    ((codeFromBits h (setTkFlag false s)).andThen fun hi s =>
      (codeFromBits hi.2 s).andThen fun lo s => endLit ((hi.1 <<< 4) ||| lo.1) lo.2 s).state := by
  refine effect_decoded ((decoded_setTkFlag false s).trans (decoded_andThen (decoded_codeFromBits _ _) fun hi t =>
    decoded_andThen (decoded_codeFromBits _ _) fun lo u => decoded_endLit _ _ u)) rfl rfl ?_
  exact keepsLit_trans (t := setTkFlag false s) rfl (andThen_trans (R := keepsLit) keepsLit_trans
    (keepsLit_codeFromBits h _) fun hi t => andThen_trans (R := keepsLit) keepsLit_trans
      (keepsLit_codeFromBits _ _) fun lo u => keepsLit_endLit _ _ u)

/-- A `MATCH` given as a word. -/
theorem effect_matchToken {i : Instr} (len disp : Nat) (s : State) (hd : i.dstStores = .append)
    (hw : i.workStores = .nothing)
    (hc : i.keepsCall s.call { s.call with tk := { s.call.tk with flag := true, len := len, disp := disp } }) :
    RowEffect i s (matchToken len disp s).state := by
  have h0 : Decoded s (s.withTk { s.call.tk with flag := true, len := len, disp := disp }) :=
    (decoded_setTkFlag true s).trans ((decoded_setTkLen len _).trans (decoded_setTkDisp disp _))
  refine effect_decoded (h0.trans (decoded_runMatch _)) hd hw ?_
  unfold matchToken
  rcases runMatch_cases (s.withTk { s.call.tk with flag := true, len := len, disp := disp }) with ⟨_, e⟩ | ⟨_, _, e⟩ <;>
    rw [e] <;> exact hc

/-- `LIT` from the stream writes the reader and `HC_*` registers. -/
theorem keepsCall_decodeLit (s : State) : Instr.decodeLit.keepsCall s.call (decodeLit s).state.call := by
  obtain ⟨x, h⟩ := readValue_state s.call.hw s
  refine andThen_rel (R := fun t : State => Instr.decodeLit.keepsCall s.call t.call) (by rw [h]; rfl) fun v t ht => ?_
  rw [ht, state_ok] at h
  rw [h]
  rfl

/-- What `MATCH` from the stream writes: the reader, `TK_LEN` and `TK_DISP`. -/
def keepsMatch (s t : State) : Prop :=
  t.call = { s.call with
    rd := t.call.rd, tk := { t.call.tk with flag := s.call.tk.flag, p := s.call.tk.p, mi := s.call.tk.mi } }

theorem keepsMatch_trans {s t u : State} (h1 : keepsMatch s t) (h2 : keepsMatch t u) : keepsMatch s u := by
  unfold keepsMatch at *
  rw [h2, h1]

theorem keepsMatch_readBits (n : Nat) (s : State) : keepsMatch s (readBits n s).state := by
  obtain ⟨r, h⟩ := readBits_state n s
  rw [h]
  rfl

theorem keepsMatch_readLen (row : ModeRow) (s : State) : keepsMatch s (readLen row s).state := by
  refine andThen_trans (R := keepsMatch) keepsMatch_trans (keepsMatch_readBits _ _) fun f t => ?_
  split
  · rw [map_state]; exact keepsMatch_readBits _ _
  · exact rfl

theorem keepsMatch_readDisp (row : ModeRow) (s : State) : keepsMatch s (readDisp row s).state := by
  rw [readDisp, map_state]; exact keepsMatch_readBits _ _

theorem keepsMatch_runMatch (s : State) : keepsMatch s (runMatch s).state := by
  rcases runMatch_cases s with ⟨_, h⟩ | ⟨_, _, h⟩ <;> rw [h] <;> rfl

theorem keepsMatch_decodeMatch (row : ModeRow) (s : State) : keepsMatch s (decodeMatch row s).state := by
  have step {r : Run State Nat} {s : State} {f : Nat → State → Run State Unit} :=
    andThen_trans (R := keepsMatch) keepsMatch_trans (r := r) (s := s) (f := f)
  unfold decodeMatch
  split
  · exact step (keepsMatch_readDisp _ _) fun d t => keepsMatch_trans (t := setTkDisp d t) rfl
      (step (keepsMatch_readLen _ _) fun l u => keepsMatch_trans (t := setTkLen l u) rfl (keepsMatch_runMatch _))
  · exact step (keepsMatch_readLen _ _) fun l t => keepsMatch_trans (t := setTkLen l t) rfl
      (step (keepsMatch_readDisp _ _) fun d u => keepsMatch_trans (t := setTkDisp d u) rfl (keepsMatch_runMatch _))

theorem effect_decodeMatch (row : ModeRow) (s : State) : RowEffect .decodeMatch s (decodeMatch row s).state :=
  effect_decoded (decoded_decodeMatch row s) rfl rfl (keepsMatch_decodeMatch row s)

/-- A decoder row: the token loop under some mode row. -/
theorem effect_tokenLoop {i : Instr} (row : ModeRow) (s : State) (hd : i.dstStores = .append)
    (hw : i.workStores = .nothing) (hc : i.keepsCall s.call (tokenLoop row s).state.call) :
    RowEffect i s (tokenLoop row s).state := effect_decoded (decoded_tokenLoopFrom row _ s) hd hw hc

/-- An encoder row: the token emitter under some mode row. -/
theorem effect_emitTokens {i : Instr} (row : ModeRow) (s : State) (hd : i.dstStores = .append)
    (hw : i.workStores = .nothing)
    (hc : ∀ wr p mi, i.keepsCall s.call { s.call with wr := wr, tk := { s.call.tk with p := p, mi := mi } }) :
    RowEffect i s (emitTokens row s) := by
  obtain ⟨k, p, mi, hk, e⟩ := emitTokens_extends row s
  rw [e]
  exact effect_append rfl hk hd hw (hc _ _ _)

/-! ## Values -/

theorem effect_readValue {i : Instr} (w : SymWidth) (s : State) (hd : i.dstStores = .nothing)
    (hw : i.workStores = .nothing)
    (hc : ∀ x : HcRegs × Reader, i.keepsCall s.call { s.call with hc := x.1, rd := x.2 }) :
    RowEffect i s (readValue w s).state := by
  obtain ⟨x, h⟩ := readValue_state w s
  rw [h]
  exact effect_call i s _ hd hw (hc x)

theorem effect_readBits {i : Instr} (n : Nat) (s : State) (hd : i.dstStores = .nothing) (hw : i.workStores = .nothing)
    (hc : ∀ r, i.keepsCall s.call { s.call with rd := r }) : RowEffect i s (readBits n s).state := by
  obtain ⟨r, h⟩ := readBits_state n s
  rw [h]
  exact effect_call i s _ hd hw (hc r)

theorem ends_valueRaw (op : ValueOp) (s : State) : RowEnds (.valueRaw op) s (execValueRaw op s) := by
  cases op with
  | read => 
    refine ends_settleRet rfl ?_
    rw [map_state, readValue, map_state]
    exact effect_readBits 8 s rfl rfl fun _ => rfl
  | write v => exact .done (effect_sink (writeValue_extends _ _ _ _ _) rfl rfl rfl)

theorem ends_valueH8 (op : ValueOp) (s : State) : RowEnds (.valueH8 op) s (execValueH8 op s) := by
  cases op with
  | read => exact ends_settleRet rfl (by rw [map_state]; exact effect_readValue .w8 s rfl rfl fun _ => rfl)
  | write v => exact .done (effect_sink (writeValue_extends _ _ _ _ _) rfl rfl rfl)

theorem ends_valueH4 (op : ValueOp) (s : State) : RowEnds (.valueH4 op) s (execValueH4 op s) := by
  cases op with
  | read => exact ends_settleRet rfl (by rw [map_state]; exact effect_readValue .w4 s rfl rfl fun _ => rfl)
  | write v => exact .done (effect_sink (writeValue_extends _ _ _ _ _) rfl rfl rfl)

theorem effect_readSymbol (s : State) : RowEffect .readSymbol s (readSymbol s).state := by
  obtain ⟨x, h⟩ := readSymbol_state s
  rw [h]
  exact effect_call _ s _ rfl rfl rfl

theorem effect_deserialise (s : State) : RowEffect .deserialise s (deserialise s).state := by
  obtain ⟨x, h⟩ := deserialise_state s
  rw [h]
  exact effect_call _ s _ rfl rfl rfl

/-! ## The phases -/

theorem effect_findMatches (s : State) : RowEffect .findMatches s (findMatches s).state := by
  rcases findMatches_cases s with ⟨_, e⟩ | ⟨row, _, e⟩ <;> rw [e]
  · exact effect_refl _ s rfl rfl rfl
  · exact effect_call _ s _ rfl rfl rfl

theorem effect_parseCostToEnd (s : State) : RowEffect .parseCostToEnd s (parseCostToEnd s).state := by
  rcases parseCostToEnd_cases s with ⟨_, e⟩ | ⟨row, _, _, _, _, e⟩ <;> rw [e]
  · exact effect_refl _ s rfl rfl rfl
  · exact effect_call _ s _ rfl rfl rfl

/-- A row that latches a header: `ReadHeader` and `ValidateMagic`, and HEADER. -/
theorem effect_validateHeader {i : Instr} (m : Byte) (g : Nat → Byte) (len : Nat) (s : State)
    (hi : i.setsIdent = true) (hz : i.setsDsize = true) (hd : i.dstStores = .discard) (hw : i.workStores = .nothing)
    (hc : i.keepsCall s.call s.call) : RowEffect i s (validateHeader m g len s).state := by
  have hk := keeps_validateHeader m g len s
  have hi' : ∀ b : BitVec 8, i.setsIdent = false → b = s.ident := fun b h => by simp [hi] at h
  have hz' : ∀ n : Nat, i.setsDsize = false → n = s.dsize := fun n h => by simp [hz] at h
  rcases validateHeader_cases m g len s with ⟨_, e⟩ | ⟨_, _, e⟩ | ⟨_, _, e⟩ <;> rw [e] at hk ⊢
  all_goals exact ⟨hk, rfl, rfl, hi' _, hz' _, hc, keeps_discard hd _ _ _ _ _, keeps_nothing hw _ _ _⟩

theorem effect_readHeader (s : State) : RowEffect .readHeaderValidateMagic s (readHeader s).state := by
  unfold readHeader
  rcases readFirst_cases s with ⟨_, e⟩ | ⟨_, e⟩ <;> rw [e]
  · exact ⟨Keeps.refl s, rfl, rfl, fun _ => rfl, fun _ => rfl, rfl, trivial, rfl, rfl⟩
  · exact effect_validateHeader _ _ _ s rfl rfl rfl rfl rfl

theorem effect_checkModes (k : ErrKind) (s : State) : RowEffect .dispatchModes s (checkModes k s).state := by
  rcases checkModes_cases k s with ⟨_, e⟩ | ⟨_, _, e⟩ | ⟨_, _, e⟩ <;> rw [e]
  · exact effect_refl _ s rfl rfl rfl
  · exact effect_refl _ s rfl rfl rfl
  · exact effect_call _ s _ rfl rfl rfl

theorem effect_checkConfig (s : State) : RowEffect .checkConfig s (checkConfig s).state := by
  rcases checkConfig_cases s with ⟨_, e⟩ | ⟨_, e⟩ <;> rw [e]
  · exact effect_refl _ s rfl rfl rfl
  · rcases checkModes_cases .unsupportedMode (s.withIdent s.cfgIdent) with ⟨_, e⟩ | ⟨_, _, e⟩ | ⟨_, _, e⟩ <;> rw [e]
    · exact effect_ident .checkConfig s _ rfl rfl rfl rfl
    · exact effect_ident .checkConfig s _ rfl rfl rfl rfl
    · exact effect_identCall .checkConfig s _ { s.call with hw := widthOf (hmodeOf s.cfgIdent) } rfl rfl rfl rfl

theorem effect_deobfuscate (s : State) : RowEffect .deobfuscate s (deobfuscate s).state := by
  have h0 : RowEffect .deobfuscate s s := ⟨Keeps.refl s, rfl, rfl, fun _ => rfl, fun _ => rfl, rfl,
    ⟨rfl, fun _ _ => rfl⟩, rfl, rfl⟩
  rcases deobfuscate_cases s with ⟨_, e⟩ | ⟨_, e⟩ | ⟨_, e⟩ <;> rw [e]
  · exact h0
  · exact h0
  · exact ⟨keeps_mapDst _ s, rfl, rfl, fun _ => rfl, fun _ => rfl, rfl, keeps_inPlace rfl (deobfOf_length _ _) _ _ _,
      rfl, rfl⟩

theorem effect_materialize (s : State) : RowEffect .materialize s (materialize s) :=
  ⟨keeps_materialize s, rfl, rfl, fun _ => rfl, nofun, rfl, trivial, trivial⟩

theorem effect_buildTree (s : State) : RowEffect .buildTree s (buildTree s) := by
  have h := built_buildTree s
  have he : RowEffect .buildTree s (s.withCall (buildTree s).call) := effect_call _ s _ rfl rfl h.call
  exact h.whole ▸ he

@[simp] theorem headerBytes_length (s : State) : (headerBytes s).length = s.fmt.hdrLen := by
  simp [headerBytes, Fmt.hdrLen]

/-- The header's bytes stand below `HDR_LEN`. -/
theorem withHeader_outside (s : State) (a : Nat) (h : s.fmt.hdrLen ≤ a) :
    (s.dst.writeList 0 (headerBytes s)).read a = s.dst.read a := by
  rw [read_writeList, if_neg]
  rw [headerBytes_length]
  omega

theorem effect_writeHeader (s : State) : RowEffect .writeHeader s (writeHeader s) := by
  have hk := keeps_writeHeader s
  rcases writeHeader_cases s with ⟨_, e⟩ | ⟨_, _, e⟩ | ⟨_, _, e⟩ <;> rw [e] at hk ⊢
  · exact ⟨hk, rfl, rfl, fun _ => rfl, fun _ => rfl, rfl, withHeader_outside s, rfl, rfl⟩
  · exact ⟨hk, rfl, rfl, fun _ => rfl, fun _ => rfl, rfl, withHeader_outside s, rfl, rfl⟩
  · refine ⟨hk, rfl, rfl, fun _ => rfl, fun _ => rfl, rfl, fun a ha => ?_, rfl, rfl⟩
    obtain ⟨hlen, hout, _⟩ := writeTable_extends s.fmt s.call.hw s.call.ht
      (openWriter (s.withDst (s.dst.writeList 0 (headerBytes s)) s.fmt.hdrLen)).sink
    exact (hout a (.inr ha)).trans (withHeader_outside s a (Nat.le_trans hlen ha))

/-! ## Every row -/

end Sys2Proof.Machine

namespace Sys2Proof

/-- The host's commands (rule R110): the rows that are a move of the host, which a busy engine refuses. -/
def Instr.ofHost : Instr → Bool
  | .nop => true
  | .decode => true
  | .encode => true
  | .reset => true
  | .configure _ _ _ => true
  | _ => false

end Sys2Proof

namespace Sys2Proof.Machine

/-- Every row but the host's commands ends with its effect, a returned value or an error. -/
theorem rowEnds (s : State) : ∀ i : Instr, i.ofHost = false → RowEnds i s (exec i s)
  | .cmodeLz412, _ => ends_settle (effect_selectCmode .cmodeLz412 s 0 rfl rfl rfl rfl)
  | .cmodeLz38, _ => ends_settle (effect_selectCmode .cmodeLz38 s 1 rfl rfl rfl rfl)
  | .cmodeLz816, _ => ends_settle (effect_selectCmode .cmodeLz816 s 2 rfl rfl rfl rfl)
  | .cmodeLzd115, _ => ends_settle (effect_selectCmode .cmodeLzd115 s 3 rfl rfl rfl rfl)
  | .cmodeLzx412, _ => ends_settle (effect_selectCmode .cmodeLzx412 s 4 rfl rfl rfl rfl)
  | .cmodeLz5, _ => ends_settle (effect_selectCmode .cmodeLz5 s 5 rfl rfl rfl rfl)
  | .cmode6, _ => ends_settle (effect_selectCmode .cmode6 s 6 rfl rfl rfl rfl)
  | .cmode7, _ => ends_settle (effect_selectCmode .cmode7 s 7 rfl rfl rfl rfl)
  | .hmodeNone, _ => ends_settle (effect_selectHmode .hmodeNone s 0 rfl rfl rfl rfl fun _ => rfl)
  | .hmodeH4, _ => ends_settle (effect_selectHmode .hmodeH4 s 1 rfl rfl rfl rfl fun _ => rfl)
  | .hmodeH8, _ => ends_settle (effect_selectHmode .hmodeH8 s 2 rfl rfl rfl rfl fun _ => rfl)
  | .hmode3, _ => ends_settle (effect_selectHmode .hmode3 s 3 rfl rfl rfl rfl fun h => absurd rfl h)
  | .omodeNone, _ => ends_settle (effect_selectOmode .omodeNone s 0 rfl rfl rfl rfl)
  | .omodeComplement, _ => ends_settle (effect_selectOmode .omodeComplement s 1 rfl rfl rfl rfl)
  | .omodeXorpos, _ => ends_settle (effect_selectOmode .omodeXorpos s 2 rfl rfl rfl rfl)
  | .omodePairswap, _ => ends_settle (effect_selectOmode .omodePairswap s 3 rfl rfl rfl rfl)
  | .omodeXorchain, _ => ends_settle (effect_selectOmode .omodeXorchain s 4 rfl rfl rfl rfl)
  | .omode5, _ => ends_settle (effect_selectOmode .omode5 s 5 rfl rfl rfl rfl)
  | .omode6, _ => ends_settle (effect_selectOmode .omode6 s 6 rfl rfl rfl rfl)
  | .omode7, _ => ends_settle (effect_selectOmode .omode7 s 7 rfl rfl rfl rfl)
  | .litRaw v, _ => .done (effect_decoded ((decoded_setTkFlag false s).trans (decoded_appendDst v _)) rfl rfl rfl)
  | .litH8 h, _ => ends_settle (effect_litH8 h s)
  | .litH4 hh, _ => ends_settle (effect_litH4 hh s)
  | .matchLz412 _ _, _ => ends_settle (effect_matchToken _ _ s rfl rfl rfl)
  | .matchLz38 _ _, _ => ends_settle (effect_matchToken _ _ s rfl rfl rfl)
  | .matchLz816 _ _, _ => ends_settle (effect_matchToken _ _ s rfl rfl rfl)
  | .matchLzd115 _ _, _ => ends_settle (effect_matchToken _ _ s rfl rfl rfl)
  | .matchLzx412Short _ _, _ => ends_settle (effect_matchToken _ _ s rfl rfl rfl)
  | .matchLzx412Ext _ _, _ => ends_settle (effect_matchToken _ _ s rfl rfl rfl)
  | .header _ _ _, _ => ends_settle (effect_validateHeader _ _ _ s rfl rfl rfl rfl rfl)
  | .treetable _ _, _ => ends_settle (by rw [lift_state]; exact effect_call _ s _ rfl rfl rfl)
  | .openWriter, _ => .done (effect_call .openWriter s _ rfl rfl rfl)
  | .writeBits v n, _ => .done (effect_sink (writeBits_extends v n s) rfl rfl rfl)
  | .writeByte v, _ => .done (effect_sink (writeBits_extends v 8 s) rfl rfl rfl)
  | .flush, _ => .done (effect_sink (flush_extends _ _) rfl rfl rfl)
  | .openReader, _ => .done (effect_call .openReader s _ rfl rfl rfl)
  | .readBits n, _ => ends_settleRet rfl (effect_readBits n s rfl rfl fun _ => rfl)
  | .readByte, _ => ends_settleRet rfl (effect_readBits 8 s rfl rfl fun _ => rfl)
  | .findMatches, _ => ends_settle (effect_findMatches s)
  | .parseCostToEnd, _ => ends_settle (effect_parseCostToEnd s)
  | .parseWalk, _ => .done (effect_call .parseWalk s _ rfl rfl rfl)
  | .tally, _ => .done (effect_call .tally s _ rfl rfl rfl)
  | .makeLeaves f, _ => .done (effect_call (.makeLeaves f) s _ rfl rfl rfl)
  | .merge, _ => .done (effect_call .merge s _ rfl rfl rfl)
  | .limitDepth, _ => .done (effect_call .limitDepth s _ rfl rfl rfl)
  | .canonicalise, _ => .done (effect_call .canonicalise s _ rfl rfl rfl)
  | .serialise, _ => .done (effect_append rfl (writeTable_extends _ _ _ _) rfl rfl rfl)
  | .assignCodes, _ => .done (effect_call .assignCodes s _ rfl rfl rfl)
  | .writeSymbol _, _ => .done (effect_sink (writeCode_extends _ _ _) rfl rfl rfl)
  | .deserialise, _ => ends_settle (effect_deserialise s)
  | .readSymbol, _ => ends_settleRet rfl (by rw [map_state]; exact effect_readSymbol s)
  | .obf0 dir, _ => .done (effect_refl (.obf0 dir) s rfl rfl rfl)
  | .obf1 dir, _ => .done (effect_transform dir complementBytes_length complementBytes_length rfl rfl rfl)
  | .obf2 dir, _ => .done (effect_transform dir xorPosBytes_length xorPosBytes_length rfl rfl rfl)
  | .obf3 dir, _ => .done (effect_transform dir pairSwapBytes_length pairSwapBytes_length rfl rfl rfl)
  | .obf4 dir, _ => .done (effect_transform dir xorChainBytes_length unXorChainBytes_length rfl rfl rfl)
  | .valueRaw op, _ => ends_valueRaw op s
  | .valueH8 op, _ => ends_valueH8 op s
  | .valueH4 op, _ => ends_valueH4 op s
  | .tokenLoop, _ => ends_settle (effect_withRow
      (effect_decoded (Decoded.refl s) rfl rfl rfl) fun row => effect_tokenLoop row s rfl rfl
        (decoded_tokenLoopFrom row _ s).call)
  | .decodeLit, _ => ends_settle (effect_decoded (decoded_decodeLit s) rfl rfl (keepsCall_decodeLit s))
  | .decodeMatch, _ => ends_settle (effect_withRow
      (effect_decoded (Decoded.refl s) rfl rfl rfl) fun row => effect_decodeMatch row s)
  | .emitTokens, _ => ends_settle (effect_withRow
      (effect_decoded (Decoded.refl s) rfl rfl rfl) fun row => effect_emitTokens row s rfl rfl fun _ _ _ => rfl)
  | .decodeLz412, _ => ends_settle (effect_tokenLoop rowLz412 s rfl rfl (decoded_tokenLoopFrom _ _ s).call)
  | .encodeLz412, _ => .done (effect_emitTokens rowLz412 s rfl rfl fun _ _ _ => rfl)
  | .decodeLz38, _ => ends_settle (effect_tokenLoop rowLz38 s rfl rfl (decoded_tokenLoopFrom _ _ s).call)
  | .encodeLz38, _ => .done (effect_emitTokens rowLz38 s rfl rfl fun _ _ _ => rfl)
  | .decodeLz816, _ => ends_settle (effect_tokenLoop rowLz816 s rfl rfl (decoded_tokenLoopFrom _ _ s).call)
  | .encodeLz816, _ => .done (effect_emitTokens rowLz816 s rfl rfl fun _ _ _ => rfl)
  | .decodeLzd115, _ => ends_settle (effect_tokenLoop rowLzd115 s rfl rfl (decoded_tokenLoopFrom _ _ s).call)
  | .encodeLzd115, _ => .done (effect_emitTokens rowLzd115 s rfl rfl fun _ _ _ => rfl)
  | .decodeLzx412, _ => ends_settle (effect_tokenLoop rowLzx412 s rfl rfl (decoded_tokenLoopFrom _ _ s).call)
  | .encodeLzx412, _ => .done (effect_emitTokens rowLzx412 s rfl rfl fun _ _ _ => rfl)
  | .lz5, _ => .raised (effect_refl .lz5 s rfl rfl rfl) .unimplementedTransform
  | .readHeaderValidateMagic, _ => ends_settle (effect_readHeader s)
  | .dispatchModes, _ => ends_settle (effect_checkModes .corruptStream s)
  | .deobfuscate, _ => ends_settle (effect_deobfuscate s)
  | .checkConfig, _ => ends_settle (effect_checkConfig s)
  | .materialize, _ => .done (effect_materialize s)
  | .buildTree, _ => .done (effect_buildTree s)
  | .writeHeader, _ => .done (effect_writeHeader s)
  | .emit, _ => ends_settle (effect_withRow
      (effect_decoded (Decoded.refl s) rfl rfl rfl) fun row => effect_emitTokens row s rfl rfl fun _ _ _ => rfl)
  | .raise k, _ => .raised (effect_refl (.raise k) s rfl rfl rfl) k

end Sys2Proof.Machine
end

section
/-! The frame of every instruction, and the invariant: obligations O8, O9, O10, O11, O12, O13. -/

namespace Sys2Proof.Machine

/-! ## The host's commands -/

/-- A host move that was answered: the engine was at rest. -/
theorem hostMove_eq_next {s t : State} {r : Host.Outcome State Fault Refusal} (h : hostMove s r = .next t) :
    s.busy = false ∧ r = .next t := by
  cases hb : s.busy with
  | false => exact ⟨rfl, by rwa [hostMove_idle hb] at h⟩
  | true => rw [hostMove_busy hb] at h; cases h

theorem writeCfg_eq_next {v : BitVec 9} {s t : State} (h : writeCfg v s = .next t) :
    s.busy = false ∧ s.cfgValid = false ∧ t = { s with cfg := v } := by
  obtain ⟨hb, h⟩ := hostMove_eq_next h
  split at h
  · cases h
  · cases h
    exact ⟨hb, by simpa using ‹¬ s.cfgValid = true›, rfl⟩

/-- What the host's commands come to. -/
inductive HostEnds (s : State) : Instr → State → Prop where
  | nop : HostEnds s .nop s
  | decode : HostEnds s .decode (endDecode (runDecode s))
  | encode : HostEnds s .encode (endEncode (runEncode s))
  | reset : HostEnds s .reset (resetInstance s)
  | configure (o : BitVec 3) (h : BitVec 2) (c : BitVec 3) :
    HostEnds s (.configure o h c) { s with cfg := 1#1 ++ identByte o h c }

theorem hostEnds {i : Instr} {s t : State} (hi : i.ofHost = true) (h : exec i s = .next t) : HostEnds s i t := by
  cases i with
  | nop => cases (hostMove_eq_next h).2; exact .nop
  | decode => cases (hostMove_eq_next h).2; exact .decode
  | encode =>
    have h := (hostMove_eq_next h).2
    split at h
    · cases h
    · cases h; exact .encode
  | reset => cases (hostMove_eq_next h).2; exact .reset
  | configure o hm c =>
    obtain ⟨_, _, rfl⟩ := writeCfg_eq_next h
    exact .configure o hm c
  | _ => cases hi

/-- A row that is no host command: its effect, and then at most a value returned or an error entered. -/
theorem rowEnds_next {i : Instr} {s t : State} (hi : i.ofHost = false) (h : exec i s = .next t) :
    ∃ u, RowEffect i s u ∧ (t = u ∨ (i.returns = true ∧ ∃ v, t = { u with ret := v }) ∨ ∃ k, t = takeError k u) := by
  have he := rowEnds s i hi
  rw [h] at he
  cases he with
  | done hu => exact ⟨_, hu, .inl rfl⟩
  | returned hu hr v => exact ⟨_, hu, .inr (.inl ⟨hr, v, rfl⟩)⟩
  | raised hu k => exact ⟨_, hu, .inr (.inr ⟨k, rfl⟩)⟩

theorem keeps_decodeCommand (s : State) : Keeps s (endDecode (runDecode s)) :=
  (keeps_runDecode s).trans (keeps_endDecode _)

theorem keeps_encodeCommand (s : State) : Keeps s (endEncode (runEncode s)) :=
  (keeps_runEncode s).trans (keeps_endEncode _)

/-- The end of DECODE: `Done` without error, or `Failed` with the kind raised. -/
theorem endDecode_status (r : Run State Unit) :
    (∃ s, r = .ok () s ∧ (endDecode r).phase = .done ∧ (endDecode r).err = none) ∨
      ∃ k s, r = .raised k s ∧ (endDecode r).phase = .failed ∧ (endDecode r).err = some k := by
  cases r with
  | ok a s => exact .inl ⟨s, rfl, rfl, rfl⟩
  | raised k s =>
    refine .inr ⟨k, s, rfl, ?_⟩
    by_cases hk : k = .formatMismatch
    · subst hk; exact ⟨rfl, rfl⟩
    · rw [endDecode_raised hk]; exact ⟨rfl, rfl⟩

theorem endEncode_status (r : Run State Unit) :
    (∃ s, r = .ok () s ∧ (endEncode r).phase = .done ∧ (endEncode r).err = none) ∨
      ∃ k s, r = .raised k s ∧ (endEncode r).phase = .failed ∧ (endEncode r).err = some k := by
  cases r with
  | ok a s => exact .inl ⟨s, rfl, rfl, rfl⟩
  | raised k s => exact .inr ⟨k, s, rfl, rfl, rfl⟩

/-! ## Every instruction answers -/

/-- Settles O8: a row run alone always ends, and each host command answers while the engine is at rest. -/
theorem everyInstructionAnswers : Obligations.EveryInstructionAnswers := by
  intro i s hb hlen hcfg
  cases hi : i.ofHost with
  | false =>
    cases he : exec i s with
    | next t => exact ⟨t, rfl⟩
    | fault r => have h := rowEnds s i hi; rw [he] at h; cases h
    | refused r => have h := rowEnds s i hi; rw [he] at h; cases h
  | true =>
    cases i with
    | nop => exact ⟨_, hostMove_idle hb _⟩
    | decode => exact ⟨_, hostMove_idle hb _⟩
    | encode => exact ⟨_, (hostMove_idle hb _).trans (if_neg (Nat.not_lt.2 (hlen rfl)))⟩
    | reset => exact ⟨_, hostMove_idle hb _⟩
    | configure o h c =>
      have hv : ¬ s.cfgValid = true := by simp [hcfg o h c rfl]
      exact ⟨_, (hostMove_idle hb _).trans (if_neg hv)⟩
    | _ => cases hi

/-! ## The invariant -/

/-- What `Keeps` says is kept keeps the invariant, when the engine ends at rest with `ERR` and `PHASE` in step. -/
theorem inv_of_keeps {s t : State} (hk : Keeps s t) (hi : Inv s) (he : t.errMatchesPhase) (hb : t.busy = false) :
    Inv t := by
  obtain ⟨hmem, _, _, hlen, hep, hrec⟩ := hi
  exact ⟨hk.memories hmem, he, hb, hk.lengths hlen, hk.epochs hep, by rw [hk.fmt, hk.kon]; exact hrec⟩

/-- A state that is `Failed` with an error kind, or `Done` without one, has `ERR` and `PHASE` in step and is at rest. -/
theorem atRest_of_ended {t : State}
    (h : (t.phase = .done ∧ t.err = none) ∨ ∃ k, t.phase = .failed ∧ t.err = some k) :
    t.errMatchesPhase ∧ t.busy = false := by
  unfold State.errMatchesPhase State.busy
  rcases h with ⟨hp, he⟩ | ⟨k, hp, he⟩ <;> rw [hp, he] <;> exact ⟨by simp, rfl⟩

theorem inv_decodeCommand {s : State} (hi : Inv s) : Inv (endDecode (runDecode s)) := by
  obtain ⟨he, hb⟩ := atRest_of_ended (t := endDecode (runDecode s)) <| by
    rcases endDecode_status (runDecode s) with ⟨_, _, h⟩ | ⟨k, _, _, h⟩
    · exact .inl h
    · exact .inr ⟨k, h⟩
  exact inv_of_keeps (keeps_decodeCommand s) hi he hb

theorem inv_encodeCommand {s : State} (hi : Inv s) : Inv (endEncode (runEncode s)) := by
  obtain ⟨he, hb⟩ := atRest_of_ended (t := endEncode (runEncode s)) <| by
    rcases endEncode_status (runEncode s) with ⟨_, _, h⟩ | ⟨k, _, _, h⟩
    · exact .inl h
    · exact .inr ⟨k, h⟩
  exact inv_of_keeps (keeps_encodeCommand s) hi he hb

/-- RESET ends in a state of the invariant, whatever was there before but the record. -/
theorem inv_resetInstance {s : State} (h : recordWf s.fmt s.kon = true) : Inv (resetInstance s) := by
  refine ⟨⟨empty_wf _, empty_wf _, empty_wf _⟩, ?_, rfl, ⟨Nat.two_pow_pos 32, Nat.two_pow_pos 32⟩, ⟨?_, ?_, ?_⟩, h⟩
  · unfold State.errMatchesPhase
    exact ⟨nofun, nofun⟩
  · exact Nat.lt_add_of_pos_right (Nat.succ_pos 2)
  · exact Nat.add_lt_add_left (Nat.lt_succ_of_lt (Nat.lt_succ_self 1)) s.draws
  · exact Nat.add_lt_add_left (Nat.lt_succ_self 2) s.draws

/-- Every instruction that answers keeps the invariant: the value returned, the inbox and `CFG` are no part of it. -/
theorem inv_exec {i : Instr} {s t : State} (hi : Inv s) (h : exec i s = .next t) : Inv t := by
  cases ho : i.ofHost with
  | true =>
    cases hostEnds ho h with
    | nop => exact hi
    | decode => exact inv_decodeCommand hi
    | encode => exact inv_encodeCommand hi
    | reset =>
      obtain ⟨_, _, _, _, _, hrec⟩ := hi
      exact inv_resetInstance hrec
    | configure o m c => exact hi
  | false =>
    obtain ⟨u, hu, ht⟩ := rowEnds_next ho h
    have hrest : u.errMatchesPhase ∧ u.busy = false := by
      obtain ⟨_, he, hb, _⟩ := hi
      unfold State.errMatchesPhase State.busy at *
      rw [hu.phase, hu.err]
      exact ⟨he, hb⟩
    have hiu : Inv u := inv_of_keeps hu.keeps hi hrest.1 hrest.2
    rcases ht with rfl | ⟨_, v, rfl⟩ | ⟨k, rfl⟩
    · exact hiu
    · exact hiu
    · obtain ⟨he, hb⟩ := atRest_of_ended (t := takeError k u) (.inr ⟨k, rfl, rfl⟩)
      exact inv_of_keeps (keeps_takeError k u) hiu he hb

/-! ## The host's other moves -/

/-- An operation word is an instruction, or refused. -/
theorem serveWord_cases (img : Image) : (∃ i, serveWord img = .run i) ∨ ∃ r, serveWord img = .done (.refused r) := by
  unfold serveWord
  split
  · exact .inl ⟨_, rfl⟩
  · exact .inr ⟨_, rfl⟩

/-- A write of a register that is no instruction: a value of `CFG`, a value of `SRC_LEN`, or nothing. -/
theorem inv_serveWrite {n v : Nat} {s t : State} {o : Host.Outcome State Fault Refusal} (hi : Inv s)
    (h : serveWrite n v s = .done o) (ho : o = .next t) : Inv t := by
  have word {img : Image} (hw : serveWord img = .done o) : Inv t := by
    rcases serveWord_cases img with ⟨i, e⟩ | ⟨r, e⟩ <;> rw [e] at hw <;> cases hw
    cases ho
  have same (hs : Served.done (hostMove s (.next s)) = .done o) : Inv t := by
    cases hs
    cases (hostMove_eq_next ho).2
    exact hi
  unfold serveWrite at h
  split at h
  · exact word h
  · split at h
    · exact word h
    · cases h
      obtain ⟨_, _, rfl⟩ := writeCfg_eq_next ho
      exact hi
  · cases h
    cases (hostMove_eq_next ho).2
    obtain ⟨hmem, he, hb, ⟨_, hd⟩, hep, hrec⟩ := hi
    exact ⟨hmem, he, hb, ⟨Nat.mod_lt _ (by decide), hd⟩, hep, hrec⟩
  · exact same h
  · exact same h
  · exact same h
  · exact same h
  · exact same h
  · cases h
    cases ho

theorem inv_serveRead {n : Nat} {s t : State} (hi : Inv s) (h : serveRead n s = .next t) : Inv t := by
  unfold serveRead at h
  split at h
  · cases (hostMove_eq_next h).2
    exact hi
  · split at h <;> cases h

theorem inv_serveSrc {a : Nat} {b : Byte} {s t : State} (hi : Inv s) (h : serveSrc a b s = .next t) : Inv t := by
  unfold serveSrc at h
  split at h
  · cases h
  · cases (hostMove_eq_next h).2
    obtain ⟨⟨hsrc, hdst, hwork⟩, hrest⟩ := hi
    exact ⟨⟨write_wf _ _ _ hsrc, hdst, hwork⟩, hrest⟩

theorem inv_serveDst {a : Nat} {s t : State} (hi : Inv s) (h : serveDst a s = .next t) : Inv t := by
  unfold serveDst at h
  split at h
  · cases h
  · have h := (hostMove_eq_next h).2
    split at h
    · cases h
    · cases h
      exact hi

/-- Whatever move is served, the invariant is kept. -/
theorem inv_runServed {m : Move} {s t : State} (hi : Inv s) (h : runServed (serve m s) s = .next t) : Inv t := by
  cases hv : serve m s with
  | run i =>
    rw [hv] at h
    exact inv_exec hi h
  | done o =>
    rw [hv] at h
    cases m with
    | op img =>
      rcases serveWord_cases img with ⟨i, e⟩ | ⟨r, e⟩
      · cases e.symm.trans hv
      · cases e.symm.trans hv
        cases h
    | writeReg n v => exact inv_serveWrite hi hv h
    | readReg n => injection hv with hv; subst hv; exact inv_serveRead hi h
    | writeSrc a b => injection hv with hv; subst hv; exact inv_serveSrc hi h
    | readDst a => injection hv with hv; subst hv; exact inv_serveDst hi h

/-- Settles O10: by the case of the move served; a row keeps the invariant by its effect (`rowEnds`), a command by what
its phases keep (`Keeps`). -/
theorem invKeptByEveryStep : Obligations.InvKeptByEveryStep := by
  intro s t hi h
  unfold step at h
  split at h
  · split at h
    · cases h; exact hi
    · rename_i rest _
      exact inv_runServed (s := { s with inbox := rest }) hi h
  · cases h

/-- Settles O9. -/
theorem invAtReset : Obligations.InvAtReset := by
  refine ⟨reset_memories_wf, ⟨nofun, nofun⟩, rfl, ⟨by decide, by decide⟩, ⟨by decide, by decide, by decide⟩, by decide⟩

/-! ## The frames -/

/-- What a state has in common with the one an instruction was run in, in the terms of O11. -/
theorem registerFrame_of_keeps {i : Instr} {s t : State} (hk : Keeps s t)
    (hident : i.setsIdent = false → t.ident = s.ident) (hdsize : i.setsDsize = false → t.dsize = s.dsize)
    (hst : i.isCommand = false → (t.phase = s.phase ∧ t.err = s.err) ∨ (t.phase = .failed ∧ t.err.isSome = true)) :
    t.fmt = s.fmt ∧ t.kon = s.kon ∧ t.inbox = s.inbox ∧ t.bus = s.bus ∧ s.draws ≤ t.draws ∧
    (i ≠ .reset → t.src = s.src ∧ t.srcLen = s.srcLen) ∧
    (i.setsCfg = false → t.cfg = s.cfg) ∧ (i.setsIdent = false → t.ident = s.ident) ∧
    (i.setsDsize = false → t.dsize = s.dsize) ∧ (i.returns = false → t.ret = s.ret) ∧
    (i.isCommand = false → (t.phase = s.phase ∧ t.err = s.err) ∨ (t.phase = .failed ∧ t.err.isSome = true)) :=
  ⟨hk.fmt, hk.kon, hk.inbox, hk.bus, hk.draws, fun _ => ⟨hk.src, hk.srcLen⟩, fun _ => hk.cfg, hident, hdsize,
    fun _ => hk.ret, hst⟩

/-- Settles O11: from the effect of each row, and what the phases of a command keep. -/
theorem registerFrame : Obligations.RegisterFrame := by
  intro i s t h
  cases ho : i.ofHost with
  | true =>
    cases hostEnds ho h with
    | nop => exact registerFrame_of_keeps (Keeps.refl s) (fun _ => rfl) (fun _ => rfl) fun _ => .inl ⟨rfl, rfl⟩
    | decode => exact registerFrame_of_keeps (keeps_decodeCommand s) nofun nofun nofun
    | encode => exact registerFrame_of_keeps (keeps_encodeCommand s) nofun nofun nofun
    | reset =>
      exact ⟨rfl, rfl, rfl, rfl, Nat.le_add_right _ 3, fun h => absurd rfl h, nofun, nofun, nofun, fun _ => rfl, nofun⟩
    | configure o m c =>
      exact ⟨rfl, rfl, rfl, rfl, Nat.le_refl _, fun _ => ⟨rfl, rfl⟩, nofun, fun _ => rfl, fun _ => rfl, fun _ => rfl,
        fun _ => .inl ⟨rfl, rfl⟩⟩
  | false =>
    obtain ⟨u, hu, ht⟩ := rowEnds_next ho h
    rcases ht with rfl | ⟨hr, v, rfl⟩ | ⟨k, rfl⟩
    · exact registerFrame_of_keeps hu.keeps hu.ident hu.dsize fun _ => .inl ⟨hu.phase, hu.err⟩
    · obtain ⟨h1, h2, h3, h4, h5, h6, h7, h8, h9, _, h11⟩ :=
        registerFrame_of_keeps hu.keeps hu.ident hu.dsize fun _ => .inl ⟨hu.phase, hu.err⟩
      exact ⟨h1, h2, h3, h4, h5, h6, h7, h8, h9, fun h => by simp [hr] at h, h11⟩
    · exact registerFrame_of_keeps (hu.keeps.trans (keeps_takeError k u)) hu.ident hu.dsize fun _ => .inr ⟨rfl, rfl⟩

/-- Settles O12: from the effect of each row; the commands name no register that they keep. -/
theorem callFrame : Obligations.CallFrame := by
  intro i s t h
  cases ho : i.ofHost with
  | true => cases hostEnds ho h <;> trivial
  | false =>
    obtain ⟨u, hu, ht⟩ := rowEnds_next ho h
    rcases ht with rfl | ⟨_, v, rfl⟩ | ⟨k, rfl⟩ <;> exact hu.call

/-- Settles O13: from the effect of each row; the commands that write memory discard both spaces. That every transform
table keeps lengths is `deobfOf_length`, so the hypothesis on it is not needed. -/
theorem memoryFrame : Obligations.MemoryFrame := by
  intro i s t h _
  cases ho : i.ofHost with
  | true =>
    cases hostEnds ho h with
    | nop => exact ⟨⟨rfl, rfl⟩, rfl, rfl⟩
    | decode => exact ⟨trivial, trivial⟩
    | encode => exact ⟨trivial, trivial⟩
    | reset => exact ⟨trivial, trivial⟩
    | configure o m c => exact ⟨⟨rfl, rfl⟩, rfl, rfl⟩
  | false =>
    obtain ⟨u, hu, ht⟩ := rowEnds_next ho h
    rcases ht with rfl | ⟨_, v, rfl⟩ | ⟨k, rfl⟩ <;> exact ⟨hu.dst, hu.work⟩

end Sys2Proof.Machine
end

section
/-! The plain facts of tier 1: obligations O5, O6, O7, O18, O19 and O53. -/

namespace Sys2Proof.Machine

/-! ## Words written to registers -/

theorem natLsb_bitsLsb (n v : Nat) : natLsb (bitsLsb n v) = v % 2 ^ n := by
  induction n generalizing v with
  | zero => simp [bitsLsb, natLsb, Nat.mod_one]
  | succ n ih =>
    have hbit : (v.testBit 0).toNat = v % 2 := by
      rw [Nat.testBit_zero]
      rcases Nat.mod_two_eq_zero_or_one v with h | h <;> simp [h]
    have hpow : v % 2 ^ (n + 1) = v % 2 + 2 * (v / 2 % 2 ^ n) := by rw [Nat.pow_succ', Nat.mod_mul]
    rw [bitsLsb, natLsb, ih, hbit, hpow, Nat.shiftRight_one]

theorem commandOf_wf (v : Nat) : (commandOf v).wf = true := by
  unfold commandOf
  split <;> rfl

/-- A word whose decoding is a well-formed instruction is served by running it. -/
theorem serveWord_of_decode {img : Image} {i : Instr} (hd : decode img = .ok i) (hw : i.wf = true) :
    serveWord img = .run i := by
  have hf : fetch img = .ok i := by
    unfold fetch
    rw [hd]
    exact if_pos hw
  unfold serveWord
  rw [hf]

/-- The decoder reads the two low bits of a value written to `CMD`. -/
theorem decode_cmd (v : Nat) : decode ⟨.cmd, bitsLsb 2 v⟩ = .ok (commandOf (v % 4)) := by
  have hb : (bitsLsb 2 v).take 2 = bitsLsb 2 v := List.take_of_length_le (by simp)
  simp [decode, need, hb, natLsb_bitsLsb]

/-- The nine bits CONFIGURE writes are `VALID` and its three operands. -/
theorem configureWord_fields (o : BitVec 3) (h : BitVec 2) (c : BitVec 3) :
    (1#1 ++ identByte o h c).getLsbD 8 = true ∧ (1#1 ++ identByte o h c).extractLsb' 5 3 = o ∧
      (1#1 ++ identByte o h c).extractLsb' 3 2 = h ∧ (1#1 ++ identByte o h c).extractLsb' 0 3 = c := by
  revert o h c
  decide

/-- The decoder reads nine bits of a value written to `CFG`. -/
theorem decode_cfg (v : Nat) : decode ⟨.cfg, bitsLsb 9 v⟩ = decodeCfg (BitVec.ofNat 9 v) := by
  have ht : (bitsLsb 9 v).take 9 = bitsLsb 9 v := List.take_of_length_le (by simp)
  have hv : BitVec.ofNat 9 (natLsb (bitsLsb 9 v)) = BitVec.ofNat 9 v := by
    rw [natLsb_bitsLsb]
    simp [BitVec.toNat_eq]
  simp [decode, need, ht, hv]

/-- A value with bit 8 set is a CONFIGURE. -/
theorem decode_cfg_valid {v : Nat} (h : v.testBit 8 = true) : 
    ∃ o m c, decode ⟨.cfg, bitsLsb 9 v⟩ = .ok (.configure o m c) := by
  have h8 : (BitVec.ofNat 9 v).getLsbD 8 = true := by rw [BitVec.getLsbD_ofNat, h]; rfl
  rw [decode_cfg, decodeCfg, if_pos h8]
  exact ⟨_, _, _, rfl⟩

/-- CONFIGURE's own word is decoded to its operands. -/
theorem decode_configureWord (o : BitVec 3) (h : BitVec 2) (c : BitVec 3) :
    decode ⟨.cfg, bitsLsb 9 (1#1 ++ identByte o h c).toNat⟩ = .ok (.configure o h c) := by
  obtain ⟨hv, ho, hh, hc⟩ := configureWord_fields o h c
  rw [decode_cfg, BitVec.ofNat_toNat, BitVec.setWidth_eq, decodeCfg, if_pos hv, ho, hh, hc]

/-- One step on a well-formed record serves the oldest move. -/
theorem step_cons {s : State} (hr : recordWf s.fmt s.kon = true) {m : Move} {rest : List Move}
    (h : s.inbox = m :: rest) :
    step s = runServed (serve m { s with inbox := rest }) { s with inbox := rest } := by
  rw [step, if_pos hr]
  simp only [h]

theorem runServed_run {v : Served} {i : Instr} (h : v = .run i) (s : State) : runServed v s = exec i s := by rw [h]; rfl

/-- Settles O5: the decoder gives the instruction, and the step runs it. -/
theorem stepRunsDecoded : Obligations.StepRunsDecoded := by
  intro s hr
  refine ⟨fun img rest i h hd hw => ?_, fun v rest h => ?_, fun o hm c rest h => ?_⟩
  · rw [step_cons hr h]
    exact runServed_run (serveWord_of_decode hd hw) _
  · rw [step_cons hr h]
    exact runServed_run (serveWord_of_decode (decode_cmd v) (commandOf_wf _)) _
  · rw [step_cons hr h]
    have h8 : (1#1 ++ identByte o hm c).toNat.testBit 8 = true := by
      rw [BitVec.testBit_toNat]
      exact (configureWord_fields o hm c).1
    have hs : serve (.writeReg 2 (1#1 ++ identByte o hm c).toNat) { s with inbox := rest } =
        serveWord ⟨.cfg, bitsLsb 9 (1#1 ++ identByte o hm c).toNat⟩ := if_pos h8
    exact runServed_run (hs.trans (serveWord_of_decode (decode_configureWord o hm c) rfl)) _

/-! ## The host's other moves -/

/-- The registers the host can read, with their values. -/
theorem regValue_of_mem {s : State} {n v : Nat}
    (h : (n, v) ∈ [(1, s.status.toNat), (2, s.cfg.toNat), (3, s.fmt.toNat), (4, s.srcLen % 2 ^ 32),
      (5, s.dstLen % 2 ^ 32), (6, s.ident.toNat), (7, s.dsize % 2 ^ 32)]) : regValue n s = some v := by
  simp only [List.mem_cons, Prod.mk.injEq, List.not_mem_nil, or_false] at h
  rcases h with ⟨rfl, rfl⟩ | ⟨rfl, rfl⟩ | ⟨rfl, rfl⟩ | ⟨rfl, rfl⟩ | ⟨rfl, rfl⟩ | ⟨rfl, rfl⟩ | ⟨rfl, rfl⟩ <;> rfl

/-- A command is a host move, which a busy engine refuses. -/
theorem commandOf_busy {s : State} (hb : s.busy = true) (v : Nat) : exec (commandOf v) s = .refused .hostBusy := by
  unfold commandOf
  split <;> exact hostMove_busy hb _

/-- While the engine is busy, every write of a register is refused. -/
theorem writeReg_busy {s : State} (hb : s.busy = true) {n : Nat} (v : Nat) (hn : n < 8) :
    runServed (serve (.writeReg n v) s) s = .refused .hostBusy := by
  match n, hn with
  | 0, _ =>
    exact (runServed_run (serveWord_of_decode (decode_cmd v) (commandOf_wf _)) s).trans (commandOf_busy hb _)
  | 2, _ =>
    by_cases h8 : v.testBit 8 = true
    · obtain ⟨o, m, c, hd⟩ := decode_cfg_valid h8
      have hs : serve (.writeReg 2 v) s = serveWord ⟨.cfg, bitsLsb 9 v⟩ := if_pos h8
      exact (runServed_run (hs.trans (serveWord_of_decode hd rfl)) s).trans (hostMove_busy hb _)
    · have hs : serve (.writeReg 2 v) s = .done (writeCfg (BitVec.ofNat 9 v) s) := if_neg h8
      rw [hs]
      exact hostMove_busy hb _
  | 1, _ => exact hostMove_busy hb _
  | 3, _ => exact hostMove_busy hb _
  | 4, _ => exact hostMove_busy hb _
  | 5, _ => exact hostMove_busy hb _
  | 6, _ => exact hostMove_busy hb _
  | 7, _ => exact hostMove_busy hb _

/-- While the engine is busy, every read of a register is refused. -/
theorem readReg_busy {s : State} (hb : s.busy = true) {n : Nat} (h1 : 1 ≤ n) (hn : n < 8) :
    serveRead n s = .refused .hostBusy := by
  match n, h1, hn with
  | 1, _, _ => exact hostMove_busy hb _
  | 2, _, _ => exact hostMove_busy hb _
  | 3, _, _ => exact hostMove_busy hb _
  | 4, _, _ => exact hostMove_busy hb _
  | 5, _, _ => exact hostMove_busy hb _
  | 6, _, _ => exact hostMove_busy hb _
  | 7, _, _ => exact hostMove_busy hb _

/-- Settles O6: move by move, at rest and busy. -/
theorem hostMoves : Obligations.HostMoves := by
  intro s hr
  refine ⟨fun hb => ⟨fun a b rest ha h => ?_, fun a rest hl ha h => ?_, fun v rest hv h => ?_, fun v rest hv hc h => ?_,
    fun n v rest hn h => ?_, fun n v rest hn h => ?_⟩, fun hb rest => ⟨fun n v hn h => ?_, fun n h1 hn h => ?_,
    fun a b ha h => ?_, fun a ha h => ?_⟩⟩ <;> rw [step_cons hr h]
  · exact (if_neg (Nat.not_le.2 ha)).trans (hostMove_idle hb _)
  · exact (if_neg (Nat.not_le.2 ha)).trans ((hostMove_idle hb _).trans (if_neg (Nat.not_le.2 hl)))
  · refine (hostMove_idle hb _).trans ?_
    rw [Nat.mod_eq_of_lt hv]
  · have h8 : ¬ v.testBit 8 = true := by simp [Nat.testBit_lt_two_pow (show v < 2 ^ 8 from hv)]
    have hs : serve (.writeReg 2 v) { s with inbox := rest } =
      .done (writeCfg (BitVec.ofNat 9 v) { s with inbox := rest }) :=
      if_neg h8
    have hv0 : ¬ s.cfgValid = true := by simp [hc]
    rw [hs]
    exact (hostMove_idle hb _).trans (if_neg hv0)
  · simp only [List.mem_cons, List.not_mem_nil, or_false] at hn
    rcases hn with rfl | rfl | rfl | rfl | rfl <;> exact hostMove_idle hb _
  · have hv : regValue n { s with inbox := rest } = some v := regValue_of_mem (s := { s with inbox := rest }) hn
    change serveRead n _ = _
    rw [serveRead, hv]
    exact hostMove_idle hb _
  · exact writeReg_busy (s := { s with inbox := rest }) hb v hn
  · exact readReg_busy (s := { s with inbox := rest }) hb h1 hn
  · exact (if_neg (Nat.not_le.2 ha)).trans (hostMove_busy hb _)
  · exact (if_neg (Nat.not_le.2 ha)).trans (hostMove_busy hb _)

/-! ## `STATUS` -/

/-- The four fields of a `STATUS` word. -/
theorem statusWord_fields (e : BitVec 3) (d b : Bool) (p : BitVec 4) :
    (e ++ BitVec.ofBool d ++ BitVec.ofBool b ++ p).extractLsb' 0 4 = p ∧
      (e ++ BitVec.ofBool d ++ BitVec.ofBool b ++ p).getLsbD 4 = b ∧
      (e ++ BitVec.ofBool d ++ BitVec.ofBool b ++ p).getLsbD 5 = d ∧
      (e ++ BitVec.ofBool d ++ BitVec.ofBool b ++ p).extractLsb' 6 3 = e := by
  revert e d b p
  decide

theorem status_phase (s : State) : s.status.extractLsb' 0 4 = s.phase.code := (statusWord_fields _ _ _ _).1

theorem status_busy (s : State) : s.status.getLsbD 4 = s.busy := (statusWord_fields _ _ _ _).2.1

theorem status_done (s : State) : s.status.getLsbD 5 = s.doneFlag := (statusWord_fields _ _ _ _).2.2.1

theorem status_err (s : State) : s.status.extractLsb' 6 3 = errCode s.err := (statusWord_fields _ _ _ _).2.2.2

/-- The phase of a number (rule R24). -/
def phaseOfCode (c : BitVec 4) : Phase :=
  match c.toNat with
  | 0 => .idle
  | 1 => .readHeader
  | 2 => .validateMagic
  | 3 => .dispatchModes
  | 4 => .decode
  | 5 => .deobfuscate
  | 6 => .done
  | 7 => .failed
  | 8 => .checkConfig
  | 9 => .materialize
  | 10 => .obfuscate
  | 11 => .findMatches
  | 12 => .parse
  | 13 => .buildTree
  | 14 => .writeHeader
  | _ => .emit

@[simp] theorem phaseOfCode_code (p : Phase) : phaseOfCode p.code = p := by cases p <;> rfl

/-- No two phases have the same number. -/
theorem phaseCode_inj {p q : Phase} : p.code = q.code ↔ p = q :=
  ⟨fun h => by simpa using congrArg phaseOfCode h, fun h => h ▸ rfl⟩

/-- The error kind of a code (rule R361). -/
def errOfCode (c : BitVec 3) : Option ErrKind :=
  match c.toNat with
  | 1 => some .formatMismatch
  | 2 => some .corruptStream
  | 3 => some .unsupportedMode
  | 4 => some .notConfiguredForCompression
  | 5 => some .unimplementedTransform
  | _ => none

@[simp] theorem errOfCode_errCode (e : Option ErrKind) : errOfCode (errCode e) = e := by
  cases e with
  | none => rfl
  | some k => cases k <;> rfl

/-- No two error kinds have the same code. -/
theorem errCode_inj {e f : Option ErrKind} : errCode e = errCode f ↔ e = f :=
  ⟨fun h => by simpa using congrArg errOfCode h, fun h => h ▸ rfl⟩

/-- Settles O7: `STATUS` is read field by field, and the numbers of phases and kinds are injective. -/
theorem statusRegister : Obligations.StatusRegister := by
  intro s
  refine ⟨fun p n h => ?_, ?_, ?_, fun e n h => ?_⟩
  · have hn : n = p.code := by
      have hall : ∀ x ∈ [(Phase.idle, 0#4), (.readHeader, 1#4), (.validateMagic, 2#4), (.dispatchModes, 3#4),
          (.decode, 4#4), (.deobfuscate, 5#4), (.done, 6#4), (.failed, 7#4), (.checkConfig, 8#4), (.materialize, 9#4),
          (.obfuscate, 10#4), (.findMatches, 11#4), (.parse, 12#4), (.buildTree, 13#4), (.writeHeader, 14#4),
          (.emit, 15#4)],
          x.2 = x.1.code := by decide
      exact hall _ h
    rw [status_phase, hn, phaseCode_inj]
  · rw [status_busy, State.busy]
    cases s.phase <;> simp [Phase.busy]
  · rw [status_done, State.doneFlag, beq_iff_eq]
  · have hn : n = errCode e := by
      have hall : ∀ x ∈ [(none, 0#3), (some ErrKind.formatMismatch, 1#3), (some .corruptStream, 2#3),
          (some .unsupportedMode, 3#3), (some .notConfiguredForCompression, 4#3), (some .unimplementedTransform, 5#3)],
          x.2 = errCode x.1 := by decide
      exact hall _ h
    rw [status_err, hn, errCode_inj]

/-! ## The plain rows and RESET -/

/-- The value CONFIGURE writes, as rule R261 has it. -/
theorem configureWord_eq (o : BitVec 3) (h : BitVec 2) (c : BitVec 3) :
    1#1 ++ identByte o h c = (1#9 <<< 8) ||| (o.setWidth 9 <<< 5) ||| (h.setWidth 9 <<< 3) ||| c.setWidth 9 := by
  revert o h c
  decide

/-- Settles O18. -/
theorem plainRows : Obligations.PlainRows := by
  refine ⟨fun k s => rfl, fun s => rfl, fun s hb => ⟨hostMove_idle hb _, fun o h c => ⟨fun hv => ?_, fun hv => ?_⟩⟩⟩
  · have hv0 : ¬ s.cfgValid = true := by simp [hv]
    rw [← configureWord_eq]
    exact (hostMove_idle hb _).trans (if_neg hv0)
  · exact (hostMove_idle hb _).trans (if_pos hv)

/-- Settles O19: RESET leaves the values of the reset state, and that state's are 0. -/
theorem resetValues : Obligations.ResetValues := by
  have hst : State.reset.status = 0 := by decide
  have hv : State.reset.cfgValid = false := by decide
  exact ⟨fun s hb => ⟨resetInstance s, hostMove_idle hb _, rfl, hst, rfl, rfl, rfl, rfl, rfl, rfl, rfl, rfl, rfl, hv⟩,
    rfl, hst, rfl, rfl, rfl, rfl, rfl⟩

/-! ## The phases of ENCODE -/

/-- What was written is read back. -/
theorem slice_writeList_self (m : Mem) (a : Nat) (bs : List Byte) : (m.writeList a bs).slice a bs.length = bs := by
  refine List.ext_getElem? fun i => ?_
  rw [slice_getElem?]
  split
  · rename_i hi
    rw [read_writeList, if_pos ⟨by omega, by omega⟩, Nat.add_sub_cancel_left, List.getD_eq_getElem _ _ hi,
      List.getElem?_eq_getElem hi]
  · rw [List.getElem?_eq_none (by omega)]

theorem getD_slice (m : Mem) (a n i : Nat) (h : i < n) : (m.slice a n).getD i 0 = m.read (a + i) := by
  rw [List.getD_eq_getElem?_getD, slice_getElem?, if_pos h]
  rfl

/-- `Materialize` copies the source. -/
theorem materialize_work (s : State) (a : Nat) (h : a < s.srcLen) : (materialize s).work.read a = s.src.read a := by
  change (Mem.writeList _ 0 (s.src.slice 0 s.srcLen)).read a = _
  rw [read_writeList, if_pos ⟨Nat.zero_le _, by simpa using h⟩, Nat.sub_zero, getD_slice _ _ _ _ h, Nat.zero_add]

/-- `WriteHeader` on data that is not empty: the header, an opened writer, and the tree table's bits. -/
theorem writeHeader_bits (s : State) (h : s.dsize ≠ 0) :
    writeHeader s = s.withSink (Sink.putBits s.fmt
      (if s.call.hw = .raw then [] else tableStream s.fmt s.call.hw (splitLevels s.call.ht.counts s.call.ht.hsym))
      ⟨⟨0, 0, 0⟩, s.dst.writeList 0 (headerBytes s), s.fmt.hdrLen⟩) := by
  rcases writeHeader_cases s with ⟨h0, _⟩ | ⟨_, hw, e⟩ | ⟨_, hw, e⟩
  · exact absurd h0 h
  · rw [e, if_pos hw]
    rfl
  · rw [e, if_neg hw, ← writeTable_eq]
    rfl

end Sys2Proof.Machine

namespace Sys2Proof

open Machine in
/-- Settles O53: each phase by its equation. -/
theorem encodePhases : Obligations.EncodePhases := by
  intro s
  refine ⟨⟨materialize s, rfl, rfl, rfl, rfl, rfl, rfl, rfl, materialize_work s⟩, fun hw => ?_, fun hw => ?_, ?_⟩
  · exact congrArg Host.Outcome.next (if_pos hw)
  · exact ⟨canonicalise (limitDepth (tally s)), assignCodes (fillTables (canonicalise (limitDepth (tally s)))),
      rfl, rfl,
      congrArg Host.Outcome.next (if_neg hw)⟩
  · refine ⟨s.dst.writeList 0 (headerBytes s), withHeader_outside s, ?_, fun h => ?_, fun h => ?_⟩
    · exact headerBytes_length s ▸ slice_writeList_self _ 0 _
    · exact congrArg Host.Outcome.next (if_pos h)
    · exact congrArg Host.Outcome.next (writeHeader_bits s h)

end Sys2Proof
end

section
/-! How DECODE and ENCODE end: the error kinds of their phases, and the bytes a finished DECODE has produced. -/

namespace Sys2Proof.Machine

/-! ## The fields of a match, read from the stream -/

/-- `readLen` changes the reader only, and its value is assembled from the fields it read. -/
theorem readLen_ok {row : ModeRow} {l : Nat} {s t : State} (h : readLen row s = .ok l t) :
    ∃ r f e, t = s.withReader r ∧ l = assembleLen row f e := by
  obtain ⟨f, u, hu, h⟩ := andThen_eq_ok.1 h
  obtain ⟨r, rfl⟩ := readBits_ok hu
  split at h
  · obtain ⟨e, he, rfl⟩ := map_eq_ok.1 h
    obtain ⟨r', rfl⟩ := readBits_ok he
    exact ⟨r', f, e, rfl, rfl⟩
  · cases h
    exact ⟨r, f, 0, rfl, rfl⟩

/-- `readDisp` changes the reader only, and its value is at least 1. -/
theorem readDisp_ok {row : ModeRow} {d : Nat} {s t : State} (h : readDisp row s = .ok d t) :
    ∃ r, t = s.withReader r ∧ 1 ≤ d := by
  obtain ⟨x, hx, rfl⟩ := map_eq_ok.1 h
  obtain ⟨r, rfl⟩ := readBits_ok hx
  exact ⟨r, rfl, Nat.le_add_left 1 x⟩

theorem minLen_le_assembleLen (row : ModeRow) (f e : Nat) : row.minLen ≤ assembleLen row f e := by
  unfold assembleLen
  split <;> omega

/-- A match that was copied: `TK_LEN` bytes more, which `DSIZE` has room for. -/
theorem runMatch_ok {s t : State} (h : runMatch s = .ok () t) :
    t.dstLen = s.dstLen + s.call.tk.len ∧ s.call.tk.len ≤ s.dsize - s.dstLen ∧ t.dsize = s.dsize := by
  rcases runMatch_cases s with ⟨_, e⟩ | ⟨_, hl, e⟩ <;> rw [e] at h <;> cases h
  exact ⟨rfl, hl, rfl⟩

/-- How far a completed part of the token loop has come: it grows the output by one byte at least, up to `DSIZE`. -/
def Advances (s t : State) : Prop := s.dstLen < t.dstLen ∧ t.dstLen ≤ s.dsize ∧ t.dsize = s.dsize

theorem advances_decodeMatch {row : ModeRow} (hrow : 1 ≤ row.minLen) {s t : State}
    (h : decodeMatch row s = .ok () t) : Advances s t := by
  have copied {l : Nat} {u : State} (hu : u.dstLen = s.dstLen) (hs : u.dsize = s.dsize) (hl : u.call.tk.len = l)
      (hmin : row.minLen ≤ l) (hr : runMatch u = .ok () t) : Advances s t := by
    obtain ⟨h1, h2, h3⟩ := runMatch_ok hr
    refine ⟨?_, ?_, h3.trans hs⟩ <;> omega
  unfold decodeMatch at h
  split at h
  · obtain ⟨d, u, hd, h⟩ := andThen_eq_ok.1 h
    obtain ⟨r, rfl, _⟩ := readDisp_ok hd
    obtain ⟨l, v, hl, h⟩ := andThen_eq_ok.1 h
    obtain ⟨r', f, e, rfl, rfl⟩ := readLen_ok hl
    exact copied (by rfl) (by rfl) (by rfl) (minLen_le_assembleLen row f e) h
  · obtain ⟨l, u, hl, h⟩ := andThen_eq_ok.1 h
    obtain ⟨r, f, e, rfl, rfl⟩ := readLen_ok hl
    obtain ⟨d, v, hd, h⟩ := andThen_eq_ok.1 h
    obtain ⟨r', rfl, _⟩ := readDisp_ok hd
    exact copied (by rfl) (by rfl) (by rfl) (minLen_le_assembleLen row f e) h

theorem advances_decodeLit {s t : State} (hlt : s.dstLen < s.dsize) (h : decodeLit s = .ok () t) : Advances s t := by
  obtain ⟨v, u, hu, h⟩ := andThen_eq_ok.1 h
  obtain ⟨x, hx⟩ := readValue_state s.call.hw s
  rw [hu, state_ok] at hx
  subst hx
  cases h
  exact ⟨Nat.lt_succ_self _, hlt, rfl⟩

theorem advances_decodeToken {row : ModeRow} (hrow : 1 ≤ row.minLen) {s t : State} (hlt : s.dstLen < s.dsize)
    (h : decodeToken row s = .ok () t) : Advances s t := by
  obtain ⟨flag, u, hu, h⟩ := andThen_eq_ok.1 h
  obtain ⟨r, rfl⟩ := readBits_ok hu
  split at h
  · exact advances_decodeLit (s := setTkFlag false (s.withReader r)) hlt h
  · exact advances_decodeMatch (s := setTkFlag true (s.withReader r)) hrow h

/-- The token loop, with tokens enough, ends with `DSIZE` bytes. -/
theorem tokenLoopFrom_ok {row : ModeRow} (hrow : 1 ≤ row.minLen) {n : Nat} {s t : State} (hle : s.dstLen ≤ s.dsize)
    (hn : s.dsize - s.dstLen ≤ n) (h : tokenLoopFrom row n s = .ok () t) : t.dstLen = t.dsize := by
  induction n generalizing s with
  | zero => cases h; omega
  | succ n ih =>
    rw [tokenLoopFrom] at h
    split at h
    · rename_i hlt
      obtain ⟨_, u, hu, h⟩ := andThen_eq_ok.1 h
      obtain ⟨h1, h2, h3⟩ := advances_decodeToken hrow hlt hu
      exact ih (by omega) (by omega) h
    · cases h; omega

/-! ## DECODE, phase by phase -/

theorem deserialise_ok {s t : State} (h : deserialise s = .ok () t) : ∃ x, t = s.withTabReader x := by
  obtain ⟨x, hx⟩ := deserialise_state s
  rw [h, state_ok] at hx
  exact ⟨x, hx⟩

/-- `Decode`'s table, where the mode is coded: it changes the reader and the decoder's table only. -/
theorem decodeTable_ok {s t : State} (h : (if s.call.hw = .raw then .ok () s else deserialise s) = .ok () t) :
    ∃ x, t = s.withTabReader x := by
  split at h
  · cases h
    exact ⟨(s.call.ht, s.call.rd), rfl⟩
  · exact deserialise_ok h

/-- `Decode` ends with `DSIZE` bytes, under a row with lengths of 1 or more. -/
theorem decodePayload_ok {s t : State} (hrow : ∃ row, s.row = some row ∧ 1 ≤ row.minLen) (h0 : s.dstLen = 0)
    (h : decodePayload s = .ok () t) : t.dstLen = t.dsize := by
  unfold decodePayload at h
  split at h
  · cases h; omega
  · obtain ⟨_, u, hu, h⟩ := andThen_eq_ok.1 h
    obtain ⟨x, rfl⟩ := decodeTable_ok hu
    obtain ⟨row, hr, hmin⟩ := hrow
    rcases withRow_cases ((openReader s).withTabReader x) (fun row => tokenLoop row ((openReader s).withTabReader x))
      with ⟨row', hr', e⟩ | ⟨_, e⟩
    · have : row' = row := Option.some.inj (hr'.symm.trans hr)
      subst this
      rw [e] at h
      exact tokenLoopFrom_ok (s := (openReader s).withTabReader x) hmin (h0 ▸ Nat.zero_le _) (Nat.le_refl _) h
    · rw [e] at h
      cases h

theorem decodePayload_raised {s t : State} {k : ErrKind} (h : decodePayload s = .raised k t) :
    k = .corruptStream ∨ k = .unimplementedTransform := by
  unfold decodePayload at h
  split at h
  · cases h
  · rcases andThen_eq_raised.1 h with h | ⟨_, u, _, h⟩
    · split at h
      · cases h
      · exact .inl (deserialise_raised h)
    · rcases withRow_cases u (fun row => tokenLoop row u) with ⟨row, _, e⟩ | ⟨_, e⟩ <;> rw [e] at h
      · exact .inl (tokenLoopFrom_raised h)
      · cases h; exact .inr rfl

theorem checkModes_ok {k : ErrKind} {s t : State} (h : checkModes k s = .ok () t) :
    reservedModes s.kon s.ident = false ∧ cmodeOf s.ident ∈ s.kon.implemented ∧
      t = s.withHw (widthOf (hmodeOf s.ident)) := by
  rcases checkModes_cases k s with ⟨_, e⟩ | ⟨_, _, e⟩ | ⟨h1, h2, e⟩ <;> rw [e] at h <;> cases h
  exact ⟨h1, h2, rfl⟩

theorem checkModes_raised {k j : ErrKind} {s t : State} (h : checkModes k s = .raised j t) :
    j = k ∨ j = .unimplementedTransform := by
  rcases checkModes_cases k s with ⟨_, e⟩ | ⟨_, _, e⟩ | ⟨_, _, e⟩ <;> rw [e] at h <;> cases h
  · exact .inl rfl
  · exact .inr rfl

theorem validateHeader_raised {m : Byte} {g : Nat → Byte} {len : Nat} {s t : State} {k : ErrKind}
    (h : validateHeader m g len s = .raised k t) : k = .formatMismatch ∨ k = .corruptStream := by
  rcases validateHeader_cases m g len s with ⟨_, e⟩ | ⟨_, _, e⟩ | ⟨_, _, e⟩ <;> rw [e] at h <;> cases h
  · exact .inl rfl
  · exact .inr rfl

theorem deobfuscate_raised {s t : State} {k : ErrKind} (h : deobfuscate s = .raised k t) : k = .corruptStream := by
  rcases deobfuscate_cases s with ⟨_, e⟩ | ⟨_, e⟩ | ⟨_, e⟩ <;> rw [e] at h <;> cases h
  rfl

theorem deobfuscate_ok {s t : State} (h : deobfuscate s = .ok () t) : t.dstLen = s.dstLen ∧ t.dsize = s.dsize := by
  rcases deobfuscate_cases s with ⟨_, e⟩ | ⟨_, e⟩ | ⟨_, e⟩ <;> rw [e] at h <;> cases h <;> exact ⟨rfl, rfl⟩

/-- The error kinds of DECODE. -/
theorem runDecode_raised {s t : State} {k : ErrKind} (h : runDecode s = .raised k t) :
    k = .formatMismatch ∨ k = .corruptStream ∨ k = .unimplementedTransform := by
  rcases andThen_eq_raised.1 h with h | ⟨m, s1, _, h⟩
  · rcases readFirst_cases (startCommand .readHeader s) with ⟨_, e⟩ | ⟨_, e⟩ <;> rw [e] at h <;> cases h
    exact .inl rfl
  rcases andThen_eq_raised.1 h with h | ⟨_, s2, _, h⟩
  · exact (validateHeader_raised h).imp_right .inl
  rcases andThen_eq_raised.1 h with h | ⟨_, s3, _, h⟩
  · exact .inr (checkModes_raised h)
  rcases andThen_eq_raised.1 h with h | ⟨_, s4, _, h⟩
  · exact .inr (decodePayload_raised h)
  · split at h
    · exact .inr (.inl (deobfuscate_raised h))
    · cases h

/-- What `ReadHeader` and `ValidateMagic` leave: the header latched over an empty output. -/
theorem validateHeader_ok {m : Byte} {g : Nat → Byte} {len : Nat} {s t : State}
    (h : validateHeader m g len s = .ok () t) :
    m = s.fmt.magic ∧ s.fmt.hdrLen ≤ len ∧ t = { clearDst s with
      dsize := leNat ((List.range s.fmt.sizeBytes).map fun i => g (1 + i)), ident := g (1 + s.fmt.sizeBytes) } := by
  rcases validateHeader_cases m g len s with ⟨_, e⟩ | ⟨_, _, e⟩ | ⟨h1, h2, e⟩ <;> rw [e] at h <;> cases h
  exact ⟨h1, h2, rfl⟩

theorem minLen_pos_of_wf {row : ModeRow} (h : row.wf = true) : 1 ≤ row.minLen := by
  unfold ModeRow.wf at h
  simp only [Bool.and_eq_true, decide_eq_true_eq] at h
  omega

/-- A DECODE that ended without error has produced `DSIZE` bytes. -/
theorem runDecode_ok {s t : State} (hrec : recordWf s.fmt s.kon = true) (h : runDecode s = .ok () t) :
    t.dstLen = t.dsize := by
  obtain ⟨m, s1, h1, h⟩ := andThen_eq_ok.1 h
  have hs1 : s1 = startCommand .readHeader s := by
    rcases readFirst_cases (startCommand .readHeader s) with ⟨_, e⟩ | ⟨_, e⟩ <;> rw [e] at h1 <;> cases h1
    rfl
  obtain ⟨_, s2, h2, h⟩ := andThen_eq_ok.1 h
  obtain ⟨_, _, hs2⟩ := validateHeader_ok h2
  obtain ⟨_, s3, h3, h⟩ := andThen_eq_ok.1 h
  obtain ⟨_, himp, hs3⟩ := checkModes_ok h3
  obtain ⟨_, s4, h4, h⟩ := andThen_eq_ok.1 h
  have hrow : ∃ row, (setPhase .decode s3).row = some row ∧ 1 ≤ row.minLen := by
    obtain ⟨row, hr, hw⟩ := row_of_implemented (c := cmodeOf s2.ident) (k := s2.kon) (f := s.fmt)
      (by rw [hs2, hs1]; exact hrec) himp
    exact ⟨row, by rw [hs3]; exact hr, minLen_pos_of_wf hw⟩
  have hend : s4.dstLen = s4.dsize := decodePayload_ok hrow (by rw [hs3, hs2]; rfl) h4
  split at h
  · obtain ⟨hl, hd⟩ := deobfuscate_ok h
    exact (hl.trans hend).trans hd.symm
  · cases h
    exact hend

/-! ## ENCODE's errors -/

theorem encodePhases_raised {s t : State} {k : ErrKind} (h : encodePhases s = .raised k t) :
    k = .unimplementedTransform := by
  have find {s t : State} (h : findMatches s = .raised k t) : k = .unimplementedTransform := by
    rcases findMatches_cases s with ⟨_, e⟩ | ⟨_, _, e⟩ <;> rw [e] at h <;> cases h
    rfl
  have parse {s t : State} (h : parseCostToEnd s = .raised k t) : k = .unimplementedTransform := by
    rcases parseCostToEnd_cases s with ⟨_, e⟩ | ⟨_, _, _, _, _, e⟩ <;> rw [e] at h <;> cases h
    rfl
  have emitted {s t : State} (h : emit s = .raised k t) : k = .unimplementedTransform := by
    rcases withRow_cases s (fun row => Run.ok () (emitTokens row s)) with ⟨_, _, e⟩ | ⟨_, e⟩ <;>
      rw [emit, e] at h <;> cases h
    rfl
  rcases andThen_eq_raised.1 h with h | ⟨_, s1, _, h⟩
  · exact find h
  rcases andThen_eq_raised.1 h with h | ⟨_, s2, _, h⟩
  · exact parse h
  rcases andThen_eq_raised.1 h with h | ⟨_, s3, _, h⟩
  · exact emitted h
  · cases h

/-- The error kinds of ENCODE. -/
theorem runEncode_raised {s t : State} {k : ErrKind} (h : runEncode s = .raised k t) :
    k = .notConfiguredForCompression ∨ k = .unsupportedMode ∨ k = .unimplementedTransform := by
  rcases andThen_eq_raised.1 h with h | ⟨_, s1, _, h⟩
  · rcases checkConfig_cases (startCommand .checkConfig s) with ⟨_, e⟩ | ⟨_, e⟩ <;> rw [e] at h
    · cases h; exact .inl rfl
    · exact .inr (checkModes_raised h)
  · dsimp only at h
    split at h
    · cases h
    · exact .inr (.inr (encodePhases_raised h))

/-- Settles O14: the commands' error kinds, phase by phase, and the token loop's end. -/
theorem commandsEndAtRest : Obligations.CommandsEndAtRest := by
  intro s t hrec
  refine ⟨fun h => ?_, fun h => ?_⟩
  · cases hostEnds rfl h
    rcases endDecode_status (runDecode s) with ⟨u, hu, hp, he⟩ | ⟨k, u, hu, hp, he⟩
    · refine .inl ⟨hp, he, ?_⟩
      rw [hu]
      change u.dstLen = u.dsize
      exact runDecode_ok hrec hu
    · refine .inr ⟨hp, he ▸ ?_⟩
      rcases runDecode_raised hu with rfl | rfl | rfl <;> simp
  · cases hostEnds rfl h
    rcases endEncode_status (runEncode s) with ⟨u, _, hp, he⟩ | ⟨k, u, hu, hp, he⟩
    · exact .inl ⟨hp, he⟩
    · refine .inr ⟨hp, he ▸ ?_⟩
      rcases runEncode_raised hu with rfl | rfl | rfl <;> simp

end Sys2Proof.Machine
end

section
/-! SUPPORT. Two runs side by side: what a pair of machines that agree on the inputs of a command have in common while
the command runs. With `P` the two also agree on the counter of draws, and then on every byte of `DST`. -/

namespace Sys2Proof.Machine

/-! ## Two results alike -/

/-- Two results with the same value, and the states related by `R`, or with the same error, and the states related by
`E`. -/
def alike {σ α : Type} (R E : σ → σ → Prop) : Run σ α → Run σ α → Prop
  | .ok a s, .ok b t => b = a ∧ R s t
  | .raised k s, .raised j t => j = k ∧ E s t
  | _, _ => False

theorem alike_ok {σ α : Type} {R E : σ → σ → Prop} {a : α} {s t : σ} (h : R s t) : alike R E (.ok a s) (.ok a t) :=
    ⟨rfl, h⟩

theorem alike_raised {σ α : Type} {R E : σ → σ → Prop} {k : ErrKind} {s t : σ} (h : E s t) :
    alike (α := α) R E (.raised k s) (.raised k t) := ⟨rfl, h⟩

/-- What two results alike are. -/
theorem alike_cases {σ α : Type} {R E : σ → σ → Prop} {r r' : Run σ α} (h : alike R E r r') :
    (∃ a s t, r = .ok a s ∧ r' = .ok a t ∧ R s t) ∨ ∃ k s t, r = .raised k s ∧ r' = .raised k t ∧ E s t := by
  cases r with
  | ok a s =>
    cases r' with
    | ok b t => obtain ⟨rfl, h⟩ := h; exact .inl ⟨_, s, t, rfl, rfl, h⟩
    | raised k t => exact h.elim
  | raised k s =>
    cases r' with
    | ok b t => exact h.elim
    | raised j t => obtain ⟨rfl, h⟩ := h; exact .inr ⟨_, s, t, rfl, rfl, h⟩

theorem alike_andThen {σ α β : Type} {R R' E : σ → σ → Prop} {r r' : Run σ α} {f g : α → σ → Run σ β}
    (h : alike R E r r') (hf : ∀ a s t, r = .ok a s → r' = .ok a t → R s t → alike R' E (f a s) (g a t)) :
    alike R' E (r.andThen f) (r'.andThen g) := by
  rcases alike_cases h with ⟨a, s, t, hr, hr', hst⟩ | ⟨k, s, t, hr, hr', hst⟩
  · have := hf a s t hr hr' hst
    rwa [hr, hr']
  · rw [hr, hr']
    exact alike_raised hst

theorem alike_map {σ α β : Type} {R E : σ → σ → Prop} {r r' : Run σ α} (h : alike R E r r') (f : α → β) :
    alike R E (r.map f) (r'.map f) := by
  rcases alike_cases h with ⟨a, s, t, rfl, rfl, hst⟩ | ⟨k, s, t, rfl, rfl, hst⟩
  · exact alike_ok hst
  · exact alike_raised hst

theorem alike_mono {σ α : Type} {R R' E : σ → σ → Prop} {r r' : Run σ α} (h : alike R E r r')
    (hR : ∀ s t, R s t → R' s t) : alike R' E r r' := by
  rcases alike_cases h with ⟨a, s, t, rfl, rfl, hst⟩ | ⟨k, s, t, rfl, rfl, hst⟩
  · exact alike_ok (hR s t hst)
  · exact alike_raised hst

/-- One result of a part, put back into two wholes. -/
theorem alike_lift {σ τ α : Type} {R E : τ → τ → Prop} (r : Run σ α) {f g : σ → τ} (hR : ∀ x, R (f x) (g x))
    (hE : ∀ x, E (f x) (g x)) : alike R E (r.lift f) (r.lift g) := by
  cases r with
  | ok a s => exact alike_ok (hR s)
  | raised k s => exact alike_raised (hE s)

/-! ## Machines with the same inputs, and machines with the same output -/

/-- Two machines with the same record, `SRC_LEN` and source bytes. -/
structure SameInputs (s t : State) : Prop where
  fmt : t.fmt = s.fmt
  kon : t.kon = s.kon
  srcLen : t.srcLen = s.srcLen
  src : ∀ a, a < s.srcLen → t.src.read a = s.src.read a

/-- With `P`, two machines whose output and latched header are the same. -/
def SameOutput (P : Prop) (s t : State) : Prop :=
  P → t.ident = s.ident ∧ t.dsize = s.dsize ∧ t.dstLen = s.dstLen ∧ t.dst = s.dst ∧ t.draws = s.draws

/-- Two outputs of `n` bytes: the same bytes, and with `P` the same memory. -/
def SameBytes (P : Prop) (n : Nat) (m m' : Mem) : Prop := (∀ a, a < n → m'.read a = m.read a) ∧ (P → m' = m)

theorem sameBytes_write {P : Prop} {n : Nat} {m m' : Mem} (h : SameBytes P n m m') (b : Byte) :
    SameBytes P (n + 1) (m.write n b) (m'.write n b) := by
  obtain ⟨hr, hp⟩ := h
  refine ⟨fun a ha => ?_, fun p => by rw [hp p]⟩
  rw [read_write, read_write]
  split
  · rfl
  · exact hr a (by omega)

/-- The same bytes written at the same place, wherever it is. -/
theorem sameBytes_writeList {P : Prop} {n : Nat} {m m' : Mem} (h : SameBytes P n m m') (i : Nat) (bs : List Byte) :
    SameBytes P n (m.writeList i bs) (m'.writeList i bs) := by
  obtain ⟨hr, hp⟩ := h
  refine ⟨fun a ha => ?_, fun p => by rw [hp p]⟩
  rw [read_writeList, read_writeList, hr a ha]

/-- The same bytes appended. -/
theorem sameBytes_append {P : Prop} {n : Nat} {m m' : Mem} (h : SameBytes P n m m') (bs : List Byte) :
    SameBytes P (n + bs.length) (m.writeList n bs) (m'.writeList n bs) := by
  obtain ⟨hr, hp⟩ := h
  refine ⟨fun a ha => ?_, fun p => by rw [hp p]⟩
  rw [read_writeList, read_writeList]
  split
  · rfl
  · exact hr a (by omega)

/-- The same copy over the same bytes. -/
theorem sameBytes_copyBytes {P : Prop} {disp : Nat} (k : Nat) {n : Nat} {m m' : Mem} (hd : 1 ≤ disp) (hle : disp ≤ n)
    (h : SameBytes P n m m') : SameBytes P (n + k) (copyBytes disp k m n).1 (copyBytes disp k m' n).1 := by
  induction k generalizing n m m' with
  | zero => exact h
  | succ k ih =>
    have hb : m'.read (n - disp) = m.read (n - disp) := h.1 _ (by omega)
    have hw : SameBytes P (n + 1) (m.write n (m.read (n - disp))) (m'.write n (m.read (n - disp))) :=
      sameBytes_write h _
    rw [copyBytes, copyBytes, show n + (k + 1) = n + 1 + k by omega, hb]
    exact ih (by omega) hw

/-- Two machines inside a command: the same inputs, header and output. -/
structure Pair (P : Prop) (s t : State) : Prop where
  inputs : SameInputs s t
  ident : t.ident = s.ident
  dsize : t.dsize = s.dsize
  dstLen : t.dstLen = s.dstLen
  dst : SameBytes P s.dstLen s.dst t.dst
  draws : P → t.draws = s.draws

theorem Pair.same {P : Prop} {s t : State} (h : Pair P s t) : SameOutput P s t :=
  fun p => ⟨h.ident, h.dsize, h.dstLen, h.dst.2 p, h.draws p⟩

theorem Pair.row {P : Prop} {s t : State} (h : Pair P s t) : t.row = s.row := by
  rw [State.row, State.row, h.ident, h.inputs.kon]

theorem pair_withCall {P : Prop} {s t : State} (h : Pair P s t) (c d : Call) : Pair P (s.withCall c) (t.withCall d) :=
  ⟨⟨h.inputs.fmt, h.inputs.kon, h.inputs.srcLen, h.inputs.src⟩, h.ident, h.dsize, h.dstLen, h.dst, h.draws⟩

theorem pair_setPhase {P : Prop} {s t : State} (h : Pair P s t) (p : Phase) : Pair P (setPhase p s) (setPhase p t) :=
  ⟨⟨h.inputs.fmt, h.inputs.kon, h.inputs.srcLen, h.inputs.src⟩, h.ident, h.dsize, h.dstLen, h.dst, h.draws⟩

theorem pair_withDst {P : Prop} {s t : State} (h : Pair P s t) {n : Nat} {m m' : Mem} (hm : SameBytes P n m m') :
    Pair P (s.withDst m n) (t.withDst m' n) :=
  ⟨⟨h.inputs.fmt, h.inputs.kon, h.inputs.srcLen, h.inputs.src⟩, h.ident, h.dsize, rfl, hm, h.draws⟩

/-! ## The reader -/

/-- The reader reads only the bytes below `SRC_LEN`. -/
theorem getBit_same {s t : State} (h : SameInputs s t) (r : Reader) : r.getBit t.readEnv = r.getBit s.readEnv := by
  have hpull : r.pull t.readEnv = r.pull s.readEnv := by
    unfold Reader.pull
    rw [readEnv_fmt, readEnv_fmt, readEnv_srcLen, readEnv_srcLen, readEnv_src, readEnv_src, h.fmt, h.srcLen]
    split
    · rfl
    · rename_i hle
      rw [slice_congr s.src t.src r.pos s.fmt.wordBytes fun x _ hx => h.src x (by omega)]
  have htake (r : Reader) : r.take t.readEnv = r.take s.readEnv := by
    rw [Reader.take, Reader.take, readEnv_fmt, readEnv_fmt, h.fmt]
  unfold Reader.getBit
  rw [hpull, htake]
  simp only [htake]

theorem getBits_same {s t : State} (h : SameInputs s t) (n : Nat) (r : Reader) :
    Reader.getBits t.readEnv n r = Reader.getBits s.readEnv n r := by
  induction n generalizing r with
  | zero => rfl
  | succ n ih =>
    rw [Reader.getBits, Reader.getBits, getBit_same h]
    simp only [ih]

theorem readBits_same {s t : State} (h : SameInputs s t) (n : Nat) (r : Reader) :
    r.readBits t.readEnv n = r.readBits s.readEnv n := by
  rw [Reader.readBits, Reader.readBits, getBits_same h, readEnv_fmt, readEnv_fmt, h.fmt]

/-! ## The tree table -/

/-- Two tables of which the symbols and the counts of the first `d` levels are the same. -/
def TabUpTo (d : Nat) (t u : HuffTab) : Prop :=
  u.hsym = t.hsym ∧ u.total = t.total ∧ ∀ i, i < d → u.counts[i]? = t.counts[i]?

theorem counts_length (t : HuffTab) : t.counts.length = 16 := by simp [HuffTab.counts]

theorem counts_setCount (t : HuffTab) (d k : Nat) : (t.setCount d k).counts = t.counts.set (d - 1) k := by
  refine List.ext_getElem? fun i => ?_
  by_cases hi : i < 16
  · have hl : i < (t.counts.set (d - 1) k).length := by rw [List.length_set, counts_length]; exact hi
    change ((List.range 16).map fun d' => (t.counts.set (d - 1) k).getD d' 0)[i]? = _
    rw [List.getElem?_map, List.getElem?_range hi, Option.map_some, List.getD_eq_getElem _ _ hl,
      List.getElem?_eq_getElem hl]
  · rw [List.getElem?_eq_none (by rw [counts_length]; omega),
      List.getElem?_eq_none (by rw [List.length_set, counts_length]; omega)]

/-- Filling the count of the next level. -/
theorem tabUpTo_setCount {d : Nat} {t u : HuffTab} (h : TabUpTo d t u) (k : Nat) :
    TabUpTo (d + 1) (t.setCount (d + 1) k) (u.setCount (d + 1) k) := by
  obtain ⟨hs, ht, hc⟩ := h
  refine ⟨hs, ht, fun i hi => ?_⟩
  rw [counts_setCount, counts_setCount, Nat.add_sub_cancel, List.getElem?_set, List.getElem?_set, counts_length,
    counts_length]
  split
  · rfl
  · exact hc i (by omega)

theorem tabUpTo_push {d : Nat} {t u : HuffTab} (h : TabUpTo d t u) (b : Byte) : TabUpTo d (t.push b) (u.push b) := by
  obtain ⟨hs, ht, hc⟩ := h
  exact ⟨by simp [HuffTab.push, hs, ht], by simp [HuffTab.push, ht], hc⟩

/-- Two readers of a table at the same place. -/
def TabReader (d : Nat) (x y : HuffTab × Reader) : Prop := TabUpTo d x.1 y.1 ∧ y.2 = x.2

theorem alike_readSyms {e e' : ReadEnv} (he : ∀ n (r : Reader), r.readBits e' n = r.readBits e n) (w : SymWidth)
    {d : Nat}
    (k : Nat) {x y : HuffTab × Reader} (h : TabReader d x y) :
    alike (TabReader d) (fun _ _ => True) (readSyms e w k x) (readSyms e' w k y) := by
  induction k generalizing x y with
  | zero => exact alike_ok h
  | succ k ih =>
    obtain ⟨ht, hr⟩ := h
    rw [readSyms, readSyms, hr, he]
    cases x.2.readBits e (symBits w) with
    | ok v r => exact ih ⟨tabUpTo_push ht _, rfl⟩
    | raised j r => exact alike_raised trivial

theorem alike_deserLevels {e e' : ReadEnv} (he : ∀ n (r : Reader), r.readBits e' n = r.readBits e n) (w : SymWidth)
    (n d slots : Nat) {x y : HuffTab × Reader} (h : TabReader d x y) :
    alike (TabReader (d + n)) (fun _ _ => True) (deserLevels e w n (d + 1) slots x)
      (deserLevels e' w n (d + 1) slots y) := by
  induction n generalizing d slots x y with
  | zero => exact alike_ok h
  | succ n ih =>
    obtain ⟨ht, hr⟩ := h
    rw [deserLevels, deserLevels, hr, he]
    cases x.2.readBits e 8 with
    | raised j r => exact alike_raised trivial
    | ok byte r =>
      dsimp only
      split
      · exact alike_raised trivial
      · refine alike_andThen (alike_readSyms he w _ ⟨tabUpTo_setCount ht _, rfl⟩) fun _ u v _ _ huv => ?_
        rw [show d + (n + 1) = d + 1 + n by omega]
        exact ih (d + 1) _ huv

/-- A table read in full is the same, whatever was there before. -/
theorem alike_deserTab {e e' : ReadEnv} (he : ∀ n (r : Reader), r.readBits e' n = r.readBits e n) (w : SymWidth)
    (t u : HuffTab) (r : Reader) :
    alike (TabReader 16) (fun _ _ => True) (deserTab e w (t, r)) (deserTab e' w (u, r)) :=
  alike_deserLevels he w 16 0 2 ⟨⟨rfl, rfl, fun _ h => absurd h (Nat.not_lt_zero _)⟩, rfl⟩

theorem counts_of_tabUpTo {t u : HuffTab} (h : TabUpTo 16 t u) : u.counts = t.counts := by
  refine List.ext_getElem? fun i => ?_
  by_cases hi : i < 16
  · exact h.2.2 i hi
  · rw [List.getElem?_eq_none (by rw [counts_length]; omega), List.getElem?_eq_none (by rw [counts_length]; omega)]

/-! ## The token loop -/

/-- Two machines inside the token loop: the same reader, symbol width and, where it is used, table; `Q` is what their
token registers have in common. -/
structure Twin (P : Prop) (Q : TokenRegs → TokenRegs → Prop) (s t : State) : Prop where
  pair : Pair P s t
  rd : t.call.rd = s.call.rd
  hw : t.call.hw = s.call.hw
  table : s.call.hw ≠ .raw → t.call.ht.hsym = s.call.ht.hsym ∧ t.call.ht.counts = s.call.ht.counts
  tk : Q s.call.tk t.call.tk

/-- Nothing need be common to the token registers. -/
def anyTk (_ _ : TokenRegs) : Prop := True

/-- The two fields of a match are common to the token registers. -/
def sameTk (a b : TokenRegs) : Prop := b.len = a.len ∧ b.disp = a.disp ∧ 1 ≤ a.disp

section
variable {P : Prop} {Q : TokenRegs → TokenRegs → Prop} {s t : State}

theorem twin_withReader (h : Twin P Q s t) (r : Reader) : Twin P Q (s.withReader r) (t.withReader r) :=
  ⟨pair_withCall h.pair _ _, rfl, h.hw, h.table, h.tk⟩

theorem twin_withHcReader (h : Twin P Q s t) (x : HcRegs × Reader) : Twin P Q (s.withHcReader x) (t.withHcReader x) :=
  ⟨pair_withCall h.pair _ _, rfl, h.hw, h.table, h.tk⟩

theorem twin_withTk (h : Twin P Q s t) {Q' : TokenRegs → TokenRegs → Prop} {a b : TokenRegs} (hq : Q' a b) :
    Twin P Q' (s.withTk a) (t.withTk b) :=
  ⟨pair_withCall h.pair _ _, h.rd, h.hw, h.table, hq⟩

theorem twin_weaken (h : Twin P Q s t) : Twin P anyTk s t := ⟨h.pair, h.rd, h.hw, h.table, trivial⟩

theorem alike_readBits (h : Twin P Q s t) (n : Nat) : alike (Twin P Q) (SameOutput P) (readBits n s)
    (readBits n t) := by
  rw [readBits, readBits, h.rd, readBits_same h.pair.inputs]
  exact alike_lift _ (twin_withReader h) fun r => (twin_withReader h r).pair.same

theorem alike_readSymbol (h : Twin P Q s t) (hw : s.call.hw ≠ .raw) :
    alike (Twin P Q) (SameOutput P) (readSymbol s) (readSymbol t) := by
  obtain ⟨hsym, hcounts⟩ := h.table hw
  rw [readSymbol, readSymbol, decodeSymbol, decodeSymbol, h.rd, hsym, hcounts]
  simp only [readBits_same h.pair.inputs]
  exact alike_lift _ (twin_withHcReader h) fun x => (twin_withHcReader h x).pair.same

theorem alike_readValue (h : Twin P Q s t) :
    alike (Twin P Q) (SameOutput P) (readValue s.call.hw s) (readValue t.call.hw t) := by
  rw [h.hw]
  cases hw : s.call.hw with
  | raw => exact alike_map (alike_readBits h 8) _
  | w8 => exact alike_readSymbol h (by simp [hw])
  | w4 =>
    refine alike_andThen (alike_readSymbol h (by simp [hw])) fun hi u v hu _ huv => alike_map
      (alike_readSymbol huv ?_) _
    obtain ⟨x, hx⟩ := readSymbol_state s
    rw [hu, state_ok] at hx
    rw [hx]
    simp [hw]

theorem twin_appendDst (h : Twin P Q s t) (b : Byte) : Twin P Q (appendDst b s) (appendDst b t) := by
  refine ⟨?_, h.rd, h.hw, h.table, h.tk⟩
  rw [appendDst, appendDst, h.pair.dstLen]
  exact pair_withDst h.pair (sameBytes_write h.pair.dst b)

theorem alike_decodeLit (h : Twin P Q s t) : alike (Twin P Q) (SameOutput P) (decodeLit s) (decodeLit t) :=
  alike_andThen (alike_readValue h) fun v _ _ _ _ huv => alike_ok (twin_appendDst huv v)

theorem alike_runMatch (h : Twin P sameTk s t) : alike (Twin P anyTk) (SameOutput P) (runMatch s) (runMatch t) := by
  obtain ⟨hlen, hdisp, hpos⟩ := h.tk
  unfold runMatch
  rw [hlen, hdisp, h.pair.dstLen, h.pair.dsize]
  split
  · exact alike_raised h.pair.same
  · split
    · exact alike_raised h.pair.same
    · have hle : s.call.tk.disp ≤ s.dstLen := by omega
      refine alike_ok ⟨?_, h.rd, h.hw, h.table, trivial⟩
      rw [copyBytes_len, copyBytes_len]
      exact pair_withDst h.pair (sameBytes_copyBytes _ hpos hle h.pair.dst)

theorem alike_readLen (h : Twin P Q s t) (row : ModeRow) :
    alike (Twin P Q) (SameOutput P) (readLen row s) (readLen row t) := by
  refine alike_andThen (alike_readBits h _) fun f u v _ _ huv => ?_
  split
  · exact alike_map (alike_readBits huv _) _
  · exact alike_ok huv

theorem alike_readDisp (h : Twin P Q s t) (row : ModeRow) :
    alike (Twin P Q) (SameOutput P) (readDisp row s) (readDisp row t) := alike_map (alike_readBits h _) _

theorem alike_decodeMatch (h : Twin P Q s t) (row : ModeRow) :
    alike (Twin P anyTk) (SameOutput P) (decodeMatch row s) (decodeMatch row t) := by
  unfold decodeMatch
  split
  · refine alike_andThen (alike_readDisp h row) fun d u v hu _ huv => ?_
    obtain ⟨_, _, hd⟩ := readDisp_ok hu
    have h1 : Twin P (fun a b => b.disp = a.disp ∧ 1 ≤ a.disp) (setTkDisp d u) (setTkDisp d v) :=
      twin_withTk huv ⟨rfl, hd⟩
    refine alike_andThen (alike_readLen h1 row) fun l x y _ _ hxy => alike_runMatch ?_
    exact twin_withTk hxy ⟨rfl, hxy.tk.1, hxy.tk.2⟩
  · refine alike_andThen (alike_readLen h row) fun l u v hu _ huv => ?_
    have h1 : Twin P (fun a b => b.len = a.len) (setTkLen l u) (setTkLen l v) := twin_withTk huv rfl
    refine alike_andThen (alike_readDisp h1 row) fun d x y hx _ hxy => alike_runMatch ?_
    obtain ⟨_, _, hd⟩ := readDisp_ok hx
    exact twin_withTk hxy ⟨hxy.tk, rfl, hd⟩

theorem alike_decodeToken (h : Twin P Q s t) (row : ModeRow) :
    alike (Twin P anyTk) (SameOutput P) (decodeToken row s) (decodeToken row t) := by
  refine alike_andThen (alike_readBits h 1) fun flag u v _ _ huv => ?_
  have hflag (b : Bool) : Twin P anyTk (setTkFlag b u) (setTkFlag b v) := twin_withTk huv trivial
  split
  · exact alike_decodeLit (hflag false)
  · exact alike_decodeMatch (hflag true) row

theorem alike_tokenLoopFrom (row : ModeRow) (n : Nat) (h : Twin P anyTk s t) :
    alike (Twin P anyTk) (SameOutput P) (tokenLoopFrom row n s) (tokenLoopFrom row n t) := by
  induction n generalizing s t with
  | zero => exact alike_ok h
  | succ n ih =>
    rw [tokenLoopFrom, tokenLoopFrom, h.pair.dstLen, h.pair.dsize]
    split
    · exact alike_andThen (alike_decodeToken h row) fun _ u v _ _ huv => ih huv
    · exact alike_ok h

end

/-! ## DECODE's phases -/

section
variable {P : Prop} {s t : State}

/-- The decoder's table, read where the mode is coded. -/
theorem alike_decodeTable (h : Pair P s t) (hrd : t.call.rd = s.call.rd) (hw : t.call.hw = s.call.hw) :
    alike (Twin P anyTk) (SameOutput P) (if s.call.hw = .raw then .ok () s else deserialise s)
      (if t.call.hw = .raw then .ok () t else deserialise t) := by
  rw [hw]
  split
  · rename_i hraw
    exact alike_ok ⟨h, hrd, hw, fun hn => absurd hraw hn, trivial⟩
  · have htab := alike_deserTab (fun n r => readBits_same h.inputs n r) s.call.hw s.call.ht t.call.ht s.call.rd
    rw [deserialise, deserialise, hrd, hw]
    rcases alike_cases htab with ⟨a, x, y, hx, hy, hxy⟩ | ⟨k, x, y, hx, hy, _⟩ <;> rw [hx, hy]
    · obtain ⟨hup, hr⟩ := hxy
      exact alike_ok ⟨pair_withCall h _ _, hr, hw, fun _ => ⟨hup.1, counts_of_tabUpTo hup⟩, trivial⟩
    · exact alike_raised (pair_withCall h _ _).same

theorem alike_withRow {R E : State → State → Prop} {f g : ModeRow → Run State Unit} (hrow : t.row = s.row) (hE : E s t)
    (hf : ∀ row, alike R E (f row) (g row)) : alike R E (withRow s f) (withRow t g) := by
  unfold withRow
  rw [hrow]
  cases s.row with
  | none => exact alike_raised hE
  | some row => exact hf row

theorem alike_decodePayload (h : Pair P s t) (hw : t.call.hw = s.call.hw) :
    alike (Pair P) (SameOutput P) (decodePayload s) (decodePayload t) := by
  unfold decodePayload
  rw [h.dsize]
  split
  · exact alike_ok h
  · have hopen : Pair P (openReader s) (openReader t) := pair_withCall h _ _
    have hrd : (openReader t).call.rd = (openReader s).call.rd := by
      change openedReader t.fmt = openedReader s.fmt
      rw [h.inputs.fmt]
    refine alike_andThen (alike_decodeTable hopen hrd hw) fun _ u v _ _ huv => ?_
    refine alike_withRow huv.pair.row huv.pair.same fun row => ?_
    rw [tokenLoop, tokenLoop, huv.pair.dsize, huv.pair.dstLen]
    exact alike_mono (alike_tokenLoopFrom row _ huv) fun _ _ hab => hab.pair

theorem alike_checkModes (k : ErrKind) (h : Pair P s t) :
    alike (fun u v => Pair P u v ∧ v.call.hw = u.call.hw) (SameOutput P) (checkModes k s) (checkModes k t) := by
  unfold checkModes
  rw [h.ident, h.inputs.kon]
  split
  · exact alike_raised h.same
  · split
    · exact alike_raised h.same
    · exact alike_ok ⟨pair_withCall h _ _, rfl⟩

/-- `Deobfuscate` over an output that is whole, or over the same memory. -/
theorem alike_deobfuscate (h : Pair P s t) (hlen : P ∨ s.dstLen = s.dsize) :
    alike (Pair P) (SameOutput P) (deobfuscate s) (deobfuscate t) := by
  unfold deobfuscate
  rw [h.ident, h.inputs.kon]
  split
  · exact alike_ok h
  · split
    · exact alike_raised h.same
    · have hslice : t.dst.slice 0 t.dsize = s.dst.slice 0 s.dsize := by
        rw [h.dsize]
        rcases hlen with p | hlen
        · rw [h.dst.2 p]
        · exact slice_congr _ _ _ _ fun x _ hx => h.dst.1 x (by omega)
      refine alike_ok ?_
      rw [mapDst, mapDst, hslice, h.dstLen]
      exact pair_withDst h (sameBytes_writeList h.dst 0 _)

/-- The header check reads only bytes below `HDR_LEN`. -/
theorem alike_validateMagic (m : Byte) (hi : SameInputs s t) (ho : SameOutput P s t) :
    alike (Pair P) (SameOutput P) (validateMagic m s) (validateMagic m t) := by
  have hclear : SameOutput P (clearDst s) (clearDst t) := fun p => by
    obtain ⟨h1, h2, _, _, h5⟩ := ho p
    exact ⟨h1, h2, rfl, by simp [h5], by simp [h5]⟩
  unfold validateMagic
  rcases validateHeader_cases m s.src.read s.srcLen s with ⟨hm, e⟩ | ⟨hm, hl, e⟩ | ⟨hm, hl, e⟩ <;>
    rcases validateHeader_cases m t.src.read t.srcLen t with ⟨hm', e'⟩ | ⟨hm', hl', e'⟩ | ⟨hm', hl', e'⟩ <;>
    rw [hi.fmt] at hm'
  · rw [e, e']; exact alike_raised ho
  · exact absurd hm' hm
  · exact absurd hm' hm
  · exact absurd hm hm'
  · rw [e, e']; exact alike_raised hclear
  · rw [hi.fmt, hi.srcLen] at hl'; omega
  · exact absurd hm hm'
  · rw [hi.fmt, hi.srcLen] at hl'; omega
  · have hlt (i : Nat) (h : i ≤ s.fmt.sizeBytes) : t.src.read (1 + i) = s.src.read (1 + i) :=
      hi.src _ (by rw [Fmt.hdrLen] at hl; omega)
    rw [e, e', hi.fmt]
    refine alike_ok ⟨⟨hi.fmt, hi.kon, hi.srcLen, hi.src⟩, hlt _ (Nat.le_refl _), ?_, rfl,
      ⟨fun a h => ?_, fun p => ?_⟩, fun p => ?_⟩
    · refine congrArg leNat (List.map_congr_left fun i h => hlt i ?_)
      exact Nat.le_of_lt (List.mem_range.1 h)
    · exact absurd h (Nat.not_lt_zero a)
    · exact (hclear p).2.2.2.1
    · exact (hclear p).2.2.2.2

/-- The output's length at the end of `Decode`, in a DECODE whose modes were checked. -/
theorem decodePayload_whole {k : ErrKind} {u v : State} (hrec : recordWf s.fmt s.kon = true) (h0 : s.dstLen = 0)
    (hc : checkModes k s = .ok () u) (hd : decodePayload (setPhase .decode u) = .ok () v) : v.dstLen = v.dsize := by
  obtain ⟨_, himp, rfl⟩ := checkModes_ok hc
  obtain ⟨row, hr, hw⟩ := row_of_implemented hrec himp
  exact decodePayload_ok (s := setPhase .decode (s.withHw (widthOf (hmodeOf s.ident))))
    ⟨row, hr, minLen_pos_of_wf hw⟩ h0 hd

/-- DECODE on two machines with the same inputs. -/
theorem alike_runDecode (hrec : P ∨ recordWf s.fmt s.kon = true) (hi : SameInputs s t) (ho : SameOutput P s t) :
    alike (Pair P) (SameOutput P) (runDecode s) (runDecode t) := by
  have hfirst : alike (fun u v => SameInputs u v ∧ SameOutput P u v ∧ u.fmt = s.fmt ∧ u.kon = s.kon) (SameOutput P)
      (readFirst (startCommand .readHeader s)) (readFirst (startCommand .readHeader t)) := by
    have hi' : SameInputs (startCommand .readHeader s) (startCommand .readHeader t) :=
      ⟨hi.fmt, hi.kon, hi.srcLen, hi.src⟩
    unfold readFirst
    rw [hi'.srcLen]
    split
    · exact alike_raised ho
    · rw [hi'.src 0 (by omega)]
      exact alike_ok ⟨hi', ho, rfl, rfl⟩
  refine alike_andThen hfirst fun m s1 t1 _ _ ⟨hi1, ho1, hf1, hk1⟩ => ?_
  have hmagic := alike_validateMagic (P := P) m (s := setPhase .validateMagic s1) (t := setPhase .validateMagic t1)
    ⟨hi1.fmt, hi1.kon, hi1.srcLen, hi1.src⟩ ho1
  refine alike_andThen hmagic fun _ s2 t2 hs2 _ h2 => ?_
  obtain ⟨_, _, he2⟩ := validateHeader_ok hs2
  refine alike_andThen (alike_checkModes .corruptStream (pair_setPhase h2 .dispatchModes)) fun _ s3 t3 hs3 _ h3 => ?_
  refine alike_andThen (alike_decodePayload (pair_setPhase h3.1 .decode) h3.2) fun _ s4 t4 hs4 _ h4 => ?_
  have hwhole : P ∨ s4.dstLen = s4.dsize := hrec.imp_right fun hrec => by
    refine decodePayload_whole (s := setPhase .dispatchModes s2) ?_ (by rw [he2]; rfl) hs3 hs4
    rw [he2]
    change recordWf s1.fmt s1.kon = true
    rw [hf1, hk1, hrec]
  have htr : hasTransform t4 = hasTransform s4 := by rw [hasTransform, hasTransform, h4.ident, h4.dsize]
  rw [htr]
  split
  · exact alike_deobfuscate (pair_setPhase h4 .deobfuscate) hwhole
  · exact alike_ok h4

end

end Sys2Proof.Machine
end

section
/-! The end of a command on two machines side by side: obligation O16, and what O15 and O17 need of DECODE. -/

namespace Sys2Proof.Machine

/-- What a finished command leaves in the per-call state and in `WORK` is a function of its last draw. -/
structure Freed (s : State) : Prop where
  draws : 0 < s.draws
  call : s.call = Config.anyCall (s.draws - 1)
  work : s.work = ⟨s.draws - 1, []⟩

theorem freed_freeCall (s : State) : Freed (freeCall s) := ⟨Nat.succ_pos _, rfl, rfl⟩

theorem freed_endDecode (r : Run State Unit) : Freed (endDecode r) := by
  cases r with
  | ok a s => exact freed_freeCall _
  | raised k s =>
    by_cases hk : k = .formatMismatch
    · subst hk; exact freed_freeCall _
    · rw [endDecode_raised hk]; exact freed_freeCall _

theorem freed_endEncode (r : Run State Unit) : Freed (endEncode r) := by
  cases r with
  | ok a s => exact freed_freeCall _
  | raised k s => exact freed_freeCall _

/-- Two machines that agree on all but `CFG`, the per-call state, `WORK` and `STATUS`. -/
structure Resembles (s s' : State) : Prop where
  fmt : s'.fmt = s.fmt
  kon : s'.kon = s.kon
  src : s'.src = s.src
  srcLen : s'.srcLen = s.srcLen
  inbox : s'.inbox = s.inbox
  ret : s'.ret = s.ret
  bus : s'.bus = s.bus
  output : SameOutput True s s'

theorem Resembles.inputs {s s' : State} (h : Resembles s s') : SameInputs s s' :=
  ⟨h.fmt, h.kon, h.srcLen, fun a _ => by rw [h.src]⟩

/-- What is kept of such machines, with the same output and `STATUS` at the end, and the rest freed, is the same but for
`CFG`. -/
theorem Resembles.ends_eq {s s' t t' : State} (h : Resembles s s') (hk : Keeps s t) (hk' : Keeps s' t')
    (hp : t'.phase = t.phase) (he : t'.err = t.err) (ho : SameOutput True t t') (hf : Freed t) (hf' : Freed t') :
    t' = { t with cfg := s'.cfg } := by
  obtain ⟨hi, hd, hl, hm, hdr⟩ := ho trivial
  have hcall : t'.call = t.call := by rw [hf.call, hf'.call, hdr]
  have hwork : t'.work = t.work := by rw [hf.work, hf'.work, hdr]
  have hfmt : t'.fmt = t.fmt := by rw [hk'.fmt, h.fmt, hk.fmt]
  have hkon : t'.kon = t.kon := by rw [hk'.kon, h.kon, hk.kon]
  have hsrc : t'.src = t.src := by rw [hk'.src, h.src, hk.src]
  have hsrcLen : t'.srcLen = t.srcLen := by rw [hk'.srcLen, h.srcLen, hk.srcLen]
  have hinbox : t'.inbox = t.inbox := by rw [hk'.inbox, h.inbox, hk.inbox]
  have hret : t'.ret = t.ret := by rw [hk'.ret, h.ret, hk.ret]
  have hbus : t'.bus = t.bus := by rw [hk'.bus, h.bus, hk.bus]
  have hcfg : t'.cfg = s'.cfg := hk'.cfg
  obtain ⟨⟩ := t
  obtain ⟨⟩ := t'
  dsimp only at *
  subst_vars
  rfl

/-- The end of DECODE on two results alike. -/
theorem endDecode_alike {P : Prop} {r r' : Run State Unit} (h : alike (Pair P) (SameOutput P) r r') :
    (endDecode r').phase = (endDecode r).phase ∧ (endDecode r').err = (endDecode r).err ∧
      SameOutput P (endDecode r) (endDecode r') ∧ ((endDecode r).phase = .done →
        Pair P (endDecode r) (endDecode r')) := by
  rcases alike_cases h with ⟨_, s, t, rfl, rfl, hst⟩ | ⟨k, s, t, rfl, rfl, hst⟩
  · have hend : Pair P (freeCall (endDone s)) (freeCall (endDone t)) :=
      ⟨⟨hst.inputs.fmt, hst.inputs.kon, hst.inputs.srcLen, hst.inputs.src⟩, hst.ident, hst.dsize, hst.dstLen, hst.dst,
        fun p => congrArg (· + 1) (hst.draws p)⟩
    exact ⟨rfl, rfl, hend.same, fun _ => hend⟩
  · by_cases hk : k = .formatMismatch
    · subst hk
      refine ⟨rfl, rfl, fun p => ?_, nofun⟩
      obtain ⟨h1, h2, h3, h4, h5⟩ := hst p
      exact ⟨h1, h2, h3, h4, congrArg (· + 1) h5⟩
    · rw [endDecode_raised hk, endDecode_raised hk]
      refine ⟨rfl, rfl, fun p => ?_, nofun⟩
      obtain ⟨h1, h2, _, _, h5⟩ := hst p
      refine ⟨h1, h2, ?_, ?_, congrArg (· + 2) h5⟩
      · simp [h5]
      · simp [h5]

/-- DECODE does the same on machines that agree on all it reads. -/
theorem decodeCommand_resembles {s s' : State} (h : Resembles s s') :
    endDecode (runDecode s') = { endDecode (runDecode s) with cfg := s'.cfg } := by
  obtain ⟨hp, he, ho, _⟩ := endDecode_alike (alike_runDecode (.inl trivial) h.inputs h.output)
  exact h.ends_eq (keeps_decodeCommand s) (keeps_decodeCommand s') hp he ho (freed_endDecode _) (freed_endDecode _)

/-- Settles O16: two machines that differ in `CFG` run DECODE side by side. -/
theorem decodeIgnoresConfiguration : Obligations.DecodeIgnoresConfiguration := by
  intro s t v h
  have hb : s.busy = false := (hostMove_eq_next h).1
  cases hostEnds rfl h
  have hr : Resembles s { s with cfg := v } := ⟨rfl, rfl, rfl, rfl, rfl, rfl, rfl, fun _ => ⟨rfl, rfl, rfl, rfl, rfl⟩⟩
  rw [← decodeCommand_resembles hr]
  exact hostMove_idle (s := { s with cfg := v }) hb _

end Sys2Proof.Machine
end

section
/-! SUPPORT. The Huffman arena as trees: what `merge` builds from the leaves of a frequency table,
and how deep it can be (rules R203 to R205). -/

namespace Sys2Proof.Machine

/-! ## Trees in the arena -/

/-- The shape of a part of the arena: a leaf, or an internal node with two children, each named by its index. -/
inductive HTree where
  | leaf (i : Nat)
  | node (i : Nat) (l r : HTree)

namespace HTree

/-- The index of the root. -/
def root : HTree → Nat
  | leaf i => i
  | node i _ _ => i

/-- The indices of all nodes. -/
def ids : HTree → List Nat
  | leaf i => [i]
  | node i l r => i :: (l.ids ++ r.ids)

/-- The indices of the leaves. -/
def leaves : HTree → List Nat
  | leaf i => [i]
  | node _ l r => l.leaves ++ r.leaves

/-- The largest depth of a leaf. -/
def height : HTree → Nat
  | leaf _ => 0
  | node _ l r => 1 + max l.height r.height

/-- Whether it is a leaf. -/
def isLeaf : HTree → Bool
  | leaf _ => true
  | node _ _ _ => false

/-- The trees below the root. -/
def kids : HTree → List HTree
  | leaf _ => []
  | node _ l r => [l, r]

/-- The arena holds the tree: its leaves are leaves there, and its nodes have their children there. -/
def held (arena : List HuffNode) : HTree → Prop
  | leaf i => isLeafAt arena i = true
  | node i l r =>
    isLeafAt arena i = false ∧ childrenAt arena i = [l.root, r.root] ∧ l.held arena ∧ r.held arena

end HTree

theorem isLeafAt_lt {arena : List HuffNode} {i : Nat} (h : isLeafAt arena i = true) : i < arena.length := by
  by_contra hn
  rw [isLeafAt, List.getElem?_eq_none (by omega)] at h
  simp at h

theorem childrenAt_lt {arena : List HuffNode} {i : Nat} (h : childrenAt arena i ≠ []) : i < arena.length := by
  by_contra hn
  rw [childrenAt, List.getElem?_eq_none (by omega)] at h
  simp at h

theorem held_isLeaf {arena : List HuffNode} {t : HTree} (h : t.held arena) : isLeafAt arena t.root = t.isLeaf := by
  cases t with
  | leaf i => exact h
  | node i l r => exact h.1

theorem held_children {arena : List HuffNode} {t : HTree} (h : t.held arena) (hn : t.isLeaf = false) :
    childrenAt arena t.root = t.kids.map HTree.root := by
  cases t with
  | leaf i => cases hn
  | node i l r => exact h.2.1

theorem held_kids {arena : List HuffNode} {t u : HTree} (h : t.held arena) (hu : u ∈ t.kids) : u.held arena := by
  cases t with
  | leaf i => cases hu
  | node i l r =>
    obtain ⟨_, _, hl, hr⟩ := h
    simp only [HTree.kids, List.mem_cons, List.not_mem_nil, or_false] at hu
    rcases hu with rfl | rfl <;> assumption

theorem held_ids_lt {arena : List HuffNode} {t : HTree} (h : t.held arena) : ∀ i ∈ t.ids, i < arena.length := by
  induction t with
  | leaf i =>
    intro j hj
    cases List.mem_singleton.1 hj
    exact isLeafAt_lt h
  | node i l r ihl ihr =>
    obtain ⟨_, hc, hl, hr⟩ := h
    intro j hj
    simp only [HTree.ids, List.mem_cons, List.mem_append] at hj
    rcases hj with rfl | hj | hj
    · exact childrenAt_lt (by rw [hc]; exact List.cons_ne_nil _ _)
    · exact ihl hl j hj
    · exact ihr hr j hj

theorem root_mem_ids (t : HTree) : t.root ∈ t.ids := by cases t <;> simp [HTree.root, HTree.ids]

/-- Nodes appended to the arena leave a tree as it is. -/
theorem held_append {arena : List HuffNode} {t : HTree} (h : t.held arena) (more : List HuffNode) :
    t.held (arena ++ more) := by
  have hget {i : Nat} (hi : i < arena.length) : (arena ++ more)[i]? = arena[i]? := List.getElem?_append_left hi
  induction t with
  | leaf i =>
    change isLeafAt (arena ++ more) i = true
    rw [isLeafAt, hget (isLeafAt_lt h)]
    exact h
  | node i l r ihl ihr =>
    obtain ⟨hi, hc, hl, hr⟩ := h
    have hlt : i < arena.length := childrenAt_lt (by rw [hc]; exact List.cons_ne_nil _ _)
    refine ⟨?_, ?_, ihl hl, ihr hr⟩
    · rw [isLeafAt, hget hlt]; exact hi
    · rw [childrenAt, hget hlt]; exact hc

/-- The depth the model computes is the height of the tree. -/
theorem depthFrom_held {arena : List HuffNode} {t : HTree} (h : t.held arena) {fuel : Nat} (hf : t.height ≤ fuel) :
    depthFrom arena fuel t.root = t.height := by
  induction t generalizing fuel with
  | leaf i =>
    cases fuel with
    | zero => rfl
    | succ fuel =>
      have hl : isLeafAt arena i = true := h
      rw [isLeafAt] at hl
      rw [HTree.root, depthFrom]
      cases hn : arena[i]? with
      | none => rfl
      | some n =>
        rw [hn] at hl
        exact if_pos hl
  | node i l r ihl ihr =>
    obtain ⟨hi, hc, hl, hr⟩ := h
    simp only [HTree.height] at hf ⊢
    cases fuel with
    | zero => omega
    | succ fuel =>
      rw [HTree.root, depthFrom]
      rw [isLeafAt] at hi
      rw [childrenAt] at hc
      cases hn : arena[i]? with
      | none => simp [hn] at hc
      | some n =>
        simp only [hn, Option.map_some, Option.getD_some, Option.any_some] at hc hi
        simp only [hi, hc, List.map_cons, List.map_nil, List.foldl_cons, List.foldl_nil,
          ihl hl (fuel := fuel) (by omega),
          ihr hr (fuel := fuel) (by omega), Nat.zero_max, Bool.false_eq_true, if_false]

theorem height_lt_ids (t : HTree) : t.height < t.ids.length := by
  induction t with
  | leaf i => simp [HTree.height, HTree.ids]
  | node i l r ihl ihr =>
    simp only [HTree.height, HTree.ids, List.length_cons, List.length_append]
    omega

/-- Distinct nodes of a tree are no more than the arena has. -/
theorem height_lt_length {arena : List HuffNode} {t : HTree} (h : t.held arena) (hn : t.ids.Nodup) :
    t.height < arena.length := by
  have hsub : t.ids ⊆ List.range arena.length := fun i hi => List.mem_range.2 (held_ids_lt h i hi)
  have hle := (List.subperm_of_subset hn hsub).length_le
  rw [List.length_range] at hle
  exact Nat.lt_of_lt_of_le (height_lt_ids t) hle

/-! ## The least node -/

theorem leastNode_mem (a : HuffNode) (l : List HuffNode) : leastNode a l ∈ a :: l := by
  induction l generalizing a with
  | nil => exact List.mem_singleton.2 rfl
  | cons b t ih =>
    rw [leastNode]
    split
    · exact List.mem_cons_of_mem _ (ih b)
    · rcases List.mem_cons.1 (ih a) with h | h
      · rw [h]; exact List.mem_cons_self
      · exact List.mem_cons_of_mem _ (List.mem_cons_of_mem _ h)

theorem before_le {a b : HuffNode} (h : a.before b = true) : a.frequency ≤ b.frequency := by
  simp only [HuffNode.before, Bool.or_eq_true, Bool.and_eq_true, decide_eq_true_eq] at h
  omega

theorem not_before_le {a b : HuffNode} (h : ¬ a.before b = true) : b.frequency ≤ a.frequency := by
  simp only [HuffNode.before, Bool.or_eq_true, Bool.and_eq_true, decide_eq_true_eq] at h
  omega

theorem leastNode_le (a : HuffNode) (l : List HuffNode) : ∀ x ∈ a :: l, (leastNode a l).frequency ≤ x.frequency := by
  induction l generalizing a with
  | nil => intro x hx; cases List.mem_singleton.1 hx; exact Nat.le_refl _
  | cons b t ih =>
    intro x hx
    rw [leastNode]
    rcases List.mem_cons.1 hx with rfl | hx
    · split
      · exact Nat.le_trans (ih b b List.mem_cons_self) (before_le ‹_›)
      · exact ih _ _ List.mem_cons_self
    · split
      · exact ih b x hx
      · rcases List.mem_cons.1 hx with rfl | hx
        · exact Nat.le_trans (ih a a List.mem_cons_self) (not_before_le ‹_›)
        · exact ih a x (List.mem_cons_of_mem _ hx)

/-- Taking the least node out of a set that is not empty. -/
theorem takeLeast_cons {live : List HuffNode} (h : live ≠ []) : ∃ a rest, takeLeast live = some (a, rest) ∧
    live.Perm (a :: rest) ∧ ∀ x ∈ rest, a.frequency ≤ x.frequency := by
  cases live with
  | nil => exact absurd rfl h
  | cons a t =>
    refine ⟨_, _, rfl, List.perm_cons_erase (leastNode_mem a t), fun x hx => ?_⟩
    exact leastNode_le a t x (List.mem_of_mem_erase hx)

/-! ## The merge loop -/

/-- A node of a set that is the image of another is the image of one of its members. -/
theorem perm_cons_of_map {α β : Type} {f : α → β} {ts : List α} {b : β} {l : List β} (h : (ts.map f).Perm (b :: l)) :
    ∃ x us, ts.Perm (x :: us) ∧ f x = b ∧ (us.map f).Perm l := by
  have hb : b ∈ ts.map f := h.mem_iff.2 List.mem_cons_self
  obtain ⟨x, hx, rfl⟩ := List.mem_map.1 hb
  obtain ⟨us, vs, rfl⟩ := List.append_of_mem hx
  refine ⟨x, us ++ vs, List.perm_middle, rfl, ?_⟩
  have hp : ((us ++ x :: vs).map f).Perm (f x :: (us ++ vs).map f) := (List.perm_middle.map f).trans (by simp)
  exact (hp.symm.trans h).cons_inv

theorem eq_singleton_of_map {α β : Type} {f : α → β} {ts : List α} {b : β} (h : (ts.map f).Perm [b]) :
    ∃ x, ts = [x] ∧ f x = b := by
  obtain ⟨x, rfl⟩ := List.length_eq_one_iff.1 ((List.length_map f).symm.trans h.length_eq)
  exact ⟨x, rfl, List.singleton_inj.1 (List.perm_singleton.1 h)⟩

/-- The internal node made of two nodes and their trees. -/
def joined (n : Nat) (a b : HuffNode × HTree) : HuffNode × HTree := (joinNodes a.1 b.1 n, .node n a.2 b.2)

/-- What holds of the live nodes with their trees, in any order, and is kept when the two least are joined, holds of the
one node the loop ends with. -/
theorem mergeLoop_induct {P : List HuffNode → List (HuffNode × HTree) → Prop}
    (hperm : ∀ arena ts us, ts.Perm us → P arena ts → P arena us)
    (hstep : ∀ arena a b ts, P arena (a :: b :: ts) → (∀ x ∈ b :: ts, a.1.frequency ≤ x.1.frequency) →
      (∀ x ∈ ts, b.1.frequency ≤ x.1.frequency) → P (arena ++ [joinNodes a.1 b.1 arena.length])
        (joined arena.length a b :: ts))
    (fuel : Nat) {arena live : List HuffNode} {ts : List (HuffNode × HTree)} (hlive : (ts.map Prod.fst).Perm live)
    (hne : live ≠ []) (hf : live.length ≤ fuel + 1) (h : P arena ts) :
    ∃ x, P (mergeLoop fuel arena live).1 [x] ∧ (mergeLoop fuel arena live).2 = [x.1] := by
  induction fuel generalizing arena live ts with
  | zero =>
    obtain ⟨n, rfl⟩ : ∃ n, live = [n] := List.length_eq_one_iff.1 (by
      have := List.length_pos_iff.2 hne
      omega)
    obtain ⟨x, rfl, rfl⟩ := eq_singleton_of_map hlive
    exact ⟨x, h, rfl⟩
  | succ fuel ih =>
    obtain ⟨a, live1, ha, hpa, hmina⟩ := takeLeast_cons hne
    by_cases hne1 : live1 = []
    · subst hne1
      obtain ⟨x, rfl, rfl⟩ := eq_singleton_of_map (hlive.trans hpa)
      refine ⟨x, ?_⟩
      rw [mergeLoop, ha]
      exact ⟨h, List.perm_singleton.1 hpa⟩
    · obtain ⟨b, live2, hb, hpb, hminb⟩ := takeLeast_cons hne1
      obtain ⟨x, us, hts, rfl, hus⟩ := perm_cons_of_map (hlive.trans hpa)
      obtain ⟨y, vs, hvs, rfl, hv⟩ := perm_cons_of_map (hus.trans hpb)
      have hP : P arena (x :: y :: vs) := hperm _ _ _ (hts.trans (hvs.cons x)) h
      have hminx : ∀ z ∈ y :: vs, x.1.frequency ≤ z.1.frequency := fun z hz =>
        hmina z.1 (hus.mem_iff.1 (List.mem_map_of_mem (hvs.mem_iff.2 hz)))
      have hminy : ∀ z ∈ vs, y.1.frequency ≤ z.1.frequency := fun z hz =>
        hminb z.1 (hv.mem_iff.1 (List.mem_map_of_mem hz))
      have hlive' : ((joined arena.length x y :: vs).map Prod.fst).Perm (live2 ++ [joinNodes x.1 y.1 arena.length]) :=
        (hv.cons _).trans (List.perm_append_singleton _ _).symm
      have hlen : (live2 ++ [joinNodes x.1 y.1 arena.length]).length ≤ fuel + 1 := by
        have h1 := hpa.length_eq
        have h2 := hpb.length_eq
        simp only [List.length_cons, List.length_append, List.length_nil] at *
        omega
      have hr : mergeLoop (fuel + 1) arena live =
          mergeLoop fuel (arena ++ [joinNodes x.1 y.1 arena.length]) (live2 ++ [joinNodes x.1 y.1 arena.length]) := by
        rw [mergeLoop, ha]
        dsimp only
        rw [hb]
      rw [hr]
      exact ih hlive' (by simp) hlen (hstep _ _ _ _ hP hminx hminy)

/-! ## What `merge` builds from leaves -/

/-- The live nodes with their trees: each is the root of its tree, the arena holds the trees, and no node is in two. -/
structure Planted (arena : List HuffNode) (ts : List (HuffNode × HTree)) : Prop where
  rooted : ∀ x ∈ ts, x.2.root = x.1.seq
  held : ∀ x ∈ ts, x.2.held arena
  nodup : (ts.flatMap fun x => x.2.ids).Nodup

theorem Planted.perm {arena : List HuffNode} {ts us : List (HuffNode × HTree)} (hp : ts.Perm us)
    (h : Planted arena ts) :
    Planted arena us where
  rooted x hx := h.rooted x (hp.mem_iff.2 hx)
  held x hx := h.held x (hp.mem_iff.2 hx)
  nodup := (hp.flatMap_right _).nodup_iff.1 h.nodup

theorem Planted.join {arena : List HuffNode} {a b : HuffNode × HTree} {ts : List (HuffNode × HTree)}
    (h : Planted arena (a :: b :: ts)) :
    Planted (arena ++ [joinNodes a.1 b.1 arena.length]) (joined arena.length a b :: ts) where
  rooted x hx := by
    rcases List.mem_cons.1 hx with rfl | hx
    · rfl
    · exact h.rooted x (List.mem_cons_of_mem _ (List.mem_cons_of_mem _ hx))
  held x hx := by
    rcases List.mem_cons.1 hx with rfl | hx
    · have hget : (arena ++ [joinNodes a.1 b.1 arena.length])[arena.length]? =
        some (joinNodes a.1 b.1 arena.length) := by simp
      refine ⟨?_, ?_, held_append (h.held a List.mem_cons_self) _,
        held_append (h.held b (List.mem_cons_of_mem _ List.mem_cons_self)) _⟩
      · rw [isLeafAt, hget]; rfl
      · rw [childrenAt, hget, h.rooted a List.mem_cons_self, h.rooted b (List.mem_cons_of_mem _ List.mem_cons_self)]
        rfl
    · exact held_append (h.held x (List.mem_cons_of_mem _ (List.mem_cons_of_mem _ hx))) _
  nodup := by
    have hn := h.nodup
    have hnew : arena.length ∉ (a :: b :: ts).flatMap fun x => x.2.ids := fun hm => by
      obtain ⟨x, hx, hi⟩ := List.mem_flatMap.1 hm
      exact Nat.lt_irrefl _ (held_ids_lt (h.held x hx) _ hi)
    simp only [List.flatMap_cons, joined, HTree.ids, List.cons_append, List.append_assoc] at hn hnew ⊢
    exact List.nodup_cons.2 ⟨hnew, hn⟩

/-- The live nodes of a table whose counts are at most 1: no node weighs more than twice another, and a node's weight
bounds the height of its tree. -/
structure Balanced (ts : List (HuffNode × HTree)) : Prop where
  near : ∀ x ∈ ts, ∀ y ∈ ts, x.1.frequency ≤ 2 * y.1.frequency
  tall : ∀ x ∈ ts, 3 ^ x.2.height ≤ 2 ^ x.2.height * x.1.frequency
  total : (ts.map fun x => x.1.frequency).sum ≤ 256

theorem Balanced.perm {ts us : List (HuffNode × HTree)} (hp : ts.Perm us) (h : Balanced ts) : Balanced us where
  near x hx y hy := h.near x (hp.mem_iff.2 hx) y (hp.mem_iff.2 hy)
  tall x hx := h.tall x (hp.mem_iff.2 hx)
  total := (hp.map fun x => x.1.frequency).sum_eq ▸ h.total

/-- The height bound of a node made of two, from that of its higher child. -/
theorem three_pow_join {k a b : Nat} (h : 3 ^ k ≤ 2 ^ k * a) (hab : a ≤ 2 * b) :
    3 ^ (1 + k) ≤ 2 ^ (1 + k) * (a + b) := by
  have h1 : 3 ^ (1 + k) = 3 * 3 ^ k := by rw [Nat.add_comm, Nat.pow_succ']
  have h2 : 2 ^ (1 + k) * (a + b) = 2 ^ k * (2 * (a + b)) := by rw [Nat.add_comm, Nat.pow_succ']; ring
  have h3 : 2 ^ k * (3 * a) ≤ 2 ^ k * (2 * (a + b)) := Nat.mul_le_mul_left _ (by omega)
  have h4 : 3 * 3 ^ k ≤ 2 ^ k * (3 * a) := by nlinarith
  omega

theorem Balanced.join {n : Nat} {a b : HuffNode × HTree} {ts : List (HuffNode × HTree)} (h : Balanced (a :: b :: ts))
    (ha : ∀ x ∈ b :: ts, a.1.frequency ≤ x.1.frequency) (hb : ∀ x ∈ ts, b.1.frequency ≤ x.1.frequency) :
    Balanced (joined n a b :: ts) := by
  have ma : a ∈ a :: b :: ts := List.mem_cons_self
  have mb : b ∈ a :: b :: ts := List.mem_cons_of_mem _ List.mem_cons_self
  have mts {x : HuffNode × HTree} (hx : x ∈ ts) : x ∈ a :: b :: ts := List.mem_cons_of_mem _ (List.mem_cons_of_mem _ hx)
  have hab := ha b List.mem_cons_self
  have hfreq : (joined n a b).1.frequency = a.1.frequency + b.1.frequency := rfl
  refine ⟨fun x hx y hy => ?_, fun x hx => ?_, ?_⟩
  · rcases List.mem_cons.1 hx with rfl | hx <;> rcases List.mem_cons.1 hy with rfl | hy
    · omega
    · have := hb y hy
      omega
    · have := h.near x (mts hx) a ma
      omega
    · exact h.near x (mts hx) y (mts hy)
  · rcases List.mem_cons.1 hx with rfl | hx
    · rw [hfreq]
      change 3 ^ (1 + max a.2.height b.2.height) ≤ 2 ^ (1 + max a.2.height b.2.height) * _
      rcases Nat.le_total b.2.height a.2.height with hle | hle
      · rw [Nat.max_eq_left hle]
        exact three_pow_join (h.tall a ma) (h.near a ma b mb)
      · rw [Nat.max_eq_right hle, Nat.add_comm a.1.frequency]
        exact three_pow_join (h.tall b mb) (h.near b mb a ma)
    · exact h.tall x (mts hx)
  · have := h.total
    simp only [List.map_cons, List.sum_cons, hfreq] at this ⊢
    omega

/-- A tree whose weight is at most 256 is at most 16 levels high, where the weight bounds the height so. -/
theorem height_le_of_weight {h f : Nat} (h1 : 3 ^ h ≤ 2 ^ h * f) (h2 : f ≤ 256) : h ≤ 16 := by
  by_contra hn
  obtain ⟨k, rfl⟩ : ∃ k, h = 17 + k := ⟨h - 17, by omega⟩
  have hk : 2 ^ k ≤ 3 ^ k := Nat.pow_le_pow_left (by decide) k
  have hf : 2 ^ (17 + k) * f ≤ 2 ^ (17 + k) * 256 := Nat.mul_le_mul_left _ h2
  rw [Nat.pow_add, Nat.pow_add] at *
  have hpos : 0 < 2 ^ k := Nat.two_pow_pos k
  omega

/-! ## The leaves of a frequency table -/

/-- The leaf of the `j`-th living symbol. -/
theorem leavesOf_getElem? (w : SymWidth) (F : List Nat) (j : Nat) :
    (leavesOf w F)[j]? = (livingSymbols w F)[j]?.map fun x => ⟨F.getD x 0, true, x, none, none, j⟩ := by
  rw [leavesOf, livingSymbols, List.getElem?_map, List.getElem?_zipIdx, Option.map_map]
  simp [Function.comp_def]

theorem leavesOf_length (w : SymWidth) (F : List Nat) : (leavesOf w F).length = (livingSymbols w F).length := by
  simp [leavesOf, livingSymbols]

theorem livingSymbols_length_le (w : SymWidth) (F : List Nat) : (livingSymbols w F).length ≤ 256 := by
  refine Nat.le_trans (List.length_filter_le _ _) ?_
  rw [List.length_range]
  cases w <;> decide

theorem mem_livingSymbols {w : SymWidth} {F : List Nat} {x : Nat} :
    x ∈ livingSymbols w F ↔ x < alphabet w ∧ 0 < F.getD x 0 := by
  simp [livingSymbols]

/-- Every leaf of `leavesOf` is a leaf, named by its index. -/
theorem leavesOf_mem {w : SymWidth} {F : List Nat} {n : HuffNode} (h : n ∈ leavesOf w F) :
    n.isLeaf = true ∧ isLeafAt (leavesOf w F) n.seq = true ∧ n.frequency = F.getD n.code 0 ∧ 0 < n.frequency := by
  obtain ⟨j, hj⟩ := List.mem_iff_getElem?.1 h
  have hj' := hj
  rw [leavesOf_getElem?] at hj'
  obtain ⟨x, hx, rfl⟩ := Option.map_eq_some_iff.1 hj'
  refine ⟨rfl, ?_, rfl, (mem_livingSymbols.1 (List.mem_of_getElem? hx)).2⟩
  change isLeafAt (leavesOf w F) j = true
  rw [isLeafAt, hj]
  rfl

theorem leavesOf_filter (w : SymWidth) (F : List Nat) : (leavesOf w F).filter HuffNode.isLeaf = leavesOf w F :=
  List.filter_eq_self.2 fun _ h => (leavesOf_mem h).1

theorem leavesOf_seq (w : SymWidth) (F : List Nat) : (leavesOf w F).map HuffNode.seq =
    List.range (leavesOf w F).length := by
  refine List.ext_getElem? fun j => ?_
  rw [List.getElem?_map, leavesOf_getElem?, leavesOf_length]
  by_cases hj : j < (livingSymbols w F).length
  · rw [List.getElem?_range hj, List.getElem?_eq_getElem hj]
    rfl
  · rw [List.getElem?_eq_none (by omega), List.getElem?_eq_none (by simpa using hj)]
    rfl

/-- Each leaf with its tree. -/
def leafTrees (w : SymWidth) (F : List Nat) : List (HuffNode × HTree) := (leavesOf w F).map fun n => (n, .leaf n.seq)

theorem leafTrees_flatMap (w : SymWidth) (F : List Nat) {g : HTree → List Nat} (hg : ∀ i, g (.leaf i) = [i]) :
    (leafTrees w F).flatMap (fun x => g x.2) = List.range (leavesOf w F).length := by
  rw [← leavesOf_seq, leafTrees, List.flatMap_map]
  simp only [hg]
  exact List.map_eq_flatMap.symm

theorem planted_leafTrees (w : SymWidth) (F : List Nat) : Planted (leavesOf w F) (leafTrees w F) where
  rooted x hx := by
    obtain ⟨n, _, rfl⟩ := List.mem_map.1 hx
    rfl
  held x hx := by
    obtain ⟨n, hn, rfl⟩ := List.mem_map.1 hx
    exact (leavesOf_mem hn).2.1
  nodup := by
    rw [leafTrees_flatMap w F (g := HTree.ids) fun _ => rfl]
    exact List.nodup_range

/-- Where every count is at most 1, every leaf weighs 1. -/
theorem balanced_leafTrees {w : SymWidth} {F : List Nat} (h : ∀ c ∈ F, c ≤ 1) : Balanced (leafTrees w F) := by
  have hone : ∀ n ∈ leavesOf w F, n.frequency = 1 := fun n hn => by
    obtain ⟨_, _, hf, hpos⟩ := leavesOf_mem hn
    have hle : F.getD n.code 0 ≤ 1 := by
      rw [List.getD_eq_getElem?_getD]
      cases hc : F[n.code]? with
      | none => exact Nat.zero_le 1
      | some c => exact h c (List.mem_of_getElem? hc)
    omega
  refine ⟨fun x hx y hy => ?_, fun x hx => ?_, ?_⟩
  · obtain ⟨n, hn, rfl⟩ := List.mem_map.1 hx
    obtain ⟨m, hm, rfl⟩ := List.mem_map.1 hy
    simp [hone n hn, hone m hm]
  · obtain ⟨n, hn, rfl⟩ := List.mem_map.1 hx
    simp [hone n hn, HTree.height]
  · have hsum : ((leafTrees w F).map fun x => x.1.frequency) = List.replicate (leavesOf w F).length 1 := by
      rw [leafTrees, List.map_map]
      exact (List.map_congr_left hone).trans List.map_const'
    rw [hsum, List.sum_replicate, leavesOf_length]
    simpa using livingSymbols_length_le w F

/-- What `merge` makes of the leaves of a frequency table with two symbols or more: one tree with all the leaves, of at
most 16 levels where every count is at most 1. -/
structure Grown (w : SymWidth) (F : List Nat) (T : List HuffNode × Option Nat) (t : HTree) : Prop where
  root : T.2 = some t.root
  held : t.held T.1
  nodup : t.ids.Nodup
  leaves : ∀ i, i < (leavesOf w F).length → i ∈ t.leaves
  inner : t.isLeaf = false
  codes : ∀ i, i < (leavesOf w F).length → T.1[i]? = (leavesOf w F)[i]?
  low : (∀ c ∈ F, c ≤ 1) → t.height ≤ 16

theorem mergeLeaves_grown {w : SymWidth} {F : List Nat} (h2 : 2 ≤ (leavesOf w F).length) :
    ∃ t, Grown w F (mergeLeaves (leavesOf w F)) t := by
  let P : List HuffNode → List (HuffNode × HTree) → Prop := fun arena ts =>
    Planted arena ts ∧ (∃ more, arena = leavesOf w F ++ more) ∧
      (∀ i, i < (leavesOf w F).length → i ∈ ts.flatMap fun x => x.2.leaves) ∧ ((∀ c ∈ F, c ≤ 1) → Balanced ts)
  have hstart : P (leavesOf w F) (leafTrees w F) :=
    ⟨planted_leafTrees w F, ⟨[], (List.append_nil _).symm⟩, fun i hi => by
      rw [leafTrees_flatMap w F (g := HTree.leaves) fun _ => rfl]
      exact List.mem_range.2 hi, balanced_leafTrees⟩
  have hmerge : mergeLeaves (leavesOf w F) =
      ((mergeLoop (leavesOf w F).length (leavesOf w F) (leavesOf w F)).1,
        (mergeLoop (leavesOf w F).length (leavesOf w F) (leavesOf w F)).2.head?.map HuffNode.seq) := by
    rw [mergeLeaves, leavesOf_filter]
    match hl : leavesOf w F, h2 with
    | _ :: _ :: _, _ => rfl
  obtain ⟨x, ⟨hpl, ⟨more, hmore⟩, hleaves, hbal⟩, hx⟩ := mergeLoop_induct (P := P)
    (fun arena ts us hp ⟨h1, h2, h3, h4⟩ =>
      ⟨h1.perm hp, h2, fun i hi => (hp.flatMap_right _).mem_iff.1 (h3 i hi), fun hF => (h4 hF).perm hp⟩)
    (fun arena a b ts ⟨h1, ⟨more, h2⟩, h3, h4⟩ hmina hminb =>
      ⟨h1.join, ⟨more ++ [joinNodes a.1 b.1 arena.length], by rw [← List.append_assoc, ← h2]⟩, fun i hi => by
        have := h3 i hi
        simp only [List.flatMap_cons, joined, HTree.leaves, List.append_assoc] at this ⊢
        exact this, fun hF => (h4 hF).join hmina hminb⟩)
    (leavesOf w F).length (ts := leafTrees w F) (arena := leavesOf w F) (live := leavesOf w F)
    (by rw [leafTrees, List.map_map]; exact (List.map_id _).symm ▸ List.Perm.refl _)
    (by intro h0; rw [h0] at h2; exact absurd h2 (by decide)) (Nat.le_succ _) hstart
  have hleaves' : ∀ i, i < (leavesOf w F).length → i ∈ x.2.leaves := fun i hi => by simpa using hleaves i hi
  rw [hmerge]
  refine ⟨x.2, ⟨?_, hpl.held x List.mem_cons_self, by simpa using hpl.nodup, hleaves', ?_, fun i hi => ?_,
    fun hF => ?_⟩⟩
  · rw [hx, hpl.rooted x List.mem_cons_self]
    rfl
  · cases ht : x.2 with
    | node i l r => rfl
    | leaf i =>
      have h0 := hleaves' 0 (by omega)
      have h1 := hleaves' 1 (by omega)
      rw [ht] at h0 h1
      have e0 := List.mem_singleton.1 h0
      have e1 := List.mem_singleton.1 h1
      omega
  · dsimp only
    rw [hmore, List.getElem?_append_left hi]
  · have hb := hbal hF
    exact height_le_of_weight (hb.tall x List.mem_cons_self) (by simpa using hb.total)

end Sys2Proof.Machine
end

section
/-! SUPPORT. The levels of a tree, and that `canonicalise` keeps them (rule R207). -/

namespace Sys2Proof.Machine

/-! ## Levels of trees -/

/-- The trees whose roots stand on one level: the leaves, then the others, each in their order. -/
def canonTrees (ts : List HTree) : List HTree := ts.filter HTree.isLeaf ++ ts.filter fun t => !t.isLeaf

/-- The levels from `ts` down, `fuel` levels at most. -/
def treeLevels : Nat → List HTree → List (List HTree)
  | 0, _ => []
  | fuel + 1, ts =>
    canonTrees ts ::
      if (ts.filter fun t => !t.isLeaf).isEmpty then [] else treeLevels fuel
        ((ts.filter fun t => !t.isLeaf).flatMap HTree.kids)

theorem canonTrees_perm (ts : List HTree) : (canonTrees ts).Perm ts := List.filter_append_perm _ _

theorem filter_map_root {arena : List HuffNode} {ts : List HTree} (h : ∀ t ∈ ts, t.held arena) :
    (ts.map HTree.root).filter (isLeafAt arena) = (ts.filter HTree.isLeaf).map HTree.root ∧
      (ts.map HTree.root).filter (fun i => !isLeafAt arena i) = (ts.filter fun t => !t.isLeaf).map HTree.root := by
  rw [List.filter_map, List.filter_map]
  refine ⟨congrArg _ (List.filter_congr fun t ht => ?_), congrArg _ (List.filter_congr fun t ht => ?_)⟩
  · exact held_isLeaf (h t ht)
  · rw [Function.comp_apply, held_isLeaf (h t ht)]

theorem stablePartition_roots {arena : List HuffNode} {ts : List HTree} (h : ∀ t ∈ ts, t.held arena) :
    stablePartition arena (ts.map HTree.root) = (canonTrees ts).map HTree.root := by
  obtain ⟨h1, h2⟩ := filter_map_root h
  rw [stablePartition, h1, h2, canonTrees, List.map_append]

/-- The internal nodes of a level are those of the level in canonical order. -/
theorem internalsOf_stablePartition (arena : List HuffNode) (level : List Nat) :
    internalsOf arena (stablePartition arena level) = internalsOf arena level := by
  simp [internalsOf, stablePartition, List.filter_filter]

theorem stablePartition_idem (arena : List HuffNode) (level : List Nat) :
    stablePartition arena (stablePartition arena level) = stablePartition arena level := by
  simp [stablePartition, List.filter_filter]

/-- The model's levels are those of the trees the arena holds. -/
theorem canonLevels_roots {arena : List HuffNode} (fuel : Nat) {ts : List HTree} (h : ∀ t ∈ ts, t.held arena) :
    canonLevels arena fuel (ts.map HTree.root) = (treeLevels fuel ts).map fun l => l.map HTree.root := by
  induction fuel generalizing ts with
  | zero => rfl
  | succ fuel ih =>
    have hints : internalsOf arena (ts.map HTree.root) = (ts.filter fun t => !t.isLeaf).map HTree.root :=
      (filter_map_root h).2
    have hmem {t : HTree} (ht : t ∈ ts.filter fun t => !t.isLeaf) : t.held arena ∧ t.isLeaf = false := by
      obtain ⟨h1, h2⟩ := List.mem_filter.1 ht
      exact ⟨h t h1, by simpa using h2⟩
    have hkids : ((ts.filter fun t => !t.isLeaf).map HTree.root).flatMap (childrenAt arena) =
        ((ts.filter fun t => !t.isLeaf).flatMap HTree.kids).map HTree.root := by
      rw [List.flatMap_map, List.map_flatMap]
      exact List.flatMap_congr fun t ht => held_children (hmem ht).1 (hmem ht).2
    rw [canonLevels, treeLevels, internalsOf_stablePartition, hints, stablePartition_roots h, hkids, List.isEmpty_map,
      List.map_cons]
    split
    · rfl
    · rw [ih]
      intro t ht
      obtain ⟨u, hu, htu⟩ := List.mem_flatMap.1 ht
      exact held_kids (hmem hu).1 htu

/-! ## What stands on the levels -/

theorem kids_ids (t : HTree) : t.ids = t.root :: t.kids.flatMap HTree.ids := by
  cases t <;> simp [HTree.ids, HTree.root, HTree.kids]

theorem kids_leaf {t : HTree} (h : t.isLeaf = true) : t.kids = [] := by
  cases t with
  | leaf i => rfl
  | node i l r => cases h

/-- The trees below a level are below its internal nodes. -/
theorem flatMap_kids_filter (ts : List HTree) : (ts.filter fun t => !t.isLeaf).flatMap HTree.kids =
    ts.flatMap HTree.kids := by
  induction ts with
  | nil => rfl
  | cons t ts ih =>
    cases ht : t.isLeaf with
    | true => simp [ht, ih, kids_leaf ht]
    | false => simp [ht, ih]

/-- The nodes of some trees are their roots and the nodes below. -/
theorem flatMap_ids_perm (ts : List HTree) :
    (ts.flatMap HTree.ids).Perm (ts.map HTree.root ++ (ts.flatMap HTree.kids).flatMap HTree.ids) := by
  induction ts with
  | nil => exact List.Perm.refl _
  | cons t ts ih =>
    simp only [List.flatMap_cons, List.map_cons, List.cons_append, List.flatMap_append, kids_ids t]
    refine List.Perm.cons _ ((ih.append_left _).trans ?_)
    rw [← List.append_assoc, ← List.append_assoc]
    exact List.perm_append_comm.append_right _

/-- The levels hold nodes of the trees, each at most once. -/
theorem treeLevels_subperm (fuel : Nat) (ts : List HTree) :
    List.Subperm ((treeLevels fuel ts).flatten.map HTree.root) (ts.flatMap HTree.ids) := by
  induction fuel generalizing ts with
  | zero => exact List.nil_subperm
  | succ fuel ih =>
    have hroots : List.Subperm ((canonTrees ts).map HTree.root) (ts.map HTree.root) :=
      ((canonTrees_perm ts).map _).subperm
    have hrest : List.Subperm ((if (ts.filter fun t => !t.isLeaf).isEmpty then []
        else treeLevels fuel ((ts.filter fun t => !t.isLeaf).flatMap HTree.kids)).flatten.map HTree.root)
        ((ts.flatMap HTree.kids).flatMap HTree.ids) := by
      split
      · exact List.nil_subperm
      · rw [flatMap_kids_filter]
        exact ih _
    rw [treeLevels, List.flatten_cons, List.map_append]
    exact (hroots.append hrest).trans (flatMap_ids_perm ts).symm.subperm

/-- The trees on the levels are held where the trees they come from are. -/
theorem treeLevels_held {arena : List HuffNode} (fuel : Nat) {ts : List HTree} (h : ∀ t ∈ ts, t.held arena) :
    ∀ l ∈ treeLevels fuel ts, ∀ t ∈ l, t.held arena := by
  induction fuel generalizing ts with
  | zero => exact fun l hl => absurd hl List.not_mem_nil
  | succ fuel ih =>
    intro l hl t ht
    rw [treeLevels] at hl
    rcases List.mem_cons.1 hl with rfl | hl
    · exact h t ((canonTrees_perm ts).mem_iff.1 ht)
    · split at hl
      · exact absurd hl List.not_mem_nil
      · refine ih (fun u hu => ?_) l hl t ht
        obtain ⟨v, hv, huv⟩ := List.mem_flatMap.1 hu
        exact held_kids (h v (List.mem_filter.1 hv).1) huv

/-- Every leaf of a tree stands on a level, no deeper than the tree is high. -/
theorem treeLevels_leaf (fuel : Nat) {ts : List HTree} {t : HTree} (ht : t ∈ ts) (hf : t.height < fuel) {i : Nat}
    (hi : i ∈ t.leaves) : ∃ d l, d ≤ t.height ∧ (treeLevels fuel ts)[d]? = some l ∧ HTree.leaf i ∈ l := by
  induction fuel generalizing ts t with
  | zero => exact absurd hf (Nat.not_lt_zero _)
  | succ fuel ih =>
    cases t with
    | leaf j =>
      cases List.mem_singleton.1 hi
      exact ⟨0, canonTrees ts, Nat.zero_le _, by rw [treeLevels]; rfl, (canonTrees_perm ts).mem_iff.2 ht⟩
    | node j a b =>
      have hmem : HTree.node j a b ∈ ts.filter fun t => !t.isLeaf := List.mem_filter.2 ⟨ht, rfl⟩
      have hne : ¬ (ts.filter fun t => !t.isLeaf).isEmpty = true := fun he => by
        rw [List.isEmpty_iff.1 he] at hmem
        exact absurd hmem List.not_mem_nil
      obtain ⟨u, hu, hiu, hh⟩ : ∃ u, u ∈ (HTree.node j a b).kids ∧ i ∈ u.leaves ∧
        u.height < (HTree.node j a b).height := by
        simp only [HTree.height, HTree.kids]
        rcases List.mem_append.1 hi with h | h
        · exact ⟨a, List.mem_cons_self, h, by omega⟩
        · exact ⟨b, List.mem_cons_of_mem _ List.mem_cons_self, h, by omega⟩
      obtain ⟨d, l, hd, hl, hmem'⟩ := ih (List.mem_flatMap.2 ⟨_, hmem, hu⟩) (by omega) hiu
      refine ⟨d + 1, l, by omega, ?_, hmem'⟩
      rw [treeLevels, if_neg hne]
      exact hl

/-! ## Rewiring -/

/-- The two arenas have the same leaves, with the same symbols. -/
structure SameLeaves (arena arena' : List HuffNode) : Prop where
  length : arena'.length = arena.length
  isLeaf : ∀ i, isLeafAt arena' i = isLeafAt arena i
  code : ∀ i : Nat, (arena'[i]?).map HuffNode.code = (arena[i]?).map HuffNode.code

theorem SameLeaves.refl (arena : List HuffNode) : SameLeaves arena arena := ⟨rfl, fun _ => rfl, fun _ => rfl⟩

theorem SameLeaves.trans {a b c : List HuffNode} (h1 : SameLeaves a b) (h2 : SameLeaves b c) : SameLeaves a c :=
  ⟨h2.length.trans h1.length, fun i => (h2.isLeaf i).trans (h1.isLeaf i), fun i => (h2.code i).trans (h1.code i)⟩

theorem sameLeaves_modify (arena : List HuffNode) (i : Nat) {f : HuffNode → HuffNode}
    (hl : ∀ n, (f n).isLeaf = n.isLeaf)
    (hc : ∀ n, (f n).code = n.code) : SameLeaves arena (arena.modify i f) := by
  refine ⟨List.length_modify .., fun j => ?_, fun j => ?_⟩
  · rw [isLeafAt, isLeafAt, List.getElem?_modify]
    cases arena[j]? with
    | none => rfl
    | some n => by_cases h : i = j <;> simp [h, hl]
  · rw [List.getElem?_modify]
    cases arena[j]? with
    | none => rfl
    | some n => by_cases h : i = j <;> simp [h, hc]

theorem childrenAt_modify_self {arena : List HuffNode} {i : Nat} (h : i < arena.length) (f : HuffNode → HuffNode) :
    childrenAt (arena.modify i f) i = (f arena[i]).children := by
  rw [childrenAt, List.getElem?_modify, List.getElem?_eq_getElem h]
  simp

theorem childrenAt_modify_other (arena : List HuffNode) {i j : Nat} (h : i ≠ j) (f : HuffNode → HuffNode) :
    childrenAt (arena.modify i f) j = childrenAt arena j := by
  rw [childrenAt, childrenAt, List.getElem?_modify]
  simp [h]

/-- What rewiring one level does: the internal nodes get the next level's nodes as children, two by two, and no other
node's children change. -/
theorem rewireLevel_spec {is : List Nat} {next : List Nat} {arena : List HuffNode} (hn : is.Nodup)
    (hlen : next.length = 2 * is.length) (hlt : ∀ i ∈ is, i < arena.length) :
    SameLeaves arena (rewireLevel is next arena) ∧ is.flatMap (childrenAt (rewireLevel is next arena)) = next ∧
      ∀ j, j ∉ is → childrenAt (rewireLevel is next arena) j = childrenAt arena j := by
  induction is generalizing next arena with
  | nil =>
    obtain rfl : next = [] := List.length_eq_zero_iff.1 (by simpa using hlen)
    exact ⟨SameLeaves.refl _, rfl, fun _ _ => rfl⟩
  | cons i is ih =>
    match next, hlen with
    | c0 :: c1 :: cs, hlen =>
      obtain ⟨hi, hn⟩ := List.nodup_cons.1 hn
      have hm : SameLeaves arena (arena.modify i fun n => { n with child0 := some c0, child1 := some c1 }) :=
        sameLeaves_modify arena i (fun _ => rfl) fun _ => rfl
      obtain ⟨hs, hf, ho⟩ := ih (next := cs) (arena := 
        arena.modify i fun n => { n with child0 := some c0, child1 := some c1 }) hn
        (by simp only [List.length_cons] at hlen; omega)
        (fun j hj => hm.length ▸ hlt j (List.mem_cons_of_mem _ hj))
      rw [rewireLevel]
      refine ⟨hm.trans hs, ?_, fun j hj => ?_⟩
      · rw [List.flatMap_cons, hf, ho i hi, childrenAt_modify_self (hlt i List.mem_cons_self)]
        rfl
      · obtain ⟨hji, hjs⟩ := not_or.1 (mt List.mem_cons.2 hj)
        rw [ho j hjs, childrenAt_modify_other _ (Ne.symm hji)]

/-- Each level's nodes are the children of the internal nodes of the level above, in order. -/
def linked (arena : List HuffNode) (children : Nat → List Nat) : List (List Nat) → Prop
  | canon :: next :: rest => (internalsOf arena canon).flatMap children = next ∧ linked arena children (next :: rest)
  | _ => True

/-- Each level has two nodes for each internal node of the level above. -/
def paired (arena : List HuffNode) : List (List Nat) → Prop
  | canon :: next :: rest => next.length = 2 * (internalsOf arena canon).length ∧ paired arena (next :: rest)
  | _ => True

theorem linked_congr {arena : List HuffNode} {f g : Nat → List Nat} {levels : List (List Nat)}
    (h : ∀ j ∈ levels.flatten, g j = f j) (hl : linked arena f levels) : linked arena g levels := by
  induction levels with
  | nil => trivial
  | cons canon rest ih =>
    cases rest with
    | nil => trivial
    | cons next rest =>
      obtain ⟨h1, h2⟩ := hl
      refine ⟨(List.flatMap_congr fun j hj => ?_).trans h1, ih (fun j hj => h j ?_) h2⟩
      · refine h j (List.mem_flatten.2 ⟨canon, List.mem_cons_self, ?_⟩)
        exact (List.mem_filter.1 hj).1
      · rw [List.flatten_cons]
        exact List.mem_append_right _ hj

/-- What rewiring all levels does: the levels are linked by the new children. -/
theorem rewireLevels_spec {arena0 : List HuffNode} {levels : List (List Nat)} {arena : List HuffNode}
    (hn : levels.flatten.Nodup) (hp : paired arena0 levels) (hlt : ∀ i ∈ levels.flatten, i < arena.length) :
    SameLeaves arena (rewireLevels arena0 levels arena) ∧
      linked arena0 (childrenAt (rewireLevels arena0 levels arena)) levels ∧
      ∀ j, j ∉ levels.flatten → childrenAt (rewireLevels arena0 levels arena) j = childrenAt arena j := by
  induction levels generalizing arena with
  | nil => exact ⟨SameLeaves.refl _, trivial, fun _ _ => rfl⟩
  | cons canon rest ih =>
    cases rest with
    | nil => exact ⟨SameLeaves.refl _, trivial, fun _ _ => rfl⟩
    | cons next rest =>
      obtain ⟨hlen, hp⟩ := hp
      rw [List.flatten_cons] at hn hlt
      obtain ⟨hnc, hnr, hdis⟩ := List.nodup_append.1 hn
      have hsub {i : Nat} (hi : i ∈ internalsOf arena0 canon) : i ∈ canon := (List.mem_filter.1 hi).1
      obtain ⟨hs1, hf1, ho1⟩ := rewireLevel_spec (is := internalsOf arena0 canon) (arena := arena) (next := next)
        (hnc.filter _) hlen
        fun i hi => hlt i (List.mem_append_left _ (hsub hi))
      obtain ⟨hs2, hf2, ho2⟩ := ih hnr hp (arena := rewireLevel (internalsOf arena0 canon) next arena)
        fun i hi => hs1.length ▸ hlt i (List.mem_append_right _ hi)
      rw [rewireLevels]
      refine ⟨hs1.trans hs2, ⟨?_, hf2⟩, fun j hj => ?_⟩
      · refine (List.flatMap_congr fun i hi => ?_).trans hf1
        exact ho2 i fun hi' => hdis i (hsub hi) i hi' rfl
      · rw [List.flatten_cons, List.mem_append, not_or] at hj
        rw [ho2 j hj.2, ho1 j fun hi => hj.1 (hsub hi)]

/-! ## Re-summing -/

theorem resumNode_same (arena : List HuffNode) (i : Nat) :
    SameLeaves arena (resumNode arena i) ∧ ∀ j, childrenAt (resumNode arena i) j = childrenAt arena j := by
  refine ⟨sameLeaves_modify arena i (fun _ => rfl) fun _ => rfl, fun j => ?_⟩
  rw [resumNode, childrenAt, childrenAt, List.getElem?_modify]
  cases arena[j]? with
  | none => rfl
  | some n => by_cases h : i = j <;> simp [h, HuffNode.children]

theorem foldl_resumNode_same (is : List Nat) (arena : List HuffNode) :
    SameLeaves arena (is.foldl resumNode arena) ∧ ∀ j, childrenAt (is.foldl resumNode arena) j =
      childrenAt arena j := by
  induction is generalizing arena with
  | nil => exact ⟨SameLeaves.refl _, fun _ => rfl⟩
  | cons i is ih =>
    obtain ⟨h1, h2⟩ := resumNode_same arena i
    obtain ⟨h3, h4⟩ := ih (resumNode arena i)
    exact ⟨h1.trans h3, fun j => (h4 j).trans (h2 j)⟩

/-- Re-summing the frequencies changes no leaf and no child. -/
theorem resumLevels_same (levels : List (List Nat)) (arena : List HuffNode) :
    SameLeaves arena (resumLevels levels arena) ∧ ∀ j, childrenAt (resumLevels levels arena) j =
      childrenAt arena j := by
  induction levels with
  | nil => exact ⟨SameLeaves.refl _, fun _ => rfl⟩
  | cons canon rest ih =>
    obtain ⟨h1, h2⟩ := ih
    obtain ⟨h3, h4⟩ := foldl_resumNode_same (internalsOf (resumLevels rest arena) canon) (resumLevels rest arena)
    rw [resumLevels]
    exact ⟨h1.trans h3, fun j => (h4 j).trans (h2 j)⟩

/-! ## `canonicalise` keeps the levels -/

/-- An arena with the same leaves, in which the levels are linked, has the same levels. -/
theorem canonLevels_of_linked {arena arena' : List HuffNode} (hs : ∀ i, isLeafAt arena' i = isLeafAt arena i)
    (fuel : Nat)
    {level level' : List Nat} (hp : stablePartition arena level' = stablePartition arena level)
    (hl : linked arena (childrenAt arena') (canonLevels arena fuel level)) :
    canonLevels arena' fuel level' = canonLevels arena fuel level := by
  have hleaf : isLeafAt arena' = isLeafAt arena := funext hs
  have hpart (l : List Nat) : stablePartition arena' l = stablePartition arena l := by
    rw [stablePartition, stablePartition, hleaf]
  have hints (l : List Nat) : internalsOf arena' l = internalsOf arena l := by rw [internalsOf, internalsOf, hleaf]
  induction fuel generalizing level level' with
  | zero => rfl
  | succ fuel ih =>
    rw [canonLevels] at hl ⊢
    rw [canonLevels, hpart, hints, hp]
    split
    · rfl
    · rename_i hne
      rw [if_neg hne] at hl
      cases fuel with
      | zero => rfl
      | succ fuel =>
        have hhead : ∃ rest, canonLevels arena (fuel + 1)
            ((internalsOf arena (stablePartition arena level)).flatMap (childrenAt arena)) =
            stablePartition arena ((internalsOf arena (stablePartition arena level)).flatMap (childrenAt arena)) ::
              rest := by
          rw [canonLevels]
          split <;> exact ⟨_, rfl⟩
        obtain ⟨rest, hrest⟩ := hhead
        have hl' := hl
        rw [hrest] at hl'
        obtain ⟨hnext, _⟩ := hl'
        have htail : linked arena (childrenAt arena') (canonLevels arena (fuel + 1)
            ((internalsOf arena (stablePartition arena level)).flatMap (childrenAt arena))) := by
          rw [hrest] at hl ⊢
          exact hl.2
        rw [ih (by rw [hnext, stablePartition_idem]) htail]

/-- The levels of a tree that the arena holds are paired. -/
theorem paired_treeLevels {arena : List HuffNode} (fuel : Nat) {ts : List HTree} (h : ∀ t ∈ ts, t.held arena) :
    paired arena ((treeLevels fuel ts).map fun l => l.map HTree.root) := by
  induction fuel generalizing ts with
  | zero => trivial
  | succ fuel ih =>
    rw [treeLevels]
    split
    · trivial
    · have hk : ∀ t ∈ (ts.filter fun t => !t.isLeaf).flatMap HTree.kids, t.held arena := fun t ht => by
        obtain ⟨u, hu, htu⟩ := List.mem_flatMap.1 ht
        exact held_kids (h u (List.mem_filter.1 hu).1) htu
      have hrest := ih hk
      cases fuel with
      | zero => trivial
      | succ fuel =>
        rw [treeLevels] at hrest ⊢
        refine ⟨?_, hrest⟩
        have hints : internalsOf arena ((canonTrees ts).map HTree.root) =
          (ts.filter fun t => !t.isLeaf).map HTree.root := by
          rw [← stablePartition_roots h, internalsOf_stablePartition]
          exact (filter_map_root h).2
        rw [hints, List.length_map, List.length_map, (canonTrees_perm _).length_eq, List.length_flatMap]
        have htwo : ((ts.filter fun t => !t.isLeaf).map fun t => t.kids.length) =
            List.replicate (ts.filter fun t => !t.isLeaf).length 2 := by
          refine (List.map_congr_left fun t ht => ?_).trans List.map_const'
          obtain ⟨_, hl⟩ := List.mem_filter.1 ht
          cases t with
          | leaf i => cases hl
          | node i a b => rfl
        rw [htwo, List.sum_replicate, smul_eq_mul, Nat.mul_comm]

/-- What `canonicalise` leaves of a tree: the same leaves, on the same levels. -/
theorem canonTree_levels {arena : List HuffNode} {t : HTree} (h : t.held arena) (hn : t.ids.Nodup)
    (hin : t.isLeaf = false) :
    SameLeaves arena (canonTree (arena, some t.root)) ∧
      canonLevels (canonTree (arena, some t.root)) (arena.length + 1) [t.root] =
        (treeLevels (arena.length + 1) [t]).map fun l => l.map HTree.root := by
  have hheld : ∀ u ∈ [t], u.held arena := fun u hu => by cases List.mem_singleton.1 hu; exact h
  have hlev : canonLevels arena (arena.length + 1) [t.root] =
      (treeLevels (arena.length + 1) [t]).map fun l => l.map HTree.root := canonLevels_roots _ hheld
  have hsub := treeLevels_subperm (arena.length + 1) [t]
  have hflat : ((treeLevels (arena.length + 1) [t]).map fun l => l.map HTree.root).flatten =
      (treeLevels (arena.length + 1) [t]).flatten.map HTree.root := by rw [List.map_flatten]
  have hids : [t].flatMap HTree.ids = t.ids := by simp
  rw [hids] at hsub
  have hnodup : ((treeLevels (arena.length + 1) [t]).map fun l => l.map HTree.root).flatten.Nodup := by
    obtain ⟨l, hperm, hl⟩ := hsub
    rw [hflat]
    exact hperm.nodup_iff.1 (hl.nodup hn)
  have hlt : ∀ i ∈ ((treeLevels (arena.length + 1) [t]).map fun l => l.map HTree.root).flatten, i < arena.length :=
    fun i hi => held_ids_lt h i (hsub.subset (hflat ▸ hi))
  obtain ⟨hs1, hlink, _⟩ := rewireLevels_spec (arena0 := arena) (arena := arena) hnodup (paired_treeLevels _ hheld) hlt
  obtain ⟨hs2, hch⟩ := resumLevels_same ((treeLevels (arena.length + 1) [t]).map fun l => l.map HTree.root)
    (rewireLevels arena ((treeLevels (arena.length + 1) [t]).map fun l => l.map HTree.root) arena)
  have hchild : ¬ (arena[t.root]?).any (fun n => n.child1.isNone) = true := by
    cases t with
    | leaf i => cases hin
    | node i l r =>
      obtain ⟨_, hc, _⟩ := h
      rw [childrenAt] at hc
      cases hi : arena[i]? with
      | none => simp [HTree.root, hi]
      | some n =>
        intro hnone
        simp only [HTree.root, hi, Option.any_some, Option.isNone_iff_eq_none] at hnone
        have h2 := congrArg List.length hc
        cases h0 : n.child0 <;> simp [hi, HuffNode.children, hnone, h0] at h2
  have hcanon : canonTree (arena, some t.root) =
      resumLevels ((treeLevels (arena.length + 1) [t]).map fun l => l.map HTree.root)
        (rewireLevels arena ((treeLevels (arena.length + 1) [t]).map fun l => l.map HTree.root) arena) := by
    rw [← hlev]
    exact if_neg hchild
  rw [hcanon, ← hlev]
  rw [← hlev] at hs1 hs2 hlink hch
  refine ⟨hs1.trans hs2, canonLevels_of_linked (fun i => (hs1.trans hs2).isLeaf i) _ rfl ?_⟩
  exact linked_congr (fun j _ => hch j) hlink

end Sys2Proof.Machine
end

section
/-! SUPPORT. `BuildTree` gives a code to every symbol of a residual literal
(rules R202 to R212): the depth limit ends with a tree of at most 16 levels, `canonicalise` keeps its levels,
and the tables and codes are filled from them. -/

namespace Sys2Proof.Machine

/-! ## The depth limit -/

theorem halveUp_pos {c : Nat} (h : 0 < c) : 0 < halveUp c := by unfold halveUp; omega

theorem getD_map_halveUp (F : List Nat) (x : Nat) (h : 0 < F.getD x 0) : 0 < (F.map halveUp).getD x 0 := by
  rw [List.getD_eq_getElem?_getD] at h ⊢
  rw [List.getElem?_map]
  cases hx : F[x]? with
  | none => simp [hx] at h
  | some c => exact halveUp_pos (by simpa [hx] using h)

/-- The loop ends with a tree over counts that are positive where they were,
and either it is no deeper than 16 levels or no count is more than 1. -/
theorem limitLoop_spec (w : SymWidth) (fuel : Nat) {F : List Nat} (hF : ∀ c ∈ F, c ≤ 2 ^ fuel) :
    ∃ G, limitLoop w fuel F = (G, mergeLeaves (leavesOf w G)) ∧ (∀ x, 0 < F.getD x 0 → 0 < G.getD x 0) ∧
      (treeDepth (mergeLeaves (leavesOf w G)) ≤ 16 ∨ ∀ c ∈ G, c ≤ 1) := by
  induction fuel generalizing F with
  | zero => exact ⟨F, rfl, fun _ h => h, .inr hF⟩
  | succ fuel ih =>
    rw [limitLoop]
    split
    · exact ⟨F, rfl, fun _ h => h, .inl ‹_›⟩
    · have hhalf : ∀ c ∈ F.map halveUp, c ≤ 2 ^ fuel := fun c hc => by
        obtain ⟨b, hb, rfl⟩ := List.mem_map.1 hc
        have := hF b hb
        rw [Nat.pow_succ] at this
        unfold halveUp
        omega
      obtain ⟨G, hG, hpos, hend⟩ := ih hhalf
      exact ⟨G, hG, fun x hx => hpos x (getD_map_halveUp F x hx), hend⟩

theorem le_foldl_max (F : List Nat) (m : Nat) : m ≤ F.foldl max m ∧ ∀ c ∈ F, c ≤ F.foldl max m := by
  induction F generalizing m with
  | nil => exact ⟨Nat.le_refl _, fun c hc => absurd hc List.not_mem_nil⟩
  | cons b t ih =>
    obtain ⟨h1, h2⟩ := ih (max m b)
    rw [List.foldl_cons]
    refine ⟨Nat.le_trans (Nat.le_max_left m b) h1, fun c hc => ?_⟩
    rcases List.mem_cons.1 hc with rfl | hc
    · exact Nat.le_trans (Nat.le_max_right m c) h1
    · exact h2 c hc

/-- The rounds allowed bring every count down to 1 (rule R205, property 2). -/
theorem le_two_pow_scalingRounds (F : List Nat) : ∀ c ∈ F, c ≤ 2 ^ scalingRounds F := fun c hc =>
  Nat.le_of_lt (Nat.lt_of_le_of_lt ((le_foldl_max F 0).2 c hc) Nat.lt_log2_self)

/-! ## The levels of the tree that is built -/

/-- The symbols of the leaves of a canonical tree stand in the first sixteen levels of its table. -/
theorem mem_leafLevels_of_grown {w : SymWidth} {G : List Nat} {T : List HuffNode × Option Nat} {t : HTree}
    (h : Grown w G T t) (hlow : t.height ≤ 16) {j x : Nat} (hj : (livingSymbols w G)[j]? = some x) :
    BitVec.ofNat 8 x ∈ ((leafLevels (canonTree T, T.2)).take 16).flatten := by
  obtain ⟨arena, root⟩ := T
  obtain rfl : root = some t.root := h.root
  obtain ⟨hsame, hlev⟩ := canonTree_levels h.held h.nodup h.inner
  have hjlt : j < (leavesOf w G).length := leavesOf_length w G ▸ (List.getElem?_eq_some_iff.1 hj).1
  have hcode : (((canonTree (arena, some t.root))[j]?).map HuffNode.code).getD 0 = x := by
    rw [hsame.code, show arena[j]? = _ from h.codes j hjlt, leavesOf_getElem?, hj]
    rfl
  obtain ⟨d, l, hd, hl, hmem⟩ := treeLevels_leaf (arena.length + 1) (ts := [t]) List.mem_cons_self
    (Nat.lt_succ_of_lt (height_lt_length h.held h.nodup)) (h.leaves j hjlt)
  have hleaf : isLeafAt (canonTree (arena, some t.root)) j = true := by
    rw [hsame.isLeaf]
    exact treeLevels_held _ (fun u hu => by cases List.mem_singleton.1 hu; exact h.held) l
      (List.mem_of_getElem? hl) _ hmem
  obtain ⟨e, rfl⟩ : ∃ e, d = e + 1 := by
    cases d with
    | succ e => exact ⟨e, rfl⟩
    | zero =>
      rw [treeLevels, List.getElem?_cons_zero, Option.some.injEq] at hl
      rw [← hl] at hmem
      have hin := h.inner
      rw [← List.mem_singleton.1 ((canonTrees_perm [t]).mem_iff.1 hmem)] at hin
      cases hin
  have hlevels : leafLevels (canonTree (arena, some t.root), some t.root) =
      (((treeLevels (arena.length + 1) [t]).map fun l => l.map HTree.root).drop 1).map fun level =>
        (level.filter (isLeafAt (canonTree (arena, some t.root)))).map fun i =>
          BitVec.ofNat 8 (((canonTree (arena, some t.root))[i]?.map HuffNode.code).getD 0) := by
    rw [← hlev, ← hsame.length]
    rfl
  refine List.mem_flatten.2 ⟨((l.map HTree.root).filter (isLeafAt (canonTree (arena, some t.root)))).map fun i =>
    BitVec.ofNat 8 (((canonTree (arena, some t.root))[i]?.map HuffNode.code).getD 0), ?_, ?_⟩
  · refine List.mem_of_getElem? (i := e) ?_
    rw [List.getElem?_take, if_pos (by omega), hlevels, List.getElem?_map, List.getElem?_drop, Nat.add_comm 1 e,
      List.getElem?_map, hl]
    rfl
  · refine List.mem_map.2 ⟨j, List.mem_filter.2 ⟨List.mem_map.2 ⟨_, hmem, rfl⟩, hleaf⟩, ?_⟩
    rw [hcode]

/-- The tree of one leaf, and its table (rule R209). -/
theorem leafLevels_single (f x : Nat) :
    leafLevels (canonTree (mergeLeaves [⟨f, true, x, none, none, 0⟩]), (mergeLeaves [⟨f, true, x, none, none, 0⟩]).2) =
      [[BitVec.ofNat 8 x]] := by
  have hm : mergeLeaves [⟨f, true, x, none, none, 0⟩] =
      ([⟨f, true, x, none, none, 0⟩, ⟨f, false, 0, some 0, none, 1⟩], some 1) := rfl
  have hc : canonTree ([⟨f, true, x, none, none, 0⟩, ⟨f, false, 0, some 0, none, 1⟩], some 1) =
      [⟨f, true, x, none, none, 0⟩, ⟨f, false, 0, some 0, none, 1⟩] := rfl
  rw [hm, hc]
  rfl

/-- The one-symbol tree: its only leaf stands on level 1 (rule R209). -/
theorem mem_leafLevels_single {w : SymWidth} {G : List Nat} {x : Nat} (h : livingSymbols w G = [x]) :
    BitVec.ofNat 8 x ∈ ((leafLevels (canonTree (mergeLeaves (leavesOf w G)), (mergeLeaves (leavesOf w G)).2)).take
      16).flatten := by
  have hl : leavesOf w G = [⟨G.getD x 0, true, x, none, none, 0⟩] := by
    refine List.ext_getElem? fun j => ?_
    rw [leavesOf_getElem?, h]
    cases j <;> rfl
  rw [hl, leafLevels_single]
  exact List.mem_cons_self

/-- Every living symbol stands in the table of the tree that `limitDepth` and `canonicalise` leave. -/
theorem mem_leafLevels_limitLoop {w : SymWidth} {F : List Nat} {x : Nat} (hx : x < alphabet w) (hpos : 0 < F.getD x 0) :
    BitVec.ofNat 8 x ∈ ((leafLevels (canonTree (limitLoop w (scalingRounds F) F).2,
      (limitLoop w (scalingRounds F) F).2.2)).take 16).flatten := by
  obtain ⟨G, hG, hkeep, hend⟩ := limitLoop_spec w (scalingRounds F) (le_two_pow_scalingRounds F)
  rw [hG]
  have hmem : x ∈ livingSymbols w G := mem_livingSymbols.2 ⟨hx, hkeep x hpos⟩
  obtain ⟨j, hj⟩ := List.mem_iff_getElem?.1 hmem
  by_cases h2 : 2 ≤ (leavesOf w G).length
  · obtain ⟨t, ht⟩ := mergeLeaves_grown h2
    refine mem_leafLevels_of_grown ht ?_ hj
    rcases hend with hdeep | hone
    · rw [treeDepth, ht.root] at hdeep
      dsimp only at hdeep
      rwa [depthFrom_held ht.held (Nat.le_of_lt (height_lt_length ht.held ht.nodup))] at hdeep
    · exact ht.low hone
  · have hlen : (livingSymbols w G).length = 1 := by
      have := List.length_pos_of_mem hmem
      rw [leavesOf_length] at h2
      omega
    obtain ⟨y, hy⟩ := List.length_eq_one_iff.1 hlen
    rw [hy] at hmem
    obtain rfl := List.mem_singleton.1 hmem
    exact mem_leafLevels_single hy

/-! ## The table, and the codes -/

/-- Levels split off their concatenation by their lengths come back. -/
theorem mem_splitLevels {levels : List (List Byte)} (k : Nat) {l : List Byte} (h : l ∈ levels) :
    l ∈ splitLevels (levels.map List.length ++ List.replicate k 0) levels.flatten := by
  induction levels with
  | nil => cases h
  | cons m ms ih =>
    have hhead : (m ++ ms.flatten).take m.length ++ List.replicate (m.length - (m ++ ms.flatten).length) 0 = m := by
      rw [List.take_left, List.length_append, Nat.sub_add_eq, Nat.sub_self, Nat.zero_sub]
      exact List.append_nil m
    rw [List.map_cons, List.cons_append, List.flatten_cons, splitLevels, hhead, List.drop_left]
    rcases List.mem_cons.1 h with rfl | h
    · exact List.mem_cons_self
    · exact List.mem_cons_of_mem _ (ih h)

/-- The counts of a table filled from levels. -/
theorem fillTab_counts (t : List HuffNode × Option Nat) :
    (fillTab t).counts = ((leafLevels t).take 16).map List.length ++ List.replicate
      (16 - ((leafLevels t).take 16).length) 0 := by
  have hle : ((leafLevels t).take 16).length ≤ 16 := List.length_take_le ..
  generalize hls : (leafLevels t).take 16 = ls at hle
  refine List.ext_getElem? fun i => ?_
  by_cases hi : i < 16
  · have h1 : (fillTab t).counts[i]? = some (ls.getD i []).length := by
      rw [HuffTab.counts, List.getElem?_map, List.getElem?_range hi, Option.map_some, fillTab, hls,
        List.getD_eq_getElem?_getD, List.getElem?_map, List.getElem?_range hi]
      rfl
    rw [h1, List.getElem?_append, List.length_map]
    split
    · rename_i hlt
      rw [List.getElem?_map, List.getElem?_eq_getElem hlt, List.getD_eq_getElem _ _ hlt]
      rfl
    · rename_i hge
      rw [List.getElem?_replicate, if_pos (by omega), List.getD_eq_default _ _ (by omega)]
      rfl
  · rw [List.getElem?_eq_none (by rw [HuffTab.counts]; simpa using hi),
      List.getElem?_eq_none (by simp only [List.length_append, List.length_map, List.length_replicate]; omega)]

/-- Symbol `x` has a code. -/
def hasCode (codes : List (Option HuffCode)) (x : Nat) : Prop := ∃ c, codes[x]? = some (some c)

theorem hasCode_set {codes : List (Option HuffCode)} {x : Nat} (h : hasCode codes x) (y : Nat) (c : HuffCode) :
    hasCode (codes.set y (some c)) x := by
  obtain ⟨d, hd⟩ := h
  have hlt : x < codes.length := (List.getElem?_eq_some_iff.1 hd).1
  rw [hasCode, List.getElem?_set]
  split
  · exact ⟨c, if_pos (by omega)⟩
  · exact ⟨d, hd⟩

theorem hasCode_assignLevel {d code : Nat} {syms : List Byte} {codes : List (Option HuffCode)} {x : Nat}
    (h : hasCode codes x) : hasCode (assignLevel d code syms codes) x := by
  induction syms generalizing code codes with
  | nil => exact h
  | cons s t ih => exact ih (hasCode_set h _ _)

/-- Every symbol of a level is given a code. -/
theorem hasCode_assignLevel_mem {d code : Nat} {syms : List Byte} {codes : List (Option HuffCode)} {s : Byte}
    (h : s ∈ syms) (hlt : s.toNat < codes.length) : hasCode (assignLevel d code syms codes) s.toNat := by
  induction syms generalizing code codes with
  | nil => cases h
  | cons b t ih =>
    rw [assignLevel]
    rcases List.mem_cons.1 h with rfl | h
    · exact hasCode_assignLevel ⟨_, List.getElem?_set_self hlt⟩
    · exact ih h (by simpa using hlt)

theorem assignLevel_length (d code : Nat) (syms : List Byte) (codes : List (Option HuffCode)) :
    (assignLevel d code syms codes).length = codes.length := by
  induction syms generalizing code codes with
  | nil => rfl
  | cons s t ih => rw [assignLevel, ih, List.length_set]

theorem hasCode_assignFrom {d first : Nat} {levels : List (List Byte)} {codes : List (Option HuffCode)} {x : Nat}
    (h : hasCode codes x) : hasCode (assignFrom d first levels codes) x := by
  induction levels generalizing d first codes with
  | nil => exact h
  | cons l ls ih => exact ih (hasCode_assignLevel h)

theorem hasCode_assignFrom_mem {d first : Nat} {levels : List (List Byte)} {codes : List (Option HuffCode)}
    {l : List Byte}
    {s : Byte} (hl : l ∈ levels) (hs : s ∈ l) (hlt : s.toNat < codes.length) :
    hasCode (assignFrom d first levels codes) s.toNat := by
  induction levels generalizing d first codes with
  | nil => cases hl
  | cons m ms ih =>
    rw [assignFrom]
    rcases List.mem_cons.1 hl with rfl | hl
    · exact hasCode_assignFrom (hasCode_assignLevel_mem hs hlt)
    · exact ih hl (by rw [assignLevel_length]; exact hlt)

theorem alphabet_le (w : SymWidth) : alphabet w ≤ 256 := by cases w <;> decide

/-- A symbol of the table gets a code. -/
theorem hasCode_codesOf_fillTab {w : SymWidth} {t : List HuffNode × Option Nat} {x : Nat} (hx : x < alphabet w)
    (h : BitVec.ofNat 8 x ∈ ((leafLevels t).take 16).flatten) : hasCode (codesOf w (fillTab t)) x := by
  obtain ⟨l, hl, hs⟩ := List.mem_flatten.1 h
  have hn : (BitVec.ofNat 8 x).toNat = x := Nat.mod_eq_of_lt (Nat.lt_of_lt_of_le hx (alphabet_le w))
  have hsplit : l ∈ splitLevels (fillTab t).counts (fillTab t).hsym := by
    rw [fillTab_counts]
    exact mem_splitLevels _ hl
  have := hasCode_assignFrom_mem (d := 1) (first := 0) (codes := List.replicate (alphabet w) none) hsplit hs
    (by rw [hn, List.length_replicate]; exact hx)
  rwa [hn] at this

/-! ## `BuildTree` -/

theorem symbolsOf_lt {w : SymWidth} {v : Byte} {x : Nat} (h : x ∈ symbolsOf w v) : x < alphabet w := by
  have hv : v.toNat < 256 := v.isLt
  cases w with
  | raw => cases h
  | w8 => rw [List.mem_singleton.1 h]; exact hv
  | w4 =>
    simp only [symbolsOf, List.mem_cons, List.not_mem_nil, or_false] at h
    change x < 16
    omega

/-- A symbol that occurs is counted. -/
theorem tallySymbols_pos {w : SymWidth} {syms : List Nat} {x : Nat} (hx : x < alphabet w) (h : x ∈ syms) :
    0 < (tallySymbols w syms).getD x 0 := by
  rw [tallySymbols, List.getD_eq_getElem?_getD, List.getElem?_map, List.getElem?_range hx]
  exact List.count_pos_iff.2 h

/-- The codes `BuildTree` assigns are those of the canonical tree of the tallied frequencies. -/
theorem buildTree_hcode {s : State} (hw : s.call.hw ≠ .raw) : (buildTree s).call.hcode =
    codesOf s.call.hw (fillTab
      (canonTree (limitLoop s.call.hw (scalingRounds (tally s).call.freq) (tally s).call.freq).2,
        (limitLoop s.call.hw (scalingRounds (tally s).call.freq) (tally s).call.freq).2.2)) := by
  rw [buildTree, if_neg hw]
  rfl

/-- After `BuildTree` every symbol of every residual literal has a code. -/
theorem hasCode_buildTree {s : State} (hw : s.call.hw ≠ .raw) {v : Byte} {x : Nat}
    (hv : v ∈ residualLiterals s.workBytes (s.call.mlist.take s.call.mcount)) (hx : x ∈ symbolsOf s.call.hw v) :
    hasCode (buildTree s).call.hcode x := by
  have hlt := symbolsOf_lt hx
  have hpos : 0 < (tally s).call.freq.getD x 0 := tallySymbols_pos hlt (List.mem_flatMap.2 ⟨v, hv, hx⟩)
  rw [buildTree_hcode hw]
  exact hasCode_codesOf_fillTab hlt (mem_leafLevels_limitLoop hlt hpos)

end Sys2Proof.Machine
end

section
/-! ENCODE on two machines side by side: obligations O15 and O17. -/

namespace Sys2Proof.Machine

/-! ## The writer -/

/-- Two writers at the same place, over the same bytes. -/
structure SameSink (P : Prop) (k k' : Sink) : Prop where
  wr : k'.wr = k.wr
  len : k'.len = k.len
  dst : SameBytes P k.len k.dst k'.dst

theorem sameSink_emitWord {P : Prop} {k k' : Sink} (h : SameSink P k k') (f : Fmt) :
    SameSink P (k.emitWord f) (k'.emitWord f) := by
  unfold Sink.emitWord
  rw [h.wr, h.len]
  refine ⟨rfl, rfl, ?_⟩
  have := sameBytes_append h.dst (bytesOfWord f k.wr.acc)
  rwa [bytesOfWord_length] at this

theorem sameSink_place {P : Prop} {k k' : Sink} (h : SameSink P k k') (f : Fmt) (b : Bool) :
    SameSink P (k.place f b) (k'.place f b) := by
  unfold Sink.place
  rw [h.wr]
  exact ⟨rfl, h.len, h.dst⟩

theorem sameSink_putBits {P : Prop} {k k' : Sink} (h : SameSink P k k') (f : Fmt) (bits : List Bool) :
    SameSink P (k.putBits f bits) (k'.putBits f bits) := by
  induction bits generalizing k k' with
  | nil => exact h
  | cons b t ih =>
    have hp := sameSink_place h f b
    refine ih ?_
    unfold Sink.putBit
    dsimp only
    rw [hp.wr]
    split
    · exact sameSink_emitWord hp f
    · exact hp

theorem sameSink_flush {P : Prop} {k k' : Sink} (h : SameSink P k k') (f : Fmt) :
    SameSink P (k.flush f) (k'.flush f) := by
  unfold Sink.flush
  rw [h.wr]
  split
  · exact sameSink_emitWord h f
  · exact h

theorem pair_withSink {P : Prop} {s t : State} (h : Pair P s t) {k k' : Sink} (hk : SameSink P k k') :
    Pair P (s.withSink k) (t.withSink k') :=
  ⟨⟨h.inputs.fmt, h.inputs.kon, h.inputs.srcLen, h.inputs.src⟩, h.ident, h.dsize, hk.len, hk.dst, h.draws⟩

theorem Pair.sink {P : Prop} {s t : State} (h : Pair P s t) (hwr : t.call.wr = s.call.wr) : SameSink P s.sink t.sink :=
  ⟨hwr, h.dstLen, h.dst⟩

/-! ## The walk's matches -/

/-- The matches stand one after the other, from position `p` on. -/
def matchesFrom : Nat → List LzMatch → Prop
  | _, [] => True
  | p, m :: ms => p ≤ m.position ∧ matchesFrom (m.position + m.length) ms

theorem matchesFrom_mono {p q : Nat} {ms : List LzMatch} (h : matchesFrom q ms) (hpq : p ≤ q) : matchesFrom p ms := by
  cases ms with
  | nil => trivial
  | cons m ms => exact ⟨Nat.le_trans hpq h.1, h.2⟩

/-- No match from beyond `p` on covers `p`. -/
theorem not_covers_of_matchesFrom {p q : Nat} {ms : List LzMatch} (h : matchesFrom q ms) (hpq : p < q) :
    ∀ m ∈ ms, ¬ m.covers p = true := by
  induction ms generalizing q with
  | nil => exact fun m hm => absurd hm List.not_mem_nil
  | cons a ms ih =>
    obtain ⟨ha, hr⟩ := h
    intro m hm
    rcases List.mem_cons.1 hm with rfl | hm
    · simp only [LzMatch.covers, Bool.and_eq_true, decide_eq_true_eq]
      omega
    · exact ih hr (by omega) m hm

/-- The walk takes matches one after the other (rule R186). -/
theorem matchesFrom_walkFrom (n : Nat) (cand : List (Option (Nat × Nat))) (adv : List Nat) (fuel p : Nat) :
    matchesFrom p (walkFrom n cand adv fuel p).1 := by
  induction fuel generalizing p with
  | zero => trivial
  | succ fuel ih =>
    have hrest : matchesFrom p (walkFrom n cand adv fuel (p + adv.getD p 0)).1 :=
      matchesFrom_mono (ih _) (Nat.le_add_right _ _)
    rw [walkFrom]
    split
    · dsimp only
      split
      · split
        · exact ⟨Nat.le_refl _, ih _⟩
        · exact hrest
      · exact hrest
    · trivial

/-! ## The emitter -/

/-- A byte at a position no match covers is a residual literal. -/
theorem mem_residualLiterals {B : List Byte} {ms : List LzMatch} {p : Nat} (hp : p < B.length)
    (h : ∀ m ∈ ms, ¬ m.covers p = true) : B.getD p 0 ∈ residualLiterals B ms := by
  refine List.mem_map.2 ⟨(B.getD p 0, p), List.mem_filter.2 ⟨?_, ?_⟩, rfl⟩
  · refine List.mem_iff_getElem?.2 ⟨p, ?_⟩
    rw [List.getElem?_zipIdx, List.getElem?_eq_getElem hp, List.getD_eq_getElem _ _ hp]
    simp
  · have hany : (ms.any fun m => m.covers p) = false := List.any_eq_false.2 h
    simp [hany]

/-- The emitter sends only residual literals as literals, so codes that agree on these send the same bits. -/
theorem sameSink_emitFrom {P : Prop} (e : EmitEnv) {code : Nat → HuffCode}
    (hcode : ∀ v ∈ residualLiterals e.bytes e.mlist, valueStream e.fmt e.hw code v = valueStream e.fmt e.hw e.code v)
    (fuel p : Nat) {k k' : Sink} {pre suf : List LzMatch} (hml : e.mlist = pre ++ suf)
    (hpre : ∀ m ∈ pre, m.position + m.length ≤ p) (hsuf : matchesFrom p suf) (h : SameSink P k k') :
    (emitFrom { e with code := code } fuel p pre.length k').1 = (emitFrom e fuel p pre.length k).1 ∧
      (emitFrom { e with code := code } fuel p pre.length k').2.1 = (emitFrom e fuel p pre.length k).2.1 ∧
      SameSink P (emitFrom e fuel p pre.length k).2.2 (emitFrom { e with code := code } fuel p pre.length k').2.2 := by
  induction fuel generalizing p k k' pre suf with
  | zero => exact ⟨rfl, rfl, h⟩
  | succ fuel ih =>
    rw [emitFrom, emitFrom]
    split
    · rename_i hlt
      have literal (hfree : matchesFrom (p + 1) suf) :=
        have hres : e.bytes.getD p 0 ∈ residualLiterals e.bytes e.mlist := by
          refine mem_residualLiterals hlt fun m hm => ?_
          rcases List.mem_append.1 (hml ▸ hm) with hm | hm
          · have := hpre m hm
            simp only [LzMatch.covers, Bool.and_eq_true, decide_eq_true_eq]
            omega
          · exact not_covers_of_matchesFrom hfree (Nat.lt_succ_self p) m hm
        have hstream : k'.writeLit e.fmt e.hw code (e.bytes.getD p 0) =
            k'.putBits e.fmt ((Token.lit (e.bytes.getD p 0)).stream e.fmt e.row e.hw e.code) := by
          rw [writeLit_eq (row := e.row), Token.stream, Token.stream, hcode _ hres]
        have hsink : SameSink P (k.writeLit e.fmt e.hw e.code (e.bytes.getD p 0))
            (k'.writeLit e.fmt e.hw code (e.bytes.getD p 0)) := by
          rw [hstream, writeLit_eq (row := e.row)]
          exact sameSink_putBits h _ _
        ih (p + 1) (pre := pre) hml (fun m hm => Nat.le_succ_of_le (hpre m hm)) hfree hsink
      have hget : e.mlist[pre.length]? = suf.head? := by
        rw [hml, List.getElem?_append_right (Nat.le_refl _), Nat.sub_self, List.head?_eq_getElem?]
      dsimp only
      rw [hget]
      cases suf with
      | nil => exact literal trivial
      | cons m suf =>
        obtain ⟨hm, hr⟩ := hsuf
        dsimp only [List.head?_cons]
        split
        · rename_i heq
          have hsink : SameSink P (k.writeMatch e.fmt e.row m) (k'.writeMatch e.fmt e.row m) := by
            rw [writeMatch_eq e.fmt e.row e.hw e.code m k, writeMatch_eq e.fmt e.row e.hw e.code m k']
            exact sameSink_putBits h _ _
          have hnext := ih (p + m.length) (pre := pre ++ [m]) (suf := suf) (by rw [hml, List.append_assoc]; rfl)
            (fun x hx => ?_) (heq ▸ hr) hsink
          · rwa [List.length_append] at hnext
          · rcases List.mem_append.1 hx with hx | hx
            · exact Nat.le_trans (hpre x hx) (Nat.le_add_right _ _)
            · rw [List.mem_singleton.1 hx, heq]
        · exact literal ⟨by omega, hr⟩
    · exact ⟨rfl, rfl, h⟩

/-! ## ENCODE's phases -/

/-- Two machines inside ENCODE: the same data in `WORK`, and `Q` between their per-call states. -/
structure Encoding (P : Prop) (Q : Call → Call → Prop) (s t : State) : Prop where
  pair : Pair P s t
  work : SameBytes False s.dsize s.work t.work
  call : Q s.call t.call

/-- The same symbol width. -/
def sameHw (c d : Call) : Prop := d.hw = c.hw

/-- The same width and candidates. -/
def sameCand (c d : Call) : Prop := d.hw = c.hw ∧ d.cand = c.cand

/-- The same width, candidates and advances. -/
def sameAdv (c d : Call) : Prop := d.hw = c.hw ∧ d.cand = c.cand ∧ d.adv = c.adv

/-- The same width and chosen matches. -/
def sameList (c d : Call) : Prop := d.hw = c.hw ∧ d.mlist = c.mlist ∧ d.mcount = c.mcount

/-- The same matches, and the same tables where the mode is coded. -/
def sameTables (c d : Call) : Prop := sameList c d ∧ (c.hw ≠ .raw → d.ht = c.ht ∧ d.hcode = c.hcode)

section
variable {P : Prop} {Q : Call → Call → Prop} {s t : State}

theorem Encoding.workBytes (h : Encoding P Q s t) : t.workBytes = s.workBytes := by
  rw [State.workBytes, State.workBytes, h.pair.dsize]
  exact slice_congr _ _ _ _ fun a _ ha => h.work.1 a (by omega)

theorem encoding_setPhase (h : Encoding P Q s t) (p : Phase) : Encoding P Q (setPhase p s) (setPhase p t) :=
  ⟨pair_setPhase h.pair p, h.work, h.call⟩

theorem encoding_withCall (h : Encoding P Q s t) {Q' : Call → Call → Prop} {c d : Call} (hq : Q' c d) :
    Encoding P Q' (s.withCall c) (t.withCall d) := ⟨pair_withCall h.pair c d, h.work, hq⟩

theorem encoding_obfuscate (h : Encoding P Q s t) :
    Encoding P Q (if hasTransform s then obfuscateWork (setPhase .obfuscate s) else s)
      (if hasTransform t then obfuscateWork (setPhase .obfuscate t) else t) := by
  have htr : hasTransform t = hasTransform s := by rw [hasTransform, hasTransform, h.pair.ident, h.pair.dsize]
  rw [htr]
  split
  · have hp := pair_setPhase h.pair .obfuscate
    refine ⟨⟨⟨hp.inputs.fmt, hp.inputs.kon, hp.inputs.srcLen, hp.inputs.src⟩, hp.ident, hp.dsize, hp.dstLen, hp.dst,
      hp.draws⟩,
      ?_, h.call⟩
    have hbytes : t.work.slice 0 t.dsize = s.work.slice 0 s.dsize := h.workBytes
    change SameBytes False s.dsize (s.work.writeList 0 (obfOf s.kon (omodeOf s.ident).toNat (s.work.slice 0 s.dsize)))
      (t.work.writeList 0 (obfOf t.kon (omodeOf t.ident).toNat (t.work.slice 0 t.dsize)))
    rw [hbytes, h.pair.ident, h.pair.inputs.kon]
    exact sameBytes_writeList h.work 0 _
  · exact h

theorem alike_findMatches (h : Encoding P sameHw s t) :
    alike (Encoding P sameCand) (SameOutput P) (findMatches s) (findMatches t) := by
  refine alike_withRow h.pair.row h.pair.same fun row => alike_ok (encoding_withCall h ⟨h.call, ?_⟩)
  exact congrArg (findCands row) h.workBytes

theorem alike_parseCostToEnd (h : Encoding P sameCand s t) :
    alike (Encoding P sameAdv) (SameOutput P) (parseCostToEnd s) (parseCostToEnd t) := by
  obtain ⟨hw, hcand⟩ := h.call
  refine alike_withRow h.pair.row h.pair.same fun row => alike_ok (encoding_withCall h ⟨hw, hcand, ?_⟩)
  rw [h.pair.inputs.kon, h.pair.ident, h.workBytes, hcand]

theorem encoding_parseWalk (h : Encoding P sameAdv s t) : Encoding P sameList (parseWalk s) (parseWalk t) := by
  obtain ⟨hw, hcand, hadv⟩ := h.call
  unfold parseWalk
  rw [hcand, hadv, h.pair.dsize]
  exact encoding_withCall h ⟨hw, rfl, rfl⟩

theorem encoding_buildTree (h : Encoding P sameList s t) (hraw : s.call.hw ≠ .raw) :
    Encoding P sameTables (buildTree s) (buildTree t) := by
  obtain ⟨hw, hlist, hcount⟩ := h.call
  have hfreq : (tally t).call.freq = (tally s).call.freq := by
    change tallySymbols t.call.hw ((residualLiterals t.workBytes (t.call.mlist.take t.call.mcount)).flatMap
      (symbolsOf t.call.hw)) = _
    rw [hw, hlist, hcount, h.workBytes]
    rfl
  have hlimit : (limitDepth (tally t)).tree = (limitDepth (tally s)).tree := by
    change (limitLoop t.call.hw (scalingRounds (tally t).call.freq) (tally t).call.freq).2 = _
    rw [hfreq, hw]
    rfl
  have htree : (canonicalise (limitDepth (tally t))).tree = (canonicalise (limitDepth (tally s))).tree := by
    change (canonTree (limitDepth (tally t)).tree, (limitDepth (tally t)).tree.2) = _
    rw [hlimit]
    rfl
  have hht : (buildTree t).call.ht = (buildTree s).call.ht := by
    rw [buildTree, buildTree, if_neg hraw, if_neg (hw ▸ hraw)]
    exact congrArg fillTab htree
  have hcodes {u : State} (hu : u.call.hw ≠ .raw) : (buildTree u).call.hcode =
    codesOf u.call.hw (buildTree u).call.ht := by
    rw [buildTree, if_neg hu]
    rfl
  have hs := built_buildTree s
  have ht := built_buildTree t
  have hcall {u : State} (hu : Built u (buildTree u)) : (buildTree u).call.hw = u.call.hw ∧
      (buildTree u).call.mlist = u.call.mlist ∧ (buildTree u).call.mcount = u.call.mcount := by
    rw [hu.call]
    exact ⟨rfl, rfl, rfl⟩
  obtain ⟨hws, hls, hcs⟩ := hcall hs
  obtain ⟨hwt, hlt, hct⟩ := hcall ht
  have hq : sameTables (buildTree s).call (buildTree t).call := by
    refine ⟨⟨by rw [hws, hwt, hw], by rw [hls, hlt, hlist], by rw [hcs, hct, hcount]⟩, fun _ => ⟨hht, ?_⟩⟩
    rw [hcodes hraw, hcodes (hw ▸ hraw), hht, hw]
  rw [hs.whole, ht.whole]
  exact encoding_withCall h hq

/-- The phase `BuildTree` as ENCODE runs it: where the mode is coded. -/
theorem encoding_buildPhase (h : Encoding P sameList s t) :
    Encoding P sameTables (if s.call.hw = .raw then s else buildTree (setPhase .buildTree s))
      (if t.call.hw = .raw then t else buildTree (setPhase .buildTree t)) := by
  have hw : t.call.hw = s.call.hw := h.call.1
  rw [hw]
  split
  · rename_i hraw
    exact ⟨h.pair, h.work, h.call, fun hn => absurd hraw hn⟩
  · rename_i hraw
    exact encoding_buildTree (encoding_setPhase h .buildTree) hraw

theorem headerBytes_same (h : Pair P s t) : headerBytes t = headerBytes s := by
  rw [headerBytes, headerBytes, h.inputs.fmt, h.dsize, h.ident]

/-- The header over outputs that are, with `P`, the same memory. -/
theorem sameBytes_header (h : Pair P s t) :
    SameBytes P s.fmt.hdrLen (s.dst.writeList 0 (headerBytes s)) (t.dst.writeList 0 (headerBytes t)) := by
  rw [headerBytes_same h]
  refine ⟨fun a ha => ?_, fun p => by rw [h.dst.2 p]⟩
  rw [read_writeList, read_writeList, headerBytes_length, if_pos (by omega), if_pos (by omega)]

/-- `WriteHeader` of an empty input. -/
theorem pair_writeHeader_empty (h : Pair P s t) (h0 : s.dsize = 0) : Pair P (writeHeader s) (writeHeader t) := by
  have hs : writeHeader s = s.withDst (s.dst.writeList 0 (headerBytes s)) s.fmt.hdrLen := if_pos h0
  have ht : writeHeader t = t.withDst (t.dst.writeList 0 (headerBytes t)) t.fmt.hdrLen := if_pos (h.dsize.trans h0)
  rw [hs, ht, h.inputs.fmt]
  exact pair_withDst h (sameBytes_header h)

/-- `WriteHeader` of data: the header, and the tree table where the mode is coded. -/
theorem encoding_writeHeader (h : Encoding P sameTables s t) (h0 : s.dsize ≠ 0) :
    Encoding P (fun c d => sameTables c d ∧ d.wr = c.wr) (writeHeader s) (writeHeader t) := by
  obtain ⟨hlist, htab⟩ := h.call
  rw [writeHeader_bits s h0, writeHeader_bits t (h.pair.dsize ▸ h0), hlist.1, h.pair.inputs.fmt]
  have hbits : (if s.call.hw = .raw then [] else
        tableStream s.fmt s.call.hw (splitLevels t.call.ht.counts t.call.ht.hsym)) =
      if s.call.hw = .raw then [] else tableStream s.fmt s.call.hw (splitLevels s.call.ht.counts s.call.ht.hsym) := by
    split
    · rfl
    · rename_i hraw
      rw [(htab hraw).1]
  rw [hbits]
  have hsink : SameSink P ⟨⟨0, 0, 0⟩, s.dst.writeList 0 (headerBytes s), s.fmt.hdrLen⟩
      ⟨⟨0, 0, 0⟩, t.dst.writeList 0 (headerBytes t), s.fmt.hdrLen⟩ := ⟨rfl, rfl, sameBytes_header h.pair⟩
  have hput := sameSink_putBits hsink s.fmt
    (if s.call.hw = .raw then [] else tableStream s.fmt s.call.hw (splitLevels s.call.ht.counts s.call.ht.hsym))
  exact ⟨pair_withSink h.pair hput, h.work, ⟨hlist, htab⟩, hput.wr⟩

/-- What the emitter needs of the tables: the walk's matches, and a code for every symbol of a residual literal. -/
structure Emittable (s : State) : Prop where
  ordered : matchesFrom 0 (s.call.mlist.take s.call.mcount)
  coded : s.call.hw ≠ .raw → ∀ v ∈ residualLiterals s.workBytes (s.call.mlist.take s.call.mcount),
    ∀ x ∈ symbolsOf s.call.hw v, hasCode s.call.hcode x

theorem codeFor_of_hasCode {codes : List (Option HuffCode)} {x : Nat} (h : hasCode codes x) (m n : Nat) :
    codeFor m codes x = codeFor n codes x := by
  obtain ⟨c, hc⟩ := h
  simp [codeFor, hc]

/-- The bits of a literal depend only on the codes of its symbols. -/
theorem valueStream_congr (f : Fmt) (w : SymWidth) {code code' : Nat → HuffCode} {v : Byte}
    (h : ∀ x ∈ symbolsOf w v, code' x = code x) : valueStream f w code' v = valueStream f w code v := by
  cases w with
  | raw => rfl
  | w8 => simp only [valueStream, h v.toNat List.mem_cons_self]
  | w4 =>
    simp only [valueStream, h (v.toNat / 16) List.mem_cons_self,
      h (v.toNat % 16) (List.mem_cons_of_mem _ List.mem_cons_self)]

theorem alike_emit (h : Encoding P (fun c d => sameTables c d ∧ d.wr = c.wr) s t) (he : Emittable s) :
    alike (fun u v => Pair P u v ∧ v.call.wr = u.call.wr) (SameOutput P) (emit s) (emit t) := by
  obtain ⟨⟨⟨hw, hlist, hcount⟩, htab⟩, hwr⟩ := h.call
  refine alike_withRow h.pair.row h.pair.same fun row => alike_ok ?_
  have henv : t.emitEnv row = { s.emitEnv row with code := t.codeOf } := by
    rw [State.emitEnv, State.emitEnv, h.pair.inputs.fmt, hw, hlist, hcount, h.workBytes]
  have hcode : ∀ v ∈ residualLiterals (s.emitEnv row).bytes (s.emitEnv row).mlist,
      valueStream (s.emitEnv row).fmt (s.emitEnv row).hw t.codeOf v =
        valueStream (s.emitEnv row).fmt (s.emitEnv row).hw (s.emitEnv row).code v := fun v hv => by
    refine valueStream_congr _ _ fun x hx => ?_
    have hraw : s.call.hw ≠ .raw := fun hr => by
      rw [show (s.emitEnv row).hw = s.call.hw from rfl, hr] at hx
      cases hx
    change codeFor t.draws t.call.hcode x = codeFor s.draws s.call.hcode x
    rw [(htab hraw).2]
    exact codeFor_of_hasCode (he.coded hraw v hv x hx) _ _
  have hemit := sameSink_emitFrom (s.emitEnv row) hcode ((s.emitEnv row).bytes.length + (s.emitEnv row).mlist.length) 0
    (pre := []) rfl (fun m hm => absurd hm List.not_mem_nil) he.ordered (h.pair.sink hwr)
  obtain ⟨_, _, hsink⟩ := hemit
  unfold emitTokens
  rw [henv]
  exact ⟨pair_withCall (pair_withSink h.pair hsink) _ _, hsink.wr⟩

/-! ### What the phases before the emitter leave it -/

/-- The walk's list is the walk's matches. -/
theorem parseWalk_ordered (s : State) : matchesFrom 0 ((parseWalk s).call.mlist.take (parseWalk s).call.mcount) := by
  change matchesFrom 0 ((walkFrom s.dsize s.call.cand s.call.adv s.dsize 0).1.take
    (walkFrom s.dsize s.call.cand s.call.adv s.dsize 0).1.length)
  rw [List.take_length]
  exact matchesFrom_walkFrom _ _ _ _ _

theorem emittable_buildPhase {u : State} (h : matchesFrom 0 (u.call.mlist.take u.call.mcount)) :
    Emittable (if u.call.hw = .raw then u else buildTree (setPhase .buildTree u)) := by
  split
  · exact ⟨h, fun hn => absurd ‹_› hn⟩
  · rename_i hraw
    have hb := built_buildTree (setPhase .buildTree u)
    have hcall : (buildTree (setPhase .buildTree u)).call.hw = u.call.hw ∧
        (buildTree (setPhase .buildTree u)).call.mlist = u.call.mlist ∧
        (buildTree (setPhase .buildTree u)).call.mcount = u.call.mcount := by
      rw [hb.call]
      exact ⟨rfl, rfl, rfl⟩
    have hwork : (buildTree (setPhase .buildTree u)).workBytes = u.workBytes := by
      rw [hb.whole]
      rfl
    obtain ⟨hw, hl, hc⟩ := hcall
    refine ⟨by rw [hl, hc]; exact h, fun _ v hv x hx => ?_⟩
    rw [hwork, hl, hc] at hv
    rw [hw] at hx
    exact hasCode_buildTree (s := setPhase .buildTree u) hraw hv hx

/-- The header and the tree table leave the emitter's tables as they are. -/
theorem emittable_writeHeader {u : State} (h : Emittable u) (h0 : u.dsize ≠ 0) (p q : Phase) :
    Emittable (setPhase q (writeHeader (setPhase p u))) := by
  rw [writeHeader_bits (setPhase p u) h0]
  exact ⟨h.ordered, h.coded⟩

/-! ### The phases together -/

theorem findMatches_ok {u v : State} (h : findMatches u = .ok () v) : ∃ c, v = u.withCall c := by
  rcases findMatches_cases u with ⟨_, e⟩ | ⟨_, _, e⟩ <;> rw [e] at h <;> cases h
  exact ⟨_, rfl⟩

theorem parseCostToEnd_ok {u v : State} (h : parseCostToEnd u = .ok () v) : ∃ c, v = u.withCall c := by
  rcases parseCostToEnd_cases u with ⟨_, e⟩ | ⟨_, _, _, _, _, e⟩ <;> rw [e] at h <;> cases h
  exact ⟨_, rfl⟩

theorem dsize_obfuscatePhase (u : State) :
    (if hasTransform u then obfuscateWork (setPhase .obfuscate u) else u).dsize = u.dsize := by
  split <;> rfl

theorem dsize_buildPhase (u : State) :
    (if u.call.hw = .raw then u else buildTree (setPhase .buildTree u)).dsize = u.dsize := by
  split
  · rfl
  · rw [(built_buildTree (setPhase .buildTree u)).whole]
    rfl

theorem alike_encodePhases (h : Encoding P sameHw s t) (h0 : s.dsize ≠ 0) :
    alike (Pair P) (SameOutput P) (encodePhases s) (encodePhases t) := by
  have hfind := alike_findMatches (encoding_setPhase (encoding_obfuscate h) .findMatches)
  refine alike_andThen hfind fun _ s1 t1 hs1 _ h1 => ?_
  refine alike_andThen (alike_parseCostToEnd (encoding_setPhase h1 .parse)) fun _ s2 t2 hs2 _ h2 => ?_
  have hsize : s2.dsize ≠ 0 := by
    obtain ⟨c1, rfl⟩ := findMatches_ok hs1
    obtain ⟨c2, rfl⟩ := parseCostToEnd_ok hs2
    change (if hasTransform s then obfuscateWork (setPhase .obfuscate s) else s).dsize ≠ 0
    rwa [dsize_obfuscatePhase]
  have h3 := encoding_buildPhase (encoding_parseWalk h2)
  have hsize3 := (dsize_buildPhase (parseWalk s2)).trans_ne hsize
  have hemit := emittable_buildPhase (parseWalk_ordered s2)
  have h4 := encoding_writeHeader (encoding_setPhase h3 .writeHeader) hsize3
  refine alike_andThen (alike_emit (encoding_setPhase h4 .emit) (emittable_writeHeader hemit hsize3 _ _))
    fun _ s5 t5 _ _ h5 => alike_ok ?_
  unfold flush
  rw [h5.1.inputs.fmt]
  exact pair_withSink h5.1 (sameSink_flush (h5.1.sink h5.2) _)

theorem alike_checkConfig (hi : SameInputs s t) (ho : SameOutput P s t) (hcfg : t.cfg = s.cfg) :
    alike (fun u v => SameInputs u v ∧ (P → v.draws = u.draws) ∧ v.ident = u.ident ∧ v.call.hw = u.call.hw)
      (SameOutput P)
      (checkConfig s) (checkConfig t) := by
  unfold checkConfig State.cfgValid State.cfgIdent
  rw [hcfg]
  split
  · have ho' : SameOutput P (s.withIdent (s.cfg.extractLsb' 0 8)) (t.withIdent (s.cfg.extractLsb' 0 8)) := fun p => by
      obtain ⟨_, h2, h3, h4, h5⟩ := ho p
      exact ⟨rfl, h2, h3, h4, h5⟩
    unfold checkModes
    rw [withIdent_ident, withIdent_ident, withIdent_kon, withIdent_kon, hi.kon]
    split
    · exact alike_raised ho'
    · split
      · exact alike_raised ho'
      · exact alike_ok ⟨⟨hi.fmt, hi.kon, hi.srcLen, hi.src⟩, fun p => (ho p).2.2.2.2, rfl, rfl⟩
  · exact alike_raised ho

theorem encoding_materialize (hi : SameInputs s t) (hd : P → t.draws = s.draws) (hident : t.ident = s.ident)
    (hw : t.call.hw = s.call.hw) : Encoding P sameHw (materialize s) (materialize t) := by
  refine ⟨⟨⟨hi.fmt, hi.kon, hi.srcLen, hi.src⟩, hident, hi.srcLen, rfl, ⟨fun a ha => ?_, fun p => ?_⟩, fun p => ?_⟩,
    ⟨fun a ha => ?_, False.elim⟩, hw⟩
  · exact absurd ha (Nat.not_lt_zero a)
  · exact congrArg (fun n => Mem.mk n []) (hd p)
  · exact congrArg (· + 2) (hd p)
  · have ha' : a < s.srcLen := ha
    rw [materialize_work t a (hi.srcLen ▸ ha'), materialize_work s a ha']
    exact hi.src a ha'

/-- ENCODE on two machines with the same inputs and configuration. -/
theorem alike_runEncode (hi : SameInputs s t) (ho : SameOutput P s t) (hcfg : t.cfg = s.cfg) :
    alike (Pair P) (SameOutput P) (runEncode s) (runEncode t) := by
  have hcheck := alike_checkConfig (P := P) (s := startCommand .checkConfig s) (t := startCommand .checkConfig t)
    ⟨hi.fmt, hi.kon, hi.srcLen, hi.src⟩ ho hcfg
  refine alike_andThen hcheck fun _ s1 t1 _ _ ⟨h1, h2, h3, h4⟩ => ?_
  have hmat := encoding_materialize (P := P) (s := setPhase .materialize s1) (t := setPhase .materialize t1)
    ⟨h1.fmt, h1.kon, h1.srcLen, h1.src⟩ h2 h3 h4
  dsimp only
  rw [hmat.pair.dsize]
  split
  · rename_i h0
    exact alike_ok (pair_writeHeader_empty (pair_setPhase hmat.pair .writeHeader) h0)
  · rename_i h0
    exact alike_encodePhases hmat h0

end

/-! ## The commands -/

/-- The end of ENCODE on two results alike. -/
theorem endEncode_alike {P : Prop} {r r' : Run State Unit} (h : alike (Pair P) (SameOutput P) r r') :
    (endEncode r').phase = (endEncode r).phase ∧ (endEncode r').err = (endEncode r).err ∧
      SameOutput P (endEncode r) (endEncode r') ∧ ((endEncode r).phase = .done →
        Pair P (endEncode r) (endEncode r')) := by
  rcases alike_cases h with ⟨_, s, t, rfl, rfl, hst⟩ | ⟨k, s, t, rfl, rfl, hst⟩
  · have hend : Pair P (freeCall (endDone s)) (freeCall (endDone t)) :=
      ⟨⟨hst.inputs.fmt, hst.inputs.kon, hst.inputs.srcLen, hst.inputs.src⟩, hst.ident, hst.dsize, hst.dstLen, hst.dst,
        fun p => congrArg (· + 1) (hst.draws p)⟩
    exact ⟨rfl, rfl, hend.same, fun _ => hend⟩
  · refine ⟨rfl, rfl, fun p => ?_, nofun⟩
    obtain ⟨h1, h2, h3, h4, h5⟩ := hst p
    exact ⟨h1, h2, h3, h4, congrArg (· + 1) h5⟩

/-- ENCODE does the same on machines that agree on all it reads. -/
theorem encodeCommand_resembles {s s' : State} (h : Resembles s s') (hcfg : s'.cfg = s.cfg) :
    endEncode (runEncode s') = { endEncode (runEncode s) with cfg := s'.cfg } := by
  obtain ⟨hp, he, ho, _⟩ := endEncode_alike (alike_runEncode h.inputs h.output hcfg)
  exact h.ends_eq (keeps_encodeCommand s) (keeps_encodeCommand s') hp he ho (freed_endEncode _) (freed_endEncode _)

/-- Storing the configuration a state has changes nothing. -/
theorem withCfg_self {u : State} {v : BitVec 9} (h : u.cfg = v) : { u with cfg := v } = u := by
  subst h
  rfl

/-- Settles O15: the command from the two states, side by side. -/
theorem commandsForgetCallState : Obligations.CommandsForgetCallState := by
  intro i s c w p e hi hb hp
  have hr : Resembles s { s with call := c, work := w, phase := p, err := e } :=
    ⟨rfl, rfl, rfl, rfl, rfl, rfl, rfl, fun _ => ⟨rfl, rfl, rfl, rfl, rfl⟩⟩
  have hb' : State.busy { s with call := c, work := w, phase := p, err := e } = false := hp
  rcases hi with rfl | rfl
  · have hcmd := (decodeCommand_resembles hr).trans (withCfg_self (keeps_decodeCommand s).cfg)
    exact (hostMove_idle hb' _).trans ((congrArg Host.Outcome.next hcmd).trans (hostMove_idle hb _).symm)
  · have hcmd := (encodeCommand_resembles hr rfl).trans (withCfg_self (keeps_encodeCommand s).cfg)
    have hout := congrArg (fun u : State =>
      if s.fmt.maxInput < s.srcLen then .refused .inputTooLong else
        (Host.Outcome.next u : Host.Outcome State Fault Refusal)) hcmd
    exact (hostMove_idle hb' _).trans (hout.trans (hostMove_idle hb _).symm)

/-- Settles O17: the two machines run the command side by side, without a common counter of draws. -/
theorem commandsAreFunctions : Obligations.CommandsAreFunctions := by
  intro i s s' t t' hi hrec hf hk hl hcfg hsrc h h'
  have hin : SameInputs s s' := ⟨hf, hk, hl, hsrc⟩
  have close {t t' : State} (hp : t'.phase = t.phase) (he : t'.err = t.err) (hd : t.phase = .done → Pair False t t') :
      t'.phase = t.phase ∧ t'.err = t.err ∧ (t.phase = .done →
        t'.ident = t.ident ∧ t'.dsize = t.dsize ∧ t'.dstLen = t.dstLen ∧ ∀ a, a < t.dstLen →
          t'.dst.read a = t.dst.read a) :=
    ⟨hp, he, fun hdone => ⟨(hd hdone).ident, (hd hdone).dsize, (hd hdone).dstLen, (hd hdone).dst.1⟩⟩
  rcases hi with rfl | rfl
  · cases hostEnds rfl h
    cases hostEnds rfl h'
    obtain ⟨hp, he, _, hd⟩ := endDecode_alike (alike_runDecode (.inr hrec) hin (False.elim ·))
    exact close hp he hd
  · cases hostEnds rfl h
    cases hostEnds rfl h'
    obtain ⟨hp, he, _, hd⟩ := endEncode_alike (alike_runEncode hin (False.elim ·) (hcfg rfl))
    exact close hp he hd

end Sys2Proof.Machine
end

section
/-! PROOF. The six forms of a `MATCH` token given as a word: the copy of rule R70 and the refusals of rule R323. -/

namespace Sys2Proof.Machine

/-! ## The length of a match (rule R103) -/

/-- Without an extension the length is `MINLEN` plus the field, the escape value included. -/
@[simp] theorem assembleLen_zero (row : ModeRow) (f : Nat) : assembleLen row f 0 = row.minLen + f := by
  unfold assembleLen
  split
  · next h => rw [h.2, Nat.add_zero]
  · rfl

theorem assembleLen_esc {row : ModeRow} (h : 0 < row.extBits) (e : Nat) :
    assembleLen row row.esc e = row.minLen + row.esc + e := if_pos ⟨h, rfl⟩

/-! ## The checks and the copy -/

theorem runMatch_copies {s : State} (hpos : 1 ≤ s.call.tk.disp) (hdisp : s.call.tk.disp ≤ s.dstLen)
    (hlen : s.call.tk.len ≤ s.dsize - s.dstLen) :
    ∃ m, runMatch s = .ok () (s.withDst m (s.dstLen + s.call.tk.len)) ∧
      (∀ k, k < s.call.tk.len → m.read (s.dstLen + k) = m.read (s.dstLen + k - s.call.tk.disp)) ∧
      ∀ a, a < s.dstLen ∨ s.dstLen + s.call.tk.len ≤ a → m.read a = s.dst.read a := by
  rcases runMatch_cases s with ⟨hbad, _⟩ | ⟨_, _, hrun⟩
  · omega
  · exact ⟨_, hrun, fun k hk => copyBytes_byte _ _ _ _ k hpos hdisp hk, fun a ha => copyBytes_outside _ _ _ _ a ha⟩

theorem runMatch_refuses {s : State} (h : s.dstLen < s.call.tk.disp ∨ s.dsize - s.dstLen < s.call.tk.len) :
    runMatch s = .raised .corruptStream s := by
  rcases runMatch_cases s with ⟨_, hrun⟩ | ⟨_, _, _⟩
  · exact hrun
  · omega

/-! ## The six rows -/

/-- The five forms that send no extension differ only in their mode's row. -/
theorem settle_matchToken_zero (row : ModeRow) (f d : Nat) (s : State) :
    settle (matchToken (assembleLen row f 0) (assembleDisp d) s) = settle (matchToken (row.minLen + f) (d + 1) s) := by
  rw [assembleLen_zero, assembleDisp]

theorem exec_matchLz412 (l : BitVec 4) (d : BitVec 12) (s : State) :
    exec (.matchLz412 l d) s = settle (matchToken (3 + l.toNat) (d.toNat + 1) s) :=
  settle_matchToken_zero rowLz412 l.toNat d.toNat s

theorem exec_matchLz38 (l : BitVec 3) (d : BitVec 8) (s : State) :
    exec (.matchLz38 l d) s = settle (matchToken (2 + l.toNat) (d.toNat + 1) s) :=
  settle_matchToken_zero rowLz38 l.toNat d.toNat s

theorem exec_matchLz816 (l : BitVec 8) (d : BitVec 16) (s : State) :
    exec (.matchLz816 l d) s = settle (matchToken (3 + l.toNat) (d.toNat + 1) s) :=
  settle_matchToken_zero rowLz816 l.toNat d.toNat s

theorem exec_matchLzd115 (d : BitVec 11) (l : BitVec 5) (s : State) :
    exec (.matchLzd115 d l) s = settle (matchToken (3 + l.toNat) (d.toNat + 1) s) :=
  settle_matchToken_zero rowLzd115 l.toNat d.toNat s

/-- The escape value `1111` in the short form too is a length of its own, 18 (log entry 26). -/
theorem exec_matchLzx412Short (l : BitVec 4) (d : BitVec 12) (s : State) :
    exec (.matchLzx412Short l d) s = settle (matchToken (3 + l.toNat) (d.toNat + 1) s) :=
  settle_matchToken_zero rowLzx412 l.toNat d.toNat s

theorem exec_matchLzx412Ext (e : BitVec 8) (d : BitVec 12) (s : State) :
    exec (.matchLzx412Ext e d) s = settle (matchToken (18 + e.toNat) (d.toNat + 1) s) := by
  change settle (matchToken (assembleLen rowLzx412 rowLzx412.esc e.toNat) _ s) = _
  rw [assembleLen_esc (by decide)]
  rfl

/-- Settles O46: each of the six rows is `matchToken` with its mode's length and displacement, and that is `runMatch`
after the token registers are set. -/
theorem matchTokens : Obligations.MatchTokens := by
  intro s i len disp hform
  have htoken : exec i s = settle (matchToken len disp s) ∧ 1 ≤ disp := by
    rcases hform with ⟨l, d, rfl, rfl, rfl⟩ | ⟨l, d, rfl, rfl, rfl⟩ | ⟨l, d, rfl, rfl, rfl⟩ | ⟨d, l, rfl, rfl, rfl⟩ |
      ⟨l, d, rfl, rfl, rfl⟩ | ⟨e, d, rfl, rfl, rfl⟩
    · exact ⟨exec_matchLz412 l d s, Nat.le_add_left _ _⟩
    · exact ⟨exec_matchLz38 l d s, Nat.le_add_left _ _⟩
    · exact ⟨exec_matchLz816 l d s, Nat.le_add_left _ _⟩
    · exact ⟨exec_matchLzd115 d l s, Nat.le_add_left _ _⟩
    · exact ⟨exec_matchLzx412Short l d s, Nat.le_add_left _ _⟩
    · exact ⟨exec_matchLzx412Ext e d s, Nat.le_add_left _ _⟩
  obtain ⟨hexec, hpos⟩ := htoken
  rw [hexec, matchToken]
  constructor
  · intro hdisp hlen
    obtain ⟨m, hrun, hcopied, hkept⟩ := runMatch_copies
      (s := s.withTk { s.call.tk with flag := true, len := len, disp := disp }) hpos hdisp hlen
    exact ⟨m, by rw [hrun]; rfl, hcopied, hkept⟩
  · intro hbad
    rw [runMatch_refuses (s := s.withTk { s.call.tk with flag := true, len := len, disp := disp }) hbad]
    rfl

end Sys2Proof.Machine
end

section
/-! PROOF. The decoder reads back every field the encoder writes: obligations O1, O2 and O3. -/

namespace Sys2Proof.Machine

/-! ## Fields written and read back (rules R10, R102) -/

theorem natMsb_bitsMsb (n v : Nat) : natMsb (bitsMsb n v) = v % 2 ^ n := by
  rw [natMsb, bitsMsb, List.reverse_reverse, natLsb_bitsLsb]

@[simp] theorem fieldMsb_bitsMsb {n : Nat} (x : BitVec n) : fieldMsb n (bitsMsb n x.toNat) = x := by
  rw [fieldMsb, natMsb_bitsMsb, Nat.mod_eq_of_lt x.isLt, BitVec.ofNat_toNat, BitVec.setWidth_eq]

/-- A symbol of `n` bits stands in a field of `n` bits. -/
theorem ofNat_natMsb_bitsMsb {n : Nat} {s : Byte} (h : s.toNat < 2 ^ n) : BitVec.ofNat 8 (natMsb (bitsMsb n s.toNat)) = s := by
  rw [natMsb_bitsMsb, Nat.mod_eq_of_lt h, BitVec.ofNat_toNat, BitVec.setWidth_eq]

@[simp] theorem ofNat_natLsb_bitsLsb (s : Byte) : BitVec.ofNat 8 (natLsb (bitsLsb 8 s.toNat)) = s := by
  rw [natLsb_bitsLsb, Nat.mod_eq_of_lt s.isLt, BitVec.ofNat_toNat, BitVec.setWidth_eq]

variable {α : Type}

/-- A field that stands at the front of the bits is taken whole. -/
theorem need_append {n : Nat} {a : List Bool} (h : a.length = n) (b : List Bool)
    (f : List Bool → List Bool → Except Reject α) : need n (a ++ b) f = f a b := by
  subst h
  rw [need, if_neg (by simp), List.take_left, List.drop_left]

/-- A field that is all the bits there are. -/
theorem need_all {n : Nat} {a : List Bool} (h : a.length = n) (f : List Bool → List Bool → Except Reject α) :
    need n a f = f a [] := by
  simpa using need_append h [] f

@[simp] theorem finish_nil (i : Instr) : finish [] i = .ok i := rfl

/-! ## Format TOKEN (rules R100, R102) -/

theorem decode_litRaw (v : Byte) : decode (encode (.litRaw v)) = .ok (.litRaw v) := by
  change (need 8 (bitsMsb 8 v.toNat) fun v rest => finish rest (.litRaw (fieldMsb 8 v))) = _
  simp [need_all]

theorem decode_litH8 {h : List Bool} (hne : h ≠ []) : decode (encode (.litH8 h)) = .ok (.litH8 h) :=
  if_neg (by simpa using hne)

theorem decode_litH4 {hh : List Bool} (hne : hh ≠ []) : decode (encode (.litH4 hh)) = .ok (.litH4 hh) :=
  if_neg (by simpa using hne)

/-- A match of two fields reads both back. -/
theorem need_two_fields {m n : Nat} (x : BitVec m) (y : BitVec n) (i : BitVec m → BitVec n → Instr) :
    (need m (bitsMsb m x.toNat ++ bitsMsb n y.toNat) fun a rest =>
      need n rest fun b rest => finish rest (i (fieldMsb m a) (fieldMsb n b))) = .ok (i x y) := by
  simp [need_append, need_all]

/-- Mode 4's length field is the escape exactly when all its bits are 1 (rule R334). -/
theorem escape_bits (l : BitVec 4) : (bitsMsb 4 l.toNat).all id = decide (l = 15#4) := by
  revert l
  decide

theorem decode_matchLzx412Short {l : BitVec 4} (hl : l ≠ 15#4) (d : BitVec 12) :
    decode (encode (.matchLzx412Short l d)) = .ok (.matchLzx412Short l d) := by
  have hno : ¬ (bitsMsb 4 l.toNat).all id = true := by simp [escape_bits, hl]
  change (need 4 (bitsMsb 4 l.toNat ++ bitsMsb 12 d.toNat) fun l rest =>
    if l.all id then
      need 8 rest fun e rest => need 12 rest fun d rest => finish rest (.matchLzx412Ext (fieldMsb 8 e) (fieldMsb 12 d))
    else need 12 rest fun d rest => finish rest (.matchLzx412Short (fieldMsb 4 l) (fieldMsb 12 d))) = _
  rw [need_append (bitsMsb_length _ _), if_neg hno, need_all (bitsMsb_length _ _), fieldMsb_bitsMsb, fieldMsb_bitsMsb,
    finish_nil]

theorem decode_matchLzx412Ext (e : BitVec 8) (d : BitVec 12) :
    decode (encode (.matchLzx412Ext e d)) = .ok (.matchLzx412Ext e d) :=
  need_two_fields e d .matchLzx412Ext

/-! ## Format HEADER (rule R90) -/

theorem bitsOfBytes_length (bs : List Byte) : (bitsOfBytes bs).length = 8 * bs.length := by
  induction bs with
  | nil => rfl
  | cons b t ih =>
    rw [show bitsOfBytes (b :: t) = bitsLsb 8 b.toNat ++ bitsOfBytes t from rfl, List.length_append, ih, bitsLsb_length,
      List.length_cons]
    omega

/-- The bytes of the bits of bytes. -/
theorem bytesOfBits_bitsOfBytes (bs : List Byte) : bytesOfBits (bitsOfBytes bs) = bs := by
  induction bs with
  | nil => rfl
  | cons b t ih =>
    change BitVec.ofNat 8 (natLsb (bitsLsb 8 b.toNat)) :: bytesOfBits (bitsOfBytes t) = b :: t
    rw [ofNat_natLsb_bitsLsb, ih]

theorem decode_header {size : List Byte} (hs : size.length = 3 ∨ size.length = 4) (magic ident : Byte) :
    decode (encode (.header magic size ident)) = .ok (.header magic size ident) := by
  have hlen : ¬ 48 < (bitsOfBytes (magic :: size ++ [ident])).length := by
    rw [bitsOfBytes_length]
    simp
    omega
  change decodeHeader (bitsOfBytes (magic :: size ++ [ident])) = _
  rw [decodeHeader, if_neg hlen, bytesOfBits_bitsOfBytes]
  rcases hs with h3 | h4
  · obtain ⟨a, b, c, rfl⟩ := List.length_eq_three.1 h3
    rfl
  · match size, h4 with
    | [a, b, c, d], _ => rfl

/-! ## Format TREETABLE (rules R96, R211) -/

/-- Symbols of `W` bits are read back. -/
theorem decodeSyms_bits {w : SymWidth} {syms : List Byte} (h : ∀ s ∈ syms, s.toNat < 2 ^ symBits w) (rest : List Bool) :
    decodeSyms w syms.length ((syms.flatMap fun s => bitsMsb (symBits w) s.toNat) ++ rest) = .ok (syms, rest) := by
  induction syms with
  | nil => rfl
  | cons s t ih =>
    obtain ⟨hs, ht⟩ := List.forall_mem_cons.1 h
    rw [List.flatMap_cons, List.append_assoc, List.length_cons, decodeSyms, need_append (by simp), ih ht]
    simp only [ofNat_natMsb_bitsMsb hs]

/-- Well-formed levels are read back: each count byte says its level's count (rule R211). -/
theorem decodeLevels_bits {w : SymWidth} {d slots : Nat} {levels : List (List Byte)} (h : treeLevelsWf w d slots levels = true)
    (rest : List Bool) :
    decodeLevels w levels.length d slots (levels.flatMap (encodeLevel w) ++ rest) = .ok (levels, rest) := by
  induction levels generalizing d slots with
  | nil => rfl
  | cons l t ih =>
    simp only [treeLevelsWf, Bool.and_eq_true, decide_eq_true_eq, List.all_eq_true] at h
    obtain ⟨⟨hcount, hsyms⟩, hrest⟩ := h
    have hbyte : natMsb (bitsMsb 8 (l.length % 256)) = l.length % 256 := by
      rw [natMsb_bitsMsb]
      exact Nat.mod_mod _ _
    rw [List.flatMap_cons, encodeLevel, List.append_assoc, List.append_assoc, List.length_cons, decodeLevels,
      need_append (by simp), hbyte, hcount, decodeSyms_bits hsyms]
    simp only [ih hrest]

theorem decode_treetable {w : SymWidth} {levels : List (List Byte)} (hw : w ≠ .raw) (hlen : levels.length = 16)
    (h : treeLevelsWf w 1 2 levels = true) :
    decode (encode (.treetable w levels)) = .ok (.treetable w levels) := by
  have hread := decodeLevels_bits h []
  rw [List.append_nil, hlen] at hread
  change decodeTreetable w (levels.flatMap (encodeLevel w)) = _
  rw [decodeTreetable, if_neg hw, hread]
  rfl

/-! ## Format UNITOP (rule R113; log entry 1) -/

/-- The number of a unit operation is read back, and its operands are left. -/
theorem decode_unitop {n : Nat} (hn : n < 2 ^ 8) (operands : List Bool) :
    decode (unitop n operands) = decodeUnitop n operands := by
  change (need 8 (bitsLsb 8 n ++ operands) fun n rest => decodeUnitop (natLsb n) rest) = _
  rw [need_append (bitsLsb_length _ _), natLsb_bitsLsb, Nat.mod_eq_of_lt hn]

theorem decode_writeBits {value n : Nat} (hv : value < 2 ^ 64) (hn : n ≤ 32) :
    decode (encode (.writeBits value n)) = .ok (.writeBits value n) := by
  rw [encode, decode_unitop (by decide), decodeUnitop, need_append (bitsLsb_length _ _), need_all (bitsLsb_length _ _),
    natLsb_bitsLsb, natLsb_bitsLsb, Nat.mod_eq_of_lt hv, Nat.mod_eq_of_lt (by omega), finish_nil]

theorem decode_writeByte {value : Nat} (hv : value < 2 ^ 64) : decode (encode (.writeByte value)) = .ok (.writeByte value) := by
  rw [encode, decode_unitop (by decide), decodeUnitop, need_all (bitsLsb_length _ _), natLsb_bitsLsb, Nat.mod_eq_of_lt hv,
    finish_nil]

theorem decode_readBits {n : Nat} (hn : n ≤ 32) : decode (encode (.readBits n)) = .ok (.readBits n) := by
  rw [encode, decode_unitop (by decide), decodeUnitop, need_all (bitsLsb_length _ _), natLsb_bitsLsb,
    Nat.mod_eq_of_lt (by omega), finish_nil]

theorem decode_writeSymbol (s : Byte) : decode (encode (.writeSymbol s)) = .ok (.writeSymbol s) := by
  rw [encode, decode_unitop (by decide), decodeUnitop, need_all (bitsLsb_length _ _), ofNat_natLsb_bitsLsb, finish_nil]

/-- The half of a value codec row, and the byte it writes. -/
theorem decodeValueOp_encode (op : ValueOp) (f : ValueOp → Instr) : decodeValueOp (encodeValueOp op) f = .ok (f op) := by
  cases op with
  | read => rfl
  | write v =>
    change (need 8 (bitsLsb 8 v.toNat) fun v rest => finish rest (f (.write (BitVec.ofNat 8 (natLsb v))))) = _
    rw [need_all (bitsLsb_length _ _), ofNat_natLsb_bitsLsb, finish_nil]

/-! ## Every instruction -/

/-- Settles O1: rows with operands of their own read their fields back; the word of any other row is a constant, or one of
the few its selector has. -/
theorem decodeEncodeRoundTrip : Obligations.DecodeEncodeRoundTrip := by
  intro i hwf
  cases i with
  | litRaw v => exact decode_litRaw v
  | litH8 h =>
    have hlen : 1 ≤ h.length := by simp [Instr.wf] at hwf; omega
    exact decode_litH8 (List.ne_nil_of_length_pos hlen)
  | litH4 hh =>
    have hlen : 2 ≤ hh.length := by simp [Instr.wf] at hwf; omega
    exact decode_litH4 (List.ne_nil_of_length_pos (by omega))
  | matchLz412 l d => exact need_two_fields l d .matchLz412
  | matchLz38 l d => exact need_two_fields l d .matchLz38
  | matchLz816 l d => exact need_two_fields l d .matchLz816
  | matchLzd115 d l => exact need_two_fields d l .matchLzd115
  | matchLzx412Short l d => exact decode_matchLzx412Short (by simpa [Instr.wf] using hwf) d
  | matchLzx412Ext e d => exact decode_matchLzx412Ext e d
  | header magic size ident => exact decode_header (by simpa [Instr.wf] using hwf) magic ident
  | treetable w levels =>
    simp only [Instr.wf, Bool.and_eq_true, decide_eq_true_eq] at hwf
    obtain ⟨⟨hw, hlen⟩, hlevels⟩ := hwf
    exact decode_treetable hw hlen hlevels
  | configure o h c => exact decode_configureWord o h c
  | writeBits value n =>
    simp only [Instr.wf, Bool.and_eq_true, decide_eq_true_eq] at hwf
    exact decode_writeBits hwf.1 hwf.2
  | writeByte value => exact decode_writeByte (by simpa [Instr.wf] using hwf)
  | readBits n => exact decode_readBits (by simpa [Instr.wf] using hwf)
  | writeSymbol s => exact decode_writeSymbol s
  | makeLeaves f => cases f <;> rfl
  | obf0 dir => cases dir <;> rfl
  | obf1 dir => cases dir <;> rfl
  | obf2 dir => cases dir <;> rfl
  | obf3 dir => cases dir <;> rfl
  | obf4 dir => cases dir <;> rfl
  | valueRaw op => exact (decode_unitop (by decide) _).trans (decodeValueOp_encode op .valueRaw)
  | valueH8 op => exact (decode_unitop (by decide) _).trans (decodeValueOp_encode op .valueH8)
  | valueH4 op => exact (decode_unitop (by decide) _).trans (decodeValueOp_encode op .valueH4)
  | raise k => cases k <;> rfl
  | _ => rfl

/-! ## The ident byte (rule R93) -/

/-- Settles O2: each word of the spec is decoded as it stands. -/
theorem specWordsDecode : Obligations.SpecWordsDecode := by
  refine ⟨rfl, rfl, rfl, rfl, rfl, rfl, rfl, rfl, rfl, rfl, rfl, rfl, rfl, rfl, rfl⟩

/-- The three sub-fields stand side by side in the byte. -/
theorem identByte_fields (o : BitVec 3) (h : BitVec 2) (c : BitVec 3) :
    identByte o h c = (o.setWidth 8 <<< 5) ||| (h.setWidth 8 <<< 3) ||| c.setWidth 8 ∧
      cmodeOf (identByte o h c) = c ∧ hmodeOf (identByte o h c) = h ∧ omodeOf (identByte o h c) = o := by
  revert o h c
  decide

theorem identByte_of_fields (b : BitVec 8) : identByte (omodeOf b) (hmodeOf b) (cmodeOf b) = b := by
  revert b
  decide

theorem decode_cmode (b : BitVec 8) : decode ⟨.cmode, bitsLsb 8 b.toNat⟩ = .ok (cmodeRow (cmodeOf b)) := by
  change (need 8 (bitsLsb 8 b.toNat) fun v rest => finish rest (cmodeRow (cmodeOf (BitVec.ofNat 8 (natLsb v))))) = _
  simp [need_all]

theorem decode_hmode (b : BitVec 8) : decode ⟨.hmode, bitsLsb 8 b.toNat⟩ = .ok (hmodeRow (hmodeOf b)) := by
  change (need 8 (bitsLsb 8 b.toNat) fun v rest => finish rest (hmodeRow (hmodeOf (BitVec.ofNat 8 (natLsb v))))) = _
  simp [need_all]

theorem decode_omode (b : BitVec 8) : decode ⟨.omode, bitsLsb 8 b.toNat⟩ = .ok (omodeRow (omodeOf b)) := by
  change (need 8 (bitsLsb 8 b.toNat) fun v rest => finish rest (omodeRow (omodeOf (BitVec.ofNat 8 (natLsb v))))) = _
  simp [need_all]

/-- Settles O3: the fields by their places, the three rows by the decoder's three masks, and the rows of one mask apart. -/
theorem identByteFields : Obligations.IdentByteFields :=
  ⟨identByte_fields, fun _ => ⟨rfl, rfl, rfl⟩, identByte_of_fields,
    fun b => ⟨decode_cmode b, decode_hmode b, decode_omode b⟩, by decide, by decide, by decide⟩

end Sys2Proof.Machine
end

section
/-! PROOF. The rows of the ident byte and the fields of a match's length and displacement: obligations O20 and O4. -/

namespace Sys2Proof.Machine

/-! ## The three groups of ident rows (rules R93 to R95, R363; log entry 15) -/

/-- The phases of ENCODE are those numbered 8 to 15 (rule R24). -/
theorem ofEncode_eq (p : Phase) : p.ofEncode = decide (8 ≤ p.code.toNat) := by cases p <;> rfl

/-- The kind a reserved value gets, by the number of the phase (rule R363). -/
theorem reservedKind_eq (s : State) :
    reservedKind s = if 8 ≤ s.phase.code.toNat then .unsupportedMode else .corruptStream := by
  simp only [reservedKind, ofEncode_eq, decide_eq_true_eq]

section
variable {s t : State}

theorem settle_selectCmode_implemented {c : BitVec 3}
    (ht : t = s.withIdent (identByte (omodeOf s.ident) (hmodeOf s.ident) c)) (hr : c ∈ s.kon.recognized)
    (hi : c ∈ s.kon.implemented) : settle (selectCmode c s) = .next t := by
  subst ht
  simp [selectCmode, hr, hi, settle]

theorem settle_selectCmode_unimplemented {c : BitVec 3}
    (ht : t = s.withIdent (identByte (omodeOf s.ident) (hmodeOf s.ident) c)) (hr : c ∈ s.kon.recognized)
    (hi : c ∉ s.kon.implemented) : settle (selectCmode c s) = .next (takeError .unimplementedTransform t) := by
  subst ht
  simp [selectCmode, hr, hi, settle]

theorem settle_selectCmode_reserved {c : BitVec 3}
    (ht : t = s.withIdent (identByte (omodeOf s.ident) (hmodeOf s.ident) c)) (hr : c ∉ s.kon.recognized) :
    settle (selectCmode c s) =
      .next (takeError (if 8 ≤ s.phase.code.toNat then .unsupportedMode else .corruptStream) t) := by
  subst ht
  rw [selectCmode, withIdent_kon, if_pos hr, ← reservedKind_eq]
  rfl

theorem settle_selectHmode {h : BitVec 2} (ht : t = s.withIdent (identByte (omodeOf s.ident) h (cmodeOf s.ident)))
    (hh : h ≠ 3) : settle (selectHmode h s) = .next (t.withHw (widthOf h)) := by
  subst ht
  rw [selectHmode, if_neg hh]
  rfl

theorem settle_selectHmode_reserved (ht : t = s.withIdent (identByte (omodeOf s.ident) 3 (cmodeOf s.ident))) :
    settle (selectHmode 3 s) =
      .next (takeError (if 8 ≤ s.phase.code.toNat then .unsupportedMode else .corruptStream) t) := by
  subst ht
  rw [selectHmode, if_pos rfl, ← reservedKind_eq]
  rfl

theorem settle_selectOmode {o : BitVec 3} (ht : t = s.withIdent (identByte o (hmodeOf s.ident) (cmodeOf s.ident)))
    (ho : o.toNat < 5) : settle (selectOmode o s) = .next t := by
  subst ht
  rw [selectOmode, if_neg (by omega)]
  rfl

theorem settle_selectOmode_reserved {o : BitVec 3}
    (ht : t = s.withIdent (identByte o (hmodeOf s.ident) (cmodeOf s.ident))) (ho : 5 ≤ o.toNat) :
    settle (selectOmode o s) =
      .next (takeError (if 8 ≤ s.phase.code.toNat then .unsupportedMode else .corruptStream) t) := by
  subst ht
  rw [selectOmode, if_pos ho, ← reservedKind_eq]
  rfl

end

/-- The rows of `CMODE` select their value. -/
theorem exec_cmodeRow (c : BitVec 3) (s : State) : exec (cmodeRow c) s = settle (selectCmode c s) := by
  have hc : c ∈ [0#3, 1#3, 2#3, 3#3, 4#3, 5#3, 6#3, 7#3] := by revert c; decide
  simp only [List.mem_cons, List.not_mem_nil, or_false] at hc
  rcases hc with rfl | rfl | rfl | rfl | rfl | rfl | rfl | rfl <;> rfl

theorem exec_hmodeRow (h : BitVec 2) (s : State) : exec (hmodeRow h) s = settle (selectHmode h s) := by
  have hh : h ∈ [0#2, 1#2, 2#2, 3#2] := by revert h; decide
  simp only [List.mem_cons, List.not_mem_nil, or_false] at hh
  rcases hh with rfl | rfl | rfl | rfl <;> rfl

theorem exec_omodeRow (o : BitVec 3) (s : State) : exec (omodeRow o) s = settle (selectOmode o s) := by
  have ho : o ∈ [0#3, 1#3, 2#3, 3#3, 4#3, 5#3, 6#3, 7#3] := by revert o; decide
  simp only [List.mem_cons, List.not_mem_nil, or_false] at ho
  rcases ho with rfl | rfl | rfl | rfl | rfl | rfl | rfl | rfl <;> rfl

/-- Settles O20: each row is its group's selection of its value. -/
theorem identRowsSelect : Obligations.IdentRowsSelect := by
  intro s
  refine ⟨fun i c hic => ?_, fun i h w hihw => ?_, settle_selectHmode_reserved rfl, fun i o hio => ?_, fun i o hio => ?_⟩
  · have hrow : i = cmodeRow c := by
      simp only [List.mem_cons, List.not_mem_nil, or_false, Prod.mk.injEq] at hic
      rcases hic with ⟨rfl, rfl⟩ | ⟨rfl, rfl⟩ | ⟨rfl, rfl⟩ | ⟨rfl, rfl⟩ | ⟨rfl, rfl⟩ | ⟨rfl, rfl⟩ | ⟨rfl, rfl⟩ |
        ⟨rfl, rfl⟩ <;> rfl
    rw [hrow, exec_cmodeRow]
    exact ⟨settle_selectCmode_implemented rfl, settle_selectCmode_unimplemented rfl, settle_selectCmode_reserved rfl⟩
  · have hrow : i = hmodeRow h ∧ h ≠ 3 ∧ w = widthOf h := by
      simp only [List.mem_cons, List.not_mem_nil, or_false, Prod.mk.injEq] at hihw
      rcases hihw with ⟨rfl, rfl, rfl⟩ | ⟨rfl, rfl, rfl⟩ | ⟨rfl, rfl, rfl⟩ <;> decide
    obtain ⟨rfl, hh, rfl⟩ := hrow
    rw [exec_hmodeRow]
    exact settle_selectHmode rfl hh
  · have hrow : i = omodeRow o ∧ o.toNat < 5 := by
      simp only [List.mem_cons, List.not_mem_nil, or_false, Prod.mk.injEq] at hio
      rcases hio with ⟨rfl, rfl⟩ | ⟨rfl, rfl⟩ | ⟨rfl, rfl⟩ | ⟨rfl, rfl⟩ | ⟨rfl, rfl⟩ <;> decide
    obtain ⟨rfl, ho⟩ := hrow
    rw [exec_omodeRow]
    exact settle_selectOmode rfl ho
  · have hrow : i = omodeRow o ∧ 5 ≤ o.toNat := by
      simp only [List.mem_cons, List.not_mem_nil, or_false, Prod.mk.injEq] at hio
      rcases hio with ⟨rfl, rfl⟩ | ⟨rfl, rfl⟩ | ⟨rfl, rfl⟩ <;> decide
    obtain ⟨rfl, ho⟩ := hrow
    rw [exec_omodeRow]
    exact settle_selectOmode_reserved rfl ho

/-! ## Length and displacement assembly (rules R103 to R105) -/

theorem ModeRow.wf_iff (r : ModeRow) : r.wf = true ↔
    2 ≤ r.minLen ∧ 1 ≤ r.lenBits ∧ r.lenBits ≤ 16 ∧ (r.extBits = 0 ∨ (1 ≤ r.extBits ∧ r.extBits ≤ 16)) ∧
      1 ≤ r.dispBits ∧ r.dispBits ≤ 24 := by
  simp only [ModeRow.wf, Bool.and_eq_true, Bool.or_eq_true, decide_eq_true_eq, and_assoc]

section
variable (r : ModeRow)

/-- `ESC` is the greatest value of a length field. -/
theorem esc_add_one : r.esc + 1 = 2 ^ r.lenBits := Nat.sub_add_cancel Nat.one_le_two_pow

theorem lenEscaped_iff (len : Nat) : lenEscaped r len = true ↔ 0 < r.extBits ∧ r.esc ≤ len - r.minLen := by
  simp only [lenEscaped, Bool.and_eq_true, decide_eq_true_eq]

/-- `MAXLEN`, of a mode without an escape and of one with it. -/
theorem maxLen_cases : (r.extBits = 0 ∧ r.maxLen = r.minLen + r.esc) ∨
    (0 < r.extBits ∧ r.maxLen + 1 = r.minLen + r.esc + 2 ^ r.extBits) := by
  by_cases h : r.extBits = 0
  · exact .inl ⟨h, if_pos h⟩
  · have hpow : 1 ≤ 2 ^ r.extBits := Nat.one_le_two_pow
    refine .inr ⟨by omega, ?_⟩
    rw [ModeRow.maxLen, if_neg h]
    omega

/-- The length a field, or a field and an extension, stands for. -/
theorem assembleLen_cases (f e : Nat) : (0 < r.extBits ∧ f = r.esc ∧ assembleLen r f e = r.minLen + r.esc + e) ∨
    ((r.extBits = 0 ∨ f ≠ r.esc) ∧ assembleLen r f e = r.minLen + f) := by
  by_cases h : 0 < r.extBits ∧ f = r.esc
  · exact .inl ⟨h.1, h.2, if_pos h⟩
  · exact .inr ⟨by omega, if_neg h⟩

/-- The fields of a length in range: the escape and an extension, or the difference alone. -/
theorem lenField_cases (len : Nat) :
    (lenEscaped r len = true ∧ lenField r len = r.esc ∧ 0 < r.extBits ∧ r.esc ≤ len - r.minLen) ∨
      (lenEscaped r len = false ∧ lenField r len = len - r.minLen ∧ (r.extBits = 0 ∨ len - r.minLen < r.esc)) := by
  by_cases h : lenEscaped r len = true
  · obtain ⟨hext, hesc⟩ := (lenEscaped_iff r len).1 h
    exact .inl ⟨h, if_pos h, hext, hesc⟩
  · refine .inr ⟨by simpa using h, if_neg h, ?_⟩
    rw [lenEscaped_iff] at h
    omega

variable {r}

/-- The fields of a length in range fit their widths. -/
theorem lenField_lt {len : Nat} (hmin : r.minLen ≤ len) (hmax : len ≤ r.maxLen) : lenField r len < 2 ^ r.lenBits := by
  have hesc := esc_add_one r
  rcases lenField_cases r len with ⟨_, hf, _⟩ | ⟨_, hf, hlt⟩
  · omega
  · rcases maxLen_cases r with ⟨_, hm⟩ | ⟨hext, _⟩ <;> omega

theorem extField_lt {len : Nat} (hmax : len ≤ r.maxLen) (h : lenEscaped r len = true) : extField r len < 2 ^ r.extBits := by
  obtain ⟨hext, hesc⟩ := (lenEscaped_iff r len).1 h
  rcases maxLen_cases r with ⟨h0, _⟩ | ⟨_, hm⟩
  · omega
  · have hpow : 1 ≤ 2 ^ r.extBits := Nat.one_le_two_pow
    rw [extField]
    omega

/-- The fields of a length give it back (rule R103). -/
theorem assembleLen_fields {len : Nat} (hmin : r.minLen ≤ len) :
    assembleLen r (lenField r len) (if lenEscaped r len then extField r len else 0) = len := by
  rcases lenField_cases r len with ⟨he, hf, hext, hesc⟩ | ⟨he, hf, hlt⟩
  · rw [if_pos he, hf, assembleLen_esc hext, extField]
    omega
  · simp only [he, hf, Bool.false_eq_true, if_false, assembleLen_zero]
    omega

theorem assembleLen_le_maxLen {f e : Nat} (hf : f < 2 ^ r.lenBits) (he : e < 2 ^ r.extBits) :
    assembleLen r f e ≤ r.maxLen := by
  have hesc := esc_add_one r
  have hpow : 1 ≤ 2 ^ r.extBits := Nat.one_le_two_pow
  rcases assembleLen_cases r f e with ⟨hext, _, ha⟩ | ⟨_, ha⟩
  · rcases maxLen_cases r with ⟨h0, hm⟩ | ⟨_, hm⟩ <;> omega
  · rcases maxLen_cases r with ⟨_, hm⟩ | ⟨_, hm⟩ <;> omega

/-- Two encodings of one length are the same. -/
theorem assembleLen_inj {f e f' e' : Nat} (hf : f < 2 ^ r.lenBits) (hf' : f' < 2 ^ r.lenBits)
    (h : assembleLen r f e = assembleLen r f' e') : f = f' ∧ (0 < r.extBits → f = r.esc → e = e') := by
  have hesc := esc_add_one r
  rcases assembleLen_cases r f e with ⟨hext, hfe, ha⟩ | ⟨hno, ha⟩
  · rcases assembleLen_cases r f' e' with ⟨_, hfe', ha'⟩ | ⟨_, ha'⟩
    · exact ⟨hfe.trans hfe'.symm, fun _ _ => by omega⟩
    · omega
  · rcases assembleLen_cases r f' e' with ⟨_, hfe', ha'⟩ | ⟨_, ha'⟩
    · omega
    · exact ⟨by omega, fun _ _ => by omega⟩

end

/-- Settles O4: range, inverse and injectivity of the two assemblies. -/
theorem lengthAssembly : Obligations.LengthAssembly := by
  intro row _
  have hdisp : 1 ≤ row.maxDisp := Nat.one_le_two_pow
  refine ⟨fun L hmin hmax => ⟨lenField_lt hmin hmax, extField_lt hmax, assembleLen_fields hmin⟩,
    fun f e hf he => ⟨minLen_le_assembleLen row f e, assembleLen_le_maxLen hf he⟩,
    fun f e f' e' hf _ hf' _ h => assembleLen_inj hf hf' h, fun D h1 hD => ⟨?_, ?_⟩, fun d hd => ⟨?_, ?_⟩⟩
  · rw [ModeRow.maxDisp] at hD
    omega
  · rw [assembleDisp]
    omega
  · rw [assembleDisp]
    omega
  · rw [assembleDisp, ModeRow.maxDisp]
    omega

end Sys2Proof.Machine
end

section
/-! PROOF. The token emitter: obligation O50. -/

namespace Sys2Proof.Machine

/-! ## Tokens that cover a buffer (rule R324) -/

/-- Every token covers at least one byte. -/
theorem length_le_of_tokensCover {B : List Byte} {p : Nat} {ks : List Token} (h : tokensCover B p ks) :
    p + ks.length ≤ B.length := by
  induction ks generalizing p with
  | nil => exact Nat.le_of_eq h
  | cons k ks ih =>
    cases k with
    | lit v =>
      have := ih h.2
      rw [List.length_cons]
      omega
    | copy l d =>
      obtain ⟨hl, _, hrest⟩ := h
      have := ih hrest
      rw [List.length_cons]
      omega

/-- A literal token at `p` is followed by matches beyond `p` only. -/
theorem le_position_of_mem_matchesAt {p : Nat} {ks : List Token} {m : LzMatch} (h : m ∈ matchesAt p ks) :
    p ≤ m.position := by
  induction ks generalizing p with
  | nil => simp [matchesAt] at h
  | cons k ks ih =>
    cases k with
    | lit v => exact Nat.le_of_succ_le (ih h)
    | copy l d =>
      rcases List.mem_cons.1 h with rfl | h
      · exact Nat.le_refl p
      · exact Nat.le_of_add_right_le (ih h)

/-! ## The emitter's loop -/

section
variable (e : EmitEnv) {fuel p mi : Nat} {ks : List Token} (k : Sink)

/-- At the end of the buffer the loop stops. -/
theorem emitFrom_end (h : p = e.bytes.length) : emitFrom e fuel p mi k = (p, mi, k) := by
  cases fuel with
  | zero => rfl
  | succ fuel => rw [emitFrom, if_neg (by omega)]

/-- A round at a match that starts here. -/
theorem emitFrom_match {m : LzMatch} (hp : p < e.bytes.length) (hm : e.mlist[mi]? = some m) (hpos : m.position = p) :
    emitFrom e (fuel + 1) p mi k = emitFrom e fuel (p + m.length) (mi + 1) (k.writeMatch e.fmt e.row m) := by
  simp only [emitFrom, if_pos hp, hm, if_pos hpos]

/-- A round where the next match, if there is one, starts elsewhere. -/
theorem emitFrom_literal (hp : p < e.bytes.length) (hm : ∀ m, e.mlist[mi]? = some m → m.position ≠ p) :
    emitFrom e (fuel + 1) p mi k = emitFrom e fuel (p + 1) mi (k.writeLit e.fmt e.hw e.code (e.bytes.getD p 0)) := by
  rw [emitFrom, if_pos hp]
  cases h : e.mlist[mi]? with
  | none => rfl
  | some m => exact if_neg (hm m h)

/-- On the matches of tokens that cover the rest of the buffer, the loop sends exactly those tokens. -/
theorem emitFrom_tokens (hcover : tokensCover e.bytes p ks) (hrest : e.mlist.drop mi = matchesAt p ks)
    (hmi : mi ≤ e.mlist.length) (hfuel : ks.length ≤ fuel) :
    emitFrom e fuel p mi k = (e.bytes.length, e.mlist.length,
      k.putBits e.fmt (ks.flatMap fun t => t.stream e.fmt e.row e.hw e.code)) := by
  induction ks generalizing fuel p mi k with
  | nil =>
    have hend : mi = e.mlist.length := by
      have := congrArg List.length hrest
      simp only [List.length_drop, matchesAt, List.length_nil] at this
      omega
    have hp : p = e.bytes.length := hcover
    rw [emitFrom_end e k hp, hend, hp]
    rfl
  | cons t ks ih =>
    obtain ⟨fuel, rfl⟩ : ∃ n, fuel = n + 1 := ⟨fuel - 1, by rw [List.length_cons] at hfuel; omega⟩
    have hp := length_le_of_tokensCover hcover
    have hnext : e.mlist[mi]? = (matchesAt p (t :: ks))[0]? := by rw [← hrest, List.getElem?_drop, Nat.add_zero]
    rw [List.length_cons] at hp hfuel
    have hlt : p < e.bytes.length := by omega
    rw [List.flatMap_cons, putBits_append]
    cases t with
    | lit v =>
      obtain ⟨hv, hcover⟩ := hcover
      have hbyte : e.bytes.getD p 0 = v := by rw [List.getD_eq_getElem?_getD, hv]; rfl
      have hno : ∀ m, e.mlist[mi]? = some m → m.position ≠ p := fun m hm => by
        rw [hnext] at hm
        have := le_position_of_mem_matchesAt (p := p + 1) (List.mem_of_getElem? hm)
        omega
      rw [emitFrom_literal e k hlt hno, hbyte, writeLit_eq e.fmt e.row]
      exact ih _ hcover hrest hmi (by omega)
    | copy l d =>
      obtain ⟨_, _, hcover⟩ := hcover
      have hmi : mi < e.mlist.length := (List.getElem?_eq_some_iff.1 hnext).1
      have hdrop : e.mlist.drop (mi + 1) = matchesAt (p + l) ks := by
        rw [← List.tail_drop, hrest]
        rfl
      rw [emitFrom_match e k hlt hnext rfl, writeMatch_eq e.fmt e.row e.hw e.code]
      exact ih _ hcover hdrop hmi (by omega)

end

/-! ## The rows -/

/-- The emitter on the matches of tokens that cover `WORK[0..DSIZE)`. -/
theorem emitTokens_of_cover {row : ModeRow} {s : State} {ks : List Token} (hcover : tokensCover s.workBytes 0 ks)
    (hlist : s.call.mlist = matchesAt 0 ks) (hcount : s.call.mcount = s.call.mlist.length) :
    emitTokens row s = (s.withSink
      (s.sink.putBits s.fmt (ks.flatMap fun k => k.stream s.fmt row s.call.hw s.codeOf))).withTk
        { s.call.tk with p := s.dsize, mi := s.call.mcount } := by
  have hmlist : (s.emitEnv row).mlist = s.call.mlist := by
    change s.call.mlist.take s.call.mcount = _
    rw [hcount, List.take_length]
  have hlen : (s.emitEnv row).bytes.length = s.dsize := slice_length _ _ _
  have hfuel := length_le_of_tokensCover (B := (s.emitEnv row).bytes) hcover
  have hloop := emitFrom_tokens (s.emitEnv row) (mi := 0) s.sink hcover (by rw [List.drop_zero, hmlist, hlist])
    (Nat.zero_le _) (fuel := (s.emitEnv row).bytes.length + (s.emitEnv row).mlist.length) (by omega)
  unfold emitTokens
  simp only [hloop]
  rw [hlen, hmlist, ← hcount]
  rfl

/-- A row that encodes with a mode row is the emitter of that mode row. -/
theorem exec_of_encodesWith {i : Instr} {row : ModeRow} {s : State} (h : encodesWith i row s) :
    exec i s = .next (emitTokens row s) := by
  rcases h with ⟨d, h⟩ | ⟨rfl | rfl, hrow⟩
  · simp only [coderRows, List.mem_cons, List.not_mem_nil, or_false, Prod.mk.injEq] at h
    rcases h with ⟨_, rfl, rfl⟩ | ⟨_, rfl, rfl⟩ | ⟨_, rfl, rfl⟩ | ⟨_, rfl, rfl⟩ | ⟨_, rfl, rfl⟩ <;> rfl
  · change settle (withRow s fun row => .ok () (emitTokens row s)) = _
    rw [withRow, hrow]
    rfl
  · change settle (withRow s fun row => .ok () (emitTokens row s)) = _
    rw [withRow, hrow]
    rfl

/-- Settles O50: each encoder row is the emitter, and the emitter sends the tokens whose matches it is given. -/
theorem emitTokensBits : Obligations.EmitTokensBits := by
  intro i s row ks hi hcover hlist hcount
  rw [exec_of_encodesWith hi, emitTokens_of_cover hcover hlist hcount]

end Sys2Proof.Machine
end

section
/-! SUPPORT. The codes of a Huffman table (rule R97), and reading one of them bit by bit (rule R219). -/

namespace Sys2Proof.Machine

/-! ## Bits, most significant first -/

theorem natMsb_concat (bs : List Bool) (b : Bool) : natMsb (bs ++ [b]) = 2 * natMsb bs + b.toNat := by
  rw [natMsb, List.reverse_append]
  exact Nat.add_comm _ _

theorem natLsb_lt (bs : List Bool) : natLsb bs < 2 ^ bs.length := by
  induction bs with
  | nil => decide
  | cons b t ih =>
    have hb := b.toNat_lt
    rw [natLsb, List.length_cons, Nat.pow_succ]
    omega

theorem natMsb_lt (bs : List Bool) : natMsb bs < 2 ^ bs.length := by
  simpa [natMsb] using natLsb_lt bs.reverse

theorem bitsLsb_natLsb (bs : List Bool) : bitsLsb bs.length (natLsb bs) = bs := by
  induction bs with
  | nil => rfl
  | cons b t ih =>
    have hbit : (b.toNat + 2 * natLsb t).testBit 0 = b := by cases b <;> simp
    have hrest : (b.toNat + 2 * natLsb t) >>> 1 = natLsb t := by
      have hb := b.toNat_lt
      rw [Nat.shiftRight_one]
      omega
    rw [List.length_cons, natLsb, bitsLsb, hbit, hrest, ih]

/-- Bits are the bits of their value. -/
theorem bitsMsb_natMsb (bs : List Bool) : bitsMsb bs.length (natMsb bs) = bs := by
  rw [bitsMsb, natMsb, ← List.length_reverse, bitsLsb_natLsb, List.reverse_reverse]

/-- A bit read after others moves their value up by one place. -/
theorem shiftLeft_or_bit (n : Nat) (b : Bool) : (n <<< 1) ||| b.toNat = 2 * n + b.toNat := by
  rw [← Nat.shiftLeft_add_eq_or_of_lt (by simpa using b.toNat_lt), Nat.shiftLeft_eq]
  omega

/-! ## The levels of a table -/

/-- The symbols of a level: an entry past the end of `HSYM` reads as 0 (log entry 20). -/
theorem level_getElem? (syms : List Byte) (index c j : Nat) (h : j < c) :
    ((syms.drop index).take c ++ List.replicate (c - (syms.drop index).length) 0)[j]? = some (syms.getD (index + j) 0) := by
  rw [List.getElem?_append, List.length_take]
  split
  · rename_i hj
    have hlt : index + j < syms.length := by rw [List.length_drop] at hj; omega
    rw [List.getElem?_take_of_lt h, List.getElem?_drop, List.getD_eq_getElem _ _ hlt, List.getElem?_eq_getElem hlt]
  · rename_i hj
    have hge : syms.length ≤ index + j := by rw [List.length_drop] at hj; omega
    rw [List.getD_eq_default _ _ hge, List.getElem?_replicate, if_pos]
    rw [List.length_drop] at hj ⊢
    omega

theorem splitLevels_cons (c : Nat) (cs : List Nat) (syms : List Byte) (index : Nat) :
    ∃ l : List Byte, l.length = c ∧ (∀ j, j < c → l[j]? = some (syms.getD (index + j) 0)) ∧
      splitLevels (c :: cs) (syms.drop index) = l :: splitLevels cs (syms.drop (index + c)) := by
  refine ⟨_, ?_, fun j hj => level_getElem? syms index c j hj, by rw [splitLevels, List.drop_drop]⟩
  rw [List.length_append, List.length_take, List.length_replicate]
  omega

/-- A code of a table's levels: of the first of them, or of a later one (rule R97). -/
theorem mem_levelCodes_cons {d first : Nat} {l : List Byte} {ls : List (List Byte)} {p : Byte × List Bool} :
    p ∈ levelCodes d first (l :: ls) ↔ (∃ j, l[j]? = some p.1 ∧ p.2 = bitsMsb d (first + j)) ∨
      p ∈ levelCodes (d + 1) ((first + l.length) * 2) ls := by
  rw [levelCodes, List.mem_append, List.mem_map]
  refine or_congr ⟨?_, ?_⟩ Iff.rfl
  · rintro ⟨⟨s, j⟩, hmem, rfl⟩
    exact ⟨j, List.mem_zipIdx_iff_getElem?.1 hmem, rfl⟩
  · rintro ⟨j, hj, hbits⟩
    exact ⟨(p.1, j), List.mem_zipIdx_iff_getElem?.2 hj, Prod.ext rfl hbits.symm⟩

/-- A level that is not over-subscribed, and the places it leaves. -/
theorem slotsLeft_cons {slots c n : Nat} {cs : List Nat} (h : slotsLeft slots (c :: cs) = some n) :
    c ≤ slots ∧ slotsLeft (2 * (slots - c)) cs = some n := by
  rw [slotsLeft] at h
  split at h
  · cases h
  · exact ⟨by omega, h⟩

/-- The places used and the places free of a level are all its places; so it is on the next. -/
theorem places_next {first slots c d : Nat} (h : first + slots = 2 ^ d) (hc : c ≤ slots) :
    (first + c) * 2 + 2 * (slots - c) = 2 ^ (d + 1) := by
  rw [Nat.pow_succ]
  omega

/-- The codes from a level on have the level's bits at least, and their first bits are a value from the level's first code
on. -/
theorem first_le_of_mem_levelCodes {d first slots left : Nat} {counts : List Nat} {syms : List Byte} {index : Nat}
    {p : Byte × List Bool} (hp : p ∈ levelCodes d first (splitLevels counts (syms.drop index)))
    (hplaces : first + slots = 2 ^ d) (hfits : slotsLeft slots counts = some left) :
    d ≤ p.2.length ∧ first ≤ natMsb (p.2.take d) := by
  induction counts generalizing d first slots index with
  | nil => cases hp
  | cons c cs ih =>
    obtain ⟨hc, hfits⟩ := slotsLeft_cons hfits
    obtain ⟨l, hlen, -, hsplit⟩ := splitLevels_cons c cs syms index
    rw [hsplit, mem_levelCodes_cons, hlen] at hp
    rcases hp with ⟨j, hj, hbits⟩ | hp
    · have hjc : j < c := hlen ▸ (List.getElem?_eq_some_iff.1 hj).1
      rw [hbits, List.take_of_length_le (by simp), natMsb_bitsMsb, Nat.mod_eq_of_lt (by omega), bitsMsb_length]
      omega
    · obtain ⟨hd, hfirst⟩ := ih hp (places_next hplaces hc) hfits
      have hbit := (p.2[d]).toNat_lt
      rw [List.take_succ_eq_append_getElem hd, natMsb_concat] at hfirst
      omega

/-! ## Reading a code bit by bit (rule R219) -/

/-- Where bits come from, and the bits that are still to come: `get` gives the first of them, and raises `CorruptStream`
where there is none. -/
structure BitSource {σ : Type} (get : σ → Run σ Nat) (ahead : σ → List Bool) : Prop where
  cons : ∀ x b t, ahead x = b :: t → ∃ y, get x = .ok b.toNat y ∧ ahead y = t
  nil : ∀ x, ahead x = [] → ∃ y, get x = .raised .corruptStream y

/-- A list of bits is a source of its bits. -/
theorem bitSource_list : BitSource listBit id where
  cons x b t h := by
    obtain rfl : x = b :: t := h
    exact ⟨t, rfl, rfl⟩
  nil x h := by
    obtain rfl : x = [] := h
    exact ⟨[], rfl⟩

section
variable {σ : Type} {get : σ → Run σ Nat} {ahead : σ → List Bool} {syms : List Byte}

/-- One level of the walk: the bits read so far are the first of a code of this level, or the walk goes on. -/
theorem symWalk_cons {c : Nat} {cs : List Nat} {pre : List Bool} {first index : Nat} {x y : σ} {b : Bool}
    (hget : get x = .ok b.toNat y) :
    symWalk get syms (c :: cs) ⟨natMsb pre, first, index⟩ x =
      if natMsb (pre ++ [b]) - first < c then
        .ok (syms.getD (index + (natMsb (pre ++ [b]) - first)) 0) (⟨natMsb (pre ++ [b]), first, index⟩, y)
      else symWalk get syms cs ⟨natMsb (pre ++ [b]), (first + c) * 2, index + c⟩ y := by
  have hshift : (first + c) <<< 1 = (first + c) * 2 := Nat.shiftLeft_eq _ 1
  rw [symWalk, hget]
  simp only [shiftLeft_or_bit, ← natMsb_concat, hshift]

/-- What the walk gives is a code of the table; else it raises `CorruptStream`. -/
theorem symWalk_cases (hsrc : BitSource get ahead) {counts : List Nat} {pre : List Bool} {first index : Nat} {x : σ}
    (hfirst : first ≤ 2 * natMsb pre) :
    (∃ sym h y q, symWalk get syms counts ⟨natMsb pre, first, index⟩ x = .ok sym (h, y) ∧ ahead x = q ++ ahead y ∧
      (sym, pre ++ q) ∈ levelCodes (pre.length + 1) first (splitLevels counts (syms.drop index))) ∨
    ∃ h y, symWalk get syms counts ⟨natMsb pre, first, index⟩ x = .raised .corruptStream (h, y) := by
  induction counts generalizing pre first index x with
  | nil => exact .inr ⟨_, _, rfl⟩
  | cons c cs ih =>
    cases hx : ahead x with
    | nil =>
      obtain ⟨y, hget⟩ := hsrc.nil x hx
      exact .inr ⟨⟨natMsb pre, first, index⟩, y, by rw [symWalk, hget]⟩
    | cons b t =>
      obtain ⟨y, hget, hy⟩ := hsrc.cons x b t hx
      obtain ⟨l, hlen, hl, hsplit⟩ := splitLevels_cons c cs syms index
      have hvalue := natMsb_concat pre b
      rw [symWalk_cons hget, hsplit]
      simp only [mem_levelCodes_cons, hlen]
      by_cases hhit : natMsb (pre ++ [b]) - first < c
      · rw [if_pos hhit]
        refine .inl ⟨_, _, y, [b], rfl, by rw [hy]; rfl, .inl ⟨_, hl _ hhit, ?_⟩⟩
        rw [Nat.add_sub_cancel' (by omega)]
        simpa using (bitsMsb_natMsb (pre ++ [b])).symm
      · rw [if_neg hhit]
        rcases ih (pre := pre ++ [b]) (first := (first + c) * 2) (index := index + c) (x := y) (by omega) with
          ⟨sym, h, z, q, hrun, hq, hmem⟩ | hraised
        · refine .inl ⟨sym, h, z, b :: q, hrun, by rw [List.cons_append, ← hq, hy], .inr ?_⟩
          simpa using hmem
        · exact .inr hraised

/-- A code of a table that fits is read, and nothing after it. -/
theorem symWalk_code (hsrc : BitSource get ahead) {counts : List Nat} {pre q rest : List Bool}
    {first slots left index : Nat} {x : σ} {sym : Byte} (hplaces : first + slots = 2 ^ (pre.length + 1))
    (hfits : slotsLeft slots counts = some left) (hfirst : first ≤ 2 * natMsb pre)
    (hmem : (sym, pre ++ q) ∈ levelCodes (pre.length + 1) first (splitLevels counts (syms.drop index)))
    (hx : ahead x = q ++ rest) :
    ∃ h y, symWalk get syms counts ⟨natMsb pre, first, index⟩ x = .ok sym (h, y) ∧ ahead y = rest := by
  induction counts generalizing pre q first slots index x with
  | nil => cases hmem
  | cons c cs ih =>
    obtain ⟨hlong, -⟩ := first_le_of_mem_levelCodes hmem hplaces hfits
    obtain ⟨hc, hfits⟩ := slotsLeft_cons hfits
    obtain ⟨l, hlen, hl, hsplit⟩ := splitLevels_cons c cs syms index
    rw [hsplit, mem_levelCodes_cons, hlen] at hmem
    obtain ⟨b, q, rfl⟩ : ∃ b t, q = b :: t := by
      refine List.exists_cons_of_ne_nil fun h => ?_
      simp [h] at hlong
    obtain ⟨y, hget, hy⟩ := hsrc.cons x b (q ++ rest) hx
    rw [symWalk_cons hget]
    rcases hmem with ⟨j, hj, hbits⟩ | hmem
    · have hjc : j < c := hlen ▸ (List.getElem?_eq_some_iff.1 hj).1
      have hq : q = [] := by simpa using congrArg List.length hbits
      subst hq
      have hvalue : natMsb (pre ++ [b]) = first + j := by
        have := congrArg natMsb hbits
        rwa [natMsb_bitsMsb, Nat.mod_eq_of_lt (by omega)] at this
      have hsym : syms.getD (index + j) 0 = sym := Option.some.inj ((hl j hjc).symm.trans hj)
      rw [hvalue, Nat.add_sub_cancel_left, if_pos hjc, hsym]
      exact ⟨_, y, rfl, hy⟩
    · have happend : pre ++ b :: q = (pre ++ [b]) ++ q := by simp
      have hnext : pre.length + 1 = (pre ++ [b]).length := by simp
      rw [happend, hnext] at hmem
      have hplaces := places_next hplaces hc
      rw [hnext] at hplaces
      obtain ⟨-, hge⟩ := first_le_of_mem_levelCodes hmem hplaces hfits
      have hle : first + c ≤ natMsb (pre ++ [b]) := by
        obtain ⟨b', q', rfl⟩ : ∃ b t, q = b :: t := by
          refine List.exists_cons_of_ne_nil fun h => ?_
          have := (first_le_of_mem_levelCodes hmem hplaces hfits).1
          simp [h] at this
        have hb := b'.toNat_lt
        have htake : ((pre ++ [b]) ++ b' :: q').take ((pre ++ [b]).length + 1) = (pre ++ [b]) ++ [b'] := by
          rw [List.take_length_add_append]
          rfl
        rw [htake, natMsb_concat] at hge
        omega
      rw [if_neg (by omega)]
      exact ih hplaces hfits (by omega) hmem hy

/-- `readSymbol` on a source that begins with a code of a table that fits (rule R220). -/
theorem decodeSymbol_code (hsrc : BitSource get ahead) {t : HuffTab} (hfits : t.fits) {sym : Byte} {bits rest : List Bool}
    (hmem : (sym, bits) ∈ t.codeList) {x : σ} (hx : ahead x = bits ++ rest) :
    ∃ h y, decodeSymbol get t x = .ok sym (h, y) ∧ ahead y = rest := by
  obtain ⟨left, hleft⟩ := Option.isSome_iff_exists.1 hfits
  exact symWalk_code hsrc (pre := []) (slots := 2) (first := 0) (index := 0) rfl hleft (Nat.le_refl 0) hmem hx

/-- Whatever the source, `readSymbol` gives the symbol of a code of the table, or raises `CorruptStream`. -/
theorem decodeSymbol_cases (hsrc : BitSource get ahead) (t : HuffTab) (x : σ) :
    (∃ sym h y q, decodeSymbol get t x = .ok sym (h, y) ∧ ahead x = q ++ ahead y ∧ (sym, q) ∈ t.codeList) ∨
      ∃ h y, decodeSymbol get t x = .raised .corruptStream (h, y) :=
  symWalk_cases hsrc (pre := []) (first := 0) (index := 0) (Nat.le_refl 0)

end

/-! ## The reader as a source of bits (rule R136) -/

theorem wordBytes_pos (f : Fmt) : 0 < f.wordBytes := by
  rw [Fmt.wordBytes, Nat.shiftLeft_eq]
  exact Nat.mul_pos Nat.one_pos (Nat.two_pow_pos _)

theorem wordBits_pos (f : Fmt) : 0 < f.wordBits := Nat.mul_pos (by decide) (wordBytes_pos f)

/-- The first bit held is the one `take` gives, and the others are held after it. -/
theorem held_of_avail (f : Fmt) {r : Reader} {n : Nat} (h : r.avail = n + 1) :
    r.held f = r.word.getLsbD (bitPlace f (f.wordBits - r.avail)) :: Reader.held f { r with avail := n } := by
  rw [Reader.held, h, List.range_succ_eq_map, List.map_cons, List.map_map, Nat.sub_zero]
  refine congrArg _ (List.map_congr_left fun i _ => ?_)
  simp only [Function.comp_apply, Nat.succ_eq_add_one, Nat.add_sub_add_right]

/-- A word just pulled is held whole. -/
theorem held_pulled (f : Fmt) (pos : Nat) (w : Word) : Reader.held f ⟨pos, w, f.wordBits⟩ = wordStream f w := by
  refine List.map_congr_left fun i hi => ?_
  have hi := List.mem_range.1 hi
  rw [Nat.sub_sub_self (Nat.le_of_lt hi)]

/-- A pull takes the first word of those left, where a whole one is left (rule R137). -/
theorem ahead_pull (e : ReadEnv) {r : Reader} (h0 : r.avail = 0) :
    (e.srcLen < r.pos + e.fmt.wordBytes ∧ r.ahead e = [] ∧ r.pull e = .raised .corruptStream r) ∨
      ∃ w, r.pull e = .ok () ⟨r.pos + e.fmt.wordBytes, w, e.fmt.wordBits⟩ ∧
        Reader.ahead e ⟨r.pos + e.fmt.wordBytes, w, e.fmt.wordBits⟩ = r.ahead e := by
  have hpos := wordBytes_pos e.fmt
  have hheld : r.held e.fmt = [] := by rw [Reader.held, h0]; rfl
  by_cases hend : e.srcLen < r.pos + e.fmt.wordBytes
  · refine .inl ⟨hend, ?_, if_pos hend⟩
    rw [Reader.ahead, hheld, Nat.div_eq_of_lt (by omega)]
    rfl
  · refine .inr ⟨_, if_neg hend, ?_⟩
    have hwords : (e.srcLen - r.pos) / e.fmt.wordBytes = (e.srcLen - (r.pos + e.fmt.wordBytes)) / e.fmt.wordBytes + 1 := by
      rw [← Nat.add_div_right _ hpos]
      congr 1
      omega
    rw [Reader.ahead, Reader.ahead, held_pulled, hheld, hwords, List.range_succ_eq_map, List.flatMap_cons, List.flatMap_map,
      Nat.zero_mul, Nat.add_zero, List.nil_append]
    refine congrArg _ (congrArg (fun g => List.flatMap g _) (funext fun i => ?_))
    rw [Nat.succ_mul, Nat.add_assoc, Nat.add_comm e.fmt.wordBytes]

/-- `take` gives the first bit ahead. -/
theorem take_ahead (e : ReadEnv) {r : Reader} (h : r.avail ≠ 0) :
    ∃ b r', r.take e = .ok b r' ∧ r.ahead e = b :: r'.ahead e := by
  obtain ⟨n, hn⟩ := Nat.exists_eq_succ_of_ne_zero h
  refine ⟨_, _, rfl, ?_⟩
  rw [Reader.ahead, held_of_avail e.fmt hn, hn]
  rfl

/-- `getBit` gives the first bit ahead, and raises `CorruptStream` where there is none. -/
theorem getBit_ahead (e : ReadEnv) (r : Reader) :
    (∃ b r', r.getBit e = .ok b r' ∧ r.ahead e = b :: r'.ahead e) ∨
      (r.ahead e = [] ∧ ∃ r', r.getBit e = .raised .corruptStream r') := by
  by_cases h0 : r.avail = 0
  · rw [Reader.getBit, if_pos h0]
    rcases ahead_pull e h0 with ⟨_, hnil, hpull⟩ | ⟨w, hpull, hsame⟩
    · exact .inr ⟨hnil, r, by rw [hpull]; rfl⟩
    · obtain ⟨b, r', htake, hbit⟩ := take_ahead e (r := ⟨r.pos + e.fmt.wordBytes, w, e.fmt.wordBits⟩)
        (Nat.ne_of_gt (wordBits_pos e.fmt))
      exact .inl ⟨b, r', by rw [hpull]; exact htake, by rw [← hsame, hbit]⟩
  · rw [Reader.getBit, if_neg h0]
    exact .inl (take_ahead e h0)

theorem valueOfStream_bit (f : Fmt) (b : Bool) : valueOfStream f [b] = b.toNat := by
  unfold valueOfStream
  split <;> rfl

/-- `readBits(1)` reads from the bits ahead of the reader. -/
theorem bitSource_reader (e : ReadEnv) : BitSource (fun r => Reader.readBits e 1 r) (Reader.ahead e) where
  cons r b t h := by
    rcases getBit_ahead e r with ⟨b', r', hget, hbit⟩ | ⟨hnil, _⟩
    · obtain ⟨rfl, rfl⟩ := List.cons.inj (hbit.symm.trans h)
      refine ⟨r', ?_, rfl⟩
      simp only [Reader.readBits, Reader.getBits, hget, andThen_ok, map_ok, valueOfStream_bit]
    · rw [hnil] at h
      cases h
  nil r h := by
    rcases getBit_ahead e r with ⟨b, r', _, hbit⟩ | ⟨_, r', hget⟩
    · rw [h] at hbit
      cases hbit
    · exact ⟨r', by simp only [Reader.readBits, Reader.getBits, hget, andThen_raised, map_raised]⟩

end Sys2Proof.Machine
end

section
/-! PROOF. Symbols read from the stream and coded literals: obligations O41 and O45. -/

namespace Sys2Proof.Machine

/-! ## `readSymbol` (rules R219, R220) -/

/-- Settles O41: the reader is a source of the bits ahead of it. -/
theorem readSymbolDecodes : Obligations.ReadSymbolDecodes := by
  intro s hfits
  refine ⟨fun sym bits rest hmem hahead => ?_, fun hno => ?_⟩
  · obtain ⟨h, r, hrun, hrest⟩ := decodeSymbol_code (bitSource_reader s.readEnv) hfits hmem hahead
    refine ⟨{ s.withHcReader (h, r) with ret := sym.toNat }, ?_, hrest, rfl⟩
    change settleRet ((readSymbol s).map BitVec.toNat) = _
    rw [readSymbol, hrun]
    rfl
  · rcases decodeSymbol_cases (bitSource_reader s.readEnv) s.call.ht s.call.rd with
      ⟨sym, h, r, q, _, hahead, hmem⟩ | ⟨h, r, hrun⟩
    · exact absurd ⟨_, hahead.symm⟩ (hno _ hmem)
    · refine ⟨(h, r), ?_⟩
      change settleRet ((readSymbol s).map BitVec.toNat) = _
      rw [readSymbol, hrun]
      rfl

/-! ## Coded literals given as words (rules R100, R322; log entry 16) -/

/-- A code at the front of a list of bits. -/
theorem codeFromBits_code {s : State} (hfits : s.call.ht.fits) {sym : Byte} {bits : List Bool}
    (hmem : (sym, bits) ∈ s.call.ht.codeList) (rest : List Bool) :
    ∃ h, codeFromBits (bits ++ rest) s = .ok (sym, rest) (s.withHc h) := by
  obtain ⟨h, y, hrun, hrest⟩ := decodeSymbol_code bitSource_list hfits hmem (x := bits ++ rest) (rest := rest) rfl
  obtain rfl : y = rest := hrest
  exact ⟨h, by rw [codeFromBits, hrun]⟩

/-- What a list of bits gives: a code of the table at its front, or `CorruptStream`. -/
theorem codeFromBits_cases (bits : List Bool) (s : State) :
    (∃ sym q rest h, codeFromBits bits s = .ok (sym, rest) (s.withHc h) ∧ bits = q ++ rest ∧
      (sym, q) ∈ s.call.ht.codeList) ∨
      ∃ h, codeFromBits bits s = .raised .corruptStream (s.withHc h) := by
  rcases decodeSymbol_cases bitSource_list s.call.ht bits with ⟨sym, h, rest, q, hrun, hq, hmem⟩ | ⟨h, y, hrun⟩
  · exact .inl ⟨sym, q, rest, h, by rw [codeFromBits, hrun], hq, hmem⟩
  · exact .inr ⟨h, by rw [codeFromBits, hrun]⟩

/-- The value of a coded literal given as a word: one code, or two (rules R302, R303). -/
def codedLit (w : SymWidth) (bits : List Bool) (s : State) : Run State (Byte × List Bool) :=
  match w with
  | .w4 => (codeFromBits bits s).andThen fun hi s => (codeFromBits hi.2 s).map fun lo => ((hi.1 <<< 4) ||| lo.1, lo.2)
  | _ => codeFromBits bits s

theorem exec_litH8 (bits : List Bool) (s : State) :
    exec (.litH8 bits) s = settle ((codedLit .w8 bits (setTkFlag false s)).andThen fun x s => endLit x.1 x.2 s) := rfl

theorem exec_litH4 (bits : List Bool) (s : State) :
    exec (.litH4 bits) s = settle ((codedLit .w4 bits (setTkFlag false s)).andThen fun x s => endLit x.1 x.2 s) := by
  change settle ((codeFromBits bits (setTkFlag false s)).andThen fun hi s =>
    (codeFromBits hi.2 s).andThen fun lo s => endLit ((hi.1 <<< 4) ||| lo.1) lo.2 s) = _
  rw [codedLit]
  cases codeFromBits bits (setTkFlag false s) with
  | raised k t => rfl
  | ok hi t =>
    rw [andThen_ok, andThen_ok]
    cases codeFromBits hi.2 t <;> rfl

/-- Bits that stand for a byte are read as it, and no bits are left. -/
theorem codedLit_says {s : State} (hfits : s.call.ht.fits) {w : SymWidth} (hw : w ≠ .raw) {v : Byte} {bits : List Bool}
    (h : saysValue s.fmt w s.call.ht v bits) : ∃ hc, codedLit w bits s = .ok (v, []) (s.withHc hc) := by
  cases w with
  | raw => exact absurd rfl hw
  | w8 =>
    have hrun := codeFromBits_code hfits h []
    rwa [List.append_nil] at hrun
  | w4 =>
    obtain ⟨hi, lo, b, c, rfl, rfl, hhi, hlo⟩ := h
    obtain ⟨h1, hrun1⟩ := codeFromBits_code hfits hhi c
    obtain ⟨h2, hrun2⟩ := codeFromBits_code (s := s.withHc h1) hfits hlo []
    rw [List.append_nil] at hrun2
    exact ⟨h2, by rw [codedLit, hrun1, andThen_ok, hrun2]; rfl⟩

/-- Whatever the bits, they begin with bits that stand for a byte, or `CorruptStream` is raised. -/
theorem codedLit_cases (w : SymWidth) (hw : w ≠ .raw) (bits : List Bool) (s : State) :
    (∃ v q rest hc, codedLit w bits s = .ok (v, rest) (s.withHc hc) ∧ bits = q ++ rest ∧
      saysValue s.fmt w s.call.ht v q) ∨
      ∃ hc, codedLit w bits s = .raised .corruptStream (s.withHc hc) := by
  cases w with
  | raw => exact absurd rfl hw
  | w8 => exact codeFromBits_cases bits s
  | w4 =>
    rcases codeFromBits_cases bits s with ⟨hi, b, rest, h1, hrun1, rfl, hhi⟩ | ⟨h1, hrun1⟩
    · rcases codeFromBits_cases rest (s.withHc h1) with ⟨lo, c, rest, h2, hrun2, rfl, hlo⟩ | ⟨h2, hrun2⟩
      · refine .inl ⟨_, b ++ c, rest, h2, by rw [codedLit, hrun1, andThen_ok, hrun2]; rfl, by simp, ?_⟩
        exact ⟨hi, lo, b, c, rfl, rfl, hhi, hlo⟩
      · exact .inr ⟨h2, by rw [codedLit, hrun1, andThen_ok, hrun2]; rfl⟩
    · exact .inr ⟨h1, by rw [codedLit, hrun1]; rfl⟩

/-- Settles O45: the raw form by its meaning; a coded form reads its value and must end there. -/
theorem literalTokens : Obligations.LiteralTokens := by
  intro s
  refine ⟨fun v => rfl, fun i w bits hi hfits => ?_⟩
  have hexec : exec i s = settle ((codedLit w bits (setTkFlag false s)).andThen fun x s => endLit x.1 x.2 s) ∧
      w ≠ .raw := by
    rcases hi with ⟨rfl, rfl⟩ | ⟨rfl, rfl⟩
    · exact ⟨exec_litH8 bits s, by decide⟩
    · exact ⟨exec_litH4 bits s, by decide⟩
  obtain ⟨hexec, hw⟩ := hexec
  rw [hexec]
  refine ⟨fun v hv => ?_, fun hno => ?_⟩
  · obtain ⟨hc, hrun⟩ := codedLit_says (s := setTkFlag false s) hfits hw hv
    exact ⟨hc, by rw [hrun]; rfl⟩
  · rcases codedLit_cases w hw bits (setTkFlag false s) with ⟨v, q, rest, hc, hrun, hbits, hv⟩ | ⟨hc, hrun⟩
    · have hrest : rest ≠ [] := fun h => hno v (by rw [hbits, h, List.append_nil]; exact hv)
      refine ⟨hc, ?_⟩
      rw [hrun, andThen_ok, endLit, if_neg (by simpa using hrest)]
      rfl
    · exact ⟨hc, by rw [hrun]; rfl⟩

end Sys2Proof.Machine
end

section
/-! PROOF. The codes `assignCodes` gives: obligation O37. -/

namespace Sys2Proof.Machine

/-! ## `HCODE` as a list of assignments (rule R212) -/

/-- A code's bits, root edge first. -/
def HuffCode.bits (c : HuffCode) : List Bool := bitsMsb c.len c.code

/-- The codes rule R212 gives the symbols of the levels from level `d` with first code `first`. -/
def levelAssignments : Nat → Nat → List (List Byte) → List (Byte × HuffCode)
  | _, _, [] => []
  | d, first, syms :: rest =>
    (syms.zipIdx.map fun x => (x.1, ⟨first + x.2, d⟩)) ++ levelAssignments (d + 1) ((first + syms.length) * 2) rest

/-- A code is set for each symbol, in order. -/
def setCodes (as : List (Byte × HuffCode)) (codes : List (Option HuffCode)) : List (Option HuffCode) :=
  as.foldl (fun codes a => codes.set a.1.toNat (some a.2)) codes

theorem levelCodes_eq_map (d first : Nat) (levels : List (List Byte)) :
    levelCodes d first levels = (levelAssignments d first levels).map fun a => (a.1, a.2.bits) := by
  induction levels generalizing d first with
  | nil => rfl
  | cons l ls ih =>
    rw [levelCodes, levelAssignments, List.map_append, List.map_map, ih]
    rfl

theorem assignLevel_eq (d code k : Nat) (syms : List Byte) (codes : List (Option HuffCode)) :
    assignLevel d (code + k) syms codes = setCodes ((syms.zipIdx k).map fun x => (x.1, ⟨code + x.2, d⟩)) codes := by
  induction syms generalizing k codes with
  | nil => rfl
  | cons s t ih => exact ih (k + 1) _

theorem assignFrom_eq (d first : Nat) (levels : List (List Byte)) (codes : List (Option HuffCode)) :
    assignFrom d first levels codes = setCodes (levelAssignments d first levels) codes := by
  induction levels generalizing d first codes with
  | nil => rfl
  | cons l ls ih =>
    rw [assignFrom, levelAssignments, setCodes, List.foldl_append, Nat.shiftLeft_eq, Nat.pow_one, ih]
    exact congrArg _ (assignLevel_eq d first 0 l codes)

@[simp] theorem setCodes_length (as : List (Byte × HuffCode)) (codes : List (Option HuffCode)) :
    (setCodes as codes).length = codes.length := by
  induction as generalizing codes with
  | nil => rfl
  | cons a t ih => exact (ih _).trans (List.length_set ..)

/-- Where no symbol is listed twice, an entry is the code its symbol was given, or is as it was. -/
theorem setCodes_getElem? {as : List (Byte × HuffCode)} (hn : (as.map Prod.fst).Nodup) (codes : List (Option HuffCode))
    (hlt : ∀ a ∈ as, a.1.toNat < codes.length) (sym : Byte) (c : HuffCode) :
    (setCodes as codes)[sym.toNat]? = some (some c) ↔
      (sym, c) ∈ as ∨ (sym ∉ as.map Prod.fst ∧ codes[sym.toNat]? = some (some c)) := by
  induction as generalizing codes with
  | nil => simp [setCodes]
  | cons a t ih =>
    obtain ⟨hna, hnt⟩ := List.nodup_cons.1 hn
    have ha : a.1.toNat < codes.length := hlt a List.mem_cons_self
    have hstep : setCodes (a :: t) codes = setCodes t (codes.set a.1.toNat (some a.2)) := rfl
    rw [hstep, ih hnt _ fun b hb => by rw [List.length_set]; exact hlt b (List.mem_cons_of_mem _ hb)]
    by_cases hsym : sym = a.1
    · subst hsym
      have hnot : ∀ c, (a.1, c) ∉ t := fun c hc => hna (List.mem_map.2 ⟨_, hc, rfl⟩)
      simp [hnot, hna, List.getElem?_set_self ha, Prod.ext_iff, eq_comm]
    · have hne : a.1.toNat ≠ sym.toNat := fun h => hsym (BitVec.eq_of_toNat_eq h).symm
      simp [hsym, List.getElem?_set_ne hne, Prod.ext_iff]

/-- A code fits its length, which is one of the levels that are left. -/
theorem mem_levelAssignments {d first slots left : Nat} {counts : List Nat} {syms : List Byte} {index : Nat}
    {a : Byte × HuffCode} (ha : a ∈ levelAssignments d first (splitLevels counts (syms.drop index)))
    (hplaces : first + slots = 2 ^ d) (hfits : slotsLeft slots counts = some left) :
    d ≤ a.2.len ∧ a.2.len < d + counts.length ∧ a.2.code < 2 ^ a.2.len := by
  induction counts generalizing d first slots index with
  | nil => cases ha
  | cons c cs ih =>
    obtain ⟨hc, hfits⟩ := slotsLeft_cons hfits
    obtain ⟨l, hlen, -, hsplit⟩ := splitLevels_cons c cs syms index
    rw [hsplit, levelAssignments, hlen, List.mem_append, List.mem_map] at ha
    rw [List.length_cons]
    rcases ha with ⟨⟨s, j⟩, hj, rfl⟩ | ha
    · have hjc : j < c := hlen ▸ (List.getElem?_eq_some_iff.1 (List.mem_zipIdx_iff_getElem?.1 hj)).1
      have hcode : first + j < 2 ^ d := by omega
      exact ⟨Nat.le_refl d, Nat.lt_add_of_pos_right (Nat.succ_pos _), hcode⟩
    · obtain ⟨hd, hlt, hcode⟩ := ih ha (places_next hplaces hc) hfits
      exact ⟨by omega, by omega, hcode⟩

/-! ## A complete code without ambiguity (rule R214) -/

/-- A table that leaves no place free has a code at the front of any bits long enough (rule R214). -/
theorem exists_code_prefix {counts : List Nat} {syms : List Byte} {first slots index : Nat} {pre bits : List Bool}
    (hplaces : first + slots = 2 ^ (pre.length + 1)) (hfull : slotsLeft slots counts = some 0)
    (hfirst : first ≤ 2 * natMsb pre) (hbits : bits.length = counts.length) :
    ∃ p ∈ levelCodes (pre.length + 1) first (splitLevels counts (syms.drop index)), p.2 <+: pre ++ bits := by
  induction counts generalizing first slots index pre bits with
  | nil =>
    have hslots : slots = 0 := Option.some.inj hfull
    have hlt := natMsb_lt pre
    rw [Nat.pow_succ] at hplaces
    omega
  | cons c cs ih =>
    obtain ⟨hc, hfull⟩ := slotsLeft_cons hfull
    obtain ⟨l, hlen, hl, hsplit⟩ := splitLevels_cons c cs syms index
    obtain ⟨b, rest, rfl⟩ := List.exists_cons_of_length_eq_add_one hbits
    have hvalue := natMsb_concat pre b
    have hpre : pre ++ b :: rest = (pre ++ [b]) ++ rest := by simp
    have hlength : (pre ++ [b]).length = pre.length + 1 := by simp
    simp only [hsplit, mem_levelCodes_cons, hlen]
    by_cases hhit : natMsb (pre ++ [b]) - first < c
    · refine ⟨(_, bitsMsb (pre.length + 1) (first + (natMsb (pre ++ [b]) - first))), .inl ⟨_, hl _ hhit, rfl⟩, ?_⟩
      rw [Nat.add_sub_cancel' (by omega), ← hlength, bitsMsb_natMsb, hpre]
      exact List.prefix_append _ _
    · have hplaces := places_next hplaces hc
      rw [← hlength] at hplaces
      obtain ⟨p, hp, hprefix⟩ := ih (index := index + c) hplaces hfull (by omega) (Nat.succ.inj hbits)
      exact ⟨p, .inr (by rwa [hlength] at hp), by rwa [hpre]⟩

/-- No code begins another: on the longer one's bits the reader finds the shorter one (rule R214). -/
theorem codeList_prefix_free {t : HuffTab} (hfits : t.fits) {p q : Byte × List Bool} (hp : p ∈ t.codeList)
    (hq : q ∈ t.codeList) (h : p.2 <+: q.2) : p = q := by
  obtain ⟨rest, hrest⟩ := h
  obtain ⟨_, y, hrun, hy⟩ := decodeSymbol_code bitSource_list hfits hp (x := q.2) hrest.symm
  obtain ⟨_, z, hrun', hz⟩ := decodeSymbol_code bitSource_list hfits hq (x := q.2) (rest := []) (List.append_nil _).symm
  rw [hrun] at hrun'
  obtain ⟨hsym, hleft⟩ := Run.ok.inj hrun'
  have hnil : rest = [] := hy.symm.trans ((Prod.ext_iff.1 hleft).2.trans hz)
  exact Prod.ext hsym (by rw [← hrest, hnil, List.append_nil])

/-- Settles O37: `HCODE` holds the codes of the table's places; that no code begins another is the
reader's, and that some code begins any sixteen bits the counting of free places. -/
theorem assignedCodesPrefixFree : Obligations.AssignedCodesPrefixFree := by
  intro s hfits hnodup hsyms
  have hmap : s.call.ht.codeList = _ := levelCodes_eq_map 1 0 (splitLevels s.call.ht.counts s.call.ht.hsym)
  have hcodes : codesOf s.call.hw s.call.ht = setCodes
      (levelAssignments 1 0 (splitLevels s.call.ht.counts s.call.ht.hsym)) (List.replicate (alphabet s.call.hw) none) :=
    assignFrom_eq _ _ _ _
  refine ⟨assignCodes s, rfl, rfl, ?_, fun sym bits => ?_, fun p hp q hq => codeList_prefix_free hfits hp hq,
    fun hfull bits hbits => ?_⟩
  · change (codesOf s.call.hw s.call.ht).length = _
    rw [hcodes, setCodes_length, List.length_replicate]
  · obtain ⟨left, hleft⟩ := Option.isSome_iff_exists.1 hfits
    have hbound : ∀ a ∈ levelAssignments 1 0 (splitLevels s.call.ht.counts s.call.ht.hsym),
        1 ≤ a.2.len ∧ a.2.len < 1 + s.call.ht.counts.length ∧ a.2.code < 2 ^ a.2.len :=
      fun a ha => mem_levelAssignments (slots := 2) (index := 0) ha rfl hleft
    rw [counts_length] at hbound
    have hentry : ∀ c, (assignCodes s).call.hcode[sym.toNat]? = some (some c) ↔
        (sym, c) ∈ levelAssignments 1 0 (splitLevels s.call.ht.counts s.call.ht.hsym) := by
      intro c
      change (codesOf s.call.hw s.call.ht)[sym.toNat]? = _ ↔ _
      rw [hmap, List.map_map] at hnodup
      rw [hcodes, setCodes_getElem? hnodup _ fun a ha => by
        rw [List.length_replicate]
        exact hsyms (a.1, a.2.bits) (hmap ▸ List.mem_map_of_mem ha)]
      simp [List.getElem?_replicate]
    rw [hmap, List.mem_map]
    constructor
    · rintro ⟨a, ha, hab⟩
      obtain ⟨rfl, rfl⟩ := Prod.ext_iff.1 hab
      obtain ⟨h1, h16, hlt⟩ := hbound a ha
      exact ⟨a.2, (hentry _).2 ha, h1, by omega, hlt, rfl⟩
    · rintro ⟨c, hc, -, -, -, rfl⟩
      exact ⟨(sym, c), (hentry c).1 hc, rfl⟩
  · exact exists_code_prefix (pre := []) (index := 0) (Nat.zero_add 2) hfull (Nat.le_refl 0)
      (hbits.trans (counts_length _).symm)

end Sys2Proof.Machine
end

section
/-! SUPPORT. The match finder and the optimal parse: what a candidate is (rules R160 to R163), the cost recurrence (rule
R184), and the tokens the walk takes (rules R186, R188). -/

namespace Sys2Proof.Machine

/-! ## Runs of agreeing bytes (rule R162) -/

/-- Two sequences agree as far as `agree` says. -/
theorem agree_spec (cap : Nat) (xs ys : List Byte) :
    agree cap xs ys ≤ cap ∧ agree cap xs ys ≤ ys.length ∧ ∀ i, i < agree cap xs ys → xs[i]? = ys[i]? := by
  induction cap generalizing xs ys with
  | zero => simp [agree]
  | succ cap ih =>
    match xs, ys with
    | [], ys => simp [agree]
    | x :: xs, [] => simp [agree]
    | x :: xs, y :: ys =>
      rw [agree]
      by_cases hxy : x = y
      · obtain ⟨hcap, hlen, hbytes⟩ := ih xs ys
        rw [if_pos hxy, List.length_cons]
        refine ⟨by omega, by omega, fun i hi => ?_⟩
        cases i with
        | zero => simp [hxy]
        | succ i => simpa using hbytes i (by omega)
      · simp [hxy]

/-- Two sequences agree no further than `agree` says. -/
theorem le_agree {cap l : Nat} {xs ys : List Byte} (hcap : l ≤ cap) (hlen : l ≤ ys.length)
    (h : ∀ i, i < l → xs[i]? = ys[i]?) : l ≤ agree cap xs ys := by
  induction l generalizing cap xs ys with
  | zero => exact Nat.zero_le _
  | succ l ih =>
    obtain ⟨cap, rfl⟩ : ∃ n, cap = n + 1 := ⟨cap - 1, by omega⟩
    obtain ⟨y, ys, rfl⟩ := List.exists_cons_of_length_pos (Nat.lt_of_lt_of_le (Nat.succ_pos l) hlen)
    have h0 := h 0 (Nat.succ_pos l)
    cases xs with
    | nil => cases h0
    | cons x xs =>
      have hxy : x = y := by simpa using h0
      rw [agree, if_pos hxy]
      exact Nat.succ_le_succ (ih (Nat.le_of_succ_le_succ hcap) (Nat.le_of_succ_le_succ hlen) fun i hi => by
        simpa using h (i + 1) (Nat.succ_lt_succ hi))

/-- The search: its best is no shorter than any run, and is one of them or what it began with. -/
theorem searchFrom_spec (B : List Byte) (p cap k d len disp : Nat) :
    len ≤ (searchFrom B p cap k d len disp).1 ∧
      (∀ j, d ≤ j → j < d + k → matchRun B p cap j ≤ (searchFrom B p cap k d len disp).1) ∧
      (searchFrom B p cap k d len disp = (len, disp) ∨
        ∃ j, d ≤ j ∧ j < d + k ∧ searchFrom B p cap k d len disp = (matchRun B p cap j, j)) := by
  induction k generalizing d len disp with
  | zero => exact ⟨Nat.le_refl _, fun j h1 h2 => by omega, .inl rfl⟩
  | succ k ih =>
    rw [searchFrom]
    by_cases hbetter : len < matchRun B p cap d
    · rw [if_pos hbetter]
      obtain ⟨hbest, hall, hone⟩ := ih (d + 1) (matchRun B p cap d) d
      refine ⟨by omega, fun j h1 h2 => ?_, ?_⟩
      · rcases Nat.eq_or_lt_of_le h1 with rfl | h
        · exact hbest
        · exact hall j h (by omega)
      · rcases hone with h | ⟨j, h1, h2, h⟩
        · exact .inr ⟨d, Nat.le_refl d, by omega, h⟩
        · exact .inr ⟨j, by omega, by omega, h⟩
    · rw [if_neg hbetter]
      obtain ⟨hbest, hall, hone⟩ := ih (d + 1) len disp
      refine ⟨hbest, fun j h1 h2 => ?_, ?_⟩
      · rcases Nat.eq_or_lt_of_le h1 with rfl | h
        · omega
        · exact hall j h (by omega)
      · rcases hone with h | ⟨j, h1, h2, h⟩
        · exact .inl h
        · exact .inr ⟨j, by omega, by omega, h⟩

/-! ## Candidates (rules R162, R163) -/

section
variable {row : ModeRow} {B : List Byte}

/-- A candidate is the longest run over the displacements in reach. -/
theorem candidate_cases (hmin : 1 ≤ row.minLen) (p : Nat) :
    (∀ j, 1 ≤ j → j ≤ min p row.maxDisp → matchRun B p (min row.maxLen (B.length - p)) j < row.minLen) ∧
        candidate row B p = none ∨
      ∃ d, 1 ≤ d ∧ d ≤ min p row.maxDisp ∧
        candidate row B p = some (matchRun B p (min row.maxLen (B.length - p)) d, d) ∧
        row.minLen ≤ matchRun B p (min row.maxLen (B.length - p)) d ∧
        ∀ j, 1 ≤ j → j ≤ min p row.maxDisp →
          matchRun B p (min row.maxLen (B.length - p)) j ≤ matchRun B p (min row.maxLen (B.length - p)) d := by
  obtain ⟨-, hall, hone⟩ := searchFrom_spec B p (min row.maxLen (B.length - p)) (min p row.maxDisp) 1 0 0
  by_cases hlong : row.minLen ≤ (searchFrom B p (min row.maxLen (B.length - p)) (min p row.maxDisp) 1 0 0).1
  · rcases hone with h | ⟨d, h1, h2, h⟩
    · rw [h] at hlong
      exact absurd hlong (by simp; omega)
    · rw [h] at hall hlong
      refine .inr ⟨d, h1, by omega, ?_, hlong, fun j hj1 hj2 => hall j hj1 (by omega)⟩
      rw [candidate, h]
      exact if_pos hlong
  · refine .inl ⟨fun j hj1 hj2 => ?_, if_neg hlong⟩
    have := hall j hj1 (by omega)
    omega

/-- A candidate is not shorter than `MINLEN`. -/
theorem minLen_le_candidate {p L d : Nat} (h : candidate row B p = some (L, d)) : row.minLen ≤ L := by
  simp only [candidate] at h
  split at h
  · obtain ⟨rfl, -⟩ := Prod.ext_iff.1 (Option.some.inj h)
    assumption
  · cases h

/-- A candidate, and every shortening of it down to `MINLEN`, is an encodable match (rule R163). -/
theorem encodableMatch_of_candidate (hmin : 1 ≤ row.minLen) {p L d l : Nat} (h : candidate row B p = some (L, d))
    (hl : row.minLen ≤ l) (hL : l ≤ L) : encodableMatch row B p l d := by
  rcases candidate_cases (B := B) hmin p with ⟨_, hnone⟩ | ⟨d', h1, h2, hsome, hlong, _⟩
  · rw [hnone] at h
    cases h
  · rw [hsome] at h
    obtain ⟨rfl, rfl⟩ := Prod.mk.inj (Option.some.inj h)
    obtain ⟨hcap, -, hbytes⟩ := agree_spec (min row.maxLen (B.length - p)) (B.drop (p - d')) (B.drop p)
    rw [← matchRun] at hcap hbytes
    refine ⟨⟨h1, by omega, by omega, by omega, fun i hi => ?_⟩, hl, by omega, by omega⟩
    simpa using hbytes i (by omega)

/-- Where there is an encodable match there is a candidate at least as long (rule R163). -/
theorem candidate_of_encodableMatch (hmin : 1 ≤ row.minLen) {p l d : Nat} (h : encodableMatch row B p l d) :
    ∃ L d', candidate row B p = some (L, d') ∧ l ≤ L := by
  obtain ⟨⟨hd1, hdp, hl1, hend, hbytes⟩, hl, hmax, hdisp⟩ := h
  have hrun : l ≤ matchRun B p (min row.maxLen (B.length - p)) d :=
    le_agree (by omega) (by rw [List.length_drop]; omega) fun i hi => by simpa using hbytes i hi
  rcases candidate_cases (B := B) hmin p with ⟨hshort, _⟩ | ⟨d', _, _, hsome, _, hbest⟩
  · have := hshort d hd1 (by omega)
    omega
  · exact ⟨_, d', hsome, Nat.le_trans hrun (hbest d hd1 (by omega))⟩

/-- `CAND[p]`. -/
theorem findCands_entry (row : ModeRow) (B : List Byte) (p : Nat) :
    ((findCands row B)[p]?).join = if p < B.length then candidate row B p else none := by
  rw [findCands, List.getElem?_map]
  split
  · rename_i hp
    rw [List.getElem?_range hp]
    rfl
  · rename_i hp
    rw [List.getElem?_eq_none (by simpa using hp)]
    rfl

/-- Tokens whose matches are viable are tokens whose matches are encodable. -/
theorem encodable_of_tokensViable (hmin : 1 ≤ row.minLen) {p : Nat} {ks : List Token}
    (h : tokensViable row.minLen (findCands row B) p ks) :
    ∀ m ∈ matchesAt p ks, encodableMatch row B m.position m.length m.displacement := by
  induction ks generalizing p with
  | nil => intro m hm; cases hm
  | cons k ks ih =>
    cases k with
    | lit v => exact ih h
    | copy l d =>
      obtain ⟨⟨L, hL, hl, hle⟩, hrest⟩ := h
      rw [findCands_entry] at hL
      split at hL
      · exact List.forall_mem_cons.2 ⟨encodableMatch_of_candidate hmin hL hl hle, ih hrest⟩
      · cases hL

end

/-! ## The cost recurrence (rule R184) -/

/-- The choice of a length: no length tried costs less, and the choice is one of them or what it began with. -/
theorem chooseLen_spec (price : Nat → Nat) (costs : List Nat) (k l cost adv : Nat) :
    (chooseLen price costs k l cost adv).1 ≤ cost ∧
      (∀ a, l ≤ a → a < l + k → (chooseLen price costs k l cost adv).1 ≤ price a + costs.getD (a - 1) 0) ∧
      (chooseLen price costs k l cost adv = (cost, adv) ∨
        ∃ a, l ≤ a ∧ a < l + k ∧ chooseLen price costs k l cost adv = (price a + costs.getD (a - 1) 0, a)) := by
  induction k generalizing l cost adv with
  | zero => exact ⟨Nat.le_refl _, fun a h1 h2 => by omega, .inl rfl⟩
  | succ k ih =>
    simp only [chooseLen]
    by_cases hbetter : price l + costs.getD (l - 1) 0 < cost ∨ (price l + costs.getD (l - 1) 0 = cost ∧ adv < l)
    · rw [if_pos hbetter]
      obtain ⟨hbest, hall, hone⟩ := ih (l + 1) (price l + costs.getD (l - 1) 0) l
      refine ⟨by omega, fun a h1 h2 => ?_, ?_⟩
      · rcases Nat.eq_or_lt_of_le h1 with rfl | h
        · exact hbest
        · exact hall a h (by omega)
      · rcases hone with h | ⟨a, h1, h2, h⟩
        · exact .inr ⟨l, Nat.le_refl l, by omega, h⟩
        · exact .inr ⟨a, by omega, by omega, h⟩
    · rw [if_neg hbetter]
      obtain ⟨hbest, hall, hone⟩ := ih (l + 1) cost adv
      refine ⟨hbest, fun a h1 h2 => ?_, ?_⟩
      · rcases Nat.eq_or_lt_of_le h1 with rfl | h
        · omega
        · exact hall a h (by omega)
      · rcases hone with h | ⟨a, h1, h2, h⟩
        · exact .inl h
        · exact .inr ⟨a, by omega, by omega, h⟩

/-- `COST` and `ADV` of a buffer satisfy the recurrence of rule R184: at the end the cost is 0, and before it the choice over
the costs that follow. -/
structure Priced (minLen : Nat) (lit : Byte → Nat) (price : Nat → Nat → Nat) (B : List Byte)
    (cand : List (Option (Nat × Nat))) (cost adv : List Nat) : Prop where
  last : cost.getD B.length 0 = 0
  choice : ∀ p v, B[p]? = some v →
    (cost.getD p 0, adv.getD p 0) = chooseAt minLen (lit v) price (cand[p]?).join (cost.drop (p + 1))

theorem costToEnd_choice (minLen : Nat) (lit : Byte → Nat) (price : Nat → Nat → Nat)
    (xs : List (Byte × Option (Nat × Nat))) :
    (costToEnd minLen lit price xs).1.getD xs.length 0 = 0 ∧ ∀ p x, xs[p]? = some x →
      ((costToEnd minLen lit price xs).1.getD p 0, (costToEnd minLen lit price xs).2.getD p 0) =
        chooseAt minLen (lit x.1) price x.2 ((costToEnd minLen lit price xs).1.drop (p + 1)) := by
  induction xs with
  | nil => exact ⟨rfl, fun p x h => by simp at h⟩
  | cons y t ih =>
    obtain ⟨hlast, hchoice⟩ := ih
    refine ⟨hlast, fun p x h => ?_⟩
    cases p with
    | zero =>
      obtain rfl : y = x := by simpa using h
      rfl
    | succ p => exact hchoice p x h

/-- Step 1 of the parse satisfies the recurrence. -/
theorem priced_costToEnd (minLen : Nat) (lit : Byte → Nat) (price : Nat → Nat → Nat) (B : List Byte)
    (cand : List (Option (Nat × Nat))) :
    Priced minLen lit price B cand (costToEnd minLen lit price (withCands B cand)).1
      (costToEnd minLen lit price (withCands B cand)).2 := by
  obtain ⟨hlast, hchoice⟩ := costToEnd_choice minLen lit price (withCands B cand)
  refine ⟨by simpa [withCands] using hlast, fun p v hv => ?_⟩
  exact hchoice p (v, (cand[p]?).join) (by simp [withCands, hv])

section
variable {minLen : Nat} {lit : Byte → Nat} {price : Nat → Nat → Nat} {B : List Byte} {cand : List (Option (Nat × Nat))}
  {cost adv : List Nat}

theorem getD_drop_pred (p a : Nat) (ha : 1 ≤ a) : (cost.drop (p + 1)).getD (a - 1) 0 = cost.getD (p + a) 0 := by
  rw [List.getD_eq_getElem?_getD, List.getD_eq_getElem?_getD, List.getElem?_drop]
  congr 2
  omega

/-- The choice at a position is a literal or a viable match. -/
theorem Priced.cases (h : Priced minLen lit price B cand cost adv) (hmin : 1 ≤ minLen) {p : Nat} {v : Byte}
    (hv : B[p]? = some v) :
    (adv.getD p 0 = 1 ∧ cost.getD p 0 = lit v + cost.getD (p + 1) 0) ∨
      ∃ L d, (cand[p]?).join = some (L, d) ∧ minLen ≤ adv.getD p 0 ∧ adv.getD p 0 ≤ L ∧
        cost.getD p 0 = price (adv.getD p 0) d + cost.getD (p + adv.getD p 0) 0 := by
  have hchoice := h.choice p v hv
  have hlit : (cost.drop (p + 1)).getD 0 0 = cost.getD (p + 1) 0 := getD_drop_pred p 1 (Nat.le_refl 1)
  cases hc : (cand[p]?).join with
  | none =>
    rw [hc] at hchoice
    obtain ⟨h1, h2⟩ := Prod.mk.inj hchoice
    exact .inl ⟨h2, h1.trans (by rw [hlit])⟩
  | some x =>
    obtain ⟨L, d⟩ := x
    rw [hc] at hchoice
    obtain ⟨-, -, hone⟩ := chooseLen_spec (fun l => price l d) (cost.drop (p + 1)) (L + 1 - minLen) minLen
      (lit v + (cost.drop (p + 1)).getD 0 0) 1
    rcases hone with e | ⟨a, h1, h2, e⟩
    · obtain ⟨hcost, hadv⟩ := Prod.mk.inj (hchoice.trans e)
      exact .inl ⟨hadv, hcost.trans (by rw [hlit])⟩
    · obtain ⟨hcost, hadv⟩ := Prod.mk.inj (hchoice.trans e)
      rw [getD_drop_pred p a (by omega)] at hcost
      rw [hadv]
      exact .inr ⟨L, d, rfl, h1, by omega, hcost⟩

/-- A literal costs no less than the choice. -/
theorem Priced.le_lit (h : Priced minLen lit price B cand cost adv) {p : Nat} {v : Byte} (hv : B[p]? = some v) :
    cost.getD p 0 ≤ lit v + cost.getD (p + 1) 0 := by
  have hcost := (Prod.mk.inj (h.choice p v hv)).1
  rw [hcost, ← getD_drop_pred p 1 (Nat.le_refl 1)]
  cases (cand[p]?).join with
  | none => exact Nat.le_refl _
  | some x => exact (chooseLen_spec _ _ _ _ _ _).1

/-- A viable match costs no less than the choice. -/
theorem Priced.le_match (h : Priced minLen lit price B cand cost adv) (hmin : 1 ≤ minLen) {p L d l : Nat} {v : Byte}
    (hv : B[p]? = some v) (hc : (cand[p]?).join = some (L, d)) (hl : minLen ≤ l) (hL : l ≤ L) :
    cost.getD p 0 ≤ price l d + cost.getD (p + l) 0 := by
  have hcost := (Prod.mk.inj (h.choice p v hv)).1
  rw [hcost, hc, ← getD_drop_pred p l (by omega)]
  exact (chooseLen_spec _ _ _ _ _ _).2.1 l hl (by omega)

end

/-! ## The tokens of the walk (rules R186, R188) -/

section
variable {k : Construction} {row : ModeRow} {c : BitVec 3} {B : List Byte} {cand : List (Option (Nat × Nat))}
  {cost adv : List Nat}

/-- No tokens that cover the rest of the buffer with viable matches cost less than `COST[p]`. -/
theorem cost_le_tokensPrice (h : Priced row.minLen (literalCost k) (matchCost k row c) B cand cost adv)
    (hmin : 1 ≤ row.minLen) {p : Nat} {ks : List Token} (hcover : tokensCover B p ks)
    (hviable : tokensViable row.minLen cand p ks) : cost.getD p 0 ≤ tokensPrice k row c ks := by
  induction ks generalizing p with
  | nil =>
    obtain rfl : p = B.length := hcover
    exact Nat.le_of_eq h.last
  | cons t ks ih =>
    cases t with
    | lit v =>
      obtain ⟨hv, hrest⟩ := hcover
      exact Nat.le_trans (h.le_lit hv) (Nat.add_le_add_left (ih hrest hviable) _)
    | copy l d =>
      obtain ⟨hl1, hend, hrest⟩ := hcover
      obtain ⟨⟨L, hL, hl, hle⟩, hviable⟩ := hviable
      have hv : B[p]? = some B[p] := List.getElem?_eq_getElem (by omega)
      exact Nat.le_trans (h.le_match hmin hv hL hl hle) (Nat.add_le_add_left (ih hrest hviable) _)

/-- The walk takes the matches of tokens that cover the rest of the buffer with viable matches, at the cost `COST[p]`. -/
theorem exists_walk_tokens (h : Priced row.minLen (literalCost k) (matchCost k row c) B cand cost adv)
    (hmin : 2 ≤ row.minLen) (hcand : ∀ p L d : Nat, (cand[p]?).join = some (L, d) → p + L ≤ B.length) {fuel p : Nat}
    (hp : p ≤ B.length) (hfuel : B.length ≤ p + fuel) :
    ∃ ks, tokensCover B p ks ∧ tokensViable row.minLen cand p ks ∧
      walkFrom B.length cand adv fuel p = (matchesAt p ks, B.length) ∧ tokensPrice k row c ks = cost.getD p 0 := by
  induction fuel generalizing p with
  | zero =>
    obtain rfl : p = B.length := by omega
    exact ⟨[], rfl, trivial, rfl, h.last.symm⟩
  | succ fuel ih =>
    by_cases hlt : p < B.length
    · have hv : B[p]? = some B[p] := List.getElem?_eq_getElem hlt
      rw [walkFrom, if_pos hlt]
      rcases h.cases (by omega) hv with ⟨hadv, hcost⟩ | ⟨L, d, hc, hl, hL, hcost⟩
      · obtain ⟨ks, hcover, hviable, hwalk, hprice⟩ := ih (p := p + 1) hlt (by omega)
        refine ⟨.lit B[p] :: ks, ⟨hv, hcover⟩, hviable, ?_, by rw [tokensPrice, hprice, hcost]⟩
        simp only [hadv, hwalk, Nat.lt_irrefl, if_false]
        cases (cand[p]?).join <;> rfl
      · have hend := hcand p L d hc
        obtain ⟨ks, hcover, hviable, hwalk, hprice⟩ := ih (p := p + adv.getD p 0) (by omega) (by omega)
        refine ⟨.copy (adv.getD p 0) d :: ks, ⟨by omega, by omega, hcover⟩, ⟨⟨L, hc, hl, hL⟩, hviable⟩, ?_,
          by rw [tokensPrice, hprice, hcost]⟩
        simp only [hc, hwalk, if_pos (show 1 < adv.getD p 0 by omega)]
        rfl
    · obtain rfl : p = B.length := by omega
      exact ⟨[], rfl, trivial, by rw [walkFrom, if_neg hlt]; rfl, h.last.symm⟩

end

/-- The tokens rule R188 speaks of: they cover the buffer, their matches are viable, and no such tokens cost less. -/
structure ParsedTokens (k : Construction) (row : ModeRow) (c : BitVec 3) (B : List Byte) (ks : List Token) : Prop where
  cover : tokensCover B 0 ks
  viable : tokensViable row.minLen (findCands row B) 0 ks
  least : ∀ ks', tokensCover B 0 ks' → tokensViable row.minLen (findCands row B) 0 ks' →
    tokensPrice k row c ks ≤ tokensPrice k row c ks'

/-- The parse of a buffer on its own candidates takes the matches of such tokens. -/
theorem exists_parsedTokens (k : Construction) {row : ModeRow} (hmin : 2 ≤ row.minLen) (c : BitVec 3) (B : List Byte) :
    ∃ ks, ParsedTokens k row c B ks ∧
      walkFrom B.length (findCands row B) (costToEnd row.minLen (literalCost k) (matchCost k row c)
        (withCands B (findCands row B))).2 B.length 0 = (matchesAt 0 ks, B.length) := by
  have hpriced := priced_costToEnd row.minLen (literalCost k) (matchCost k row c) B (findCands row B)
  have hcand : ∀ p L d : Nat, ((findCands row B)[p]?).join = some (L, d) → p + L ≤ B.length := by
    intro p L d h
    rw [findCands_entry] at h
    split at h
    · obtain ⟨⟨-, -, -, hend, -⟩, -⟩ := encodableMatch_of_candidate (by omega) h (minLen_le_candidate h) (Nat.le_refl L)
      exact hend
    · cases h
  obtain ⟨ks, hcover, hviable, hwalk, hprice⟩ := exists_walk_tokens hpriced hmin hcand (fuel := B.length) (Nat.zero_le _)
    (Nat.le_add_left _ _)
  refine ⟨ks, ⟨hcover, hviable, fun ks' hcover' hviable' => ?_⟩, hwalk⟩
  rw [hprice]
  exact cost_le_tokensPrice hpriced (by omega) hcover' hviable'

/-! ## The default prices (rule R183) -/

section
variable {k : Construction} {row : ModeRow} {B : List Byte} (hprice : k.price = .reference)
include hprice

/-- A match's default price does not depend on its displacement. -/
theorem matchCost_reference (c : BitVec 3) (l d : Nat) : matchCost k row c l d =
    1 + row.lenBits + row.dispBits + if lenEscaped row l then row.extBits else 0 := by
  simp only [matchCost, hprice, lenEscaped_iff]
  by_cases hshort : row.extBits = 0 ∨ l - row.minLen < row.esc
  · rw [if_pos hshort, if_neg (by omega)]
    rfl
  · rw [if_neg hshort, if_pos (by omega)]
    omega

/-- A match's default price is the number of its bits. -/
theorem matchCost_bits (f : Fmt) (c : BitVec 3) (l d : Nat) : matchCost k row c l d = 1 + (copyStream f row l d).length := by
  have hlen : (lenStream f row l).length = row.lenBits + if lenEscaped row l then row.extBits else 0 := by
    rw [lenStream, List.length_append, streamOfValue_length]
    split <;> simp
  have hdisp : (dispStream f row d).length = row.dispBits := streamOfValue_length _ _ _
  have hcopy : (copyStream f row l d).length = (lenStream f row l).length + (dispStream f row d).length := by
    rw [copyStream]
    split
    · rw [List.length_append, Nat.add_comm]
    · rw [List.length_append]
  rw [matchCost_reference hprice, hcopy, hlen, hdisp]
  omega

/-- On the raw path the default price of tokens is the number of their bits. -/
theorem tokensPrice_bits (f : Fmt) (c : BitVec 3) (code : Nat → HuffCode) (ks : List Token) :
    tokensPrice k row c ks = (ks.flatMap fun t => t.stream f row .raw code).length := by
  induction ks with
  | nil => rfl
  | cons t ks ih =>
    rw [List.flatMap_cons, List.length_append, ← ih]
    cases t with
    | lit v =>
      have hlit : literalCost k v = 9 := by rw [literalCost, hprice]
      rw [tokensPrice, hlit, Token.stream, valueStream, List.length_cons, streamOfValue_length]
    | copy l d => rw [tokensPrice, matchCost_bits hprice f, Token.stream, List.length_cons, Nat.add_comm 1]

/-- Encodable matches can be exchanged for viable ones of the same lengths, at the same default price. -/
theorem exists_viable_tokens (hmin : 1 ≤ row.minLen) (c : BitVec 3) {p : Nat} {ks : List Token} (hcover : tokensCover B p ks)
    (h : ∀ m ∈ matchesAt p ks, encodableMatch row B m.position m.length m.displacement) :
    ∃ ks', tokensCover B p ks' ∧ tokensViable row.minLen (findCands row B) p ks' ∧
      tokensPrice k row c ks' = tokensPrice k row c ks := by
  induction ks generalizing p with
  | nil => exact ⟨[], hcover, trivial, rfl⟩
  | cons t ks ih =>
    cases t with
    | lit v =>
      obtain ⟨ks', hcover', hviable, hsame⟩ := ih hcover.2 h
      exact ⟨.lit v :: ks', ⟨hcover.1, hcover'⟩, hviable, by rw [tokensPrice, tokensPrice, hsame]⟩
    | copy l d =>
      obtain ⟨hl1, hend, hrest⟩ := hcover
      obtain ⟨hmatch, hmatches⟩ := List.forall_mem_cons.1 h
      obtain ⟨ks', hcover', hviable, hsame⟩ := ih hrest hmatches
      obtain ⟨L, d', hsome, hL⟩ := candidate_of_encodableMatch hmin hmatch
      obtain ⟨-, hl, -⟩ := hmatch
      have hentry : ((findCands row B)[p]?).join = some (L, d') := by
        rw [findCands_entry, if_pos (by omega)]
        exact hsome
      refine ⟨.copy l d' :: ks', ⟨hl1, hend, hcover'⟩, ⟨⟨L, hentry, hl, hL⟩, hviable⟩, ?_⟩
      rw [tokensPrice, tokensPrice, hsame, matchCost_reference hprice, matchCost_reference hprice]

end

end Sys2Proof.Machine
end

section
/-! SUPPORT. What the writer leaves in `DST` for a reader (rules R131, R132, R134, R139): the bits written, and the padding
of `flush`. -/

namespace Sys2Proof.Machine

/-! ## Words and their bytes (rules R11, R132) -/

theorem leNat_leBytes (n v : Nat) : leNat (leBytes n v) = v % 2 ^ (8 * n) := by
  induction n generalizing v with
  | zero => rw [Nat.mul_zero, Nat.pow_zero, Nat.mod_one]; rfl
  | succ n ih =>
    rw [leBytes, leNat, ih, BitVec.toNat_ofNat, Nat.mul_succ, Nat.add_comm, Nat.add_comm (8 * n), Nat.pow_add, Nat.mod_mul,
      Nat.add_comm]

/-- The bytes of a word are the word, as far as its bytes reach. -/
theorem getLsbD_wordOfBytes (f : Fmt) (w : Word) {i : Nat} (hi : i < f.wordBits) :
    (wordOfBytes f (bytesOfWord f w)).getLsbD i = w.getLsbD i := by
  have hvalue : wordOfBytes f (bytesOfWord f w) = BitVec.ofNat 32 (w.toNat % 2 ^ f.wordBits) := by
    unfold wordOfBytes bytesOfWord Fmt.wordBits
    split
    · rw [beNat, beBytes, List.reverse_reverse, leNat_leBytes]
    · rw [leNat_leBytes]
  rw [hvalue, BitVec.getLsbD_ofNat, Nat.testBit_mod_two_pow, BitVec.testBit_toNat]
  by_cases h32 : i < 32
  · simp [h32, hi]
  · simp [h32, BitVec.getLsbD_of_ge w i (by omega)]

theorem bitPlace_lt (f : Fmt) {j : Nat} (hj : j < f.wordBits) : bitPlace f j < f.wordBits := by
  unfold bitPlace
  split <;> omega

theorem bitPlace_inj (f : Fmt) {i j : Nat} (hi : i < f.wordBits) (hj : j < f.wordBits) (h : bitPlace f i = bitPlace f j) :
    i = j := by
  unfold bitPlace at h
  split at h <;> omega

theorem wordStream_bytes (f : Fmt) (w : Word) : wordStream f (wordOfBytes f (bytesOfWord f w)) = wordStream f w :=
  List.map_congr_left fun _ hj => getLsbD_wordOfBytes f w (bitPlace_lt f (List.mem_range.1 hj))

@[simp] theorem wordStream_length (f : Fmt) (w : Word) : (wordStream f w).length = f.wordBits := by simp [wordStream]

/-- In a well-formed record a word fits its 32 bits (rule R8). -/
theorem wordBits_le {f : Fmt} (h : f.wf) : f.wordBits ≤ 32 := by
  have hlog : f.wordLog.toNat < 3 := by
    have hlt := f.wordLog.isLt
    have hne : f.wordLog.toNat ≠ 3 := fun e => h (BitVec.eq_of_toNat_eq e)
    omega
  have hpow : 2 ^ f.wordLog.toNat ≤ 2 ^ 2 := Nat.pow_le_pow_right (by decide) (by omega)
  rw [Fmt.wordBits, Fmt.wordBytes, Nat.shiftLeft_eq]
  omega

/-! ## The words a sink has emitted -/

/-- The stream of the first `n` words from offset `base` on. -/
def wordsFrom (f : Fmt) (base : Nat) (m : Mem) (n : Nat) : List Bool :=
  (List.range n).flatMap fun i => wordStream f (wordOfBytes f (m.slice (base + i * f.wordBytes) f.wordBytes))

theorem wordsFrom_succ (f : Fmt) (base : Nat) (m : Mem) (n : Nat) : wordsFrom f base m (n + 1) =
    wordsFrom f base m n ++ wordStream f (wordOfBytes f (m.slice (base + n * f.wordBytes) f.wordBytes)) := by
  simp [wordsFrom, List.range_succ]

@[simp] theorem wordsFrom_length (f : Fmt) (base : Nat) (m : Mem) (n : Nat) :
    (wordsFrom f base m n).length = n * f.wordBits := by
  induction n with
  | zero => simp [wordsFrom]
  | succ n ih => rw [wordsFrom_succ, List.length_append, ih, wordStream_length, Nat.succ_mul]

/-- Words below a write are as they were. -/
theorem wordsFrom_congr (f : Fmt) {base n : Nat} {m m' : Mem}
    (h : ∀ a, a < base + n * f.wordBytes → m'.read a = m.read a) : wordsFrom f base m' n = wordsFrom f base m n := by
  induction n with
  | zero => rfl
  | succ n ih =>
    rw [Nat.succ_mul] at h
    rw [wordsFrom_succ, wordsFrom_succ, ih fun a ha => h a (by omega), slice_congr m m' _ _ fun a _ h2 => h a (by omega)]

/-- A word emitted at the end of `n` words is the next one. -/
theorem wordsFrom_emitWord (f : Fmt) {base n : Nat} {k : Sink} (hlen : k.len = base + n * f.wordBytes) :
    wordsFrom f base (k.emitWord f).dst (n + 1) = wordsFrom f base k.dst n ++ wordStream f k.wr.acc := by
  have hslice : (k.emitWord f).dst.slice (base + n * f.wordBytes) f.wordBytes = bytesOfWord f k.wr.acc := by
    have hwritten := slice_writeList_self k.dst k.len (bytesOfWord f k.wr.acc)
    rw [bytesOfWord_length, hlen] at hwritten
    rw [← hwritten, ← hlen]
    rfl
  obtain ⟨-, hkeep, -⟩ := emitWord_extends f k
  rw [wordsFrom_succ, hslice, wordStream_bytes, wordsFrom_congr f fun a ha => hkeep a (.inl (hlen ▸ ha))]

/-- What a reader opened at `base` has ahead of it in `n` words. -/
theorem ahead_words (f : Fmt) (base : Nat) (m : Mem) (n : Nat) :
    (Reader.mk base 0 0).ahead ⟨f, m, base + n * f.wordBytes⟩ = wordsFrom f base m n := by
  rw [Reader.ahead, Nat.add_sub_cancel_left, Nat.mul_div_cancel _ (wordBytes_pos f)]
  rfl

/-! ## The bits pending in the accumulator -/

/-- The first `n` bits of a word, in stream order. -/
def accBits (f : Fmt) (acc : Word) (n : Nat) : List Bool := (List.range n).map fun j => acc.getLsbD (bitPlace f j)

theorem accBits_wordBits (f : Fmt) (acc : Word) : accBits f acc f.wordBits = wordStream f acc := rfl

theorem accBits_succ (f : Fmt) (acc : Word) (n : Nat) :
    accBits f acc (n + 1) = accBits f acc n ++ [acc.getLsbD (bitPlace f n)] := by
  simp [accBits, List.range_succ]

/-- A word whose places from `n` on are clear has its first `n` bits and then zeros. -/
theorem accBits_clear (f : Fmt) {acc : Word} {n m : Nat}
    (h : ∀ j, n ≤ j → j < n + m → acc.getLsbD (bitPlace f j) = false) :
    accBits f acc (n + m) = accBits f acc n ++ List.replicate m false := by
  induction m with
  | zero => simp
  | succ m ih =>
    rw [← Nat.add_assoc, accBits_succ, ih fun j h1 h2 => h j h1 (by omega), h (n + m) (by omega) (by omega),
      List.append_assoc, List.replicate_succ']

/-- What a sink, opened at `base`, holds of the bits written to it: whole words in `DST`, and the rest in the accumulator,
whose other places are clear. -/
structure Written (f : Fmt) (base : Nat) (bits : List Bool) (k : Sink) (n : Nat) : Prop where
  len : k.len = base + n * f.wordBytes
  fill : k.wr.fill < f.wordBits
  bits : bits = wordsFrom f base k.dst n ++ accBits f k.wr.acc k.wr.fill
  clear : ∀ j, k.wr.fill ≤ j → j < f.wordBits → k.wr.acc.getLsbD (bitPlace f j) = false

theorem written_opened (f : Fmt) (m : Mem) (base : Nat) : Written f base [] ⟨openedWriter, m, base⟩ 0 where
  len := by simp
  fill := wordBits_pos f
  bits := rfl
  clear j _ _ := by simp [openedWriter]

/-- The accumulator after a bit is placed: that bit at its place, every other place as it was. -/
theorem getLsbD_place {f : Fmt} (hf : f.wf) {b : Bool} {k : Sink} (hfill : k.wr.fill < f.wordBits) {j : Nat}
    (hj : j < f.wordBits) : (k.place f b).wr.acc.getLsbD (bitPlace f j) =
      (k.wr.acc.getLsbD (bitPlace f j) || (decide (j = k.wr.fill) && b)) := by
  have h32 := Nat.lt_of_lt_of_le (bitPlace_lt f hj) (wordBits_le hf)
  have hbit : (BitVec.ofNat 32 b.toNat <<< bitPlace f k.wr.fill).getLsbD (bitPlace f j) = (decide (j = k.wr.fill) && b) := by
    rw [BitVec.getLsbD_shiftLeft, BitVec.getLsbD_ofNat]
    rcases Nat.lt_trichotomy (bitPlace f j) (bitPlace f k.wr.fill) with hlt | heq | hgt
    · have hne : j ≠ k.wr.fill := fun e => absurd (e ▸ hlt) (Nat.lt_irrefl _)
      simp [hlt, hne]
    · have he := bitPlace_inj f hj hfill heq
      subst he
      cases b <;> simp [h32]
    · have hne : j ≠ k.wr.fill := fun e => absurd (e ▸ hgt) (Nat.lt_irrefl _)
      have hhigh : b.toNat.testBit (bitPlace f j - bitPlace f k.wr.fill) = false :=
        Nat.testBit_lt_two_pow (Nat.lt_of_lt_of_le b.toNat_lt (Nat.pow_le_pow_right Nat.two_pos (Nat.sub_pos_of_lt hgt)))
      simp [hne, hhigh]
  rw [← hbit]
  exact BitVec.getLsbD_or

/-- Placing a bit adds it to the bits held. -/
theorem accBits_place {f : Fmt} (hf : f.wf) (b : Bool) {k : Sink} (hfill : k.wr.fill < f.wordBits)
    (hclear : k.wr.acc.getLsbD (bitPlace f k.wr.fill) = false) :
    accBits f (k.place f b).wr.acc (k.wr.fill + 1) = accBits f k.wr.acc k.wr.fill ++ [b] := by
  have hkept : accBits f (k.place f b).wr.acc k.wr.fill = accBits f k.wr.acc k.wr.fill := by
    refine List.map_congr_left fun j hj => ?_
    have hj := List.mem_range.1 hj
    rw [getLsbD_place hf hfill (by omega), decide_eq_false (by omega), Bool.false_and, Bool.or_false]
  rw [accBits_succ, hkept, getLsbD_place hf hfill hfill, hclear]
  simp

/-- One bit more. -/
theorem Written.putBit {f : Fmt} (hf : f.wf) {base n : Nat} {bits : List Bool} {k : Sink} (h : Written f base bits k n)
    (b : Bool) : ∃ n', Written f base (bits ++ [b]) (k.putBit f b) n' := by
  obtain ⟨hlen, hfill, hbits, hclear⟩ := h
  have hheld := accBits_place hf b hfill (hclear _ (Nat.le_refl _) hfill)
  rcases putBit_cases f b k with ⟨hfull, e⟩ | ⟨hmore, e⟩ <;> rw [e]
  · refine ⟨n + 1, ?_, wordBits_pos f, ?_, fun j _ _ => by simp [Sink.emitWord]⟩
    · change k.len + f.wordBytes = _
      rw [hlen, Nat.succ_mul, Nat.add_assoc]
    · rw [wordsFrom_emitWord f (k := k.place f b) hlen, ← accBits_wordBits, ← hfull, hheld, hbits, List.append_assoc]
      exact (List.append_nil _).symm
  · refine ⟨n, hlen, by change k.wr.fill + 1 < _; omega, ?_, fun j h1 h2 => ?_⟩
    · change _ = wordsFrom f base k.dst n ++ accBits f (k.place f b).wr.acc (k.wr.fill + 1)
      rw [hheld, hbits, List.append_assoc]
    · have h1 : k.wr.fill + 1 ≤ j := h1
      rw [getLsbD_place hf hfill h2, hclear j (by omega) h2, decide_eq_false (by omega)]
      rfl

theorem Written.putBits {f : Fmt} (hf : f.wf) {base n : Nat} {bits : List Bool} {k : Sink} (h : Written f base bits k n)
    (more : List Bool) : ∃ n', Written f base (bits ++ more) (k.putBits f more) n' := by
  induction more generalizing bits k n with
  | nil => exact ⟨n, by rwa [List.append_nil]⟩
  | cons b t ih =>
    obtain ⟨n', h'⟩ := h.putBit hf b
    obtain ⟨n'', h''⟩ := ih h'
    exact ⟨n'', by rwa [List.append_assoc] at h''⟩

/-- `flush` leaves whole words: the bits written, and zeros up to the end of the last word. -/
theorem Written.flush {f : Fmt} {base n : Nat} {bits : List Bool} {k : Sink} (h : Written f base bits k n) :
    ∃ n' pad, pad < f.wordBits ∧ (k.flush f).len = base + n' * f.wordBytes ∧
      wordsFrom f base (k.flush f).dst n' = bits ++ List.replicate pad false := by
  obtain ⟨hlen, hfill, hbits, hclear⟩ := h
  rw [Sink.flush]
  by_cases hpending : 0 < k.wr.fill
  · rw [if_pos hpending]
    refine ⟨n + 1, f.wordBits - k.wr.fill, by omega, ?_, ?_⟩
    · change k.len + f.wordBytes = _
      rw [hlen, Nat.succ_mul, Nat.add_assoc]
    · have hword : accBits f k.wr.acc f.wordBits =
          accBits f k.wr.acc k.wr.fill ++ List.replicate (f.wordBits - k.wr.fill) false := by
        rw [← accBits_clear f fun j h1 h2 => hclear j h1 (by omega)]
        congr 1
        omega
      rw [wordsFrom_emitWord f hlen, ← accBits_wordBits, hword, hbits, List.append_assoc]
  · rw [if_neg hpending]
    have hempty : k.wr.fill = 0 := Nat.eq_zero_of_not_pos hpending
    refine ⟨n, 0, wordBits_pos f, hlen, ?_⟩
    rw [hbits, hempty, List.replicate_zero, List.append_nil]
    exact (List.append_nil _).symm

/-- Bits written from offset `base` on and flushed are what a reader opened there has ahead of it, with fewer zeros after
them than a word has bits (rules R134, R139, R141). -/
theorem ahead_written {f : Fmt} (hf : f.wf) (m : Mem) (base : Nat) (bits : List Bool) {k : Sink}
    (hk : k = (Sink.putBits f bits ⟨openedWriter, m, base⟩).flush f) :
    ∃ pad, pad < f.wordBits ∧
      (Reader.mk base 0 0).ahead ⟨f, k.dst, k.len⟩ = bits ++ List.replicate pad false ∧
      k.len = base + f.wordBytes * ((bits.length + pad) / f.wordBits) := by
  obtain ⟨n, hwritten⟩ := (written_opened f m base).putBits hf bits
  obtain ⟨n', pad, hpad, hlen, hwords⟩ := hwritten.flush
  rw [List.nil_append, ← hk] at hwords
  rw [← hk] at hlen
  refine ⟨pad, hpad, by rw [hlen, ahead_words, hwords], ?_⟩
  have hcount : n' * f.wordBits = bits.length + pad := by simpa using congrArg List.length hwords
  rw [hlen, ← hcount, Nat.mul_div_cancel _ (wordBits_pos f), Nat.mul_comm]

end Sys2Proof.Machine
end

section
/-! PROOF. ENCODE on the raw path: obligation O58. -/

namespace Sys2Proof.Machine

/-! ## The phases before the tokens (rules R270 to R273) -/

theorem obfOf_zero (k : Construction) : obfOf k 0 = id := by
  unfold obfOf
  cases k.obf <;> rfl

/-- A configuration whose modes are implemented passes. -/
theorem checkConfig_ok {s : State} (hvalid : s.cfgValid = true) (hmodes : modesOk s.kon s.cfgIdent) :
    checkConfig s = .ok () ((s.withIdent s.cfgIdent).withHw (widthOf (hmodeOf s.cfgIdent))) := by
  obtain ⟨hres, himp⟩ := hmodes
  rcases checkConfig_cases s with ⟨h, _⟩ | ⟨_, h⟩
  · rw [hvalid] at h
    cases h
  · rw [h]
    rcases checkModes_cases .unsupportedMode (s.withIdent s.cfgIdent) with ⟨h, _⟩ | ⟨_, h, _⟩ | ⟨_, _, h⟩
    · exact absurd (hres.symm.trans h) (by decide)
    · exact absurd himp h
    · exact h

/-- `WORK` after `Materialize` is the source. -/
theorem materialize_workBytes (s : State) : (materialize s).workBytes = s.src.slice 0 s.srcLen := by
  have h := slice_writeList_self ⟨(clearDst s).draws, []⟩ 0 (s.src.slice 0 s.srcLen)
  rw [slice_length] at h
  exact h

/-- The phase `Obfuscate`, where it runs, leaves the transformed bytes in `WORK`; where it does not, they are the bytes that
stand there. -/
theorem obfuscatePhase_eq {s : State} (h0 : s.dsize ≠ 0) {B : List Byte}
    (hB : B = obfOf s.kon (omodeOf s.ident).toNat s.workBytes) (hlen : B.length = s.dsize) :
    ∃ m p, (if hasTransform s then obfuscateWork (setPhase .obfuscate s) else s) = setPhase p (s.withWork m) ∧
      m.slice 0 s.dsize = B := by
  by_cases ht : hasTransform s = true
  · refine ⟨s.work.writeList 0 B, .obfuscate, by rw [if_pos ht, hB]; rfl, ?_⟩
    rw [← hlen, slice_writeList_self]
  · have ho : omodeOf s.ident = 0 := by simpa [hasTransform, h0] using ht
    refine ⟨s.work, s.phase, if_neg ht, ?_⟩
    rw [hB, ho, show (0 : BitVec 3).toNat = 0 from rfl, obfOf_zero]
    rfl

/-! ## The tokens (rules R188, R276) -/

theorem findMatches_of_row {s : State} {row : ModeRow} (h : s.row = some row) :
    findMatches s = .ok () (s.withCall { s.call with
      cand := findCands row s.workBytes, tk := { s.call.tk with p := lastPos s s.dsize (s.dsize - 1) } }) := by
  rw [findMatches, withRow, h]

theorem parseCostToEnd_of_row {s : State} {row : ModeRow} (h : s.row = some row) :
    parseCostToEnd s = .ok () (s.withCall { s.call with
      cost := (costToEnd row.minLen (literalCost s.kon) (matchCost s.kon row (cmodeOf s.ident))
        (withCands s.workBytes s.call.cand)).1
      adv := (costToEnd row.minLen (literalCost s.kon) (matchCost s.kon row (cmodeOf s.ident))
        (withCands s.workBytes s.call.cand)).2
      tk := { s.call.tk with p := lastPos s s.dsize 0 } }) := by
  rw [parseCostToEnd, withRow, h]

/-- `FindMatches` and `Parse` leave the matches of tokens as rule R188 has them. -/
theorem parsePhases_tokens {s : State} {row : ModeRow} (hrow : s.row = some row) (hmin : 2 ≤ row.minLen) :
    ∃ u v ks c, findMatches (setPhase .findMatches s) = .ok () u ∧ parseCostToEnd (setPhase .parse u) = .ok () v ∧
      parseWalk v = (setPhase .parse s).withCall c ∧ c.hw = s.call.hw ∧ c.mlist = matchesAt 0 ks ∧
      c.mcount = c.mlist.length ∧ ParsedTokens s.kon row (cmodeOf s.ident) s.workBytes ks := by
  obtain ⟨ks, hparsed, hwalk⟩ := exists_parsedTokens s.kon hmin (cmodeOf s.ident) s.workBytes
  have hlen : s.workBytes.length = s.dsize := slice_length _ _ _
  rw [hlen] at hwalk
  exact ⟨_, _, ks, _, findMatches_of_row (s := setPhase .findMatches s) hrow, parseCostToEnd_of_row hrow, rfl, rfl,
    congrArg Prod.fst hwalk, rfl, hparsed⟩

/-- On the raw path the bits of a token do not depend on the codes. -/
theorem stream_raw (f : Fmt) (row : ModeRow) (code code' : Nat → HuffCode) (k : Token) :
    k.stream f row .raw code = k.stream f row .raw code' := by
  cases k <;> rfl

theorem emit_of_row {s : State} {row : ModeRow} (h : s.row = some row) : emit s = .ok () (emitTokens row s) := by
  rw [emit, withRow, h]

/-- What the raw path writes for tokens: the header from offset 0, then their bits, flushed. -/
def rawOutput (s : State) (row : ModeRow) (ks : List Token) : Sink :=
  (Sink.putBits s.fmt (ks.flatMap fun k => k.stream s.fmt row .raw s.codeOf)
    ⟨openedWriter, s.dst.writeList 0 (headerBytes s), s.fmt.hdrLen⟩).flush s.fmt

/-- `WriteHeader`, `Emit` and the flush on the raw path, from the matches of tokens. -/
theorem emitPhases_raw {s : State} {row : ModeRow} {ks : List Token} (hrow : s.row = some row) (hw : s.call.hw = .raw)
    (h0 : s.dsize ≠ 0) (hcover : tokensCover s.workBytes 0 ks) (hlist : s.call.mlist = matchesAt 0 ks)
    (hcount : s.call.mcount = s.call.mlist.length) :
    ∃ u, emit (setPhase .emit (writeHeader (setPhase .writeHeader s))) = .ok () u ∧ (flush u).ident = s.ident ∧
      (flush u).dsize = s.dsize ∧ (flush u).sink = rawOutput s row ks := by
  have hhead : writeHeader (setPhase .writeHeader s) = (setPhase .writeHeader s).withSink
      ⟨openedWriter, s.dst.writeList 0 (headerBytes s), s.fmt.hdrLen⟩ := by
    rw [writeHeader_bits (setPhase .writeHeader s) h0, if_pos (show (setPhase .writeHeader s).call.hw = .raw from hw)]
    rfl
  have hemit := emitTokens_of_cover (row := row) (s := setPhase .emit (writeHeader (setPhase .writeHeader s))) (ks := ks)
  rw [hhead] at hemit ⊢
  refine ⟨_, emit_of_row hrow, ?_⟩
  rw [hemit hcover hlist hcount]
  refine ⟨rfl, rfl, ?_⟩
  change (Sink.putBits s.fmt (ks.flatMap fun k => k.stream s.fmt row s.call.hw s.codeOf) _).flush s.fmt = _
  rw [hw]
  rfl

/-- The phases of ENCODE on the raw path. -/
theorem encodePhases_raw {s : State} {row : ModeRow} (hrow : s.row = some row) (hmin : 2 ≤ row.minLen)
    (hw : s.call.hw = .raw) (h0 : s.dsize ≠ 0) {B : List Byte}
    (hB : B = obfOf s.kon (omodeOf s.ident).toNat s.workBytes) (hlen : B.length = s.dsize) :
    ∃ ks u, Machine.encodePhases s = .ok () u ∧ ParsedTokens s.kon row (cmodeOf s.ident) B ks ∧
      u.ident = s.ident ∧ u.dsize = s.dsize ∧ u.sink = rawOutput s row ks := by
  obtain ⟨m, p, hobf, hwork⟩ := obfuscatePhase_eq h0 hB hlen
  obtain ⟨u, v, ks, c, hfind, hparse, hwalk, hcw, hlist, hcount, hparsed⟩ :=
    parsePhases_tokens (s := setPhase p (s.withWork m)) hrow hmin
  have hbytes : (setPhase p (s.withWork m)).workBytes = B := hwork
  have hcover := hparsed.cover
  have hcw : c.hw = .raw := hcw.trans hw
  obtain ⟨w, hemit, hident, hdsize, hsink⟩ :=
    emitPhases_raw (s := (setPhase .parse (setPhase p (s.withWork m))).withCall c) hrow hcw h0 hcover hlist hcount
  rw [hbytes] at hparsed
  refine ⟨ks, flush w, ?_, hparsed, hident, hdsize, ?_⟩
  · rw [Machine.encodePhases, hobf]
    simp only [hfind, hparse, hwalk, andThen_ok, withCall_call, if_pos hcw, hemit]
  · rw [hsink, rawOutput, rawOutput, funext (stream_raw s.fmt row s.codeOf _)]
    rfl

/-! ## ENCODE -/

/-- ENCODE of data that is not empty, on the raw path. -/
theorem runEncode_raw {s : State} {row : ModeRow} (hvalid : s.cfgValid = true) (hmodes : modesOk s.kon s.cfgIdent)
    (hhuff : hmodeOf s.cfgIdent = 0) (h0 : s.srcLen ≠ 0) (hrow : s.kon.row (cmodeOf s.cfgIdent) = some row)
    (hmin : 2 ≤ row.minLen) {B : List Byte}
    (hB : B = obfOf s.kon (omodeOf s.cfgIdent).toNat (s.src.slice 0 s.srcLen)) (hlen : B.length = s.srcLen) :
    ∃ ks u m, runEncode s = .ok () u ∧ ParsedTokens s.kon row (cmodeOf s.cfgIdent) B ks ∧ u.ident = s.cfgIdent ∧
      u.dsize = s.srcLen ∧
      u.sink = (Sink.putBits s.fmt (ks.flatMap fun k => k.stream s.fmt row .raw s.codeOf)
        ⟨openedWriter, Mem.writeList m 0 (s.fmt.magic :: leBytes s.fmt.sizeBytes s.srcLen ++ [s.cfgIdent]),
          s.fmt.hdrLen⟩).flush s.fmt := by
  have hcheck := checkConfig_ok (s := startCommand .checkConfig s) hvalid hmodes
  have hraw : widthOf (hmodeOf s.cfgIdent) = .raw := by rw [hhuff]; rfl
  obtain ⟨ks, u, hrun, hparsed, hident, hdsize, hsink⟩ := encodePhases_raw (B := B)
    (s := materialize (setPhase .materialize (((startCommand .checkConfig s).withIdent s.cfgIdent).withHw
      (widthOf (hmodeOf s.cfgIdent))))) hrow hmin hraw h0 (by rw [materialize_workBytes]; exact hB) hlen
  refine ⟨ks, u, ⟨s.draws, []⟩, ?_, hparsed, hident, hdsize, ?_⟩
  · rw [runEncode, hcheck, andThen_ok]
    exact (if_neg h0).trans hrun
  · rw [hsink, rawOutput, funext (stream_raw _ row _ s.codeOf)]
    rfl

/-- Bytes below the offset the writer is opened at are kept. -/
theorem slice_below_written (f : Fmt) (m : Mem) (base : Nat) (bits : List Bool) {k : Sink}
    (hk : k = (Sink.putBits f bits ⟨openedWriter, m, base⟩).flush f) : k.dst.slice 0 base = m.slice 0 base := by
  obtain ⟨-, hkeep, -⟩ := Sink.extends_trans (putBits_extends f bits ⟨openedWriter, m, base⟩) (flush_extends f _)
  rw [hk]
  exact slice_congr _ _ _ _ fun a _ ha => hkeep a (.inl (by simpa using ha))

/-- Settles O58: the raw path's output is the header and the bits of the tokens the parse took, which the reader has ahead of
it; under the default prices those tokens have the fewest bits. -/
theorem encodeContainer : Obligations.EncodeContainer := by
  intro s row B hbusy hrecord hvalid hmodes hhuff hpos hmax hrow hB hlen
  have hfmt : s.fmt.wf := by
    simp only [recordWf, Bool.and_eq_true, decide_eq_true_eq] at hrecord
    exact hrecord.1
  have hmin : 2 ≤ row.minLen := by
    obtain ⟨row', hrow', hwf⟩ := row_of_implemented hrecord hmodes.2
    obtain rfl : row' = row := Option.some.inj (hrow'.symm.trans hrow)
    exact ((ModeRow.wf_iff row').1 hwf).1
  obtain ⟨ks, u, m, hrun, hparsed, hident, hdsize, hsink⟩ :=
    runEncode_raw hvalid hmodes hhuff (Nat.ne_of_gt hpos) hrow hmin hB hlen
  obtain ⟨pad, hpad, hahead, hend⟩ := ahead_written hfmt _ _ _ hsink
  have hexec : exec .encode s = .next (freeCall (endDone u)) := by
    change hostMove s _ = _
    rw [hostMove_idle hbusy, if_neg (by omega), hrun]
    rfl
  refine ⟨_, ks, pad, hexec, rfl, rfl, hident, hdsize, ?_, hparsed.cover,
    encodable_of_tokensViable (by omega) hparsed.viable, hahead, hpad, hend, fun hprice ks' hcover hmatches => ?_⟩
  · have hlength : (s.fmt.magic :: leBytes s.fmt.sizeBytes s.srcLen ++ [s.cfgIdent]).length = s.fmt.hdrLen := by
      simp [Fmt.hdrLen]
    have hbelow := slice_below_written _ _ _ _ hsink
    rw [← hlength, slice_writeList_self, hlength] at hbelow
    exact hbelow
  · obtain ⟨ks'', hcover'', hviable'', hsame⟩ :=
      exists_viable_tokens hprice (Nat.le_of_succ_le hmin) (cmodeOf s.cfgIdent) hcover hmatches
    have hbits := tokensPrice_bits (row := row) hprice s.fmt (cmodeOf s.cfgIdent) s.codeOf
    rw [← hbits, ← hbits, ← hsame]
    exact hparsed.least ks'' hcover'' hviable''

end Sys2Proof.Machine
end

section
/-! PROOF. The bit-stream engine: obligations O21 to O25. The reader gives the bits ahead of it, a run of writes leaves its
bits and zeros in whole words, and so what was written reads back. -/

namespace Sys2Proof.Machine

/-! ## Values and their bits (rules R131, R136) -/

theorem bitsLsb_eq_map (n v : Nat) : bitsLsb n v = (List.range n).map v.testBit := by
  induction n generalizing v with
  | zero => rfl
  | succ n ih =>
    rw [bitsLsb, ih, List.range_succ_eq_map, List.map_cons, List.map_map]
    refine congrArg _ (List.map_congr_left fun i _ => ?_)
    rw [Nat.testBit_shiftRight, Nat.add_comm, Function.comp_apply]

/-- A stream of bits read with the width it was written with is the value modulo that width. -/
theorem valueOfStream_streamOfValue (f : Fmt) (v n : Nat) : valueOfStream f (streamOfValue f v n) = v % 2 ^ n := by
  unfold valueOfStream streamOfValue
  split
  · exact natLsb_bitsLsb n v
  · exact natMsb_bitsMsb n v

theorem valueOfStream_lt (f : Fmt) (bs : List Bool) : valueOfStream f bs < 2 ^ bs.length := by
  unfold valueOfStream
  split
  · exact natLsb_lt bs
  · exact natMsb_lt bs

theorem natLsb_zeros (n : Nat) : natLsb (List.replicate n false) = 0 := by
  induction n with
  | zero => rfl
  | succ n ih => rw [List.replicate_succ, natLsb, ih]; rfl

theorem valueOfStream_zeros (f : Fmt) (n : Nat) : valueOfStream f (List.replicate n false) = 0 := by
  unfold valueOfStream
  split
  · exact natLsb_zeros n
  · rw [natMsb, List.reverse_replicate, natLsb_zeros]

/-! ## Reading from the bits ahead (rules R136, R137) -/

/-- `getBits` takes its bits from those ahead, where they are there. -/
theorem getBits_ahead (e : ReadEnv) {n : Nat} {r : Reader} (h : n ≤ (r.ahead e).length) :
    ∃ r', Reader.getBits e n r = .ok ((r.ahead e).take n) r' ∧ r'.ahead e = (r.ahead e).drop n := by
  induction n generalizing r with
  | zero => exact ⟨r, rfl, rfl⟩
  | succ n ih =>
    rcases getBit_ahead e r with ⟨b, r1, hget, hbit⟩ | ⟨hnil, _⟩
    · rw [hbit] at h ⊢
      obtain ⟨r2, hrest, hdrop⟩ := ih (Nat.le_of_succ_le_succ h)
      exact ⟨r2, by rw [Reader.getBits, hget, andThen_ok, hrest]; rfl, hdrop⟩
    · rw [hnil] at h
      cases h

/-- `getBits` raises `CorruptStream` where there are fewer bits ahead than it asks for. -/
theorem getBits_short (e : ReadEnv) {n : Nat} {r : Reader} (h : (r.ahead e).length < n) :
    ∃ r', Reader.getBits e n r = .raised .corruptStream r' := by
  induction n generalizing r with
  | zero => cases h
  | succ n ih =>
    rcases getBit_ahead e r with ⟨b, r1, hget, hbit⟩ | ⟨_, r1, hget⟩
    · rw [hbit] at h
      obtain ⟨r2, hrest⟩ := ih (Nat.lt_of_succ_lt_succ h)
      exact ⟨r2, by rw [Reader.getBits, hget, andThen_ok, hrest, map_raised]⟩
    · exact ⟨r1, by rw [Reader.getBits, hget, andThen_raised]⟩

/-- `readBits` on the state, where its bits are ahead. -/
theorem readBits_ahead {s : State} {n : Nat} (h : n ≤ s.bitsAhead.length) :
    ∃ r, readBits n s = .ok (valueOfStream s.fmt (s.bitsAhead.take n)) (s.withReader r) ∧
      (s.withReader r).bitsAhead = s.bitsAhead.drop n := by
  obtain ⟨r, hget, hdrop⟩ := getBits_ahead s.readEnv h
  exact ⟨r, by rw [readBits, Reader.readBits, hget]; rfl, hdrop⟩

/-- `readBits` on the state, where fewer bits are ahead. -/
theorem readBits_short {s : State} {n : Nat} (h : s.bitsAhead.length < n) :
    ∃ r, readBits n s = .raised .corruptStream (s.withReader r) := by
  obtain ⟨r, hget⟩ := getBits_short s.readEnv h
  exact ⟨r, by rw [readBits, Reader.readBits, hget, map_raised, lift_raised]⟩

/-- `readBits` takes the bits that stand first. -/
theorem readBits_append {s : State} {bits rest : List Bool} (h : s.bitsAhead = bits ++ rest) :
    ∃ r, readBits bits.length s = .ok (valueOfStream s.fmt bits) (s.withReader r) ∧ (s.withReader r).bitsAhead = rest := by
  obtain ⟨r, hread, hdrop⟩ := readBits_ahead (s := s) (n := bits.length) (by simp [h])
  rw [h, List.take_left] at hread
  rw [h, List.drop_left] at hdrop
  exact ⟨r, hread, hdrop⟩

/-- A value read has the bits it was read with. -/
theorem readBits_lt {n v : Nat} {s t : State} (h : readBits n s = .ok v t) : v < 2 ^ n := by
  rcases Nat.lt_or_ge s.bitsAhead.length n with hshort | hlong
  · obtain ⟨r, hraised⟩ := readBits_short hshort
    cases h.symm.trans hraised
  · obtain ⟨r, hok, -⟩ := readBits_ahead hlong
    obtain ⟨rfl, -⟩ := Run.ok.inj (h.symm.trans hok)
    simpa [Nat.min_eq_left hlong] using valueOfStream_lt s.fmt (s.bitsAhead.take n)

/-- `readByte` and the raw path of `readValue` are `readBits` of 8 bits (rules R138, R301). -/
theorem exec_readBits {i : Instr} {n : Nat} (h : i = .readBits n ∨ ((i = .readByte ∨ i = .valueRaw .read) ∧ n = 8))
    (s : State) : exec i s = settleRet (readBits n s) := by
  rcases h with rfl | ⟨rfl | rfl, rfl⟩
  · rfl
  · rfl
  · change settleRet (((readBits 8 s).map (BitVec.ofNat 8)).map BitVec.toNat) = _
    cases hread : readBits 8 s with
    | raised k t => rfl
    | ok v t => rw [map_ok, map_ok, BitVec.toNat_ofNat, Nat.mod_eq_of_lt (readBits_lt hread)]

/-- Settles O25: `readBits` by the bits ahead of the reader, and the other two rows as `readBits` of 8 bits. -/
theorem readerOperations : Obligations.ReaderOperations := by
  intro i s n hrow
  rw [exec_readBits hrow]
  refine ⟨fun hlong => ?_, fun hshort => ?_⟩
  · obtain ⟨r, hread, hdrop⟩ := readBits_ahead hlong
    exact ⟨r, by rw [hread]; rfl, hdrop⟩
  · obtain ⟨r, hread⟩ := readBits_short hshort
    exact ⟨r, by rw [hread]; rfl⟩

/-! ## The writer's rows (rules R130, R131, R133, R134) -/

/-- The bits of a write in stream order: its low bits, the most significant first under `BITORDER = MSB` (rule R131). -/
theorem streamOfValue_eq (f : Fmt) (v n : Nat) : streamOfValue f v n =
    if f.lsbFirst then (List.range n).map v.testBit else ((List.range n).map v.testBit).reverse := by
  rw [streamOfValue, bitsMsb, bitsLsb_eq_map]

theorem exec_writeBits (v n : Nat) (s : State) :
    exec (.writeBits v n) s = .next (s.withSink (s.sink.putBits s.fmt (streamOfValue s.fmt v n))) := rfl

theorem exec_flush (s : State) : exec .flush s = .next (s.withSink (s.sink.flush s.fmt)) := rfl

/-- Settles O21: each row is its operation on the sink, and the two cases of `flush` are those of a pending bit. -/
theorem writerOperations : Obligations.WriterOperations := by
  intro s
  refine ⟨rfl, fun i v n hrow => ?_, fun hempty => ?_, fun hpending => ?_, rfl⟩
  · rw [← streamOfValue_eq]
    rcases hrow with rfl | ⟨rfl, rfl⟩ <;> rfl
  · rw [exec_flush, Sink.flush, if_neg (by rw [sink_wr, hempty]; exact Nat.lt_irrefl 0), withSink_self]
  · rw [exec_flush, Sink.flush, if_pos (show 0 < s.sink.wr.fill from hpending)]
    rfl

/-! ## A run of writes (rules R134, R141) -/

/-- The bits of a sequence of `writeBits` calls, values with their widths. -/
def writtenBits (f : Fmt) (ws : List (Nat × Nat)) : List Bool := ws.flatMap fun w => streamOfValue f w.1 w.2

@[simp] theorem writtenBits_length (f : Fmt) (ws : List (Nat × Nat)) :
    (writtenBits f ws).length = (ws.map Prod.snd).sum := by
  simp [writtenBits, List.length_flatMap]

/-- What `openWriter`, the writes and `flush` leave of the writer and the output. -/
def writtenSink (s : State) (ws : List (Nat × Nat)) : Sink :=
  (Sink.putBits s.fmt (writtenBits s.fmt ws) ⟨openedWriter, s.dst, s.dstLen⟩).flush s.fmt

/-- The writes and the `flush` after them, from any writer. -/
theorem runAll_writes (ws : List (Nat × Nat)) (s : State) :
    runAll (ws.map (fun w => .writeBits w.1 w.2) ++ [.flush]) s =
      .next (s.withSink ((s.sink.putBits s.fmt (writtenBits s.fmt ws)).flush s.fmt)) := by
  induction ws generalizing s with
  | nil => rfl
  | cons w ws ih =>
    rw [List.map_cons, List.cons_append, runAll, exec_writeBits]
    simp only [ih, withSink_fmt, sink_withSink, withSink_withSink, ← putBits_append]
    rfl

theorem runAll_written (ws : List (Nat × Nat)) (s : State) :
    runAll (.openWriter :: ws.map (fun w => .writeBits w.1 w.2) ++ [.flush]) s = .next (s.withSink (writtenSink s ws)) :=
  runAll_writes ws (openWriter s)

/-- The words `T` bits take: `ceil(T / WORDBITS)` (rule R141). -/
def wordCount (f : Fmt) (T : Nat) : Nat := (T + f.wordBits - 1) / f.wordBits

theorem wordCount_of_padded {f : Fmt} {T pad n : Nat} (hpad : pad < f.wordBits) (h : n * f.wordBits = T + pad) :
    wordCount f T = n :=
  Nat.div_eq_of_lt_le (by omega) (by rw [Nat.succ_mul]; omega)

/-- A run of writes leaves its bits, and zeros after them, in as many words as they take (rules R132, R134, R141). -/
theorem writtenSink_words {s : State} (hf : s.fmt.wf) (ws : List (Nat × Nat)) :
    (writtenSink s ws).len = s.dstLen + wordCount s.fmt (ws.map Prod.snd).sum * s.fmt.wordBytes ∧
      ∃ pad, wordsFrom s.fmt s.dstLen (writtenSink s ws).dst (wordCount s.fmt (ws.map Prod.snd).sum) =
        writtenBits s.fmt ws ++ List.replicate pad false := by
  obtain ⟨n, hwritten⟩ := (written_opened s.fmt s.dst s.dstLen).putBits hf (writtenBits s.fmt ws)
  obtain ⟨n', pad, hpad, hlen, hwords⟩ := hwritten.flush
  rw [List.nil_append] at hwords
  have hcount : n' * s.fmt.wordBits = (ws.map Prod.snd).sum + pad := by simpa using congrArg List.length hwords
  rw [wordCount_of_padded hpad hcount]
  exact ⟨hlen, pad, hwords⟩

/-- `flush` counts no bits. -/
theorem flush_bits (f : Fmt) (k : Sink) : (k.flush f).wr.bits = k.wr.bits := by
  unfold Sink.flush
  split <;> rfl

theorem writtenSink_bits (s : State) (ws : List (Nat × Nat)) : (writtenSink s ws).wr.bits = (ws.map Prod.snd).sum := by
  rw [writtenSink, flush_bits, putBits_count, writtenBits_length]
  exact Nat.zero_add _

/-- The bytes below the offset the writer was opened at are kept. -/
theorem writtenSink_below (s : State) (ws : List (Nat × Nat)) {a : Nat} (ha : a < s.dstLen) :
    (writtenSink s ws).dst.read a = s.dst.read a := by
  obtain ⟨-, hkeep, -⟩ := Sink.extends_trans
    (putBits_extends s.fmt (writtenBits s.fmt ws) ⟨openedWriter, s.dst, s.dstLen⟩) (flush_extends s.fmt _)
  exact hkeep a (.inl ha)

/-- Settles O23: the words of `writtenSink_words`, and what the run's writes count and keep. -/
theorem writtenLength : Obligations.WrittenLength := by
  intro s ws hf
  obtain ⟨hlen, -⟩ := writtenSink_words hf ws
  exact ⟨_, runAll_written ws s, hlen.trans (by rw [Nat.mul_comm]; rfl), writtenSink_bits s ws,
    fun a ha => writtenSink_below s ws ha⟩

/-! ## Where the bits stand (rule R132) -/

/-- A bit of a word's stream is the bit of the word's value at its place. -/
theorem wordStream_getD {f : Fmt} (hf : f.wf) (bs : List Byte) {j : Nat} (hj : j < f.wordBits) :
    (wordStream f (wordOfBytes f bs)).getD j false = (if f.bigEnd then beNat bs else leNat bs).testBit (bitPlace f j) := by
  have h32 : bitPlace f j < 32 := Nat.lt_of_lt_of_le (bitPlace_lt f hj) (wordBits_le hf)
  simp [wordStream, wordOfBytes, BitVec.getLsbD_ofNat, hj, h32]

/-- Bit `k` of a stream of words is bit `k mod WORDBITS` of word `k div WORDBITS`. -/
theorem wordsFrom_getD (f : Fmt) (base : Nat) (m : Mem) {n k : Nat} (hk : k / f.wordBits < n) :
    (wordsFrom f base m n).getD k false =
      (wordStream f (wordOfBytes f (m.slice (base + k / f.wordBits * f.wordBytes) f.wordBytes))).getD
        (k % f.wordBits) false := by
  have hsplit := Nat.div_add_mod' k f.wordBits
  induction n with
  | zero => cases hk
  | succ n ih =>
    rw [wordsFrom_succ]
    rcases Nat.lt_or_eq_of_le (Nat.le_of_lt_succ hk) with hbefore | hlast
    · rw [List.getD_append _ _ _ _ (by rw [wordsFrom_length]; exact (Nat.div_lt_iff_lt_mul (wordBits_pos f)).1 hbefore),
        ih hbefore]
    · have hmod : k - n * f.wordBits = k % f.wordBits := by rw [← hlast]; omega
      rw [List.getD_append_right _ _ _ _ (by rw [wordsFrom_length, ← hlast]; omega), wordsFrom_length, hmod, hlast]

/-- Zeros after a list of bits are what its missing elements read as. -/
theorem getD_append_zeros (bits : List Bool) (n k : Nat) :
    (bits ++ List.replicate n false).getD k false = bits.getD k false := by
  rcases Nat.lt_or_ge k bits.length with hin | hout
  · exact List.getD_append _ _ _ _ hin
  · rw [List.getD_append_right _ _ _ _ hout, List.getD_eq_default _ _ hout]
    simp only [List.getD_eq_getElem?_getD, List.getElem?_replicate]
    split <;> rfl

/-- Settles O22: the words the run left, read bit by bit. -/
theorem bitPlacement : Obligations.BitPlacement := by
  intro s t ws hf hrun k hk
  obtain rfl := Host.Outcome.next.inj ((runAll_written ws s).symm.trans hrun)
  obtain ⟨hlen, pad, hwords⟩ := writtenSink_words hf ws
  have hword : k / s.fmt.wordBits < wordCount s.fmt (ws.map Prod.snd).sum := by
    rw [withSink_dstLen, hlen] at hk
    exact Nat.lt_of_mul_lt_mul_right (Nat.lt_of_add_lt_add_left hk)
  change Nat.testBit _ (bitPlace s.fmt (k % s.fmt.wordBits)) = (writtenBits s.fmt ws).getD k false
  rw [← getD_append_zeros _ pad, ← hwords, wordsFrom_getD _ _ _ hword,
    wordStream_getD hf _ (Nat.mod_lt _ (wordBits_pos s.fmt))]
  rfl

/-! ## The mirror law (rule R139) -/

/-- Words are the same in a memory that has the same bytes where they stand. -/
theorem wordsFrom_sameBytes (f : Fmt) {base n : Nat} {m m' : Mem}
    (h : ∀ a, base ≤ a → a < base + n * f.wordBytes → m'.read a = m.read a) :
    wordsFrom f base m' n = wordsFrom f base m n := by
  induction n with
  | zero => rfl
  | succ n ih =>
    rw [Nat.succ_mul] at h
    rw [wordsFrom_succ, wordsFrom_succ, ih fun a h1 h2 => h a h1 (by omega),
      slice_congr m m' _ _ fun a h1 h2 => h a (by omega) (by omega)]

/-- What a reader opened on `n` words has ahead of it. -/
theorem bitsAhead_opened {u : State} {base n : Nat} (hrd : u.call.rd = ⟨base, 0, 0⟩)
    (hlen : u.srcLen = base + n * u.fmt.wordBytes) : u.bitsAhead = wordsFrom u.fmt base u.src n := by
  rw [State.bitsAhead, hrd, ← ahead_words, ← hlen]
  rfl

/-- The bits of a sequence of writes read back, with the same widths, as their values. -/
theorem readMany_written (ws : List (Nat × Nat)) {s : State} {rest : List Bool}
    (h : s.bitsAhead = writtenBits s.fmt ws ++ rest) :
    ∃ r, readMany (ws.map Prod.snd) s = .ok (ws.map fun w => w.1 % 2 ^ w.2) (s.withReader r) ∧
      (s.withReader r).bitsAhead = rest := by
  induction ws generalizing s with
  | nil => exact ⟨s.call.rd, rfl, h⟩
  | cons w ws ih =>
    rw [writtenBits, List.flatMap_cons, List.append_assoc] at h
    obtain ⟨r, hread, hahead⟩ := readBits_append h
    rw [streamOfValue_length, valueOfStream_streamOfValue] at hread
    obtain ⟨r', hmany, hrest⟩ := ih (s := s.withReader r) hahead
    refine ⟨r', ?_, hrest⟩
    rw [List.map_cons, readMany, hread, andThen_ok, hmany]
    rfl

/-- Settles O24: the reader has ahead of it the bits written and zeros to the end of the last word. -/
theorem mirrorLaw : Obligations.MirrorLaw := by
  intro s t u ws hf hrun hfmt hsrcLen hsame hrd
  obtain rfl := Host.Outcome.next.inj ((runAll_written ws s).symm.trans hrun)
  obtain ⟨hlen, pad, hwords⟩ := writtenSink_words hf ws
  rw [withSink_dstLen, hlen] at hsrcLen hsame
  have hahead : u.bitsAhead = writtenBits u.fmt ws ++ List.replicate pad false := by
    rw [bitsAhead_opened hrd (hfmt ▸ hsrcLen), hfmt, ← hwords]
    exact wordsFrom_sameBytes _ hsame
  have hcount : wordCount s.fmt (ws.map Prod.snd).sum * s.fmt.wordBits = (ws.map Prod.snd).sum + pad := by
    simpa using congrArg List.length hwords
  obtain ⟨r, hmany, hzeros⟩ := readMany_written ws hahead
  refine ⟨_, hmany, fun n hn => ?_⟩
  have hn : n ≤ pad := by
    rw [Nat.mul_comm] at hn
    exact Nat.le_of_add_le_add_left (hn.trans_eq hcount)
  obtain ⟨r', hread, -⟩ := readBits_ahead (s := u.withReader r) (n := n) (by rwa [hzeros, List.length_replicate])
  rw [hzeros, List.take_replicate, Nat.min_eq_left hn, valueOfStream_zeros] at hread
  exact ⟨_, hread⟩

end Sys2Proof.Machine
end

section
/-! PROOF. The match finder: obligations O26 and O27. The finder's runs are the longest ones, its search keeps the first
displacement that has the longest, and no encodable match is missed. -/

namespace Sys2Proof.Machine

/-! ## `run(p, d)` and the nearest displacement (rule R162) -/

/-- Inside the buffer, `matchRun` is the only number that is `run(p, d)`. -/
theorem isRun_iff_eq_matchRun {B : List Byte} {p cap d l : Nat} (hcap : cap ≤ B.length - p) :
    isRun B p cap d l ↔ l = matchRun B p cap d := by
  obtain ⟨hle, -, hbytes⟩ := agree_spec cap (B.drop (p - d)) (B.drop p)
  simp only [List.getElem?_drop] at hbytes
  rw [← matchRun] at hle hbytes
  have hlongest : ∀ k, k ≤ cap → (∀ i, i < k → B[p - d + i]? = B[p + i]?) → k ≤ matchRun B p cap d :=
    fun k hk h => le_agree hk (by rw [List.length_drop]; omega) fun i hi => by
      simpa only [List.getElem?_drop] using h i hi
  constructor
  · rintro ⟨hl, hsame, hstop⟩
    refine Nat.le_antisymm (hlongest l hl hsame) (Nat.le_of_not_lt fun hlt => ?_)
    exact hstop (Nat.lt_of_lt_of_le hlt hle) (hbytes l hlt)
  · rintro rfl
    refine ⟨hle, hbytes, fun hlt hnext => ?_⟩
    refine Nat.not_succ_le_self _ (hlongest _ hlt fun i hi => ?_)
    rcases Nat.lt_succ_iff_lt_or_eq.1 hi with h | rfl
    · exact hbytes i h
    · exact hnext

/-- The search answers what it began with or a strictly longer run. -/
theorem searchFrom_eq_or_longer (B : List Byte) (p cap k d len disp : Nat) :
    searchFrom B p cap k d len disp = (len, disp) ∨ len < (searchFrom B p cap k d len disp).1 := by
  induction k generalizing d len disp with
  | zero => exact .inl rfl
  | succ k ih =>
    rw [searchFrom]
    by_cases hbetter : len < matchRun B p cap d
    · rw [if_pos hbetter]
      have hkeep := (searchFrom_spec B p cap k (d + 1) (matchRun B p cap d) d).1
      exact .inr (Nat.lt_of_lt_of_le hbetter hkeep)
    · rw [if_neg hbetter]
      exact ih (d + 1) len disp

/-- Every displacement the search tries before the one it answers has a shorter run: a tie keeps the nearer. -/
theorem searchFrom_nearest (B : List Byte) (p cap k d len disp : Nat) (hdisp : disp < d) {j : Nat} (hj : d ≤ j)
    (hlt : j < (searchFrom B p cap k d len disp).2) :
    matchRun B p cap j < (searchFrom B p cap k d len disp).1 := by
  induction k generalizing d len disp with
  | zero => exact absurd (Nat.lt_of_lt_of_le hdisp hj) (Nat.lt_asymm hlt)
  | succ k ih =>
    rw [searchFrom] at hlt ⊢
    by_cases hbetter : len < matchRun B p cap d
    · rw [if_pos hbetter] at hlt ⊢
      rcases Nat.eq_or_lt_of_le hj with rfl | hlater
      · rcases searchFrom_eq_or_longer B p cap k (d + 1) (matchRun B p cap d) d with h | h
        · rw [h] at hlt
          exact absurd hlt (Nat.lt_irrefl d)
        · exact h
      · exact ih (d + 1) _ d (Nat.lt_succ_self d) hlater hlt
    · rw [if_neg hbetter] at hlt ⊢
      rcases Nat.eq_or_lt_of_le hj with rfl | hlater
      · rcases searchFrom_eq_or_longer B p cap k (d + 1) len disp with h | h
        · rw [h] at hlt
          exact absurd hlt (Nat.lt_asymm hdisp)
        · exact Nat.lt_of_le_of_lt (Nat.le_of_not_lt hbetter) h
      · exact ih (d + 1) len disp (Nat.lt_succ_of_lt hdisp) hlater hlt

/-! ## Candidates (rules R162, R165) -/

section
variable {row : ModeRow} {B : List Byte} {p : Nat}

/-- A displacement nearer than the candidate's has a shorter run. -/
theorem matchRun_lt_of_nearer {L d j : Nat} (h : candidate row B p = some (L, d)) (hj : 1 ≤ j) (hlt : j < d) :
    matchRun B p (min row.maxLen (B.length - p)) j < L := by
  simp only [candidate] at h
  split at h
  · have hbest := Option.some.inj h
    have hnearest := searchFrom_nearest B p (min row.maxLen (B.length - p)) (min p row.maxDisp) 1 0 0 Nat.one_pos hj
    rw [hbest] at hnearest
    exact hnearest hlt
  · cases h

/-- The candidate of a position is the one rule R162 defines. -/
theorem candidate_candSpec (hmin : 1 ≤ row.minLen) : candSpec row B p (candidate row B p) := by
  have hrun {d l : Nat} := isRun_iff_eq_matchRun (B := B) (d := d) (l := l) (Nat.min_le_right row.maxLen (B.length - p))
  rcases candidate_cases (B := B) hmin p with ⟨hshort, hnone⟩ | ⟨d, hd, hreach, hsome, hlong, hbest⟩
  · rw [hnone]
    intro j l hj hjreach hl
    rw [hrun.1 hl]
    exact hshort j hj hjreach
  · rw [hsome]
    refine ⟨hlong, hd, hreach, hrun.2 rfl, fun j l hj hjreach hl => ?_⟩
    rw [hrun.1 hl]
    rcases Nat.lt_or_ge j d with hlt | hge
    · exact .inl (matchRun_lt_of_nearer hsome hj hlt)
    · exact (Nat.lt_or_eq_of_le (hbest j hj hjreach)).imp_right fun heq => ⟨heq, hge⟩

/-- A buffer of at most `MINLEN` bytes has no candidate (rule R165): an encodable match ends inside it, after position 0. -/
theorem candidate_eq_none_of_short (hmin : 1 ≤ row.minLen) (hshort : B.length ≤ row.minLen) :
    candidate row B p = none := by
  rw [Option.eq_none_iff_forall_ne_some]
  rintro ⟨L, d⟩ hsome
  obtain ⟨⟨hd, hdp, -, hend, -⟩, -⟩ :=
    encodableMatch_of_candidate hmin hsome (Nat.le_refl _) (minLen_le_candidate hsome)
  omega

end

/-! ## The instruction -/

theorem workBytes_length (s : State) : s.workBytes.length = s.dsize := slice_length _ _ _

theorem exec_findMatches_of_row {s : State} {row : ModeRow} (h : s.row = some row) :
    exec .findMatches s = .next (s.withCall { s.call with
      cand := findCands row s.workBytes, tk := { s.call.tk with p := lastPos s s.dsize (s.dsize - 1) } }) :=
  congrArg settle (findMatches_of_row h)

/-- What the finder leaves in an entry of `CAND`. -/
theorem cand_entry_of_exec_findMatches {s t : State} {row : ModeRow} (hrow : s.row = some row)
    (hexec : exec .findMatches s = .next t) (p : Nat) :
    (t.call.cand[p]?).join = if p < s.workBytes.length then candidate row s.workBytes p else none := by
  obtain rfl := Host.Outcome.next.inj ((exec_findMatches_of_row hrow).symm.trans hexec)
  exact findCands_entry row s.workBytes p

/-- Settles O26: the finder lists the candidate of every position, which is rule R162's. -/
theorem findMatchesSpec : Obligations.FindMatchesSpec := by
  intro s row hrow hwf
  have hexec := exec_findMatches_of_row hrow
  refine ⟨_, hexec, ?_, fun p hp => ?_, rfl⟩
  · change (findCands row s.workBytes).length = s.dsize
    rw [findCands, List.length_map, List.length_range, workBytes_length]
  · rw [cand_entry_of_exec_findMatches hrow hexec, if_pos (by rwa [workBytes_length])]
    exact candidate_candSpec (minLen_pos_of_wf hwf)

/-- Settles O27: each entry of `CAND` is a candidate of its position, and a position where an encodable match stands has an
entry. -/
theorem candidatesEncodable : Obligations.CandidatesEncodable := by
  intro s t row hrow hwf hexec
  have hmin := minLen_pos_of_wf hwf
  simp only [cand_entry_of_exec_findMatches hrow hexec]
  refine ⟨fun p l d hcand l' hl' hle => ?_, fun p l d hmatch => ?_, fun hshort p => ?_⟩
  · exact encodableMatch_of_candidate hmin (Option.ite_none_right_eq_some.1 hcand).2 hl' hle
  · have ⟨⟨_, _, hpos, hend, _⟩, _⟩ := hmatch
    rw [if_pos (by omega)]
    exact candidate_of_encodableMatch hmin hmatch
  · rw [candidate_eq_none_of_short hmin ((workBytes_length s).trans_le hshort), ite_self]

end Sys2Proof.Machine
end

section
/-! PROOF. The optimal parse: obligations O28, O29 and O30. A tie goes to the largest advance, since lengths are tried in
ascending order; the tokens the walk takes have the price `COST[0]`, which none that cover the buffer undercut; and the walk
takes only candidates, one after the other. -/

namespace Sys2Proof.Machine

/-! ## The tie rule (rule R185) -/

/-- The advance never falls below the one the loop begins with. -/
theorem le_chooseLen_adv (price : Nat → Nat) (costs : List Nat) (k : Nat) {l adv : Nat} (cost : Nat) (h : adv < l) :
    adv ≤ (chooseLen price costs k l cost adv).2 := by
  obtain ⟨-, -, heq | ⟨a, hla, -, heq⟩⟩ := chooseLen_spec price costs k l cost adv <;> rw [heq]
  exact Nat.le_trans (Nat.le_of_lt h) hla

/-- Lengths are tried in ascending order and a tie replaces the best so far, so of the lengths of least cost the largest is
chosen. -/
theorem chooseLen_tie (price : Nat → Nat) (costs : List Nat) (k : Nat) {l adv a : Nat} (cost : Nat) (hadv : adv < l)
    (hla : l ≤ a) (hak : a < l + k)
    (htie : (chooseLen price costs k l cost adv).1 = price a + costs.getD (a - 1) 0) :
    a ≤ (chooseLen price costs k l cost adv).2 := by
  induction k generalizing l cost adv with
  | zero => omega
  | succ k ih =>
    simp only [chooseLen] at htie ⊢
    by_cases hbetter : price l + costs.getD (l - 1) 0 < cost ∨ (price l + costs.getD (l - 1) 0 = cost ∧ adv < l)
    · rw [if_pos hbetter] at htie ⊢
      rcases Nat.eq_or_lt_of_le hla with rfl | hlater
      · exact le_chooseLen_adv price costs k _ (Nat.lt_succ_self l)
      · exact ih _ (Nat.lt_succ_self l) hlater (by omega) htie
    · rw [if_neg hbetter] at htie ⊢
      have hbest := (chooseLen_spec price costs k (l + 1) cost adv).1
      rcases Nat.eq_or_lt_of_le hla with rfl | hlater
      · omega
      · exact ih cost (Nat.lt_succ_of_lt hadv) hlater (by omega) htie

/-! ## The choice at a position (rules R184, R185) -/

/-- Advance `a` is a choice at position `p`, of cost `c`: the literal, or a viable match (rules R182, R184). -/
def IsChoice (minLen : Nat) (lit : Byte → Nat) (price : Nat → Nat → Nat) (B : List Byte)
    (cand : List (Option (Nat × Nat))) (cost : List Nat) (p a c : Nat) : Prop :=
  (a = 1 ∧ c = lit (B.getD p 0) + cost.getD (p + 1) 0) ∨
    ∃ L d, (cand[p]?).join = some (L, d) ∧ minLen ≤ a ∧ a ≤ L ∧ c = price a d + cost.getD (p + a) 0

section
variable {minLen : Nat} {lit : Byte → Nat} {price : Nat → Nat → Nat} {B : List Byte} {cand : List (Option (Nat × Nat))}
  {cost adv : List Nat} {p : Nat}

/-- A byte inside the buffer, as an entry and as a value. -/
theorem getElem?_eq_some_getD (hp : p < B.length) : B[p]? = some (B.getD p 0) := by
  rw [List.getElem?_eq_getElem hp, List.getD_eq_getElem _ _ hp]

/-- `ADV[p]` is a choice, and its cost is `COST[p]`. -/
theorem Priced.isChoice (h : Priced minLen lit price B cand cost adv) (hmin : 1 ≤ minLen) (hp : p < B.length) :
    IsChoice minLen lit price B cand cost p (adv.getD p 0) (cost.getD p 0) :=
  h.cases hmin (getElem?_eq_some_getD hp)

theorem Priced.one_le_adv (h : Priced minLen lit price B cand cost adv) (hmin : 1 ≤ minLen) (hp : p < B.length) :
    1 ≤ adv.getD p 0 := by
  obtain ⟨hadv, -⟩ | ⟨L, d, -, hadv, -⟩ := h.isChoice hmin hp <;> omega

/-- A viable match of the same cost as the choice does not advance further. -/
theorem Priced.le_adv_of_tie (h : Priced minLen lit price B cand cost adv) (hmin : 2 ≤ minLen) {L d l : Nat}
    (hp : p < B.length) (hc : (cand[p]?).join = some (L, d)) (hl : minLen ≤ l) (hL : l ≤ L)
    (htie : cost.getD p 0 = price l d + cost.getD (p + l) 0) : l ≤ adv.getD p 0 := by
  have hchoice := h.choice p B[p] (List.getElem?_eq_getElem hp)
  rw [hc] at hchoice
  obtain ⟨hcost, hadv⟩ := Prod.mk.inj hchoice
  rw [← getD_drop_pred p l (by omega), hcost] at htie
  rw [hadv]
  exact chooseLen_tie (fun l => price l d) _ _ _ hmin hl (by omega) htie

/-- No choice costs less than `COST[p]`, and none of that cost advances further than `ADV[p]`. -/
theorem Priced.choice_least (h : Priced minLen lit price B cand cost adv) (hmin : 2 ≤ minLen) (hp : p < B.length)
    {a c : Nat} (hchoice : IsChoice minLen lit price B cand cost p a c) :
    cost.getD p 0 < c ∨ (cost.getD p 0 = c ∧ a ≤ adv.getD p 0) := by
  have hv := getElem?_eq_some_getD hp
  obtain ⟨rfl, rfl⟩ | ⟨L, d, hc, hl, hL, rfl⟩ := hchoice
  · exact (Nat.lt_or_eq_of_le (h.le_lit hv)).imp_right fun htie => ⟨htie, h.one_le_adv (by omega) hp⟩
  · exact (Nat.lt_or_eq_of_le (h.le_match (by omega) hv hc hl hL)).imp_right fun htie =>
      ⟨htie, h.le_adv_of_tie hmin hp hc hl hL htie⟩

end

/-- `COST` has one entry more than `ADV`, which has one for each position. -/
theorem costToEnd_length (minLen : Nat) (lit : Byte → Nat) (price : Nat → Nat → Nat)
    (xs : List (Byte × Option (Nat × Nat))) :
    (costToEnd minLen lit price xs).1.length = xs.length + 1 ∧ (costToEnd minLen lit price xs).2.length = xs.length := by
  induction xs with
  | nil => exact ⟨rfl, rfl⟩
  | cons x t ih => exact ⟨congrArg (· + 1) ih.1, congrArg (· + 1) ih.2⟩

theorem withCands_length (B : List Byte) (cand : List (Option (Nat × Nat))) : (withCands B cand).length = B.length := by
  simp [withCands]

/-! ## The walk (rules R186, R187) -/

/-- Each match of the walk stands inside the buffer and has the advance of its position and the displacement of the candidate
there. -/
theorem mem_walkFrom {n : Nat} {cand : List (Option (Nat × Nat))} {adv : List Nat} {fuel p : Nat} {m : LzMatch}
    (h : m ∈ (walkFrom n cand adv fuel p).1) :
    m.position < n ∧ m.length = adv.getD m.position 0 ∧ 1 < m.length ∧
      ∃ L, (cand[m.position]?).join = some (L, m.displacement) := by
  induction fuel generalizing p with
  | zero => cases h
  | succ fuel ih =>
    rw [walkFrom] at h
    by_cases hp : p < n
    · rw [if_pos hp] at h
      cases hc : (cand[p]?).join with
      | none => exact ih (by simpa only [hc] using h)
      | some x =>
        obtain ⟨L, d⟩ := x
        simp only [hc] at h
        by_cases ha : 1 < adv.getD p 0
        · rw [if_pos ha] at h
          rcases List.mem_cons.1 h with rfl | hrest
          · exact ⟨hp, rfl, ha, L, hc⟩
          · exact ih hrest
        · exact ih (by rwa [if_neg ha] at h)
    · rw [if_neg hp] at h
      cases h

/-- Without candidates the walk takes no match. -/
theorem walkFrom_eq_nil {n : Nat} {cand : List (Option (Nat × Nat))} {adv : List Nat} {fuel p : Nat}
    (h : ∀ q : Nat, (cand[q]?).join = none) : (walkFrom n cand adv fuel p).1 = [] := by
  refine List.eq_nil_iff_forall_not_mem.2 fun m hm => ?_
  obtain ⟨-, -, -, L, hL⟩ := mem_walkFrom hm
  cases (h m.position).symm.trans hL

theorem le_position_of_matchesFrom {p : Nat} {ms : List LzMatch} (h : matchesFrom p ms) : ∀ m ∈ ms, p ≤ m.position := by
  induction ms generalizing p with
  | nil => exact fun m hm => absurd hm List.not_mem_nil
  | cons a ms ih =>
    obtain ⟨ha, hrest⟩ := h
    exact List.forall_mem_cons.2 ⟨ha, fun m hm => Nat.le_trans (Nat.le_add_right_of_le ha) (ih hrest m hm)⟩

/-- Matches that stand one after the other do not overlap. -/
theorem pairwise_of_matchesFrom {p : Nat} {ms : List LzMatch} (h : matchesFrom p ms) :
    ms.Pairwise fun a b => a.position + a.length ≤ b.position := by
  induction ms generalizing p with
  | nil => exact List.Pairwise.nil
  | cons a ms ih => exact List.pairwise_cons.2 ⟨le_position_of_matchesFrom h.2, ih h.2⟩

/-- The walk's matches are strictly increasing by position, since none is empty. -/
theorem walkFrom_pairwise (n : Nat) (cand : List (Option (Nat × Nat))) (adv : List Nat) (fuel p : Nat) :
    (walkFrom n cand adv fuel p).1.Pairwise fun a b => a.position < b.position ∧ a.position + a.length ≤ b.position := by
  refine (pairwise_of_matchesFrom (matchesFrom_walkFrom n cand adv fuel p)).imp_of_mem fun ha _ hab => ⟨?_, hab⟩
  obtain ⟨-, -, hlen, -⟩ := mem_walkFrom ha
  omega

/-! ## The instructions -/

theorem two_le_minLen_of_wf {row : ModeRow} (h : row.wf = true) : 2 ≤ row.minLen := ((ModeRow.wf_iff row).1 h).1

/-- `COST` and `ADV` as the parse of a state computes them under a row. -/
def parseCosts (row : ModeRow) (s : State) : List Nat × List Nat :=
  costToEnd row.minLen (literalCost s.kon) (matchCost s.kon row (cmodeOf s.ident)) (withCands s.workBytes s.call.cand)

theorem priced_parseCosts (row : ModeRow) (s : State) :
    Priced row.minLen (literalCost s.kon) (matchCost s.kon row (cmodeOf s.ident)) s.workBytes s.call.cand
      (parseCosts row s).1 (parseCosts row s).2 :=
  priced_costToEnd _ _ _ _ _

theorem parseCosts_length (row : ModeRow) (s : State) :
    (parseCosts row s).1.length = s.dsize + 1 ∧ (parseCosts row s).2.length = s.dsize := by
  have hlen := costToEnd_length row.minLen (literalCost s.kon) (matchCost s.kon row (cmodeOf s.ident))
    (withCands s.workBytes s.call.cand)
  rwa [withCands_length, workBytes_length] at hlen

theorem exec_parseCostToEnd_of_row {s : State} {row : ModeRow} (h : s.row = some row) :
    exec .parseCostToEnd s = .next (s.withCall { s.call with
      cost := (parseCosts row s).1, adv := (parseCosts row s).2, tk := { s.call.tk with p := lastPos s s.dsize 0 } }) :=
  congrArg settle (parseCostToEnd_of_row h)

/-- Settles O28: the recurrence is `Priced`, and the loop over the lengths breaks ties to the largest advance. -/
theorem costToEndRecurrence : Obligations.CostToEndRecurrence := by
  intro s row hrow hwf _
  have hmin := two_le_minLen_of_wf hwf
  have hpriced := priced_parseCosts row s
  have hlen := workBytes_length s
  refine ⟨_, exec_parseCostToEnd_of_row hrow, (parseCosts_length row s).1, (parseCosts_length row s).2, ?_,
    fun p hp => ?_, rfl⟩
  · exact hlen ▸ hpriced.last
  · have hp : p < s.workBytes.length := hlen ▸ hp
    exact ⟨hpriced.isChoice (by omega) hp, fun a c => hpriced.choice_least hmin hp⟩

/-- Settles O29: the walk over `ADV` takes the matches of tokens of the price `COST[0]`, which is the least. -/
theorem parseOptimal : Obligations.ParseOptimal := by
  intro s row hrow hwf hcand
  have hmin := two_le_minLen_of_wf hwf
  have hpriced := priced_parseCosts row s
  have hlen := workBytes_length s
  obtain ⟨ks, hcover, hviable, hwalk, hprice⟩ := exists_walk_tokens hpriced hmin (hlen ▸ hcand)
    (fuel := s.workBytes.length) (Nat.zero_le _) (Nat.le_add_left _ _)
  rw [hlen] at hwalk
  refine ⟨_, ks, by rw [runAll, exec_parseCostToEnd_of_row hrow]; rfl, hcover, hviable, congrArg Prod.fst hwalk, rfl,
    hprice.symm, fun ks' hcover' hviable' => ?_⟩
  rw [hprice]
  exact cost_le_tokensPrice hpriced (by omega) hcover' hviable'

/-- Settles O30: the walk goes forward, and takes a match only where there is a candidate. -/
theorem walkOrdered : Obligations.WalkOrdered := fun s =>
  ⟨parseWalk s, rfl, rfl, walkFrom_pairwise _ _ _ _ _, fun _ hm => mem_walkFrom hm,
    fun hnone => ⟨walkFrom_eq_nil hnone, congrArg List.length (walkFrom_eq_nil hnone)⟩, rfl⟩

end Sys2Proof.Machine
end

section
/-! PROOF. The Huffman rows that count, that list symbols and that carry a table: obligations O31, O35, O38, O39 and O40. A
table filled level by level is the table of those levels, whether its levels come from a tree, a word or the stream. -/

namespace Sys2Proof.Machine

/-! ## Residual literals and leaves (rules R201 to R203) -/

theorem zipIdx_slice (m : Mem) (n : Nat) : (m.slice 0 n).zipIdx = (List.range n).map fun p => (m.read p, p) := by
  refine List.ext_getElem? fun p => ?_
  rw [List.getElem?_zipIdx, slice_getElem?, List.getElem?_map]
  simp only [Nat.zero_add]
  by_cases hp : p < n
  · rw [if_pos hp, List.getElem?_range hp]
    rfl
  · rw [if_neg hp, List.getElem?_eq_none (by simpa using hp)]
    rfl

/-- The residual literals of a buffer are its bytes at the positions no match covers (rule R201). -/
theorem residualLiterals_slice (m : Mem) (n : Nat) (ms : List LzMatch) :
    residualLiterals (m.slice 0 n) ms =
      ((List.range n).filter fun p => ms.all fun x => !x.covers p).map m.read := by
  rw [residualLiterals, zipIdx_slice, List.filter_map, List.map_map]
  simp only [Function.comp_def, List.not_any_eq_all_not]

/-- Settles O31: the residual literals by position, and the leaves by the living symbols. -/
theorem tallyAndLeaves : Obligations.TallyAndLeaves := by
  intro s
  refine ⟨⟨tally s, rfl, rfl, ?_, fun sym hsym => ?_⟩, fun src F hF => ?_⟩
  · exact (List.length_map _).trans List.length_range
  · change (tallySymbols s.call.hw _).getD sym 0 = _
    rw [tallySymbols, List.getD_eq_getElem?_getD, List.getElem?_map, List.getElem?_range hsym, State.workBytes,
      residualLiterals_slice, List.flatMap_map]
    generalize s.call.hw = w
    cases w <;> rfl
  · have hmake : makeLeaves src s = s.withCall { s.call with hnode := leavesOf s.call.hw F, hroot := none } := by
      simp only [List.mem_cons, List.not_mem_nil, or_false, Prod.mk.injEq] at hF
      rcases hF with ⟨rfl, rfl⟩ | ⟨rfl, rfl⟩ <;> rfl
    refine ⟨_, congrArg Host.Outcome.next hmake, rfl, leavesOf_length _ _, fun k sym hk => ?_⟩
    exact (leavesOf_getElem? _ _ k).trans (by rw [hk]; rfl)

/-! ## The code of a symbol (rule R213) -/

/-- Settles O38: a symbol's code is put root edge first, and a symbol without one is sent a free code of 1 to 16 bits. -/
theorem writeSymbolBits : Obligations.WriteSymbolBits := by
  intro s sym
  have hexec : exec (.writeSymbol sym) s = .next (s.withSink (s.sink.putBits s.fmt
      (bitsMsb (codeFor s.draws s.call.hcode sym.toNat).len (codeFor s.draws s.call.hcode sym.toNat).code))) :=
    congrArg (fun k => Host.Outcome.next (s.withSink k)) (writeCode_eq _ _ _)
  refine ⟨fun c hc => ?_, _, fun hnone => ?_, hexec⟩
  · rw [hexec, codeFor, hc]
    rfl
  · rw [codeFor, hnone]
    exact ⟨Nat.le_add_left _ _, (Config.anyCode s.draws sym.toNat).2.isLt⟩

/-! ## Tables filled level by level (rules R210, R216) -/

/-- `HCOUNT[d]` set and the symbols of level `d` listed after those listed so far (rule R216). -/
def HuffTab.fillLevel (t : HuffTab) (d : Nat) (syms : List Byte) : HuffTab := syms.foldl HuffTab.push (t.setCount d syms.length)

/-- The levels from level `d` on filled in. -/
def fillFrom : Nat → List (List Byte) → HuffTab → HuffTab
  | _, [], t => t
  | d, syms :: rest, t => fillFrom (d + 1) rest (t.fillLevel d syms)

theorem foldl_push (syms : List Byte) {t : HuffTab} (h : t.total = t.hsym.length) :
    syms.foldl HuffTab.push t = ⟨t.hcount, t.hsym ++ syms, (t.hsym ++ syms).length⟩ := by
  induction syms generalizing t with
  | nil => rw [List.append_nil, ← h]; rfl
  | cons s syms ih =>
    have hpush : t.push s = ⟨t.hcount, t.hsym ++ [s], (t.hsym ++ [s]).length⟩ := by
      rw [HuffTab.push, h, List.take_length, List.length_append]
      rfl
    rw [List.foldl_cons, hpush, ih rfl, List.append_assoc]
    rfl

theorem fillLevel_eq {t : HuffTab} (h : t.total = t.hsym.length) (d : Nat) (syms : List Byte) :
    t.fillLevel d syms = ⟨t.counts.set (d - 1) syms.length, t.hsym ++ syms, (t.hsym ++ syms).length⟩ :=
  foldl_push syms h

/-- After a level is filled, `HCOUNT` has its sixteen entries. -/
theorem fillLevel_hcount {t : HuffTab} (h : t.total = t.hsym.length) (d : Nat) (syms : List Byte) :
    (t.fillLevel d syms).hcount = (t.fillLevel d syms).counts := by
  rw [fillLevel_eq h]
  exact (counts_setCount t d syms.length).symm

theorem fillLevel_total {t : HuffTab} (h : t.total = t.hsym.length) (d : Nat) (syms : List Byte) :
    (t.fillLevel d syms).total = (t.fillLevel d syms).hsym.length := by rw [fillLevel_eq h]

/-- The counts of the levels filled so far. -/
theorem fillLevel_take {t : HuffTab} (h : t.total = t.hsym.length) {d : Nat} (hd : d < 16) (syms : List Byte) :
    (t.fillLevel (d + 1) syms).counts.take (d + 1) = t.counts.take d ++ [syms.length] := by
  have hlt : d < (t.counts.set d syms.length).length := by rwa [List.length_set, counts_length]
  rw [← fillLevel_hcount h, fillLevel_eq h, Nat.add_sub_cancel, List.take_succ_eq_append_getElem hlt,
    List.getElem_set_self, List.take_set_of_le (Nat.le_refl d)]

/-- Filling the levels from level `d + 1` to the last sets their counts, and lists their symbols after those listed. -/
theorem fillFrom_eq {d : Nat} {levels : List (List Byte)} {t : HuffTab} (htotal : t.total = t.hsym.length)
    (hcount : t.hcount = t.counts) (hd : d + levels.length = 16) :
    fillFrom (d + 1) levels t = ⟨t.counts.take d ++ levels.map List.length, t.hsym ++ levels.flatten,
      (t.hsym ++ levels.flatten).length⟩ := by
  induction levels generalizing d t with
  | nil =>
    have htake : t.counts.take d = t.hcount := by
      rw [hcount]
      exact List.take_of_length_le ((counts_length t).trans hd.symm).le
    simp only [fillFrom, htake, List.map_nil, List.flatten_nil, List.append_nil, ← htotal]
  | cons l ls ih =>
    rw [List.length_cons] at hd
    rw [fillFrom, ih (fillLevel_total htotal _ _) (fillLevel_hcount htotal _ _) (by omega),
      fillLevel_take htotal (by omega), fillLevel_eq htotal, List.append_assoc, List.append_assoc]
    rfl

/-- A table filled from its first level on is the table of the levels, whatever it held before. -/
theorem fillFrom_empty {levels : List (List Byte)} (h : levels.length = 16) (t : HuffTab) :
    fillFrom 1 levels t.empty = tabOf levels := by
  obtain ⟨l, ls, rfl⟩ := List.exists_cons_of_length_eq_add_one h
  rw [fillFrom, fillFrom_eq (fillLevel_total rfl _ _) (fillLevel_hcount rfl _ _) (by rw [List.length_cons] at h; omega),
    fillLevel_take rfl (by decide), fillLevel_eq rfl]
  rfl

theorem slotsLeft_eq_none {slots c : Nat} {cs : List Nat} (h : slots < c) : slotsLeft slots (c :: cs) = none := if_pos h

theorem slotsLeft_of_le {slots c : Nat} {cs : List Nat} (h : ¬ slots < c) :
    slotsLeft slots (c :: cs) = slotsLeft (2 * (slots - c)) cs := if_neg h

/-- A table given as its levels is filled, or raises at an over-subscribed level (rules R216, R217). -/
theorem fillLevels_cases (d slots : Nat) (levels : List (List Byte)) (t : HuffTab) :
    ((slotsLeft slots (levels.map List.length)).isSome = true ∧ fillLevels d slots levels t = .ok () (fillFrom d levels t)) ∨
      (slotsLeft slots (levels.map List.length) = none ∧ ∃ u, fillLevels d slots levels t = .raised .corruptStream u) := by
  induction levels generalizing d slots t with
  | nil => exact .inl ⟨rfl, rfl⟩
  | cons l ls ih =>
    rw [List.map_cons, fillLevels]
    by_cases hover : slots < l.length
    · rw [if_pos hover, slotsLeft_eq_none hover]
      exact .inr ⟨rfl, t, rfl⟩
    · rw [if_neg hover, slotsLeft_of_le hover]
      exact ih (d + 1) _ _

/-- Settles O39: the levels of the word fill the table from its first level on. -/
theorem treetableFills : Obligations.TreetableFills := by
  intro w levels s hlen
  have hexec : exec (.treetable w levels) s = settle ((fillLevels 1 2 levels s.call.ht.empty).lift s.withTab) := rfl
  rw [hexec]
  rcases fillLevels_cases 1 2 levels s.call.ht.empty with ⟨hfits, hfill⟩ | ⟨hover, u, hraise⟩
  · refine ⟨fun _ => ?_, fun hover => ?_⟩
    · rw [hfill, fillFrom_empty hlen]
      rfl
    · rw [hover] at hfits
      cases hfits
  · refine ⟨fun hfits => ?_, fun _ => ⟨u, by rw [hraise]; rfl⟩⟩
    rw [hover] at hfits
    cases hfits

/-! ## A table read from the stream (rules R216 to R218) -/

/-- `readBits` takes the bits that stand first. -/
theorem reader_readBits_append {e : ReadEnv} {r : Reader} {bits rest : List Bool} (h : r.ahead e = bits ++ rest) :
    ∃ r', r.readBits e bits.length = .ok (valueOfStream e.fmt bits) r' ∧ r'.ahead e = rest := by
  obtain ⟨r', hget, hdrop⟩ := getBits_ahead e (n := bits.length) (r := r) (by simp [h])
  rw [h, List.take_left] at hget
  rw [h, List.drop_left] at hdrop
  exact ⟨r', by rw [Reader.readBits, hget, map_ok], hdrop⟩

/-- `readBits` reads back a value written with the same width. -/
theorem reader_readBits_value {e : ReadEnv} {r : Reader} {v n : Nat} {rest : List Bool} (hv : v < 2 ^ n)
    (h : r.ahead e = streamOfValue e.fmt v n ++ rest) : ∃ r', r.readBits e n = .ok v r' ∧ r'.ahead e = rest := by
  obtain ⟨r', hread, hrest⟩ := reader_readBits_append h
  rw [streamOfValue_length, valueOfStream_streamOfValue, Nat.mod_eq_of_lt hv] at hread
  exact ⟨r', hread, hrest⟩

/-- The symbols of a level are read back, and nothing after them. -/
theorem readSyms_bits {e : ReadEnv} {w : SymWidth} {syms : List Byte} {t : HuffTab} {r : Reader} {rest : List Bool}
    (hsyms : ∀ s ∈ syms, s.toNat < 2 ^ symBits w)
    (h : r.ahead e = (syms.flatMap fun s => streamOfValue e.fmt s.toNat (symBits w)) ++ rest) :
    ∃ r', readSyms e w syms.length (t, r) = .ok () (syms.foldl HuffTab.push t, r') ∧ r'.ahead e = rest := by
  induction syms generalizing t r with
  | nil => exact ⟨r, rfl, h⟩
  | cons s syms ih =>
    obtain ⟨hs, hrest⟩ := List.forall_mem_cons.1 hsyms
    rw [List.flatMap_cons, List.append_assoc] at h
    obtain ⟨r1, hread, h1⟩ := reader_readBits_value hs h
    obtain ⟨r2, hmany, h2⟩ := ih (t := t.push s) hrest h1
    refine ⟨r2, ?_, h2⟩
    rw [List.length_cons, readSyms]
    simp only [hread, BitVec.ofNat_toNat, BitVec.setWidth_eq]
    exact hmany

/-- Levels the count bytes can say are read back from the stream, or raise at an over-subscribed one. -/
theorem deserLevels_cases {e : ReadEnv} {w : SymWidth} {d slots : Nat} {levels : List (List Byte)} {t : HuffTab}
    {r : Reader} {rest : List Bool} (hwf : treeLevelsWf w d slots levels = true)
    (h : r.ahead e = tableStream e.fmt w levels ++ rest) :
    ((slotsLeft slots (levels.map List.length)).isSome = true ∧
      ∃ r', deserLevels e w levels.length d slots (t, r) = .ok () (fillFrom d levels t, r') ∧ r'.ahead e = rest) ∨
    (slotsLeft slots (levels.map List.length) = none ∧
      ∃ x, deserLevels e w levels.length d slots (t, r) = .raised .corruptStream x) := by
  induction levels generalizing d slots t r with
  | nil => exact .inl ⟨rfl, r, rfl, h⟩
  | cons l ls ih =>
    simp only [treeLevelsWf, Bool.and_eq_true, decide_eq_true_eq, List.all_eq_true] at hwf
    obtain ⟨⟨hcount, hsyms⟩, hwf⟩ := hwf
    rw [tableStream, List.flatMap_cons, List.append_assoc, List.append_assoc] at h
    obtain ⟨r1, hread, h1⟩ := reader_readBits_value (v := l.length % 256) (n := 8) (Nat.mod_lt _ (by decide)) h
    rw [List.map_cons, List.length_cons, deserLevels]
    simp only [hread, hcount]
    by_cases hover : slots < l.length
    · rw [if_pos hover, slotsLeft_eq_none hover]
      exact .inr ⟨rfl, _, rfl⟩
    · obtain ⟨r2, hmany, h2⟩ := readSyms_bits (t := t.setCount d l.length) hsyms h1
      rw [if_neg hover, slotsLeft_of_le hover, hmany]
      exact ih hwf h2

/-- Settles O40: the levels read from the stream fill the table as those of a word do. -/
theorem deserialiseReadsTable : Obligations.DeserialiseReadsTable := by
  intro s levels rest _ hlen hwf hahead
  have hexec : exec .deserialise s = settle ((deserLevels s.readEnv s.call.hw 16 1 2 (s.call.ht.empty, s.call.rd)).lift
    s.withTabReader) := rfl
  have hcases := deserLevels_cases (e := s.readEnv) (t := s.call.ht.empty) hwf hahead
  rw [hlen] at hcases
  rw [hexec]
  rcases hcases with ⟨hfits, r, hread, hrest⟩ | ⟨hover, x, hraise⟩
  · refine ⟨fun _ => ?_, fun hover => ?_⟩
    · rw [hread, fillFrom_empty hlen]
      exact ⟨s.withTabReader (tabOf levels, r), rfl, rfl, hrest⟩
    · rw [hover] at hfits
      cases hfits
  · refine ⟨fun hfits => ?_, fun _ => ⟨x, by rw [hraise]; rfl⟩⟩
    rw [hover] at hfits
    cases hfits

/-! ## The table written to the stream (rules R210, R211) -/

/-- Levels split off their concatenation by their lengths are the levels. -/
theorem splitLevels_flatten (levels : List (List Byte)) :
    splitLevels (levels.map List.length) levels.flatten = levels := by
  induction levels with
  | nil => rfl
  | cons l ls ih =>
    have hpad : l.length - (l ++ ls.flatten).length = 0 := by rw [List.length_append]; omega
    rw [List.map_cons, List.flatten_cons, splitLevels, List.take_left, List.drop_left, ih, hpad]
    exact congrArg (· :: ls) (List.append_nil l)

/-- The sixteen levels of the table `serialise` fills. -/
def tableLevels (t : List HuffNode × Option Nat) : List (List Byte) := (leafLevels t ++ List.replicate 16 []).take 16

theorem tableLevels_length (t : List HuffNode × Option Nat) : (tableLevels t).length = 16 := by
  rw [tableLevels, List.length_take, List.length_append, List.length_replicate]
  omega

theorem tableLevels_eq (t : List HuffNode × Option Nat) :
    tableLevels t = (leafLevels t).take 16 ++ List.replicate (16 - (leafLevels t).length) [] := by
  rw [tableLevels, List.take_append, List.take_replicate, Nat.min_eq_left (Nat.sub_le _ _)]

theorem tableLevels_flatten (t : List HuffNode × Option Nat) : (tableLevels t).flatten = ((leafLevels t).take 16).flatten := by
  rw [tableLevels_eq, List.flatten_append, List.flatten_replicate_nil, List.append_nil]

/-- `HCOUNT` with its sixteen entries is what the counts are read from. -/
theorem counts_eq_hcount {t : HuffTab} (h : t.hcount.length = 16) : t.counts = t.hcount := by
  refine List.ext_getElem? fun d => ?_
  by_cases hd : d < 16
  · have hlt : d < t.hcount.length := h ▸ hd
    rw [HuffTab.counts, List.getElem?_map, List.getElem?_range hd, List.getElem?_eq_getElem hlt]
    exact congrArg some (List.getD_eq_getElem _ _ hlt)
  · rw [List.getElem?_eq_none (by rw [counts_length]; omega), List.getElem?_eq_none (by omega)]

theorem counts_tabOf {levels : List (List Byte)} (h : levels.length = 16) :
    (tabOf levels).counts = levels.map List.length :=
  counts_eq_hcount ((List.length_map _).trans h)

/-- The table `serialise` fills is that of its sixteen levels. -/
theorem fillTab_eq_tabOf (t : List HuffNode × Option Nat) : fillTab t = tabOf (tableLevels t) := by
  have hlength : (fillTab t).hcount.length = 16 := (List.length_map _).trans List.length_range
  have hcounts : (fillTab t).hcount = (tableLevels t).map List.length := by
    rw [← counts_eq_hcount hlength, fillTab_counts, tableLevels_eq, List.map_append, List.map_replicate, List.length_take]
    congr 2
    omega
  rw [tabOf, tableLevels_flatten, ← hcounts]
  rfl

theorem tableStream_length (f : Fmt) (w : SymWidth) (levels : List (List Byte)) :
    (tableStream f w levels).length = 8 * levels.length + symBits w * levels.flatten.length := by
  induction levels with
  | nil => rfl
  | cons l ls ih =>
    have hsyms : (l.flatMap fun s => streamOfValue f s.toNat (symBits w)).length = symBits w * l.length := by
      simp [List.length_flatMap, Nat.mul_comm]
    have hcons : tableStream f w (l :: ls) = streamOfValue f (l.length % 256) 8 ++
        (l.flatMap fun s => streamOfValue f s.toNat (symBits w)) ++ tableStream f w ls := rfl
    rw [hcons, List.length_append, List.length_append, streamOfValue_length, hsyms, ih, List.length_cons,
      List.flatten_cons, List.length_append]
    ring

/-- Settles O35: the table written is that of the sixteen levels, whose symbols `HSYM` lists in order. -/
theorem serialiseWritesTable : Obligations.SerialiseWritesTable := by
  intro s
  have hlen := tableLevels_length s.tree
  have hfill : fillTables s = s.withTab (tabOf (tableLevels s.tree)) := congrArg s.withTab (fillTab_eq_tabOf s.tree)
  have hsplit : splitLevels (tabOf (tableLevels s.tree)).counts (tabOf (tableLevels s.tree)).hsym = tableLevels s.tree := by
    rw [counts_tabOf hlen]
    exact splitLevels_flatten _
  have hwrite := writeTable_eq s.fmt s.call.hw (tabOf (tableLevels s.tree)) s.sink
  rw [hsplit] at hwrite
  refine ⟨tableLevels s.tree, rfl, ?_, by rw [tableStream_length, hlen]⟩
  change Host.Outcome.next (writeTreeTable (fillTables s)) = _
  rw [hfill]
  exact congrArg (fun k => Host.Outcome.next ((s.withTab (tabOf (tableLevels s.tree))).withSink k)) hwrite

end Sys2Proof.Machine
end

section
/-! PROOF. The merge of rule R204: obligation O32. The loop keeps what the nodes made so far are, so the root it ends with
is the last of them. -/

namespace Sys2Proof.Machine

/-! ## The least node by frequency and `seq` -/

theorem before_iff {a b : HuffNode} :
    a.before b = true ↔ a.frequency < b.frequency ∨ (a.frequency = b.frequency ∧ a.seq < b.seq) := by
  simp only [HuffNode.before, Bool.or_eq_true, Bool.and_eq_true, decide_eq_true_eq]

/-- No node of the set stands before the least one. -/
theorem not_before_leastNode (a : HuffNode) (l : List HuffNode) : ∀ x ∈ a :: l, ¬ x.before (leastNode a l) = true := by
  induction l generalizing a with
  | nil =>
    intro x hx
    rw [List.mem_singleton.1 hx, leastNode, before_iff]
    omega
  | cons b t ih =>
    intro x hx
    rw [leastNode]
    split
    · have hb := ih b b List.mem_cons_self
      rcases List.mem_cons.1 hx with rfl | hx
      · simp only [before_iff] at *
        omega
      · exact ih b x hx
    · have ha := ih a a List.mem_cons_self
      rcases List.mem_cons.1 hx with rfl | hx
      · exact ha
      · rcases List.mem_cons.1 hx with rfl | hx
        · simp only [before_iff] at *
          omega
        · exact ih a x (List.mem_cons_of_mem _ hx)

/-- Where no two nodes have the same `seq`, the node taken stands before the others. -/
theorem takeLeast_before {live : List HuffNode} (hne : live ≠ []) (hn : (live.map HuffNode.seq).Nodup) :
    ∃ a rest, takeLeast live = some (a, rest) ∧ live.Perm (a :: rest) ∧ ∀ x ∈ rest, a.before x = true := by
  obtain ⟨b, t, rfl⟩ := List.exists_cons_of_ne_nil hne
  have hperm : (b :: t).Perm (leastNode b t :: (b :: t).erase (leastNode b t)) := List.perm_cons_erase (leastNode_mem b t)
  refine ⟨_, _, rfl, hperm, fun x hx => ?_⟩
  have hseq : (leastNode b t).seq ≠ x.seq := fun h =>
    (List.nodup_cons.1 ((hperm.map HuffNode.seq).nodup_iff.1 hn)).1 (h ▸ List.mem_map_of_mem hx)
  have hnot := not_before_leastNode b t x (List.mem_of_mem_erase hx)
  rw [before_iff] at hnot ⊢
  omega

/-- A round of the merge: the two least nodes are joined. -/
theorem mergeLoop_round {live : List HuffNode} (h2 : 2 ≤ live.length) (hn : (live.map HuffNode.seq).Nodup)
    (arena : List HuffNode) : ∃ a b rest, live.Perm (a :: b :: rest) ∧ (∀ x ∈ b :: rest, a.before x = true) ∧
      (∀ x ∈ rest, b.before x = true) ∧ ∀ fuel, mergeLoop (fuel + 1) arena live =
        mergeLoop fuel (arena ++ [joinNodes a b arena.length]) (rest ++ [joinNodes a b arena.length]) := by
  obtain ⟨a, live1, ha, hpa, hmina⟩ := takeLeast_before (live := live) (fun h => by simp [h] at h2) hn
  have hlen : live.length = live1.length + 1 := hpa.length_eq
  obtain ⟨b, rest, hb, hpb, hminb⟩ := takeLeast_before (live := live1) (fun h => by simp [h] at hlen; omega)
    (List.nodup_cons.1 ((hpa.map HuffNode.seq).nodup_iff.1 hn)).2
  refine ⟨a, b, rest, hpa.trans (hpb.cons a), fun x hx => hmina x (hpb.mem_iff.2 hx), hminb, fun fuel => ?_⟩
  simp only [mergeLoop, ha, hb]

/-! ## The nodes made so far -/

/-- Node `k` joins the two live nodes of least (frequency, `seq`), the least as child 0 (rule R204). -/
def JoinsLeast (arena : List HuffNode) (k : Nat) : Prop :=
  ∃ a b x y, arena[a]? = some x ∧ arena[b]? = some y ∧ a ≠ b ∧
    arena[k]? = some (HuffNode.mk (x.frequency + y.frequency) false 0 (some a) (some b) k) ∧
    liveAt arena k a ∧ liveAt arena k b ∧
    (∀ j z, liveAt arena k j → arena[j]? = some z → j = a ∨ x.before z = true) ∧
    ∀ j z, liveAt arena k j → arena[j]? = some z → j = a ∨ j = b ∨ y.before z = true

/-- Which nodes are live when node `k` is made depends on the nodes before it only. -/
theorem liveAt_append {arena : List HuffNode} {k : Nat} (hk : k ≤ arena.length) (more : List HuffNode) (j : Nat) :
    liveAt (arena ++ more) k j ↔ liveAt arena k j := by
  refine and_congr_right fun _ => forall_congr' fun i => forall_congr' fun hi => ?_
  rw [List.getElem?_append_left (by omega)]

theorem JoinsLeast.append {arena : List HuffNode} {k : Nat} (h : JoinsLeast arena k) (hk : k < arena.length)
    (more : List HuffNode) : JoinsLeast (arena ++ more) k := by
  obtain ⟨a, b, x, y, hx, hy, hab, hnode, ha, hb, hmina, hminb⟩ := h
  have hget {j : Nat} (hj : j < arena.length) : (arena ++ more)[j]? = arena[j]? := List.getElem?_append_left hj
  have hlive (j : Nat) : liveAt (arena ++ more) k j ↔ liveAt arena k j := liveAt_append hk.le more j
  refine ⟨a, b, x, y, by rw [hget (ha.1.trans hk), hx], by rw [hget (hb.1.trans hk), hy], hab, by rw [hget hk, hnode],
    (hlive a).2 ha, (hlive b).2 hb, fun j z hj hz => ?_, fun j z hj hz => ?_⟩
  · rw [hlive] at hj
    exact hmina j z hj (by rwa [hget (hj.1.trans hk)] at hz)
  · rw [hlive] at hj
    exact hminb j z hj (by rwa [hget (hj.1.trans hk)] at hz)

/-- Every node stands after its children. -/
def ChildrenBelow (arena : List HuffNode) : Prop :=
  ∀ (i : Nat) (n : HuffNode) (j : Nat), arena[i]? = some n → n.child0 = some j ∨ n.child1 = some j → j < i

/-- What the loop of rule R204 keeps of the arena and of `LIVE`, from the leaves `leaves` on. -/
structure Merging (leaves arena live : List HuffNode) : Prop where
  kept : leaves <+: arena
  count : live.length + arena.length = 2 * leaves.length
  named : ∀ n ∈ live, arena[n.seq]? = some n
  nodup : (live.map HuffNode.seq).Nodup
  isLive : ∀ j, liveAt arena arena.length j ↔ j ∈ live.map HuffNode.seq
  below : ChildrenBelow arena
  joins : ∀ k, leaves.length ≤ k → k < arena.length → JoinsLeast arena k
  weight : (live.map HuffNode.frequency).sum = (leaves.map HuffNode.frequency).sum

theorem Merging.perm {leaves arena live live' : List HuffNode} (hp : live.Perm live') (h : Merging leaves arena live) :
    Merging leaves arena live' where
  kept := h.kept
  count := hp.length_eq ▸ h.count
  named n hn := h.named n (hp.mem_iff.2 hn)
  nodup := (hp.map _).nodup_iff.1 h.nodup
  isLive j := (h.isLive j).trans (hp.map _).mem_iff
  below := h.below
  joins := h.joins
  weight := (hp.map _).sum_eq.symm.trans h.weight

theorem Merging.seq_lt {leaves arena live : List HuffNode} (h : Merging leaves arena live) {n : HuffNode} (hn : n ∈ live) :
    n.seq < arena.length := (List.getElem?_eq_some_iff.1 (h.named n hn)).1

/-- A live node of the arena is in `LIVE`. -/
theorem Merging.mem_of_liveAt {leaves arena live : List HuffNode} (h : Merging leaves arena live) {j : Nat} {z : HuffNode}
    (hj : liveAt arena arena.length j) (hz : arena[j]? = some z) : z ∈ live ∧ z.seq = j := by
  obtain ⟨n, hn, rfl⟩ := List.mem_map.1 ((h.isLive j).1 hj)
  obtain rfl : n = z := Option.some.inj ((h.named n hn).symm.trans hz)
  exact ⟨hn, rfl⟩

theorem getElem?_concat_last (arena : List HuffNode) (c : HuffNode) : (arena ++ [c])[arena.length]? = some c := by simp

/-- A node appended to the arena: it is live, and the nodes it has as children no longer are. -/
theorem liveAt_concat {arena : List HuffNode} {c : HuffNode} {a b : Nat}
    (hbelow : ChildrenBelow arena)
    (ha : a < arena.length) (hb : b < arena.length) (hc0 : c.child0 = some a) (hc1 : c.child1 = some b) (j : Nat) :
    liveAt (arena ++ [c]) (arena ++ [c]).length j ↔
      j = arena.length ∨ (liveAt arena arena.length j ∧ j ≠ a ∧ j ≠ b) := by
  have hlen : (arena ++ [c]).length = arena.length + 1 := by simp
  have hget {i : Nat} (hi : i < arena.length) : (arena ++ [c])[i]? = arena[i]? := List.getElem?_append_left hi
  have hlast := getElem?_concat_last arena c
  rw [hlen]
  constructor
  · rintro ⟨hj, hno⟩
    by_cases hjl : j = arena.length
    · exact .inl hjl
    · obtain ⟨h0, h1⟩ := hno arena.length (Nat.lt_succ_self _) c hlast
      refine .inr ⟨⟨by omega, fun i hi n hn => hno i (by omega) n (by rwa [hget hi])⟩, fun h => ?_, fun h => ?_⟩
      · exact h0 (h ▸ hc0)
      · exact h1 (h ▸ hc1)
  · intro h
    have hold : ∀ i, i < arena.length → ∀ n, arena[i]? = some n → n.child0 ≠ some j ∧ n.child1 ≠ some j := by
      intro i hi n hn
      rcases h with rfl | ⟨hlive, _, _⟩
      · exact ⟨fun h0 => by have := hbelow i n _ hn (.inl h0); omega, fun h1 => by have := hbelow i n _ hn (.inr h1); omega⟩
      · exact hlive.2 i hi n hn
    have hj : j ≤ arena.length := h.elim Nat.le_of_eq fun hlive => hlive.1.1.le
    refine ⟨Nat.lt_succ_of_le hj, fun i hi n hn => ?_⟩
    by_cases hil : i = arena.length
    · subst hil
      obtain rfl : c = n := Option.some.inj (hlast.symm.trans hn)
      rw [hc0, hc1, Ne, Ne, Option.some.injEq, Option.some.injEq]
      rcases h with rfl | ⟨_, hja, hjb⟩ <;> omega
    · rw [hget (by omega)] at hn
      exact hold i (by omega) n hn

/-- The node made of the two least live nodes. -/
theorem Merging.joinsLeast {leaves arena rest : List HuffNode} {a b : HuffNode}
    (h : Merging leaves arena (a :: b :: rest)) (hmina : ∀ x ∈ b :: rest, a.before x = true)
    (hminb : ∀ x ∈ rest, b.before x = true) : JoinsLeast (arena ++ [joinNodes a b arena.length]) arena.length := by
  have ma : a ∈ a :: b :: rest := List.mem_cons_self
  have mb : b ∈ a :: b :: rest := List.mem_cons_of_mem _ List.mem_cons_self
  have hget {j : Nat} (hj : j < arena.length) : (arena ++ [joinNodes a b arena.length])[j]? = arena[j]? :=
    List.getElem?_append_left hj
  have hlive (j : Nat) : liveAt (arena ++ [joinNodes a b arena.length]) arena.length j ↔ liveAt arena arena.length j :=
    liveAt_append (Nat.le_refl _) _ j
  have hmem {j : Nat} {z : HuffNode} (hj : liveAt (arena ++ [joinNodes a b arena.length]) arena.length j)
      (hz : (arena ++ [joinNodes a b arena.length])[j]? = some z) : z ∈ a :: b :: rest ∧ z.seq = j :=
    h.mem_of_liveAt ((hlive j).1 hj) (by rwa [hget hj.1] at hz)
  have hab : a.seq ≠ b.seq := fun he => (List.nodup_cons.1 h.nodup).1 (he ▸ List.mem_cons_self)
  refine ⟨a.seq, b.seq, a, b, by rw [hget (h.seq_lt ma), h.named a ma], by rw [hget (h.seq_lt mb), h.named b mb], hab,
    getElem?_concat_last _ _, (hlive _).2 ((h.isLive _).2 (List.mem_map_of_mem ma)),
    (hlive _).2 ((h.isLive _).2 (List.mem_map_of_mem mb)), fun j z hj hz => ?_, fun j z hj hz => ?_⟩
  · obtain ⟨hin, rfl⟩ := hmem hj hz
    exact (List.mem_cons.1 hin).imp (congrArg _) (hmina z)
  · obtain ⟨hin, rfl⟩ := hmem hj hz
    exact (List.mem_cons.1 hin).imp (congrArg _) fun hz => (List.mem_cons.1 hz).imp (congrArg _) (hminb z)

/-- The two least live nodes joined. -/
theorem Merging.join {leaves arena rest : List HuffNode} {a b : HuffNode} (h : Merging leaves arena (a :: b :: rest))
    (hmina : ∀ x ∈ b :: rest, a.before x = true) (hminb : ∀ x ∈ rest, b.before x = true) :
    Merging leaves (arena ++ [joinNodes a b arena.length]) (joinNodes a b arena.length :: rest) := by
  have ma : a.seq < arena.length := h.seq_lt List.mem_cons_self
  have mb : b.seq < arena.length := h.seq_lt (List.mem_cons_of_mem _ List.mem_cons_self)
  have mrest {x : HuffNode} (hx : x ∈ rest) : x ∈ a :: b :: rest := List.mem_cons_of_mem _ (List.mem_cons_of_mem _ hx)
  have hget {j : Nat} (hj : j < arena.length) : (arena ++ [joinNodes a b arena.length])[j]? = arena[j]? :=
    List.getElem?_append_left hj
  have hlast : (arena ++ [joinNodes a b arena.length])[arena.length]? = some (joinNodes a b arena.length) :=
    getElem?_concat_last _ _
  have hlen : (arena ++ [joinNodes a b arena.length]).length = arena.length + 1 := List.length_append
  have hnodup := h.nodup
  simp only [List.map_cons, List.nodup_cons, List.mem_cons, not_or] at hnodup
  obtain ⟨⟨_, har⟩, hbr, hrest⟩ := hnodup
  refine ⟨h.kept.trans (List.prefix_append _ _), ?_, fun n hn => ?_, ?_, fun j => ?_, fun i n j hi hj => ?_,
    fun k hk hlt => ?_, ?_⟩
  · have := h.count
    simp only [List.length_cons, hlen] at this ⊢
    omega
  · rcases List.mem_cons.1 hn with rfl | hn
    · exact hlast
    · rw [hget (h.seq_lt (mrest hn)), h.named n (mrest hn)]
  · refine List.nodup_cons.2 ⟨fun hmem => ?_, hrest⟩
    obtain ⟨x, hx, hseq⟩ := List.mem_map.1 hmem
    exact Nat.ne_of_lt (h.seq_lt (mrest hx)) hseq
  · rw [liveAt_concat h.below ma mb rfl rfl, h.isLive]
    simp only [List.map_cons, List.mem_cons]
    refine or_congr_right ⟨fun ⟨hj, hja, hjb⟩ => ?_, fun hj => ⟨.inr (.inr hj), fun h => har (h ▸ hj), fun h => hbr (h ▸ hj)⟩⟩
    exact (hj.resolve_left hja).resolve_left hjb
  · by_cases hil : i < arena.length
    · rw [hget hil] at hi
      exact h.below i n j hi hj
    · obtain rfl : i = arena.length := by
        have := (List.getElem?_eq_some_iff.1 hi).1
        omega
      obtain rfl := Option.some.inj (hlast.symm.trans hi)
      rcases hj with hj | hj
      · exact Option.some.inj hj ▸ ma
      · exact Option.some.inj hj ▸ mb
  · by_cases hkl : k < arena.length
    · exact (h.joins k hk hkl).append hkl _
    · obtain rfl : k = arena.length := by omega
      exact h.joinsLeast hmina hminb
  · have := h.weight
    simp only [List.map_cons, List.sum_cons, joinNodes] at this ⊢
    omega

theorem mergeLoop_single (fuel : Nat) (arena : List HuffNode) (n : HuffNode) :
    mergeLoop fuel arena [n] = (arena, [n]) := by
  cases fuel with
  | zero => rfl
  | succ fuel =>
    have herase : [n].erase n = [] := List.erase_cons_head ..
    simp only [mergeLoop, takeLeast, leastNode, herase]

/-- The loop ends with one live node. -/
theorem Merging.loop {leaves arena live : List HuffNode} (h : Merging leaves arena live) (hne : live ≠ []) {fuel : Nat}
    (hf : live.length ≤ fuel + 1) :
    ∃ n, (mergeLoop fuel arena live).2 = [n] ∧ Merging leaves (mergeLoop fuel arena live).1 [n] := by
  induction fuel generalizing arena live with
  | zero =>
    obtain ⟨n, rfl⟩ := List.length_eq_one_iff.1 (Nat.le_antisymm hf (List.length_pos_iff.2 hne))
    exact ⟨n, rfl, h⟩
  | succ fuel ih =>
    by_cases h2 : 2 ≤ live.length
    · obtain ⟨a, b, rest, hp, hmina, hminb, hround⟩ := mergeLoop_round h2 h.nodup arena
      rw [hround]
      refine ih (((h.perm hp).join hmina hminb).perm (List.perm_append_singleton _ _).symm) (by simp) ?_
      have := hp.length_eq
      simp only [List.length_cons, List.length_append, List.length_nil] at this ⊢
      omega
    · obtain ⟨n, rfl⟩ := List.length_eq_one_iff.1 (Nat.le_antisymm (by omega) (List.length_pos_iff.2 hne))
      rw [mergeLoop_single]
      exact ⟨n, rfl, h⟩

/-- The node the loop ends with is the last one made. -/
theorem Merging.root {leaves arena : List HuffNode} {n : HuffNode} (h : Merging leaves arena [n]) :
    n.seq = 2 * leaves.length - 2 := by
  have hcount := h.count
  rw [List.length_singleton] at hcount
  have hlive : liveAt arena arena.length (2 * leaves.length - 2) := by
    have hlt := h.seq_lt List.mem_cons_self
    refine ⟨by omega, fun i hi z hz => ⟨fun h0 => ?_, fun h1 => ?_⟩⟩
    · have := h.below i z _ hz (.inl h0)
      omega
    · have := h.below i z _ hz (.inr h1)
      omega
  exact (List.mem_singleton.1 ((h.isLive _).1 hlive)).symm

/-! ## The merge of the leaves of a frequency table -/

theorem leavesOf_eq_some {w : SymWidth} {F : List Nat} {j : Nat} {n : HuffNode} (h : (leavesOf w F)[j]? = some n) :
    ∃ x, (livingSymbols w F)[j]? = some x ∧ n = ⟨F.getD x 0, true, x, none, none, j⟩ := by
  rw [leavesOf_getElem?] at h
  obtain ⟨x, hx, hn⟩ := Option.map_eq_some_iff.1 h
  exact ⟨x, hx, hn.symm⟩

theorem leavesOf_map_frequency (w : SymWidth) (F : List Nat) :
    (leavesOf w F).map HuffNode.frequency = (livingSymbols w F).map fun x => F.getD x 0 := by
  refine List.ext_getElem? fun j => ?_
  rw [List.getElem?_map, leavesOf_getElem?, List.getElem?_map, Option.map_map]
  rfl

/-- Before the first round every leaf is live. -/
theorem merging_leavesOf (w : SymWidth) (F : List Nat) : Merging (leavesOf w F) (leavesOf w F) (leavesOf w F) where
  kept := List.prefix_refl _
  count := (Nat.two_mul _).symm
  named n hn := by
    obtain ⟨j, hj⟩ := List.mem_iff_getElem?.1 hn
    obtain ⟨x, _, rfl⟩ := leavesOf_eq_some hj
    exact hj
  nodup := by
    rw [leavesOf_seq]
    exact List.nodup_range
  isLive j := by
    rw [leavesOf_seq, List.mem_range]
    refine ⟨fun h => h.1, fun h => ⟨h, fun i _ n hn => ?_⟩⟩
    obtain ⟨x, _, rfl⟩ := leavesOf_eq_some hn
    exact ⟨Option.some_ne_none _ ∘ Eq.symm, Option.some_ne_none _ ∘ Eq.symm⟩
  below i n j hi hj := by
    obtain ⟨x, _, rfl⟩ := leavesOf_eq_some hi
    rcases hj with hj | hj <;> cases hj
  joins k hk hlt := absurd hlt (by omega)
  weight := rfl

theorem mergeLeaves_of_two_le {w : SymWidth} {F : List Nat} (h2 : 2 ≤ (leavesOf w F).length) :
    mergeLeaves (leavesOf w F) = ((mergeLoop (leavesOf w F).length (leavesOf w F) (leavesOf w F)).1,
      (mergeLoop (leavesOf w F).length (leavesOf w F) (leavesOf w F)).2.head?.map HuffNode.seq) := by
  rw [mergeLeaves, leavesOf_filter]
  match leavesOf w F, h2 with
  | _ :: _ :: _, _ => rfl

/-- What `merge` leaves of two leaves or more: the nodes made, and the last of them as root. -/
theorem mergeLeaves_merging {w : SymWidth} {F : List Nat} (h2 : 2 ≤ (leavesOf w F).length) :
    ∃ n, Merging (leavesOf w F) (mergeLeaves (leavesOf w F)).1 [n] ∧ (mergeLeaves (leavesOf w F)).2 = some n.seq := by
  obtain ⟨n, hlast, h⟩ := (merging_leavesOf w F).loop (fuel := (leavesOf w F).length)
    (fun h0 => by simp [h0] at h2) (Nat.le_succ _)
  rw [mergeLeaves_of_two_le h2]
  exact ⟨n, h, by rw [hlast]; rfl⟩

/-- The one-symbol tree of rule R209. -/
theorem mergeLeaves_single {w : SymWidth} {F : List Nat} {leaf : HuffNode} (h : leavesOf w F = [leaf]) :
    mergeLeaves (leavesOf w F) = ([leaf, ⟨leaf.frequency, false, 0, some 0, none, 1⟩], some 1) := by
  obtain ⟨x, _, rfl⟩ := leavesOf_eq_some (w := w) (F := F) (j := 0) (n := leaf) (by rw [h]; rfl)
  rw [h]
  rfl

/-- The leaves of a frequency table: none, one, or more. -/
theorem leavesOf_cases (w : SymWidth) (F : List Nat) :
    leavesOf w F = [] ∨ (∃ leaf, leavesOf w F = [leaf]) ∨ 2 ≤ (leavesOf w F).length := by
  match leavesOf w F with
  | [] => exact .inl rfl
  | [leaf] => exact .inr (.inl ⟨leaf, rfl⟩)
  | _ :: _ :: _ => exact .inr (.inr (Nat.le_add_left 2 _))

/-- `merge` appends to the leaves. -/
theorem leavesOf_prefix_mergeLeaves (w : SymWidth) (F : List Nat) : leavesOf w F <+: (mergeLeaves (leavesOf w F)).1 := by
  rcases leavesOf_cases w F with h | ⟨leaf, h⟩ | h2
  · rw [h]
    exact List.nil_prefix
  · rw [mergeLeaves_single h, h]
    exact List.prefix_append [leaf] _
  · obtain ⟨n, h, _⟩ := mergeLeaves_merging h2
    exact h.kept

/-- Settles O32: every node made joins the two least of `LIVE`, and the one node left has the weight of all leaves. -/
theorem mergeLeastPairs : Obligations.MergeLeastPairs := by
  intro s F hF
  have hmerge : merge s = s.withCall { s.call with
      hnode := (mergeLeaves (leavesOf s.call.hw F)).1, hroot := (mergeLeaves (leavesOf s.call.hw F)).2 } := hF ▸ rfl
  refine ⟨_, congrArg Host.Outcome.next hmerge, rfl, fun j hj => ?_, fun h0 => ?_, fun leaf hleaf => ?_, fun h2 => ?_⟩
  · rw [hF] at hj ⊢
    obtain ⟨more, hmore⟩ := leavesOf_prefix_mergeLeaves s.call.hw F
    exact (congrArg (·[j]?) hmore).symm.trans (List.getElem?_append_left hj)
  · rw [hF] at h0
    rw [List.length_eq_zero_iff.1 h0]
    exact ⟨rfl, rfl⟩
  · rw [mergeLeaves_single (hF ▸ hleaf)]
    exact ⟨rfl, rfl⟩
  · rw [hF] at h2 ⊢
    obtain ⟨n, h, hroot⟩ := mergeLeaves_merging h2
    have hcount : (mergeLeaves (leavesOf s.call.hw F)).1.length = 2 * (leavesOf s.call.hw F).length - 1 := by
      have := h.count
      rw [List.length_singleton] at this
      omega
    refine ⟨hcount, hroot.trans (congrArg some h.root), ⟨n, h.root ▸ h.named n List.mem_cons_self, ?_⟩,
      fun k hk hlt => h.joins k hk (hcount ▸ hlt)⟩
    rw [← leavesOf_map_frequency, ← h.weight, List.map_singleton, List.sum_singleton]

end Sys2Proof.Machine
end

section
/-! PROOF. The depth limit of rule R205: obligation O33. The tree of `m` leaves has no other nodes than those and the
`m - 1` made of them, so it is less than `m` levels high. -/

namespace Sys2Proof.Machine

/-! ## All nodes of the merge tree -/

theorem ids_length (t : HTree) : t.ids.length + 1 = 2 * t.leaves.length := by
  induction t with
  | leaf i => rfl
  | node i l r ihl ihr =>
    simp only [HTree.ids, HTree.leaves, List.length_cons, List.length_append]
    omega

theorem height_lt_leaves (t : HTree) : t.height < t.leaves.length := by
  induction t with
  | leaf i => exact Nat.one_pos
  | node i l r ihl ihr =>
    simp only [HTree.height, HTree.leaves, List.length_append]
    omega

theorem mergeLeaves_length {w : SymWidth} {F : List Nat} (h2 : 2 ≤ (leavesOf w F).length) :
    (mergeLeaves (leavesOf w F)).1.length + 1 = 2 * (leavesOf w F).length := by
  obtain ⟨n, h, _⟩ := mergeLeaves_merging h2
  have := h.count
  rw [List.length_singleton] at this
  omega

/-- The leaves of the merge tree are the leaves of the table, and its nodes all those of the arena. -/
theorem Grown.ids_perm {w : SymWidth} {F : List Nat} {t : HTree} (h : Grown w F (mergeLeaves (leavesOf w F)) t)
    (h2 : 2 ≤ (leavesOf w F).length) :
    t.leaves.Perm (List.range (leavesOf w F).length) ∧ t.ids.Perm (List.range (mergeLeaves (leavesOf w F)).1.length) := by
  have hlen := mergeLeaves_length h2
  have hids := ids_length t
  have hleaves : List.Subperm (List.range (leavesOf w F).length) t.leaves :=
    List.subperm_of_subset List.nodup_range fun i hi => h.leaves i (List.mem_range.1 hi)
  have hall : List.Subperm t.ids (List.range (mergeLeaves (leavesOf w F)).1.length) :=
    List.subperm_of_subset h.nodup fun i hi => List.mem_range.2 (held_ids_lt h.held i hi)
  have hge := hleaves.length_le
  have hle := hall.length_le
  rw [List.length_range] at hge hle
  exact ⟨(hleaves.perm_of_length_le (by rw [List.length_range]; omega)).symm,
    hall.perm_of_length_le (by rw [List.length_range]; omega)⟩

theorem Grown.treeDepth_eq {w : SymWidth} {F : List Nat} {T : List HuffNode × Option Nat} {t : HTree}
    (h : Grown w F T t) : treeDepth T = t.height := by
  rw [treeDepth, h.root]
  exact depthFrom_held h.held (height_lt_length h.held h.nodup).le

/-- The merge tree is no deeper than it has leaves, and no deeper than 16 levels where every count is at most 1. -/
theorem treeDepth_mergeLeaves (w : SymWidth) (F : List Nat) :
    treeDepth (mergeLeaves (leavesOf w F)) ≤ (leavesOf w F).length ∧
      ((∀ c ∈ F, c ≤ 1) → treeDepth (mergeLeaves (leavesOf w F)) ≤ 16) := by
  rcases leavesOf_cases w F with h | ⟨leaf, h⟩ | h2
  · rw [h]
    exact ⟨Nat.zero_le _, fun _ => Nat.zero_le _⟩
  · have hone : treeDepth (mergeLeaves (leavesOf w F)) = 1 := by
      obtain ⟨x, _, rfl⟩ := leavesOf_eq_some (w := w) (F := F) (j := 0) (n := leaf) (by rw [h]; rfl)
      rw [mergeLeaves_single h]
      rfl
    rw [hone, h]
    exact ⟨Nat.le_refl _, fun _ => by decide⟩
  · obtain ⟨t, ht⟩ := mergeLeaves_grown h2
    rw [ht.treeDepth_eq]
    refine ⟨?_, ht.low⟩
    have := (ht.ids_perm h2).1.length_eq
    rw [List.length_range] at this
    exact this ▸ (height_lt_leaves t).le

/-! ## The loop of rule R205 -/

theorem getD_map_halveUp_eq (F : List Nat) (x : Nat) : (F.map halveUp).getD x 0 = halveUp (F.getD x 0) :=
  List.getD_map (f := halveUp) (d := 0) ..

/-- A count halved so is 0 only where it was. -/
theorem halved_pos_iff (r : Nat) (F : List Nat) (x : Nat) :
    0 < ((List.map halveUp)^[r] F).getD x 0 ↔ 0 < F.getD x 0 := by
  induction r generalizing F with
  | zero => rfl
  | succ r ih =>
    rw [Function.iterate_succ_apply, ih, getD_map_halveUp_eq]
    unfold halveUp
    omega

/-- The loop halves the counts while the tree is too deep. -/
theorem limitLoop_eq_iterate (w : SymWidth) (fuel : Nat) (F : List Nat) :
    ∃ r, limitLoop w fuel F = ((List.map halveUp)^[r] F, mergeLeaves (leavesOf w ((List.map halveUp)^[r] F))) ∧
      ∀ k, k < r → 16 < treeDepth (mergeLeaves (leavesOf w ((List.map halveUp)^[k] F))) := by
  induction fuel generalizing F with
  | zero => exact ⟨0, rfl, fun k hk => absurd hk (Nat.not_lt_zero k)⟩
  | succ fuel ih =>
    rw [limitLoop]
    split
    · exact ⟨0, rfl, fun k hk => absurd hk (Nat.not_lt_zero k)⟩
    · rename_i hdeep
      obtain ⟨r, hr, hbefore⟩ := ih (F.map halveUp)
      refine ⟨r + 1, hr, fun k hk => ?_⟩
      cases k with
      | zero => exact Nat.lt_of_not_le hdeep
      | succ k => exact hbefore k (Nat.lt_of_succ_lt_succ hk)

/-- The rounds allowed suffice for a tree of at most 16 levels. -/
theorem treeDepth_limitLoop_le (w : SymWidth) (F : List Nat) : treeDepth (limitLoop w (scalingRounds F) F).2 ≤ 16 := by
  obtain ⟨G, hG, _, hend⟩ := limitLoop_spec w (scalingRounds F) (le_two_pow_scalingRounds F)
  rw [hG]
  exact hend.elim id (treeDepth_mergeLeaves w G).2

/-- Settles O33: the loop's rounds are the halvings; with at most 16 leaves the first tree is shallow enough. -/
theorem limitDepthSpec : Obligations.LimitDepthSpec := by
  intro s
  obtain ⟨r, hloop, hbefore⟩ := limitLoop_eq_iterate s.call.hw (scalingRounds s.call.freq) s.call.freq
  have hdepth := treeDepth_limitLoop_le s.call.hw s.call.freq
  refine ⟨limitDepth s, r, rfl, congrArg Prod.fst hloop, ?_, hdepth, hbefore, fun x => ?_, fun hw => ?_, rfl⟩
  · change (limitLoop _ _ _).2 = mergeLeaves (leavesOf _ (limitLoop _ _ _).1)
    rw [hloop]
  · change 0 < (limitLoop _ _ _).1.getD x 0 ↔ _
    rw [hloop]
    exact halved_pos_iff r s.call.freq x
  · by_contra hr
    have hdeep := hbefore 0 (Nat.pos_of_ne_zero hr)
    have hshallow := (treeDepth_mergeLeaves s.call.hw s.call.freq).1
    have hleaves : (leavesOf s.call.hw s.call.freq).length ≤ 16 := by
      rw [leavesOf_length, hw]
      exact (List.length_filter_le _ _).trans (List.length_range).le
    exact absurd hdeep (Nat.not_lt.2 (hshallow.trans hleaves))

end Sys2Proof.Machine
end

section
/-! PROOF. `canonicalise` (rule R207): obligation O34. The levels of the merge tree follow one another by the rule; the
rewired arena is linked along them, its frequencies are summed from the deepest level up, and so it is a fixed point. -/

namespace Sys2Proof.Machine

/-! ## The levels of a tree, one from the other (rule R207, pass 1) -/

/-- `CANON[d + 1]` from `CANON[d]`: the children of its internal nodes, leaves first across the whole level. -/
def nextLevel (arena : List HuffNode) (level : List Nat) : List Nat :=
  stablePartition arena ((internalsOf arena level).flatMap (childrenAt arena))

/-- Levels each of which follows from the one above, down to a level of leaves. -/
def layered (arena : List HuffNode) : List (List Nat) → Prop
  | level :: next :: rest => internalsOf arena level ≠ [] ∧ next = nextLevel arena level ∧ layered arena (next :: rest)
  | [level] => internalsOf arena level = []
  | [] => True

theorem layered_tail {arena : List HuffNode} {level : List Nat} {rest : List (List Nat)}
    (h : layered arena (level :: rest)) : layered arena rest := by
  cases rest with
  | nil => trivial
  | cons next rest => exact h.2.2

/-- A level is the last one exactly if it holds leaves only; else the next one follows from it. -/
theorem layered_getElem? {arena : List HuffNode} {levels : List (List Nat)} (h : layered arena levels) {d : Nat}
    {level : List Nat} (hd : levels[d]? = some level) :
    levels[d + 1]? = if internalsOf arena level = [] then none else some (nextLevel arena level) := by
  induction levels generalizing d with
  | nil => cases hd
  | cons first rest ih =>
    cases d with
    | succ d => exact ih (layered_tail h) hd
    | zero =>
      obtain rfl : first = level := Option.some.inj hd
      cases rest with
      | nil => rw [if_pos (show internalsOf arena first = [] from h)]; rfl
      | cons next rest => rw [if_neg h.1, ← h.2.1]; rfl

theorem linked_getElem? {arena : List HuffNode} {children : Nat → List Nat} {levels : List (List Nat)}
    (h : linked arena children levels) {d : Nat} {level next : List Nat} (hd : levels[d]? = some level)
    (hn : levels[d + 1]? = some next) : (internalsOf arena level).flatMap children = next := by
  induction levels generalizing d with
  | nil => cases hd
  | cons first rest ih =>
    cases rest with
    | nil => cases hn
    | cons second rest =>
      cases d with
      | succ d => exact ih h.2 hd hn
      | zero =>
        obtain rfl : first = level := Option.some.inj hd
        obtain rfl : second = next := Option.some.inj hn
        exact h.1

theorem height_lt_of_mem_kids {t u : HTree} (h : u ∈ t.kids) : u.height < t.height := by
  cases t with
  | leaf i => cases h
  | node i l r =>
    simp only [HTree.kids, List.mem_cons, List.not_mem_nil, or_false] at h
    simp only [HTree.height]
    rcases h with rfl | rfl <;> omega

/-- With levels enough, all nodes of the trees are on them. -/
theorem treeLevels_perm {fuel : Nat} {ts : List HTree} (hf : ∀ t ∈ ts, t.height < fuel) :
    ((treeLevels fuel ts).flatten.map HTree.root).Perm (ts.flatMap HTree.ids) := by
  induction fuel generalizing ts with
  | zero =>
    cases ts with
    | nil => exact List.Perm.refl _
    | cons t ts => exact absurd (hf t List.mem_cons_self) (Nat.not_lt_zero _)
  | succ fuel ih =>
    have hroots : ((canonTrees ts).map HTree.root).Perm (ts.map HTree.root) := (canonTrees_perm ts).map _
    refine List.Perm.trans ?_ (flatMap_ids_perm ts).symm
    rw [treeLevels, List.flatten_cons, List.map_append]
    refine hroots.append ?_
    rw [flatMap_kids_filter]
    split
    · rename_i hempty
      have hkids : ts.flatMap HTree.kids = [] := by
        rw [← flatMap_kids_filter, List.isEmpty_iff.1 hempty]
        rfl
      rw [hkids]
      exact List.Perm.refl _
    · refine ih fun u hu => ?_
      obtain ⟨t, ht, hut⟩ := List.mem_flatMap.1 hu
      have := hf t ht
      have := height_lt_of_mem_kids hut
      omega

/-- The levels of trees that the arena holds, down to their last. -/
theorem layered_treeLevels {arena : List HuffNode} {fuel : Nat} {ts : List HTree} (h : ∀ t ∈ ts, t.held arena)
    (hf : ∀ t ∈ ts, t.height < fuel) : layered arena ((treeLevels fuel ts).map fun l => l.map HTree.root) := by
  induction fuel generalizing ts with
  | zero => trivial
  | succ fuel ih =>
    have hints : internalsOf arena ((canonTrees ts).map HTree.root) = (ts.filter fun t => !t.isLeaf).map HTree.root := by
      rw [← stablePartition_roots h, internalsOf_stablePartition]
      exact (filter_map_root h).2
    have hkids : ∀ u ∈ (ts.filter fun t => !t.isLeaf).flatMap HTree.kids, u.held arena ∧ u.height < fuel := fun u hu => by
      obtain ⟨t, ht, hut⟩ := List.mem_flatMap.1 hu
      have ht := (List.mem_filter.1 ht).1
      have := hf t ht
      have := height_lt_of_mem_kids hut
      exact ⟨held_kids (h t ht) hut, by omega⟩
    rw [treeLevels]
    split
    · rename_i hempty
      exact hints.trans (congrArg (List.map HTree.root) (List.isEmpty_iff.1 hempty))
    · rename_i hne
      have hrest := ih (fun u hu => (hkids u hu).1) fun u hu => (hkids u hu).2
      cases fuel with
      | zero =>
        obtain ⟨t, ht⟩ := List.exists_mem_of_ne_nil _ (mt List.isEmpty_iff.2 hne)
        obtain ⟨hmem, hinner⟩ := List.mem_filter.1 ht
        have := hf t hmem
        cases t with
        | leaf i => cases hinner
        | node i l r => simp only [HTree.height] at this; omega
      | succ fuel =>
        rw [treeLevels] at hrest ⊢
        refine ⟨?_, ?_, hrest⟩
        · rw [hints]
          exact mt List.map_eq_nil_iff.1 (mt List.isEmpty_iff.2 hne)
        · have hroots : ((ts.filter fun t => !t.isLeaf).flatMap HTree.kids).map HTree.root =
              ((ts.filter fun t => !t.isLeaf).map HTree.root).flatMap (childrenAt arena) := by
            rw [List.flatMap_map, List.map_flatMap]
            refine List.flatMap_congr fun t ht => (held_children ?_ ?_).symm
            · exact h t (List.mem_filter.1 ht).1
            · simpa using (List.mem_filter.1 ht).2
          rw [nextLevel, hints, ← hroots, stablePartition_roots fun u hu => (hkids u hu).1]

/-! ## The merge tree -/

/-- The arena holds a merge tree: its nodes are all those of the arena, a leaf has no child, and every other node has two
and their frequencies' sum. -/
structure MergeTree (arena : List HuffNode) (t : HTree) : Prop where
  held : t.held arena
  ids : t.ids.Perm (List.range arena.length)
  inner : t.isLeaf = false
  leaf : ∀ (i : Nat) (n : HuffNode), arena[i]? = some n → n.isLeaf = true → n.child0 = none ∧ n.child1 = none
  node : ∀ (i : Nat) (n : HuffNode), arena[i]? = some n → n.isLeaf = false → ∃ a b, n.child0 = some a ∧ n.child1 = some b ∧
    n.frequency = freqAt arena a + freqAt arena b

theorem freqAt_of_some {arena : List HuffNode} {i : Nat} {n : HuffNode} (h : arena[i]? = some n) :
    freqAt arena i = n.frequency := by rw [freqAt, h]; rfl

theorem isLeafAt_of_some {arena : List HuffNode} {i : Nat} {n : HuffNode} (h : arena[i]? = some n) :
    isLeafAt arena i = n.isLeaf := by rw [isLeafAt, h]; rfl

theorem childrenAt_of_some {arena : List HuffNode} {i : Nat} {n : HuffNode} (h : arena[i]? = some n) :
    childrenAt arena i = n.children := by rw [childrenAt, h]; rfl

theorem children_of_some {n : HuffNode} {a b : Nat} (h0 : n.child0 = some a) (h1 : n.child1 = some b) :
    n.children = [a, b] := by rw [HuffNode.children, h0, h1]; rfl

/-- The nodes `merge` leaves are the leaves of the table and the nodes made of two. -/
theorem mergeLeaves_node {w : SymWidth} {F : List Nat} (h2 : 2 ≤ (leavesOf w F).length) {i : Nat} {n : HuffNode}
    (hi : (mergeLeaves (leavesOf w F)).1[i]? = some n) :
    (leavesOf w F)[i]? = some n ∨ (n.isLeaf = false ∧ ∃ a b, n.child0 = some a ∧ n.child1 = some b ∧
      n.frequency = freqAt (mergeLeaves (leavesOf w F)).1 a + freqAt (mergeLeaves (leavesOf w F)).1 b) := by
  obtain ⟨root, h, _⟩ := mergeLeaves_merging h2
  by_cases hlt : i < (leavesOf w F).length
  · obtain ⟨more, hmore⟩ := h.kept
    rw [← hmore, List.getElem?_append_left hlt] at hi
    exact .inl hi
  · obtain ⟨a, b, x, y, hx, hy, _, hnode, _⟩ := h.joins i (by omega) (List.getElem?_eq_some_iff.1 hi).1
    obtain rfl := Option.some.inj (hnode.symm.trans hi)
    exact .inr ⟨rfl, a, b, rfl, rfl, by rw [freqAt_of_some hx, freqAt_of_some hy]⟩

theorem Grown.mergeTree {w : SymWidth} {F : List Nat} {t : HTree} (h : Grown w F (mergeLeaves (leavesOf w F)) t)
    (h2 : 2 ≤ (leavesOf w F).length) : MergeTree (mergeLeaves (leavesOf w F)).1 t where
  held := h.held
  ids := (h.ids_perm h2).2
  inner := h.inner
  leaf i n hi hn := by
    rcases mergeLeaves_node h2 hi with hleaf | ⟨hnode, _⟩
    · obtain ⟨x, _, rfl⟩ := leavesOf_eq_some hleaf
      exact ⟨rfl, rfl⟩
    · rw [hnode] at hn
      cases hn
  node i n hi hn := by
    rcases mergeLeaves_node h2 hi with hleaf | ⟨_, hnode⟩
    · obtain ⟨x, _, rfl⟩ := leavesOf_eq_some hleaf
      cases hn
    · exact hnode

/-- The levels `canonicalise` and `serialise` go by. -/
def levelsFrom (arena : List HuffNode) (root : Nat) : List (List Nat) := canonLevels arena (arena.length + 1) [root]

section
variable {arena : List HuffNode} {t : HTree}

theorem MergeTree.nodup (h : MergeTree arena t) : t.ids.Nodup := h.ids.nodup_iff.2 List.nodup_range

theorem MergeTree.levels_eq (h : MergeTree arena t) :
    levelsFrom arena t.root = (treeLevels (arena.length + 1) [t]).map fun l => l.map HTree.root :=
  canonLevels_roots (ts := [t]) _ fun _ hu => List.mem_singleton.1 hu ▸ h.held

theorem MergeTree.layered (h : MergeTree arena t) : layered arena (levelsFrom arena t.root) :=
  h.levels_eq ▸ layered_treeLevels (fun _ hu => List.mem_singleton.1 hu ▸ h.held)
    fun _ hu => List.mem_singleton.1 hu ▸ Nat.lt_succ_of_lt (height_lt_length h.held h.nodup)

theorem MergeTree.paired (h : MergeTree arena t) : paired arena (levelsFrom arena t.root) :=
  h.levels_eq ▸ paired_treeLevels _ fun _ hu => List.mem_singleton.1 hu ▸ h.held

/-- Every node of the arena stands on one level. -/
theorem MergeTree.levels_perm (h : MergeTree arena t) :
    (levelsFrom arena t.root).flatten.Perm (List.range arena.length) := by
  have hall := treeLevels_perm (fuel := arena.length + 1) (ts := [t])
    fun _ hu => List.mem_singleton.1 hu ▸ Nat.lt_succ_of_lt (height_lt_length h.held h.nodup)
  rw [List.flatMap_singleton] at hall
  rw [h.levels_eq, ← List.map_flatten]
  exact hall.trans h.ids

theorem MergeTree.levels_nodup (h : MergeTree arena t) : (levelsFrom arena t.root).flatten.Nodup :=
  h.levels_perm.nodup_iff.2 List.nodup_range

theorem MergeTree.levels_lt (h : MergeTree arena t) : ∀ i ∈ (levelsFrom arena t.root).flatten, i < arena.length :=
  fun _ hi => List.mem_range.1 (h.levels_perm.mem_iff.1 hi)

theorem MergeTree.levels_cons (h : MergeTree arena t) : ∃ rest, levelsFrom arena t.root = [t.root] :: rest := by
  have hone : canonTrees [t] = [t] := by simp [canonTrees, h.inner]
  rw [h.levels_eq, treeLevels, hone]
  exact ⟨_, rfl⟩

theorem MergeTree.levels_zero (h : MergeTree arena t) : (levelsFrom arena t.root)[0]? = some [t.root] := by
  obtain ⟨rest, hrest⟩ := h.levels_cons
  rw [hrest]
  rfl

theorem MergeTree.root_child1 (h : MergeTree arena t) {n : HuffNode} (hn : arena[t.root]? = some n) : n.child1 ≠ none := by
  obtain ⟨_, b, _, hb, _⟩ := h.node _ n hn (by rw [← isLeafAt_of_some hn, held_isLeaf h.held, h.inner])
  rw [hb]
  exact Option.some_ne_none b

/-- The root has two children, so all three passes are run. -/
theorem MergeTree.canonTree_eq (h : MergeTree arena t) : canonTree (arena, some t.root) =
    resumLevels (levelsFrom arena t.root) (rewireLevels arena (levelsFrom arena t.root) arena) := by
  have hroot : t.root < arena.length := held_ids_lt h.held _ (root_mem_ids t)
  obtain ⟨n, hn⟩ : ∃ n, arena[t.root]? = some n := ⟨_, List.getElem?_eq_getElem hroot⟩
  refine if_neg ?_
  rw [hn, Option.any_some, Option.isNone_iff_eq_none]
  exact h.root_child1 hn

end

/-! ## What the passes change of a node -/

/-- Canonicalising changes the children and the frequency of an internal node only, and takes no child away. -/
structure KeepsNode (n n' : HuffNode) : Prop where
  isLeaf : n'.isLeaf = n.isLeaf
  code : n'.code = n.code
  seq : n'.seq = n.seq
  leaf : n.isLeaf = true → n' = n
  child0 : n.child0.isSome = true → n'.child0.isSome = true
  child1 : n.child1.isSome = true → n'.child1.isSome = true

theorem KeepsNode.refl (n : HuffNode) : KeepsNode n n := ⟨rfl, rfl, rfl, fun _ => rfl, id, id⟩

theorem KeepsNode.trans {a b c : HuffNode} (h1 : KeepsNode a b) (h2 : KeepsNode b c) : KeepsNode a c where
  isLeaf := h2.isLeaf.trans h1.isLeaf
  code := h2.code.trans h1.code
  seq := h2.seq.trans h1.seq
  leaf h := (h2.leaf (h1.isLeaf.trans h)).trans (h1.leaf h)
  child0 h := h2.child0 (h1.child0 h)
  child1 h := h2.child1 (h1.child1 h)

/-- Each node of the one arena is kept in the other. -/
structure KeepsNodes (arena arena' : List HuffNode) : Prop where
  length : arena'.length = arena.length
  node : ∀ (i : Nat) (n : HuffNode), arena[i]? = some n → ∃ n', arena'[i]? = some n' ∧ KeepsNode n n'

theorem KeepsNodes.refl (arena : List HuffNode) : KeepsNodes arena arena := ⟨rfl, fun _ n hn => ⟨n, hn, KeepsNode.refl n⟩⟩

theorem KeepsNodes.trans {a b c : List HuffNode} (h1 : KeepsNodes a b) (h2 : KeepsNodes b c) : KeepsNodes a c where
  length := h2.length.trans h1.length
  node i n hn := by
    obtain ⟨m, hm, hk⟩ := h1.node i n hn
    obtain ⟨l, hl, hk'⟩ := h2.node i m hm
    exact ⟨l, hl, hk.trans hk'⟩

theorem KeepsNodes.sameLeaves {arena arena' : List HuffNode} (h : KeepsNodes arena arena') : SameLeaves arena arena' := by
  have hnode (i : Nat) : (arena[i]? = none ∧ arena'[i]? = none) ∨
      ∃ n n', arena[i]? = some n ∧ arena'[i]? = some n' ∧ KeepsNode n n' := by
    cases hi : arena[i]? with
    | none => exact .inl ⟨rfl, List.getElem?_eq_none_iff.2 (h.length ▸ List.getElem?_eq_none_iff.1 hi)⟩
    | some n =>
      obtain ⟨n', hn', hkeep⟩ := h.node i n hi
      exact .inr ⟨n, n', rfl, hn', hkeep⟩
  refine ⟨h.length, fun i => ?_, fun i => ?_⟩
  · rcases hnode i with ⟨hi, hi'⟩ | ⟨n, n', hi, hi', hkeep⟩
    · rw [isLeafAt, isLeafAt, hi, hi']
    · rw [isLeafAt_of_some hi, isLeafAt_of_some hi', hkeep.isLeaf]
  · rcases hnode i with ⟨hi, hi'⟩ | ⟨n, n', hi, hi', hkeep⟩
    · rw [hi, hi']
    · rw [hi, hi', Option.map_some, Option.map_some, hkeep.code]

theorem KeepsNodes.isLeafAt {arena arena' : List HuffNode} (h : KeepsNodes arena arena') (i : Nat) :
    isLeafAt arena' i = Machine.isLeafAt arena i := h.sameLeaves.isLeaf i

/-- A changed node that is no leaf. -/
theorem keepsNodes_modify {arena : List HuffNode} {i : Nat} (hi : isLeafAt arena i = false) {f : HuffNode → HuffNode}
    (hf : ∀ n, n.isLeaf = false → KeepsNode n (f n)) : KeepsNodes arena (arena.modify i f) := by
  refine ⟨List.length_modify .., fun j n hj => ?_⟩
  by_cases hij : i = j
  · subst hij
    refine ⟨f n, by simp [hj], hf n ?_⟩
    rw [← isLeafAt_of_some hj, hi]
  · exact ⟨n, by simp [hij, hj], KeepsNode.refl n⟩

theorem not_isLeafAt_of_mem_internalsOf {arena : List HuffNode} {level : List Nat} {i : Nat}
    (h : i ∈ internalsOf arena level) : isLeafAt arena i = false := by
  simpa using (List.mem_filter.1 h).2

theorem internalsOf_congr {arena arena' : List HuffNode} (h : ∀ i, isLeafAt arena' i = isLeafAt arena i)
    (level : List Nat) : internalsOf arena' level = internalsOf arena level := by
  rw [internalsOf, internalsOf, funext h]

theorem keepsNodes_rewireLevel {is next : List Nat} {arena : List HuffNode} (h : ∀ i ∈ is, isLeafAt arena i = false) :
    KeepsNodes arena (rewireLevel is next arena) := by
  induction is generalizing next arena with
  | nil => exact KeepsNodes.refl arena
  | cons i is ih =>
    match next with
    | [] | [_] => exact KeepsNodes.refl arena
    | c0 :: c1 :: cs =>
      have hkeep : KeepsNodes arena (arena.modify i fun n => { n with child0 := some c0, child1 := some c1 }) :=
        keepsNodes_modify (h i List.mem_cons_self) fun n hn =>
          ⟨rfl, rfl, rfl, fun hl => absurd (hn.symm.trans hl) Bool.false_ne_true, fun _ => rfl, fun _ => rfl⟩
      exact hkeep.trans (ih fun j hj => (hkeep.isLeafAt j).trans (h j (List.mem_cons_of_mem _ hj)))

theorem keepsNodes_rewireLevels {arena0 : List HuffNode} (levels : List (List Nat)) {arena : List HuffNode}
    (h : ∀ i, isLeafAt arena i = isLeafAt arena0 i) : KeepsNodes arena (rewireLevels arena0 levels arena) := by
  induction levels generalizing arena with
  | nil => exact KeepsNodes.refl arena
  | cons canon rest ih =>
    cases rest with
    | nil => exact KeepsNodes.refl arena
    | cons next rest =>
      have hkeep : KeepsNodes arena (rewireLevel (internalsOf arena0 canon) next arena) :=
        keepsNodes_rewireLevel fun i hi => (h i).trans (not_isLeafAt_of_mem_internalsOf hi)
      exact hkeep.trans (ih fun i => (hkeep.isLeafAt i).trans (h i))

theorem keepsNodes_foldl_resumNode {is : List Nat} {arena : List HuffNode} (h : ∀ i ∈ is, isLeafAt arena i = false) :
    KeepsNodes arena (is.foldl resumNode arena) := by
  induction is generalizing arena with
  | nil => exact KeepsNodes.refl arena
  | cons i is ih =>
    have hkeep : KeepsNodes arena (resumNode arena i) := keepsNodes_modify (h i List.mem_cons_self) fun n hn =>
      ⟨rfl, rfl, rfl, fun hl => absurd (hn.symm.trans hl) Bool.false_ne_true, id, id⟩
    exact hkeep.trans (ih fun j hj => (hkeep.isLeafAt j).trans (h j (List.mem_cons_of_mem _ hj)))

theorem keepsNodes_resumLevels (levels : List (List Nat)) (arena : List HuffNode) :
    KeepsNodes arena (resumLevels levels arena) := by
  induction levels with
  | nil => exact KeepsNodes.refl arena
  | cons canon rest ih => exact ih.trans (keepsNodes_foldl_resumNode fun _ hi => not_isLeafAt_of_mem_internalsOf hi)

/-! ## Frequencies summed anew (rule R207, pass 3) -/

theorem freqAt_resumNode_other (arena : List HuffNode) {i j : Nat} (h : i ≠ j) :
    freqAt (resumNode arena i) j = freqAt arena j := by
  simp [freqAt, resumNode, h]

theorem freqAt_resumNode_self {arena : List HuffNode} {i : Nat} (h : i < arena.length) :
    freqAt (resumNode arena i) i = ((childrenAt arena i).map (freqAt arena)).sum := by
  rw [freqAt, resumNode, List.getElem?_modify, childrenAt, List.getElem?_eq_getElem h]
  simp

/-- Re-summing nodes none of which is a child of another. -/
theorem freqAt_foldl_resumNode {is : List Nat} {arena : List HuffNode} (hn : is.Nodup) (hlt : ∀ i ∈ is, i < arena.length)
    (hchild : ∀ i ∈ is, ∀ j ∈ childrenAt arena i, j ∉ is) :
    (∀ j, j ∉ is → freqAt (is.foldl resumNode arena) j = freqAt arena j) ∧
      ∀ i ∈ is, freqAt (is.foldl resumNode arena) i = ((childrenAt arena i).map (freqAt arena)).sum := by
  induction is generalizing arena with
  | nil => exact ⟨fun _ _ => rfl, fun _ hi => absurd hi List.not_mem_nil⟩
  | cons i is ih =>
    obtain ⟨hi, hn⟩ := List.nodup_cons.1 hn
    obtain ⟨hsame, hch⟩ := resumNode_same arena i
    obtain ⟨hother, hself⟩ := ih (arena := resumNode arena i) hn
      (fun j hj => hsame.length ▸ hlt j (List.mem_cons_of_mem _ hj))
      fun j hj k hk hmem => hchild j (List.mem_cons_of_mem _ hj) k (hch j ▸ hk) (List.mem_cons_of_mem _ hmem)
    rw [List.foldl_cons]
    refine ⟨fun j hj => ?_, fun j hj => ?_⟩
    · obtain ⟨hji, hjs⟩ := not_or.1 (mt List.mem_cons.2 hj)
      rw [hother j hjs, freqAt_resumNode_other _ (Ne.symm hji)]
    · rcases List.mem_cons.1 hj with rfl | hj'
      · rw [hother j hi, freqAt_resumNode_self (hlt j List.mem_cons_self)]
      · rw [hself j hj', hch]
        refine congrArg List.sum (List.map_congr_left fun k hk => freqAt_resumNode_other _ fun he => ?_)
        exact hchild j hj k hk (he ▸ List.mem_cons_self)

/-- The frequency of node `i` is the sum of its children's. -/
def Summed (arena : List HuffNode) (i : Nat) : Prop := freqAt arena i = ((childrenAt arena i).map (freqAt arena)).sum

/-- The children of a level's internal nodes stand on a later level. -/
theorem linked_children_mem {arena : List HuffNode} {children : Nat → List Nat} {levels : List (List Nat)}
    (hlay : layered arena levels) (hl : linked arena children levels) :
    ∀ level ∈ levels, ∀ i ∈ internalsOf arena level, ∀ j ∈ children i, j ∈ levels.tail.flatten := by
  induction levels with
  | nil => exact fun level hlevel => absurd hlevel List.not_mem_nil
  | cons canon rest ih =>
    cases rest with
    | nil =>
      intro level hlevel i hi
      rw [List.mem_singleton.1 hlevel, show internalsOf arena canon = [] from hlay] at hi
      exact absurd hi List.not_mem_nil
    | cons next rest =>
      intro level hlevel i hi j hj
      rw [List.tail_cons, List.flatten_cons, List.mem_append]
      rcases List.mem_cons.1 hlevel with rfl | hlevel
      · exact .inl (hl.1 ▸ List.mem_flatMap.2 ⟨i, hi, hj⟩)
      · exact .inr (ih hlay.2.2 hl.2 level hlevel i hi j hj)

/-- After pass 3 every internal node of the levels has the sum of its children's frequencies. -/
theorem summed_resumLevels {arena0 : List HuffNode} {levels : List (List Nat)} {arena : List HuffNode}
    (hs : ∀ i, isLeafAt arena i = isLeafAt arena0 i) (hn : levels.flatten.Nodup) (hlay : layered arena0 levels)
    (hl : linked arena0 (childrenAt arena) levels) (hlt : ∀ i ∈ levels.flatten, i < arena.length) :
    ∀ level ∈ levels, ∀ i ∈ internalsOf arena0 level, Summed (resumLevels levels arena) i := by
  have hmem := linked_children_mem hlay hl
  induction levels with
  | nil => exact fun level hlevel => absurd hlevel List.not_mem_nil
  | cons canon rest ih =>
    rw [List.flatten_cons] at hn hlt
    obtain ⟨hnc, hnr, hdis⟩ := List.nodup_append.1 hn
    have hrest : linked arena0 (childrenAt arena) rest := by
      cases rest with
      | nil => trivial
      | cons next rest => exact hl.2
    have hbelow := keepsNodes_resumLevels rest arena
    have hints : internalsOf (resumLevels rest arena) canon = internalsOf arena0 canon :=
      internalsOf_congr (fun i => (hbelow.isLeafAt i).trans (hs i)) canon
    have hch := (resumLevels_same rest arena).2
    have hch' := (resumLevels_same (canon :: rest) arena).2
    have hnot {j : Nat} (hj : j ∈ rest.flatten) : j ∉ internalsOf arena0 canon := fun hj' =>
      hdis j (List.mem_filter.1 hj').1 j hj rfl
    obtain ⟨hother, hself⟩ := freqAt_foldl_resumNode (is := internalsOf arena0 canon) (arena := resumLevels rest arena)
      (hnc.filter _) (fun i hi => hbelow.length ▸ hlt i (List.mem_append_left _ (List.mem_filter.1 hi).1))
      fun i hi j hj => hnot (hmem canon List.mem_cons_self i hi j (hch i ▸ hj))
    have hall : (internalsOf arena0 canon).foldl resumNode (resumLevels rest arena) = resumLevels (canon :: rest) arena := by
      rw [resumLevels, hints]
    rw [hall] at hother hself
    intro level hlevel i hi
    have hsame : ((childrenAt arena i).map (freqAt (resumLevels (canon :: rest) arena))).sum =
        ((childrenAt arena i).map (freqAt (resumLevels rest arena))).sum :=
      congrArg List.sum (List.map_congr_left fun j hj => hother j (hnot (hmem level hlevel i hi j hj)))
    rw [Summed, hch', hsame]
    rcases List.mem_cons.1 hlevel with rfl | hlevel'
    · rw [hself i hi, hch]
    · have hi' : i ∈ rest.flatten := List.mem_flatten.2 ⟨level, hlevel', (List.mem_filter.1 hi).1⟩
      rw [hother i (hnot hi')]
      have := ih hnr (layered_tail hlay) hrest (fun j hj => hlt j (List.mem_append_right _ hj))
        (linked_children_mem (layered_tail hlay) hrest) level hlevel' i hi
      rwa [Summed, hch] at this

/-! ## What `canonicalise` leaves of a merge tree -/

theorem sum_filter_add_sum_filter_not {α : Type} (p : α → Bool) (g : α → Nat) (l : List α) :
    (l.map g).sum = ((l.filter p).map g).sum + ((l.filter fun x => !p x).map g).sum := by
  rw [← List.sum_append, ← List.map_append]
  exact (((List.filter_append_perm p l).map g).sum_eq).symm

theorem sum_flatMap {α : Type} (f : α → List Nat) (g : Nat → Nat) (l : List α) :
    ((l.flatMap f).map g).sum = (l.map fun x => ((f x).map g).sum).sum := by
  rw [List.map_flatMap, List.flatMap_def, List.sum_flatten, List.map_map]
  rfl

/-- The frequencies of a level add up to the same in an arena with the same leaves, linked along the same levels. -/
theorem sum_level_eq {arena arena' : List HuffNode} {level : List Nat} {rest : List (List Nat)}
    (hleaf : ∀ i, isLeafAt arena i = true → freqAt arena' i = freqAt arena i) (hlay : layered arena (level :: rest))
    (hl : linked arena (childrenAt arena') (level :: rest))
    (hsum : ∀ l ∈ level :: rest, ∀ i ∈ internalsOf arena l, Summed arena i ∧ Summed arena' i) :
    (level.map (freqAt arena')).sum = (level.map (freqAt arena)).sum := by
  induction rest generalizing level with
  | nil =>
    refine congrArg List.sum (List.map_congr_left fun i hi => hleaf i ?_)
    simpa using List.filter_eq_nil_iff.1 (show internalsOf arena level = [] from hlay) i hi
  | cons next rest ih =>
    obtain ⟨_, hnext, hlay⟩ := hlay
    obtain ⟨hlink, hl⟩ := hl
    have hnextsum := ih hlay hl fun l hmem => hsum l (List.mem_cons_of_mem _ hmem)
    have hchildren {a : List HuffNode} (ha : ∀ i ∈ internalsOf arena level, Summed a i) :
        ((internalsOf arena level).map (freqAt a)).sum =
          (((internalsOf arena level).flatMap (childrenAt a)).map (freqAt a)).sum := by
      rw [sum_flatMap]
      exact congrArg List.sum (List.map_congr_left ha)
    have hperm : next.Perm ((internalsOf arena level).flatMap (childrenAt arena)) := hnext ▸ List.filter_append_perm _ _
    have hints : ((internalsOf arena level).map (freqAt arena')).sum = ((internalsOf arena level).map (freqAt arena)).sum :=
      calc ((internalsOf arena level).map (freqAt arena')).sum
          = (next.map (freqAt arena')).sum := by
            rw [hchildren fun i hi => (hsum level List.mem_cons_self i hi).2, hlink]
        _ = (next.map (freqAt arena)).sum := hnextsum
        _ = ((internalsOf arena level).map (freqAt arena)).sum := by
            rw [hchildren fun i hi => (hsum level List.mem_cons_self i hi).1, (hperm.map _).sum_eq]
    have hleaves : ((level.filter (isLeafAt arena)).map (freqAt arena')).sum =
        ((level.filter (isLeafAt arena)).map (freqAt arena)).sum :=
      congrArg List.sum (List.map_congr_left fun i hi => hleaf i (List.mem_filter.1 hi).2)
    rw [sum_filter_add_sum_filter_not (isLeafAt arena) (freqAt arena'),
      sum_filter_add_sum_filter_not (isLeafAt arena) (freqAt arena), hleaves]
    exact congrArg _ hints

/-- The arena `canonicalise` leaves of a merge tree. -/
structure Canonical (arena : List HuffNode) (t : HTree) (arena' : List HuffNode) : Prop where
  keeps : KeepsNodes arena arena'
  linked : linked arena (childrenAt arena') (levelsFrom arena t.root)
  summed : ∀ level ∈ levelsFrom arena t.root, ∀ i ∈ internalsOf arena level, Summed arena' i

theorem MergeTree.canonical {arena : List HuffNode} {t : HTree} (h : MergeTree arena t) :
    Canonical arena t (canonTree (arena, some t.root)) := by
  have hrewire : KeepsNodes arena (rewireLevels arena (levelsFrom arena t.root) arena) :=
    keepsNodes_rewireLevels _ fun _ => rfl
  obtain ⟨_, hlink, _⟩ := rewireLevels_spec h.levels_nodup h.paired h.levels_lt
  rw [h.canonTree_eq]
  refine ⟨hrewire.trans (keepsNodes_resumLevels _ _), linked_congr (fun j _ => (resumLevels_same _ _).2 j) hlink, ?_⟩
  exact summed_resumLevels hrewire.isLeafAt h.levels_nodup h.layered hlink fun i hi => hrewire.length ▸ h.levels_lt i hi

/-- Node `i` has two children. -/
def TwoChildren (arena : List HuffNode) (i : Nat) : Prop :=
  ∃ n a b, arena[i]? = some n ∧ n.child0 = some a ∧ n.child1 = some b

theorem modify_eq_self {arena : List HuffNode} {i : Nat} {n : HuffNode} {f : HuffNode → HuffNode}
    (hi : arena[i]? = some n) (hf : f n = n) : arena.modify i f = arena := by
  refine List.ext_getElem? fun j => ?_
  by_cases hij : i = j
  · subst hij
    simp [hi, hf]
  · simp [hij]

theorem rewireLevel_eq_self {is next : List Nat} {arena : List HuffNode} (hl : is.flatMap (childrenAt arena) = next)
    (h2 : ∀ i ∈ is, TwoChildren arena i) : rewireLevel is next arena = arena := by
  induction is generalizing next with
  | nil => rfl
  | cons i is ih =>
    obtain ⟨n, a, b, hn, h0, h1⟩ := h2 i List.mem_cons_self
    rw [List.flatMap_cons, childrenAt_of_some hn, children_of_some h0 h1] at hl
    subst hl
    rw [List.cons_append, List.cons_append, rewireLevel, modify_eq_self hn (by rw [← h0, ← h1])]
    exact ih rfl fun j hj => h2 j (List.mem_cons_of_mem _ hj)

theorem rewireLevels_eq_self {arena0 arena1 arena : List HuffNode} {levels : List (List Nat)}
    (hs : ∀ level, internalsOf arena1 level = internalsOf arena0 level) (hl : linked arena0 (childrenAt arena) levels)
    (h2 : ∀ level ∈ levels, ∀ i ∈ internalsOf arena0 level, TwoChildren arena i) :
    rewireLevels arena1 levels arena = arena := by
  induction levels with
  | nil => rfl
  | cons canon rest ih =>
    cases rest with
    | nil => rfl
    | cons next rest =>
      rw [rewireLevels, hs, rewireLevel_eq_self hl.1 (h2 canon List.mem_cons_self)]
      exact ih hl.2 fun level hlevel => h2 level (List.mem_cons_of_mem _ hlevel)

theorem resumNode_eq_self {arena : List HuffNode} {i : Nat} (h : Summed arena i) : resumNode arena i = arena := by
  cases hi : arena[i]? with
  | none => exact List.modify_eq_self (List.getElem?_eq_none_iff.1 hi)
  | some n =>
    rw [Summed, freqAt_of_some hi, childrenAt_of_some hi] at h
    exact modify_eq_self hi (by rw [← h])

theorem resumLevels_eq_self {arena : List HuffNode} {levels : List (List Nat)}
    (h : ∀ level ∈ levels, ∀ i ∈ internalsOf arena level, Summed arena i) : resumLevels levels arena = arena := by
  induction levels with
  | nil => rfl
  | cons canon rest ih =>
    have hfold {is : List Nat} (his : ∀ i ∈ is, Summed arena i) : is.foldl resumNode arena = arena := by
      induction is with
      | nil => rfl
      | cons i is ihis =>
        rw [List.foldl_cons, resumNode_eq_self (his i List.mem_cons_self)]
        exact ihis fun j hj => his j (List.mem_cons_of_mem _ hj)
    rw [resumLevels, ih fun level hlevel => h level (List.mem_cons_of_mem _ hlevel)]
    exact hfold (h canon List.mem_cons_self)

section
variable {arena arena' : List HuffNode} {t : HTree}

/-- Every internal node is an internal node of a level. -/
theorem MergeTree.exists_level (h : MergeTree arena t) {i : Nat} {n : HuffNode} (hi : arena[i]? = some n)
    (hn : n.isLeaf = false) : ∃ level ∈ levelsFrom arena t.root, i ∈ internalsOf arena level := by
  have hlt := (List.getElem?_eq_some_iff.1 hi).1
  obtain ⟨level, hlevel, hmem⟩ := List.mem_flatten.1 (h.levels_perm.mem_iff.2 (List.mem_range.2 hlt))
  refine ⟨level, hlevel, List.mem_filter.2 ⟨hmem, ?_⟩⟩
  rw [isLeafAt_of_some hi, hn]
  rfl

theorem MergeTree.mem_internalsOf (h : MergeTree arena t) {level : List Nat} (hlevel : level ∈ levelsFrom arena t.root)
    {i : Nat} (hi : i ∈ internalsOf arena level) : ∃ n, arena[i]? = some n ∧ n.isLeaf = false := by
  have hlt := h.levels_lt i (List.mem_flatten.2 ⟨level, hlevel, (List.mem_filter.1 hi).1⟩)
  refine ⟨arena[i], List.getElem?_eq_getElem hlt, ?_⟩
  rw [← isLeafAt_of_some (List.getElem?_eq_getElem hlt), not_isLeafAt_of_mem_internalsOf hi]

theorem MergeTree.summed (h : MergeTree arena t) {level : List Nat} (hlevel : level ∈ levelsFrom arena t.root)
    {i : Nat} (hi : i ∈ internalsOf arena level) : Summed arena i := by
  obtain ⟨n, hn, hinner⟩ := h.mem_internalsOf hlevel hi
  obtain ⟨a, b, h0, h1, hfreq⟩ := h.node i n hn hinner
  rw [Summed, freqAt_of_some hn, childrenAt_of_some hn, children_of_some h0 h1, hfreq]
  simp

theorem Canonical.twoChildren (hc : Canonical arena t arena') (h : MergeTree arena t) {level : List Nat}
    (hlevel : level ∈ levelsFrom arena t.root) {i : Nat} (hi : i ∈ internalsOf arena level) : TwoChildren arena' i := by
  obtain ⟨n, hn, hinner⟩ := h.mem_internalsOf hlevel hi
  obtain ⟨a, b, h0, h1, _⟩ := h.node i n hn hinner
  obtain ⟨n', hn', hkeep⟩ := hc.keeps.node i n hn
  obtain ⟨a', ha'⟩ := Option.isSome_iff_exists.1 (hkeep.child0 (by rw [h0]; rfl))
  obtain ⟨b', hb'⟩ := Option.isSome_iff_exists.1 (hkeep.child1 (by rw [h1]; rfl))
  exact ⟨n', a', b', hn', ha', hb'⟩

/-- The canonical arena has the levels of the merge tree. -/
theorem Canonical.levels_eq (hc : Canonical arena t arena') : levelsFrom arena' t.root = levelsFrom arena t.root := by
  rw [levelsFrom, levelsFrom, hc.keeps.length]
  exact canonLevels_of_linked hc.keeps.isLeafAt _ rfl hc.linked

theorem Canonical.child1_isSome (hc : Canonical arena t arena') (h : MergeTree arena t) :
    (arena'[t.root]?).any (fun n => n.child1.isNone) = false := by
  have hzero := h.levels_zero
  obtain ⟨n, a, b, hn, _, h1⟩ := hc.twoChildren h (List.mem_of_getElem? hzero) (i := t.root)
    (List.mem_filter.2 ⟨List.mem_singleton_self _, by rw [held_isLeaf h.held, h.inner]; rfl⟩)
  rw [hn, Option.any_some, h1]
  rfl

/-- Done twice, `canonicalise` is done once. -/
theorem Canonical.canonTree_eq_self (hc : Canonical arena t arena') (h : MergeTree arena t) :
    canonTree (arena', some t.root) = arena' := by
  have hints := internalsOf_congr hc.keeps.isLeafAt
  have hcanon : canonTree (arena', some t.root) =
      resumLevels (levelsFrom arena' t.root) (rewireLevels arena' (levelsFrom arena' t.root) arena') :=
    if_neg (by rw [hc.child1_isSome h]; exact Bool.false_ne_true)
  rw [hcanon, hc.levels_eq, rewireLevels_eq_self hints hc.linked fun level hlevel i hi => hc.twoChildren h hlevel hi,
    resumLevels_eq_self fun level hlevel i hi => hc.summed level hlevel i (hints level ▸ hi)]

/-- The root weighs what it weighed. -/
theorem Canonical.freqAt_root (hc : Canonical arena t arena') (h : MergeTree arena t) :
    freqAt arena' t.root = freqAt arena t.root := by
  obtain ⟨rest, hrest⟩ := h.levels_cons
  have hleaf : ∀ i, isLeafAt arena i = true → freqAt arena' i = freqAt arena i := fun i hi => by
    obtain ⟨n, hn⟩ : ∃ n, arena[i]? = some n := ⟨_, List.getElem?_eq_getElem (isLeafAt_lt hi)⟩
    obtain ⟨n', hn', hkeep⟩ := hc.keeps.node i n hn
    rw [freqAt_of_some hn', freqAt_of_some hn, hkeep.leaf (isLeafAt_of_some hn ▸ hi)]
  have hlay := h.layered
  have hlink := hc.linked
  have hsum : ∀ l ∈ levelsFrom arena t.root, ∀ i ∈ internalsOf arena l, Summed arena i ∧ Summed arena' i :=
    fun l hl i hi => ⟨h.summed hl hi, hc.summed l hl i hi⟩
  rw [hrest] at hlay hlink hsum
  simpa using sum_level_eq hleaf hlay hlink hsum

/-- The symbols of each level are kept, in order. -/
theorem Canonical.leafLevels_eq (hc : Canonical arena t arena') :
    leafLevels (arena', some t.root) = leafLevels (arena, some t.root) := by
  have hleaf : isLeafAt arena' = isLeafAt arena := funext hc.keeps.isLeafAt
  have hcode (i : Nat) : (arena'[i]?).map HuffNode.code = (arena[i]?).map HuffNode.code := hc.keeps.sameLeaves.code i
  have hlevels := hc.levels_eq
  simp only [levelsFrom] at hlevels
  simp only [leafLevels, hlevels, hleaf, hcode]

end

/-- A list of pairs laid end to end. -/
theorem flatMap_getElem?_of_two {f : Nat → List Nat} {is : List Nat} (h2 : ∀ i ∈ is, ∃ a b, f i = [a, b]) {k i a b : Nat}
    (hk : is[k]? = some i) (hi : f i = [a, b]) :
    (is.flatMap f)[2 * k]? = some a ∧ (is.flatMap f)[2 * k + 1]? = some b := by
  induction is generalizing k with
  | nil => cases hk
  | cons j is ih =>
    obtain ⟨c, d, hj⟩ := h2 j List.mem_cons_self
    rw [List.flatMap_cons, hj]
    cases k with
    | zero =>
      obtain rfl : j = i := Option.some.inj hk
      obtain ⟨rfl, hrest⟩ := List.cons.inj (hj.symm.trans hi)
      obtain rfl := List.cons.inj hrest |>.1
      exact ⟨rfl, rfl⟩
    | succ k => exact ih (fun i hi => h2 i (List.mem_cons_of_mem _ hi)) hk

/-- On a level in canonical order no internal node stands before a leaf. -/
theorem stablePartition_leaf {arena : List HuffNode} {level : List Nat} {k a b : Nat}
    (ha : (stablePartition arena level)[k]? = some a) (hb : (stablePartition arena level)[k + 1]? = some b)
    (hleaf : isLeafAt arena b = true) : isLeafAt arena a = true := by
  rw [stablePartition, List.getElem?_append] at ha hb
  split at hb
  · rw [if_pos (by omega)] at ha
    exact (List.mem_filter.1 (List.mem_of_getElem? ha)).2
  · have := (List.mem_filter.1 (List.mem_of_getElem? hb)).2
    rw [hleaf] at this
    cases this

section
variable {arena arena' : List HuffNode} {t : HTree}

/-- The `k`-th internal node of a level gets the nodes `2k` and `2k + 1` of the next (rule R207, pass 2). -/
theorem Canonical.children_eq (hc : Canonical arena t arena') (h : MergeTree arena t) {d k i : Nat} {level next : List Nat}
    (hd : (levelsFrom arena t.root)[d]? = some level) (hn : (levelsFrom arena t.root)[d + 1]? = some next)
    (hk : (internalsOf arena level)[k]? = some i) :
    ∃ n a b, arena'[i]? = some n ∧ n.child0 = some a ∧ n.child1 = some b ∧ next[2 * k]? = some a ∧
      next[2 * k + 1]? = some b := by
  have htwo {j : Nat} (hj : j ∈ internalsOf arena level) : TwoChildren arena' j :=
    hc.twoChildren h (List.mem_of_getElem? hd) hj
  have hpair : ∀ j ∈ internalsOf arena level, ∃ a b, childrenAt arena' j = [a, b] := fun j hj => by
    obtain ⟨n, a, b, hn, h0, h1⟩ := htwo hj
    exact ⟨a, b, by rw [childrenAt_of_some hn, children_of_some h0 h1]⟩
  obtain ⟨n, a, b, hi, h0, h1⟩ := htwo (List.mem_of_getElem? hk)
  have hnext := flatMap_getElem?_of_two hpair hk (by rw [childrenAt_of_some hi, children_of_some h0 h1])
  rw [linked_getElem? hc.linked hd hn] at hnext
  exact ⟨n, a, b, hi, h0, h1, hnext⟩

theorem MergeTree.next_level (h : MergeTree arena t) {d : Nat} {level : List Nat}
    (hd : (levelsFrom arena t.root)[d]? = some level) :
    ((levelsFrom arena t.root)[d + 1]? = none ↔ internalsOf arena level = []) ∧
      ∀ next, (levelsFrom arena t.root)[d + 1]? = some next → next = nextLevel arena level := by
  rw [layered_getElem? h.layered hd]
  by_cases hlast : internalsOf arena level = []
  · rw [if_pos hlast]
    exact ⟨⟨fun _ => hlast, fun _ => rfl⟩, fun next hnext => absurd hnext (Option.some_ne_none next).symm⟩
  · rw [if_neg hlast]
    exact ⟨⟨fun hnone => absurd hnone (Option.some_ne_none _), fun h => absurd h hlast⟩,
      fun next hnext => (Option.some.inj hnext).symm⟩

/-- Each level has two nodes for each internal node of the level above. -/
theorem MergeTree.nextLevel_length (h : MergeTree arena t) {level : List Nat} (hlevel : level ∈ levelsFrom arena t.root) :
    (nextLevel arena level).length = 2 * (internalsOf arena level).length := by
  have htwo : ((internalsOf arena level).map fun i => (childrenAt arena i).length) =
      List.replicate (internalsOf arena level).length 2 := by
    refine (List.map_congr_left fun i hi => ?_).trans List.map_const'
    obtain ⟨n, hn, hinner⟩ := h.mem_internalsOf hlevel hi
    obtain ⟨a, b, h0, h1, _⟩ := h.node i n hn hinner
    rw [childrenAt_of_some hn, children_of_some h0 h1]
    rfl
  have hperm : (nextLevel arena level).Perm ((internalsOf arena level).flatMap (childrenAt arena)) :=
    List.filter_append_perm _ _
  rw [hperm.length_eq, List.length_flatMap, htwo, List.sum_replicate, smul_eq_mul, Nat.mul_comm]

/-- An internal node of the canonical arena weighs what its children weigh, and its leaf comes first. -/
theorem Canonical.children_sum (hc : Canonical arena t arena') (h : MergeTree arena t) {n : HuffNode} {c0 c1 : Nat}
    (hn : n ∈ arena') (h0 : n.child0 = some c0) (h1 : n.child1 = some c1) :
    n.frequency = freqAt arena' c0 + freqAt arena' c1 ∧ (isLeafAt arena' c1 = true → isLeafAt arena' c0 = true) := by
  obtain ⟨i, hi⟩ := List.mem_iff_getElem?.1 hn
  obtain ⟨m, hm⟩ : ∃ m, arena[i]? = some m :=
    ⟨_, List.getElem?_eq_getElem (hc.keeps.length ▸ (List.getElem?_eq_some_iff.1 hi).1)⟩
  obtain ⟨n', hn', hkeep⟩ := hc.keeps.node i m hm
  obtain rfl : n = n' := Option.some.inj (hi.symm.trans hn')
  have hinner : m.isLeaf = false := by
    by_contra hleaf
    have hleaf : m.isLeaf = true := by simpa using hleaf
    have hnone := (h.leaf i m hm hleaf).1
    rw [← hkeep.leaf hleaf, h0] at hnone
    cases hnone
  obtain ⟨level, hlevel, hint⟩ := h.exists_level hm hinner
  obtain ⟨d, hd⟩ := List.mem_iff_getElem?.1 hlevel
  obtain ⟨k, hk⟩ := List.mem_iff_getElem?.1 hint
  refine ⟨?_, fun hleaf => ?_⟩
  · have hsum := hc.summed level hlevel i hint
    rw [Summed, freqAt_of_some hi, childrenAt_of_some hi, children_of_some h0 h1] at hsum
    simpa using hsum
  · have hne : internalsOf arena level ≠ [] := List.ne_nil_of_mem hint
    have hsucc := layered_getElem? h.layered hd
    rw [if_neg hne] at hsucc
    obtain ⟨n', a, b, hi', ha, hb, hka, hkb⟩ := hc.children_eq h hd hsucc hk
    obtain rfl : n = n' := Option.some.inj (hi.symm.trans hi')
    obtain rfl : c0 = a := Option.some.inj (h0.symm.trans ha)
    obtain rfl : c1 = b := Option.some.inj (h1.symm.trans hb)
    rw [hc.keeps.isLeafAt] at hleaf ⊢
    exact stablePartition_leaf hka hkb hleaf

end

/-! ## The instruction -/

/-- The one-symbol tree, and no tree, `canonicalise` leaves as they are (rule R209). -/
theorem canonTree_mergeLeaves_of_lt_two {w : SymWidth} {F : List Nat} (h : ¬ 2 ≤ (leavesOf w F).length) :
    canonTree (mergeLeaves (leavesOf w F)) = (mergeLeaves (leavesOf w F)).1 ∧
      ∀ n ∈ (mergeLeaves (leavesOf w F)).1, n.child1 = none := by
  rcases leavesOf_cases w F with hnil | ⟨leaf, hone⟩ | h2
  · rw [hnil]
    exact ⟨rfl, fun n hn => absurd hn List.not_mem_nil⟩
  · obtain ⟨x, _, rfl⟩ := leavesOf_eq_some (w := w) (F := F) (j := 0) (n := leaf) (by rw [hone]; rfl)
    rw [mergeLeaves_single hone]
    refine ⟨rfl, fun n hn => ?_⟩
    simp only [List.mem_cons, List.not_mem_nil, or_false] at hn
    rcases hn with rfl | rfl <;> rfl
  · exact absurd h2 h

/-- Settles O34: the levels of the merge tree are linked by the children the nodes get, and the frequencies are summed
along them; of a tree of one leaf or none nothing changes. -/
theorem canonicaliseKeepsLeaves : Obligations.CanonicaliseKeepsLeaves := by
  intro s F htree
  by_cases h2 : 2 ≤ (leavesOf s.call.hw F).length
  · obtain ⟨t, ht⟩ := mergeLeaves_grown h2
    have hroot : s.call.hroot = some t.root := (congrArg Prod.snd htree).trans ht.root
    have h : MergeTree s.call.hnode t := by
      have hmerge := ht.mergeTree h2
      rwa [← htree] at hmerge
    have hcanon : canonicalise s = s.withCall { s.call with hnode := canonTree (s.call.hnode, some t.root) } := by
      rw [← hroot]
      rfl
    have hc := h.canonical
    generalize canonTree (s.call.hnode, some t.root) = arena' at hcanon hc
    have htreeof : (s.withCall { s.call with hnode := arena' }).tree = (arena', some t.root) := congrArg _ hroot
    have hbefore : s.tree = (s.call.hnode, some t.root) := congrArg _ hroot
    have hlevels : leafLevels (s.withCall { s.call with hnode := arena' }).tree = leafLevels s.tree := by
      rw [htreeof, hbefore, hc.leafLevels_eq]
    refine ⟨_, congrArg Host.Outcome.next hcanon, rfl, hc.keeps.length, fun i n hn => ?_, hlevels,
      fun n c0 c1 hn h0 h1 => hc.children_sum h hn h0 h1, fun hnone => ?_, fun r n hr hn h1 => ?_, fun r n hr _ _ => ?_, ?_⟩
    · obtain ⟨n', hn', hkeep⟩ := hc.keeps.node i n hn
      refine ⟨n', hn', hkeep.isLeaf, hkeep.code, hkeep.seq, hkeep.leaf, fun hi => ?_⟩
      obtain rfl : t.root = i := Option.some.inj (hroot.symm.trans hi)
      rw [← freqAt_of_some hn', hc.freqAt_root h, freqAt_of_some hn]
    · rw [hroot] at hnone
      cases hnone
    · obtain rfl : t.root = r := Option.some.inj (hroot.symm.trans hr)
      exact absurd h1 (h.root_child1 hn)
    · obtain rfl : t.root = r := Option.some.inj (hroot.symm.trans hr)
      refine ⟨levelsFrom s.call.hnode t.root, h.levels_zero, h.levels_perm, fun d level hd => ?_,
        fun d level next hd hnext => ?_, ?_⟩
      · exact (h.next_level hd).1
      · have hnexteq := (h.next_level hd).2 next hnext
        refine ⟨hnexteq, ?_, fun k i hk => ?_⟩
        · rw [hnexteq]
          exact h.nextLevel_length (List.mem_of_getElem? hd)
        · obtain ⟨n', a, b, hi, h0, h1, hka, hkb⟩ := hc.children_eq h hd hnext hk
          exact ⟨n', hi, h0.trans hka.symm, h1.trans hkb.symm⟩
      · rw [hlevels, hbefore]
        rfl
    · have hfix : canonTree (s.withCall { s.call with hnode := arena' }).tree = arena' := by
        rw [htreeof, hc.canonTree_eq_self h]
      exact congrArg (fun a => Host.Outcome.next (s.withCall { s.call with hnode := a })) hfix
  · obtain ⟨hfix, hno⟩ := canonTree_mergeLeaves_of_lt_two h2
    rw [← htree] at hfix hno
    have hself : canonicalise s = s := congrArg (fun a => s.withCall { s.call with hnode := a }) hfix
    refine ⟨s, congrArg Host.Outcome.next hself, rfl, rfl,
      fun i n hn => ⟨n, hn, rfl, rfl, rfl, fun _ => rfl, fun _ => rfl⟩, rfl, fun n c0 c1 hn _ h1 => ?_, fun _ => rfl,
      fun _ _ _ _ _ => rfl, fun r n _ hn h1 => ?_, congrArg Host.Outcome.next hself⟩
    · rw [hno n hn] at h1
      cases h1
    · rw [hno n (List.mem_of_getElem? hn)] at h1
      cases h1

end Sys2Proof.Machine
end

section
/-! PROOF. The table built for any counts: obligation O36. Each level of the merge tree has two places for each internal
node above it, so its leaves leave no place free; and no more symbols than the alphabet has means that every count can be
said in a byte. -/

namespace Sys2Proof.Machine

/-! ## Complete tables (rules R211, R214) -/

/-- The places of a level of which none is left free are no more than the symbols from that level on. -/
theorem slots_le_sum {slots : Nat} {counts : List Nat} (h : slotsLeft slots counts = some 0) : slots ≤ counts.sum := by
  induction counts generalizing slots with
  | nil => exact (Option.some.inj h).le
  | cons c cs ih =>
    obtain ⟨hc, h⟩ := slotsLeft_cons h
    have := ih h
    rw [List.sum_cons]
    omega

theorem slotsLeft_append_zeros {slots : Nat} {counts : List Nat} (h : slotsLeft slots counts = some 0) (k : Nat) :
    slotsLeft slots (counts ++ List.replicate k 0) = some 0 := by
  induction counts generalizing slots with
  | nil =>
    obtain rfl : slots = 0 := Option.some.inj h
    induction k with
    | zero => rfl
    | succ k ih => exact ih
  | cons c cs ih =>
    obtain ⟨hc, h⟩ := slotsLeft_cons h
    rw [List.cons_append, slotsLeft_of_le (Nat.not_lt.2 hc)]
    exact ih h

/-- A count byte says the count of a level: it is below 256, or all 256 symbols of the alphabet stand on level 8; and
level 8 is not empty where all its places are free (rule R211). -/
theorem levelCount_mod {w : SymWidth} {d slots len : Nat} (hle : len ≤ alphabet w)
    (hall : len = 256 → d = 8 ∧ slots = 256) (hnone : slots = 256 → d = 8 → len ≠ 0) :
    levelCount w d slots (len % 256) = len := by
  have h256 := alphabet_le w
  by_cases hlen : len = 256
  · obtain ⟨rfl, rfl⟩ := hall hlen
    subst hlen
    cases w with
    | w8 => rfl
    | raw => exact absurd hle (by decide)
    | w4 => exact absurd hle (by decide)
  · rw [Nat.mod_eq_of_lt (by omega), levelCount, if_neg]
    rintro ⟨_, hd, hzero, hslots⟩
    exact hnone hslots hd hzero

/-- The levels of a complete table of no more symbols than the alphabet has are well formed: `before` symbols stand on the
levels above, and where there is none all places of the level are free. -/
theorem treeLevelsWf_of_complete {w : SymWidth} {d slots before : Nat} {levels : List (List Byte)}
    (hfull : slotsLeft slots (levels.map List.length) = some 0) (hle : before + levels.flatten.length ≤ alphabet w)
    (hfree : before = 0 → slots = 2 ^ d) (hsyms : ∀ l ∈ levels, ∀ s ∈ l, s.toNat < 2 ^ symBits w) :
    treeLevelsWf w d slots levels = true := by
  induction levels generalizing d slots before with
  | nil => rfl
  | cons l ls ih =>
    obtain ⟨hl, hls⟩ := List.forall_mem_cons.1 hsyms
    rw [List.map_cons] at hfull
    obtain ⟨hc, hfull⟩ := slotsLeft_cons hfull
    have hrest := slots_le_sum hfull
    rw [← List.length_flatten] at hrest
    rw [List.flatten_cons, List.length_append] at hle
    have h256 := alphabet_le w
    have hcount : levelCount w d slots (l.length % 256) = l.length := by
      refine levelCount_mod (by omega) (fun hall => ?_) fun hslots _ => by omega
      have hslots : slots = 256 := by omega
      exact ⟨Nat.pow_right_injective (le_refl 2) ((hfree (by omega)).symm.trans hslots), hslots⟩
    have htail : treeLevelsWf w (d + 1) (2 * (slots - l.length)) ls = true := by
      refine ih (before := before + l.length) hfull (by omega) (fun hzero => ?_) hls
      rw [hfree (by omega), Nat.pow_succ]
      omega
    simp only [treeLevelsWf, hcount, htail, decide_true, Bool.true_and, Bool.and_true, List.all_eq_true, decide_eq_true_eq]
    exact hl

/-! ## The levels of the merge tree -/

/-- The leaves of the levels below a level fill the two places under each of its internal nodes. -/
theorem slotsLeft_layered {arena : List HuffNode} {level : List Nat} {rest : List (List Nat)}
    (hlay : layered arena (level :: rest))
    (htwo : ∀ l ∈ level :: rest, (nextLevel arena l).length = 2 * (internalsOf arena l).length) :
    slotsLeft (2 * (internalsOf arena level).length) (rest.map fun l => (l.filter (isLeafAt arena)).length) = some 0 := by
  induction rest generalizing level with
  | nil => rw [show internalsOf arena level = [] from hlay]; rfl
  | cons next rest ih =>
    obtain ⟨_, hnext, hlay⟩ := hlay
    have hrest := ih hlay fun l hl => htwo l (List.mem_cons_of_mem _ hl)
    have hlen := htwo level List.mem_cons_self
    rw [← hnext] at hlen
    have hsplit : next.length = (next.filter (isLeafAt arena)).length + (internalsOf arena next).length :=
      List.length_eq_length_filter_add _
    rw [List.map_cons, slotsLeft_of_le (by omega)]
    convert hrest using 2
    omega

theorem treeLevels_length_le {h : Nat} (fuel : Nat) {ts : List HTree} (hts : ∀ t ∈ ts, t.height ≤ h) :
    (treeLevels fuel ts).length ≤ h + 1 := by
  induction fuel generalizing h ts with
  | zero => exact Nat.zero_le _
  | succ fuel ih =>
    rw [treeLevels, List.length_cons]
    split
    · exact Nat.succ_le_succ (Nat.zero_le h)
    · rename_i hne
      obtain ⟨t, ht⟩ := List.exists_mem_of_ne_nil _ (mt List.isEmpty_iff.2 hne)
      obtain ⟨hmem, hinner⟩ := List.mem_filter.1 ht
      have hpos : 0 < t.height := by
        cases t with
        | leaf i => cases hinner
        | node i l r => exact Nat.add_pos_left Nat.one_pos _
      have htop := hts t hmem
      refine Nat.succ_le_succ ((ih (h := h - 1) fun u hu => ?_).trans (by omega))
      obtain ⟨v, hv, huv⟩ := List.mem_flatMap.1 hu
      have := hts v (List.mem_filter.1 hv).1
      have := height_lt_of_mem_kids huv
      omega

/-- The symbol a node of the arena stands for. -/
def symbolAt (arena : List HuffNode) (i : Nat) : Byte := BitVec.ofNat 8 (((arena[i]?).map HuffNode.code).getD 0)

theorem leafLevels_eq (arena : List HuffNode) (root : Nat) : leafLevels (arena, some root) =
    ((levelsFrom arena root).drop 1).map fun level => (level.filter (isLeafAt arena)).map (symbolAt arena) := rfl

/-- The levels below the root hold all leaves of the arena. -/
theorem MergeTree.leafLevels_perm {arena : List HuffNode} {t : HTree} (h : MergeTree arena t) :
    (leafLevels (arena, some t.root)).flatten.Perm
      (((List.range arena.length).filter (isLeafAt arena)).map (symbolAt arena)) := by
  obtain ⟨rest, hrest⟩ := h.levels_cons
  have hroot : isLeafAt arena t.root = false := (held_isLeaf h.held).trans h.inner
  have hflat : (leafLevels (arena, some t.root)).flatten =
      ((levelsFrom arena t.root).flatten.filter (isLeafAt arena)).map (symbolAt arena) := by
    rw [leafLevels_eq, hrest, List.flatten_cons, List.filter_append, List.filter_flatten, List.map_append, List.map_flatten,
      List.map_map]
    simp [hroot, Function.comp_def]
  rw [hflat]
  exact (h.levels_perm.filter _).map _

/-- A tree of at most 16 levels has at most 16 levels of leaves, and they leave no place free. -/
theorem MergeTree.leafLevels_full {arena : List HuffNode} {t : HTree} (h : MergeTree arena t) (hlow : t.height ≤ 16) :
    (leafLevels (arena, some t.root)).length ≤ 16 ∧
      slotsLeft 2 ((leafLevels (arena, some t.root)).map List.length) = some 0 := by
  obtain ⟨rest, hrest⟩ := h.levels_cons
  have hroot : internalsOf arena [t.root] = [t.root] := by
    simp [internalsOf, held_isLeaf h.held, h.inner]
  have hlen : (levelsFrom arena t.root).length ≤ 17 := by
    rw [h.levels_eq, List.length_map]
    exact treeLevels_length_le _ fun u hu => List.mem_singleton.1 hu ▸ hlow
  have hlay := h.layered
  have htwo : ∀ l ∈ levelsFrom arena t.root, (nextLevel arena l).length = 2 * (internalsOf arena l).length :=
    fun l hl => h.nextLevel_length hl
  rw [hrest] at hlay htwo hlen
  have hfull := slotsLeft_layered hlay htwo
  rw [hroot] at hfull
  rw [leafLevels_eq, hrest, List.drop_one, List.tail_cons, List.map_map, List.length_map]
  refine ⟨Nat.le_of_succ_le_succ hlen, ?_⟩
  simpa [Function.comp_def] using hfull

/-- The leaves among the nodes `merge` leaves are those it started from. -/
theorem isLeafAt_mergeLeaves {w : SymWidth} {F : List Nat} (h2 : 2 ≤ (leavesOf w F).length) (i : Nat) :
    isLeafAt (mergeLeaves (leavesOf w F)).1 i = true ↔ i < (leavesOf w F).length := by
  constructor
  · intro hi
    obtain ⟨n, hn⟩ : ∃ n, (mergeLeaves (leavesOf w F)).1[i]? = some n := ⟨_, List.getElem?_eq_getElem (isLeafAt_lt hi)⟩
    rcases mergeLeaves_node h2 hn with hleaf | ⟨hinner, _⟩
    · exact (List.getElem?_eq_some_iff.1 hleaf).1
    · rw [isLeafAt_of_some hn, hinner] at hi
      cases hi
  · intro hi
    obtain ⟨more, hmore⟩ := leavesOf_prefix_mergeLeaves w F
    obtain ⟨n, hn⟩ : ∃ n, (leavesOf w F)[i]? = some n := ⟨_, List.getElem?_eq_getElem hi⟩
    have hn' : (mergeLeaves (leavesOf w F)).1[i]? = some n := by rw [← hmore, List.getElem?_append_left hi, hn]
    rw [isLeafAt_of_some hn']
    exact (leavesOf_mem (List.mem_of_getElem? hn)).1

/-- The symbols of those leaves are the living symbols. -/
theorem symbolAt_leaves_perm {w : SymWidth} {F : List Nat} (h2 : 2 ≤ (leavesOf w F).length) :
    (((List.range (mergeLeaves (leavesOf w F)).1.length).filter (isLeafAt (mergeLeaves (leavesOf w F)).1)).map
      (symbolAt (mergeLeaves (leavesOf w F)).1)).Perm ((livingSymbols w F).map (BitVec.ofNat 8)) := by
  obtain ⟨more, hmore⟩ := leavesOf_prefix_mergeLeaves w F
  have hleaves : ((List.range (mergeLeaves (leavesOf w F)).1.length).filter
      (isLeafAt (mergeLeaves (leavesOf w F)).1)).Perm (List.range (leavesOf w F).length) := by
    refine (List.perm_ext_iff_of_nodup (List.nodup_range.filter _) List.nodup_range).2 fun i => ?_
    rw [List.mem_filter, List.mem_range, List.mem_range, isLeafAt_mergeLeaves h2]
    exact ⟨fun h => h.2, fun h => ⟨h.trans_le (by rw [← hmore, List.length_append]; exact Nat.le_add_right _ _), h⟩⟩
  have hsymbols : (List.range (leavesOf w F).length).map (symbolAt (mergeLeaves (leavesOf w F)).1) =
      (livingSymbols w F).map (BitVec.ofNat 8) := by
    refine List.ext_getElem? fun i => ?_
    rw [List.getElem?_map, List.getElem?_map]
    by_cases hi : i < (leavesOf w F).length
    · have hliving : i < (livingSymbols w F).length := leavesOf_length w F ▸ hi
      rw [List.getElem?_range hi, Option.map_some, symbolAt, ← hmore, List.getElem?_append_left hi, leavesOf_getElem?,
        List.getElem?_eq_getElem hliving]
      rfl
    · rw [List.getElem?_eq_none (by simpa using hi), List.getElem?_eq_none (by rw [← leavesOf_length]; omega)]
      rfl
  exact hsymbols ▸ hleaves.map _

/-! ## The table that is built -/

/-- The sixteen levels of a sound table for the symbols `syms`: each of them listed once, no place left free from two
symbols on, one code of one bit for one symbol, and counts their bytes can say (rules R209, R211, R214). -/
structure SoundLevels (w : SymWidth) (syms : List Nat) (levels : List (List Byte)) : Prop where
  length : levels.length = 16
  perm : levels.flatten.Perm (syms.map (BitVec.ofNat 8))
  full : 2 ≤ syms.length → slotsLeft 2 (levels.map List.length) = some 0
  single : syms.length = 1 → levels.map List.length = 1 :: List.replicate 15 0
  wf : treeLevelsWf w 1 2 levels = true

theorem alphabet_eq (w : SymWidth) (h : 0 < alphabet w) : alphabet w = 2 ^ symBits w := by
  cases w with
  | raw => exact absurd h (by decide)
  | w4 => rfl
  | w8 => rfl

/-- A symbol of the alphabet has `W` bits. -/
theorem symbol_lt {w : SymWidth} {F : List Nat} {b : Byte} (h : b ∈ (livingSymbols w F).map (BitVec.ofNat 8)) :
    b.toNat < 2 ^ symBits w := by
  obtain ⟨x, hx, rfl⟩ := List.mem_map.1 h
  have hlt := (mem_livingSymbols.1 hx).1
  rw [← alphabet_eq w (by omega)]
  exact (Nat.mod_le _ _).trans_lt hlt

theorem livingSymbols_length_le_alphabet (w : SymWidth) (F : List Nat) : (livingSymbols w F).length ≤ alphabet w :=
  (List.length_filter_le _ _).trans List.length_range.le

/-- The table of two symbols or more. -/
theorem soundLevels_of_two_le {w : SymWidth} {F : List Nat} (h2 : 2 ≤ (leavesOf w F).length)
    (hlow : treeDepth (mergeLeaves (leavesOf w F)) ≤ 16) : SoundLevels w (livingSymbols w F)
      (tableLevels (canonTree (mergeLeaves (leavesOf w F)), (mergeLeaves (leavesOf w F)).2)) := by
  obtain ⟨t, ht⟩ := mergeLeaves_grown h2
  have h := ht.mergeTree h2
  rw [ht.treeDepth_eq] at hlow
  obtain ⟨hlen, hfull⟩ := h.leafLevels_full hlow
  have hperm := h.leafLevels_perm.trans (symbolAt_leaves_perm h2)
  have htree : mergeLeaves (leavesOf w F) = ((mergeLeaves (leavesOf w F)).1, some t.root) := Prod.ext rfl ht.root
  have hlevels : leafLevels (canonTree (mergeLeaves (leavesOf w F)), (mergeLeaves (leavesOf w F)).2) =
      leafLevels ((mergeLeaves (leavesOf w F)).1, some t.root) := by
    rw [ht.root, htree]
    exact h.canonical.leafLevels_eq
  have heq := tableLevels_eq (canonTree (mergeLeaves (leavesOf w F)), (mergeLeaves (leavesOf w F)).2)
  rw [hlevels, List.take_of_length_le hlen] at heq
  have hflat := tableLevels_flatten (canonTree (mergeLeaves (leavesOf w F)), (mergeLeaves (leavesOf w F)).2)
  rw [hlevels, List.take_of_length_le hlen] at hflat
  have hcounts : slotsLeft 2 ((tableLevels (canonTree (mergeLeaves (leavesOf w F)),
      (mergeLeaves (leavesOf w F)).2)).map List.length) = some 0 := by
    rw [heq, List.map_append, List.map_replicate]
    exact slotsLeft_append_zeros hfull _
  rw [← hflat] at hperm
  refine ⟨tableLevels_length _, hperm, fun _ => hcounts, fun hone => ?_, ?_⟩
  · rw [leavesOf_length] at h2
    omega
  · refine treeLevelsWf_of_complete (before := 0) hcounts ?_ (fun _ => rfl) fun l hl b hb => ?_
    · rw [Nat.zero_add, hperm.length_eq, List.length_map]
      exact livingSymbols_length_le_alphabet w F
    · exact symbol_lt (hperm.mem_iff.1 (List.mem_flatten.2 ⟨l, hl, hb⟩))

/-- The table of one symbol (rule R209). -/
theorem soundLevels_single {w : SymWidth} {F : List Nat} {x : Nat} (h : livingSymbols w F = [x]) :
    SoundLevels w (livingSymbols w F)
      (tableLevels (canonTree (mergeLeaves (leavesOf w F)), (mergeLeaves (leavesOf w F)).2)) := by
  have hl : leavesOf w F = [⟨F.getD x 0, true, x, none, none, 0⟩] := by
    refine List.ext_getElem? fun j => ?_
    rw [leavesOf_getElem?, h]
    cases j <;> rfl
  have hlevels : tableLevels (canonTree (mergeLeaves (leavesOf w F)), (mergeLeaves (leavesOf w F)).2) =
      [BitVec.ofNat 8 x] :: List.replicate 15 [] := by
    rw [tableLevels, hl, leafLevels_single]
    rfl
  have hlt : (BitVec.ofNat 8 x).toNat < 2 ^ symBits w := symbol_lt (F := F) (by rw [h]; exact List.mem_singleton_self _)
  rw [hlevels, h]
  refine ⟨rfl, List.Perm.refl _, fun h2 => absurd h2 (Nat.not_succ_le_self 1), fun _ => rfl, ?_⟩
  have hempty : treeLevelsWf w 2 2 (List.replicate 15 []) = true := by cases w <;> decide
  have hcount : levelCount w 1 2 (1 % 256) = 1 := by cases w <;> rfl
  simp only [treeLevelsWf, List.length_singleton, hcount, List.all_cons, List.all_nil, hlt, decide_true, Bool.and_true,
    Bool.true_and]
  exact hempty

/-- The scaled counts give a leaf to the symbols that had a count (rule R205, property 1). -/
theorem livingSymbols_halved (w : SymWidth) (r : Nat) (F : List Nat) :
    livingSymbols w ((List.map halveUp)^[r] F) = livingSymbols w F :=
  List.filter_congr fun x _ => decide_eq_decide.2 (halved_pos_iff r F x)

/-- What `limitDepth` and `canonicalise` leave of any counts gives a sound table. -/
theorem soundLevels_limitLoop {w : SymWidth} {F : List Nat} (hne : livingSymbols w F ≠ []) :
    SoundLevels w (livingSymbols w F) (tableLevels (canonTree (limitLoop w (scalingRounds F) F).2,
      (limitLoop w (scalingRounds F) F).2.2)) := by
  have hdepth := treeDepth_limitLoop_le w F
  obtain ⟨r, hloop, _⟩ := limitLoop_eq_iterate w (scalingRounds F) F
  rw [hloop] at hdepth ⊢
  have hliving := livingSymbols_halved w r F
  rw [← hliving] at hne ⊢
  by_cases h2 : 2 ≤ (leavesOf w ((List.map halveUp)^[r] F)).length
  · exact soundLevels_of_two_le h2 hdepth
  · rw [leavesOf_length] at h2
    obtain ⟨x, hx⟩ := List.length_eq_one_iff.1 (Nat.le_antisymm (by omega) (List.length_pos_iff.2 hne))
    exact soundLevels_single hx

/-- Settles O36: `serialise` fills the tables from the sixteen levels of the tree. -/
theorem builtTableSound : Obligations.BuiltTableSound := by
  intro s hne
  have h := soundLevels_limitLoop hne
  have htab : (writeTreeTable (fillTables (canonicalise (limitDepth s)))).call.ht = tabOf (tableLevels
      (canonTree (limitLoop s.call.hw (scalingRounds s.call.freq) s.call.freq).2,
        (limitLoop s.call.hw (scalingRounds s.call.freq) s.call.freq).2.2)) := fillTab_eq_tabOf _
  have hcounts := counts_tabOf h.length
  refine ⟨writeTreeTable (fillTables (canonicalise (limitDepth s))), rfl, ?_⟩
  rw [htab, hcounts]
  refine ⟨h.perm, rfl, List.length_flatten.symm, h.full, h.single, ?_⟩
  change treeLevelsWf s.call.hw 1 2 (splitLevels _ (List.flatten _)) = true
  rw [splitLevels_flatten]
  exact h.wf

end Sys2Proof.Machine
end

section
/-! PROOF. The byte transforms: obligations O42 and O43. Each transform is said byte by byte as a function on lists; a
transform row then leaves those bytes below `DSIZE` and the old ones above. -/

namespace Sys2Proof.Machine

/-! ## The bytes of each transform (rules R242 to R245) -/

theorem complementBytes_getD {B : List Byte} {i : Nat} (h : i < B.length) :
    (complementBytes B).getD i 0 = B.getD i 0 ^^^ 0xFF#8 := by
  simp [complementBytes, h]

theorem xorPosFrom_getD (k : Nat) {B : List Byte} {i : Nat} (h : i < B.length) :
    (xorPosFrom k B).getD i 0 = B.getD i 0 ^^^ BitVec.ofNat 8 ((k + i) % 256) := by
  induction B generalizing k i with
  | nil => cases h
  | cons b t ih =>
    cases i with
    | zero => rfl
    | succ i =>
      rw [xorPosFrom, List.getD_cons_succ, List.getD_cons_succ, ih (k + 1) (Nat.lt_of_succ_lt_succ h),
        Nat.add_right_comm, Nat.add_assoc]

theorem xorPosBytes_getD {B : List Byte} {i : Nat} (h : i < B.length) :
    (xorPosBytes B).getD i 0 = B.getD i 0 ^^^ BitVec.ofNat 8 (i % 256) := by
  rw [xorPosBytes, xorPosFrom_getD 0 h, Nat.zero_add]

/-- Each whole pair is swapped. -/
theorem pairSwapBytes_getD_pair {B : List Byte} {k : Nat} (h : 2 * k + 1 < B.length) :
    (pairSwapBytes B).getD (2 * k) 0 = B.getD (2 * k + 1) 0 ∧
      (pairSwapBytes B).getD (2 * k + 1) 0 = B.getD (2 * k) 0 := by
  induction B using pairSwapBytes.induct generalizing k with
  | case1 a b t ih =>
    cases k with
    | zero => exact ⟨rfl, rfl⟩
    | succ k => exact ih (k := k) (by simp only [List.length_cons] at h; omega)
  | case2 l hl =>
    match l, hl with
    | [], _ => cases h
    | [a], _ => simp at h
    | a :: b :: t, hl => exact (hl a b t rfl).elim

/-- The last byte of an odd number of bytes has no partner and stays. -/
theorem pairSwapBytes_getD_last {B : List Byte} (h : B.length % 2 = 1) :
    (pairSwapBytes B).getD (B.length - 1) 0 = B.getD (B.length - 1) 0 := by
  induction B using pairSwapBytes.induct with
  | case1 a b t ih =>
    have hodd : t.length % 2 = 1 := by simp only [List.length_cons] at h; omega
    have hlast : (a :: b :: t).length - 1 = t.length - 1 + 1 + 1 := by simp only [List.length_cons]; omega
    rw [hlast]
    exact ih hodd
  | case2 l hl => rw [pairSwapBytes]; exact hl

/-- Each byte of the chain takes the old byte before it. -/
theorem xorChainFrom_getD (p : Byte) {B : List Byte} {i : Nat} (h : i < B.length) :
    (xorChainFrom p B).getD i 0 = B.getD i 0 ^^^ (p :: B).getD i 0 := by
  induction B generalizing p i with
  | nil => cases h
  | cons b t ih =>
    cases i with
    | zero => rfl
    | succ i => exact ih b (Nat.lt_of_succ_lt_succ h)

theorem xorChainBytes_getD_zero (B : List Byte) : (xorChainBytes B).getD 0 0 = B.getD 0 0 := by cases B <;> rfl

theorem xorChainBytes_getD_succ {B : List Byte} {i : Nat} (h : i + 1 < B.length) :
    (xorChainBytes B).getD (i + 1) 0 = B.getD (i + 1) 0 ^^^ B.getD i 0 := by
  cases B with
  | nil => cases h
  | cons b t => exact xorChainFrom_getD b (Nat.lt_of_succ_lt_succ h)

/-- Each byte of the inverse chain takes the recovered byte before it. -/
theorem unXorChainFrom_getD (p : Byte) {B : List Byte} {i : Nat} (h : i < B.length) :
    (unXorChainFrom p B).getD i 0 = B.getD i 0 ^^^ (p :: unXorChainFrom p B).getD i 0 := by
  induction B generalizing p i with
  | nil => cases h
  | cons c t ih =>
    cases i with
    | zero => rfl
    | succ i => exact ih (c ^^^ p) (Nat.lt_of_succ_lt_succ h)

theorem unXorChainBytes_getD_zero (B : List Byte) : (unXorChainBytes B).getD 0 0 = B.getD 0 0 := by cases B <;> rfl

theorem unXorChainBytes_getD_succ {B : List Byte} {i : Nat} (h : i + 1 < B.length) :
    (unXorChainBytes B).getD (i + 1) 0 = B.getD (i + 1) 0 ^^^ (unXorChainBytes B).getD i 0 := by
  cases B with
  | nil => cases h
  | cons c t => exact unXorChainFrom_getD c (Nat.lt_of_succ_lt_succ h)

/-! ## The inverses (rule R246) -/

theorem complementBytes_twice (B : List Byte) : complementBytes (complementBytes B) = B := by
  simp [complementBytes, Function.comp_def]

theorem xorChain_unXorChain (p : Byte) (B : List Byte) : xorChainFrom p (unXorChainFrom p B) = B := by
  induction B generalizing p with
  | nil => rfl
  | cons c t ih => simp [xorChainFrom, unXorChainFrom, ih]

theorem unXorChainBytes_xorChainBytes (B : List Byte) : unXorChainBytes (xorChainBytes B) = B := by
  cases B with
  | nil => rfl
  | cons b t => exact congrArg (b :: ·) (unXorChain_xorChain b t)

theorem xorChainBytes_unXorChainBytes (B : List Byte) : xorChainBytes (unXorChainBytes B) = B := by
  cases B with
  | nil => rfl
  | cons c t => exact congrArg (c :: ·) (xorChain_unXorChain c t)

/-- Settles O43: modes 0 to 3 are their own inverses, and the two chains of mode 4 undo each other. -/
theorem transformsInverse : Obligations.TransformsInverse := by
  intro m B hm
  obtain rfl | rfl | rfl | rfl | rfl : m = 0 ∨ m = 1 ∨ m = 2 ∨ m = 3 ∨ m = 4 := by omega
  · exact ⟨rfl, rfl, rfl, rfl⟩
  · exact ⟨complementBytes_twice B, complementBytes_twice B, complementBytes_length B, complementBytes_length B⟩
  · exact ⟨xorPosFrom_twice 0 B, xorPosFrom_twice 0 B, xorPosBytes_length B, xorPosBytes_length B⟩
  · exact ⟨pairSwap_twice B, pairSwap_twice B, pairSwapBytes_length B, pairSwapBytes_length B⟩
  · exact ⟨unXorChainBytes_xorChainBytes B, xorChainBytes_unXorChainBytes B, xorChainBytes_length B,
      unXorChainBytes_length B⟩

/-! ## A buffer transformed in place (rules R240, R71) -/

/-- A memory whose first `n` bytes are transformed by `f`. -/
def Mem.mapPrefix (m : Mem) (f : List Byte → List Byte) (n : Nat) : Mem := m.writeList 0 (f (m.slice 0 n))

theorem getD_slice_zero (m : Mem) {n i : Nat} (h : i < n) : (m.slice 0 n).getD i 0 = m.read i := by
  rw [getD_slice m 0 n i h, Nat.zero_add]

section
variable {f : List Byte → List Byte} (hf : ∀ B, (f B).length = B.length) (m : Mem) {n i : Nat}
include hf

/-- A read of a buffer transformed in place, on either side of its end. -/
theorem read_mapPrefix :
    (m.mapPrefix f n).read i = if i < n then (f (m.slice 0 n)).getD i 0 else m.read i := by
  simp only [Mem.mapPrefix, read_writeList, hf, slice_length, Nat.zero_le, true_and, Nat.zero_add, Nat.sub_zero]

theorem read_mapPrefix_of_lt (h : i < n) : (m.mapPrefix f n).read i = (f (m.slice 0 n)).getD i 0 := by
  rw [read_mapPrefix hf, if_pos h]

theorem read_mapPrefix_of_le (h : n ≤ i) : (m.mapPrefix f n).read i = m.read i := by
  rw [read_mapPrefix hf, if_neg (Nat.not_lt.2 h)]

/-- A transform that acts on each byte by itself does so in the buffer. -/
theorem read_mapPrefix_bytewise {g : Nat → Byte → Byte}
    (hg : ∀ {B : List Byte} {i : Nat}, i < B.length → (f B).getD i 0 = g i (B.getD i 0)) :
    (m.mapPrefix f n).read i = if i < n then g i (m.read i) else m.read i := by
  rw [read_mapPrefix hf]
  split
  next h => rw [hg (by rwa [slice_length]), getD_slice_zero m h]
  next => rfl

end

theorem read_mapPrefix_pairSwap (m : Mem) {n k : Nat} (h : 2 * k + 1 < n) :
    (m.mapPrefix pairSwapBytes n).read (2 * k) = m.read (2 * k + 1) ∧
      (m.mapPrefix pairSwapBytes n).read (2 * k + 1) = m.read (2 * k) := by
  obtain ⟨heven, hodd⟩ := pairSwapBytes_getD_pair (B := m.slice 0 n) (k := k) (by rwa [slice_length])
  have hlt : 2 * k < n := Nat.lt_of_succ_lt h
  rw [read_mapPrefix_of_lt pairSwapBytes_length m hlt, read_mapPrefix_of_lt pairSwapBytes_length m h, heven, hodd,
    getD_slice_zero m hlt, getD_slice_zero m h]
  exact ⟨rfl, rfl⟩

theorem read_mapPrefix_pairSwap_last (m : Mem) {n : Nat} (h : n % 2 = 1) :
    (m.mapPrefix pairSwapBytes n).read (n - 1) = m.read (n - 1) := by
  have hlt : n - 1 < n := by omega
  have hlast := pairSwapBytes_getD_last (B := m.slice 0 n) (by rwa [slice_length])
  rw [slice_length] at hlast
  rw [read_mapPrefix_of_lt pairSwapBytes_length m hlt, hlast, getD_slice_zero m hlt]

/-- The half of mode 4 a direction runs: the chain, or its inverse. -/
def chainOf : Dir → List Byte → List Byte
  | .obfuscate => xorChainBytes
  | .deobfuscate => unXorChainBytes

theorem chainOf_length (dir : Dir) (B : List Byte) : (chainOf dir B).length = B.length := by
  cases dir
  · exact xorChainBytes_length B
  · exact unXorChainBytes_length B

theorem read_mapPrefix_chain_zero (dir : Dir) (m : Mem) {n : Nat} (h : 0 < n) :
    (m.mapPrefix (chainOf dir) n).read 0 = m.read 0 := by
  rw [read_mapPrefix_of_lt (chainOf_length dir) m h, ← getD_slice_zero m h]
  cases dir
  · exact xorChainBytes_getD_zero _
  · exact unXorChainBytes_getD_zero _

/-- Either chain takes the byte before: the old one, or the one already recovered. -/
theorem read_mapPrefix_chain_succ (dir : Dir) (m : Mem) {n i : Nat} (h : i + 1 < n) :
    (m.mapPrefix (chainOf dir) n).read (i + 1) =
      m.read (i + 1) ^^^ (if dir = .obfuscate then m.read i else (m.mapPrefix (chainOf dir) n).read i) := by
  have hlen : i + 1 < (m.slice 0 n).length := by rwa [slice_length]
  have hlt : i < n := Nat.lt_of_succ_lt h
  rw [read_mapPrefix_of_lt (chainOf_length dir) m h, read_mapPrefix_of_lt (chainOf_length dir) m hlt,
    ← getD_slice_zero m h, ← getD_slice_zero m hlt]
  cases dir
  · exact xorChainBytes_getD_succ hlen
  · exact unXorChainBytes_getD_succ hlen

/-! ## The transform rows -/

/-- A transform that is its own inverse does the same to either buffer. -/
theorem runTransform_self (f : List Byte → List Byte) (dir : Dir) (s : State) :
    runTransform f f dir s = withBuffer dir s ((bufferOf dir s).mapPrefix f s.dsize) := by
  cases dir <;> rfl

theorem runTransform_chain (dir : Dir) (s : State) :
    runTransform xorChainBytes unXorChainBytes dir s =
      withBuffer dir s ((bufferOf dir s).mapPrefix (chainOf dir) s.dsize) := by
  cases dir <;> rfl

/-- Settles O42: each row transforms its buffer's first `DSIZE` bytes in place, and each transform is known byte by byte. -/
theorem transformBytes : Obligations.TransformBytes := by
  intro s dir
  refine ⟨rfl, ⟨_, congrArg _ (runTransform_self complementBytes dir s), fun i => ?_⟩,
    ⟨_, congrArg _ (runTransform_self xorPosBytes dir s), fun i => ?_⟩,
    ⟨_, congrArg _ (runTransform_self pairSwapBytes dir s), fun k => ?_, ?_, fun i => ?_⟩,
    ⟨_, congrArg _ (runTransform_chain dir s), ?_, fun i => ?_, fun i => ?_⟩⟩
  · exact read_mapPrefix_bytewise complementBytes_length _ (g := fun _ b => b ^^^ 0xFF#8) complementBytes_getD
  · exact read_mapPrefix_bytewise xorPosBytes_length _ (g := fun i b => b ^^^ BitVec.ofNat 8 (i % 256)) xorPosBytes_getD
  · exact read_mapPrefix_pairSwap _
  · exact read_mapPrefix_pairSwap_last _
  · exact read_mapPrefix_of_le pairSwapBytes_length _
  · exact read_mapPrefix_chain_zero dir _
  · exact read_mapPrefix_chain_succ dir _
  · exact read_mapPrefix_of_le (chainOf_length dir) _

end Sys2Proof.Machine
end

section
/-! SUPPORT. The token loop on a stream that begins with tokens (rules R320 to R323): each field, value and token is read
back from its bits, and the output grows by the token's bytes. -/

namespace Sys2Proof.Machine

/-! ## Fields and values (rules R103, R104, R301 to R303) -/

/-- `readBits` on the state reads back a value written with the same width. -/
theorem readBits_value {s : State} {v n : Nat} {rest : List Bool} (hv : v < 2 ^ n)
    (h : s.bitsAhead = streamOfValue s.fmt v n ++ rest) :
    ∃ r, readBits n s = .ok v (s.withReader r) ∧ (s.withReader r).bitsAhead = rest := by
  obtain ⟨r, hread, hrest⟩ := readBits_append h
  rw [streamOfValue_length, valueOfStream_streamOfValue, Nat.mod_eq_of_lt hv] at hread
  exact ⟨r, hread, hrest⟩

/-- One bit is read as its value under either bit order. -/
theorem readBits_bit {s : State} {b : Bool} {rest : List Bool} (h : s.bitsAhead = b :: rest) :
    ∃ r, readBits 1 s = .ok b.toNat (s.withReader r) ∧ (s.withReader r).bitsAhead = rest := by
  have hread := readBits_append (bits := [b]) h
  rwa [valueOfStream_bit] at hread

/-- `readSymbol` on a code of the table. -/
theorem readSymbol_code {s : State} (hfits : s.call.ht.fits) {sym : Byte} {bits rest : List Bool}
    (hmem : (sym, bits) ∈ s.call.ht.codeList) (h : s.bitsAhead = bits ++ rest) :
    ∃ x, readSymbol s = .ok sym (s.withHcReader x) ∧ (s.withHcReader x).bitsAhead = rest := by
  obtain ⟨hc, r, hrun, hrest⟩ := decodeSymbol_code (bitSource_reader s.readEnv) hfits hmem h
  exact ⟨(hc, r), by rw [readSymbol, hrun]; rfl, hrest⟩

/-- `readValue` on bits that stand for a byte. -/
theorem readValue_says {s : State} {w : SymWidth} (hfits : w = .raw ∨ s.call.ht.fits) {v : Byte} {bits rest : List Bool}
    (hsay : saysValue s.fmt w s.call.ht v bits) (h : s.bitsAhead = bits ++ rest) :
    ∃ x, readValue w s = .ok v (s.withHcReader x) ∧ (s.withHcReader x).bitsAhead = rest := by
  cases w with
  | raw =>
    obtain rfl : bits = streamOfValue s.fmt v.toNat 8 := hsay
    obtain ⟨r, hread, hrest⟩ := readBits_value v.isLt h
    refine ⟨(s.call.hc, r), ?_, hrest⟩
    rw [readValue, hread, map_ok, BitVec.ofNat_toNat, BitVec.setWidth_eq]
    rfl
  | w8 => exact readSymbol_code (hfits.resolve_left (by decide)) hsay h
  | w4 =>
    have hfits := hfits.resolve_left (by decide)
    obtain ⟨hi, lo, b, c, rfl, rfl, hhi, hlo⟩ := hsay
    rw [List.append_assoc] at h
    obtain ⟨x, hx, h⟩ := readSymbol_code hfits hhi h
    obtain ⟨y, hy, h⟩ := readSymbol_code (s := s.withHcReader x) hfits hlo h
    exact ⟨y, by rw [readValue, hx, andThen_ok, hy]; rfl, h⟩

/-- `readLen` on the bits of a length the mode can encode. -/
theorem readLen_bits {row : ModeRow} {s : State} {len : Nat} {rest : List Bool} (hmin : row.minLen ≤ len)
    (hmax : len ≤ row.maxLen) (h : s.bitsAhead = lenStream s.fmt row len ++ rest) :
    ∃ r, readLen row s = .ok len (s.withReader r) ∧ (s.withReader r).bitsAhead = rest := by
  have hlen := assembleLen_fields (r := row) hmin
  rw [lenStream, List.append_assoc] at h
  obtain ⟨r, hread, h⟩ := readBits_value (lenField_lt hmin hmax) h
  rw [readLen, hread, andThen_ok]
  rcases lenField_cases row len with ⟨hesc, hfield, hext, -⟩ | ⟨hesc, hfield, hshort⟩
  · rw [if_pos hesc] at h hlen
    obtain ⟨r', hread', h⟩ := readBits_value (s := s.withReader r) (extField_lt hmax hesc) h
    exact ⟨r', by rw [if_pos ⟨hext, hfield⟩, hread', map_ok, hlen]; rfl, h⟩
  · rw [hesc] at h hlen
    have hno : ¬ (0 < row.extBits ∧ lenField row len = row.esc) := by omega
    exact ⟨r, by rw [if_neg hno]; exact congrArg (Run.ok · _) hlen, h⟩

/-- `readDisp` on the bits of a displacement the mode can encode. -/
theorem readDisp_bits {row : ModeRow} {s : State} {disp : Nat} {rest : List Bool} (hpos : 1 ≤ disp)
    (hmax : disp ≤ row.maxDisp) (h : s.bitsAhead = dispStream s.fmt row disp ++ rest) :
    ∃ r, readDisp row s = .ok disp (s.withReader r) ∧ (s.withReader r).bitsAhead = rest := by
  have hlt : disp - 1 < 2 ^ row.dispBits := by
    rw [ModeRow.maxDisp] at hmax
    omega
  obtain ⟨r, hread, h⟩ := readBits_value hlt h
  refine ⟨r, ?_, h⟩
  rw [readDisp, hread, map_ok, assembleDisp, Nat.sub_add_cancel hpos]

/-! ## The output of tokens (rules R70, R322, R323) -/

/-- The output so far, `DST[0..DST_LEN)`. -/
def State.output (s : State) : List Byte := s.dst.slice 0 s.dstLen

@[simp] theorem output_length (s : State) : s.output.length = s.dstLen := slice_length _ _ _

theorem slice_succ (m : Mem) (a n : Nat) : m.slice a (n + 1) = m.slice a n ++ [m.read (a + n)] := by
  induction n generalizing a with
  | zero => rfl
  | succ n ih =>
    rw [Mem.slice, ih (a + 1), Nat.add_right_comm, Nat.add_assoc]
    rfl

theorem slice_write_end (m : Mem) (n : Nat) (b : Byte) : (m.write n b).slice 0 (n + 1) = m.slice 0 n ++ [b] := by
  rw [slice_succ, Nat.zero_add, read_write_self]
  exact congrArg (· ++ [b]) (slice_congr _ _ _ _ fun x _ hx => read_write_other _ _ _ _ (by omega))

@[simp] theorem output_appendDst (b : Byte) (s : State) : (appendDst b s).output = s.output ++ [b] := slice_write_end _ _ _

/-- The copy of rule R70 on the bytes of the output. -/
theorem slice_copyBytes {disp n : Nat} (hpos : 1 ≤ disp) {m : Mem} {len : Nat} (hle : disp ≤ len) :
    (copyBytes disp n m len).1.slice 0 (len + n) = copyTail disp n (m.slice 0 len) := by
  induction n generalizing m len with
  | zero => rfl
  | succ n ih =>
    have hbyte : (m.slice 0 len).getD ((m.slice 0 len).length - disp) 0 = m.read (len - disp) := by
      rw [slice_length]
      exact getD_slice_zero m (by omega)
    rw [copyBytes, copyTail, hbyte, ← slice_write_end, ← ih (show disp ≤ len + 1 by omega), Nat.add_right_comm, Nat.add_assoc]

theorem copyTail_length (disp n : Nat) (out : List Byte) : (copyTail disp n out).length = out.length + n := by
  induction n generalizing out with
  | zero => rfl
  | succ n ih =>
    rw [copyTail, ih, List.length_append, List.length_singleton]
    omega

/-- How far a token moves the output on. -/
theorem expand_length {k : Token} {out out' : List Byte} (h : k.expand out = some out') :
    (∃ v, k = .lit v ∧ out'.length = out.length + 1) ∨ ∃ l d, k = .copy l d ∧ out'.length = out.length + l := by
  cases k with
  | lit v =>
    cases h
    exact .inl ⟨v, rfl, List.length_append⟩
  | copy l d =>
    rw [Token.expand] at h
    split at h <;> cases h
    exact .inr ⟨l, d, rfl, copyTail_length d l out⟩

/-- Tokens never shorten the output. -/
theorem length_le_of_expandAll {ks : List Token} {out out' : List Byte} (h : expandAll ks out = some out') :
    out.length ≤ out'.length := by
  induction ks generalizing out with
  | nil => cases h; exact Nat.le_refl _
  | cons k ks ih =>
    obtain ⟨mid, hk, h⟩ := Option.bind_eq_some_iff.1 h
    have hle := ih h
    rcases expand_length hk with ⟨v, -, hlen⟩ | ⟨l, d, -, hlen⟩ <;> omega

/-! ## One token (rules R320, R322, R323) -/

/-- A match whose registers are set is copied onto the output. -/
theorem runMatch_output {s : State} (hpos : 1 ≤ s.call.tk.disp) (hdisp : s.call.tk.disp ≤ s.dstLen)
    (hlen : s.call.tk.len ≤ s.dsize - s.dstLen) :
    ∃ t, runMatch s = .ok () t ∧ t.output = copyTail s.call.tk.disp s.call.tk.len s.output ∧ t.bitsAhead = s.bitsAhead := by
  rcases runMatch_cases s with ⟨hrefused, -⟩ | ⟨-, -, hrun⟩
  · omega
  · exact ⟨_, hrun, slice_copyBytes hpos hdisp, rfl⟩

/-- `MATCH` on the bits of a length and a displacement the mode can encode. -/
theorem decodeMatch_bits {row : ModeRow} {s : State} {len disp : Nat} {rest : List Bool} (hmin : row.minLen ≤ len)
    (hmax : len ≤ row.maxLen) (hpos : 1 ≤ disp) (hfar : disp ≤ row.maxDisp)
    (h : s.bitsAhead = copyStream s.fmt row len disp ++ rest) (hdisp : disp ≤ s.dstLen) (hlen : len ≤ s.dsize - s.dstLen) :
    ∃ t, decodeMatch row s = .ok () t ∧ t.output = copyTail disp len s.output ∧ t.bitsAhead = rest := by
  rw [copyStream] at h
  by_cases hfirst : row.dispFirst = true
  · rw [if_pos hfirst, List.append_assoc] at h
    obtain ⟨r, hd, h⟩ := readDisp_bits hpos hfar h
    obtain ⟨r', hl, h⟩ := readLen_bits (s := setTkDisp disp (s.withReader r)) hmin hmax h
    rw [decodeMatch, if_pos hfirst, hd, andThen_ok, hl, andThen_ok]
    rw [← h]
    exact runMatch_output (s := setTkLen len ((setTkDisp disp (s.withReader r)).withReader r')) hpos hdisp hlen
  · rw [if_neg hfirst, List.append_assoc] at h
    obtain ⟨r, hl, h⟩ := readLen_bits hmin hmax h
    obtain ⟨r', hd, h⟩ := readDisp_bits (s := setTkLen len (s.withReader r)) hpos hfar h
    rw [decodeMatch, if_neg hfirst, hl, andThen_ok, hd, andThen_ok]
    rw [← h]
    exact runMatch_output (s := setTkDisp disp ((setTkLen len (s.withReader r)).withReader r')) hpos hdisp hlen

/-- `LIT` on bits that stand for a byte. -/
theorem decodeLit_says {s : State} (hfits : s.call.hw = .raw ∨ s.call.ht.fits) {v : Byte} {bits rest : List Bool}
    (hsay : saysValue s.fmt s.call.hw s.call.ht v bits) (h : s.bitsAhead = bits ++ rest) :
    ∃ t, decodeLit s = .ok () t ∧ t.output = s.output ++ [v] ∧ t.bitsAhead = rest := by
  obtain ⟨x, hread, hrest⟩ := readValue_says hfits hsay h
  exact ⟨_, by rw [decodeLit, hread, andThen_ok], output_appendDst v (s.withHcReader x), hrest⟩

/-- One round of the token loop on bits that stand for a token whose bytes the output has room for. -/
theorem decodeToken_says {row : ModeRow} {s : State} (hfits : s.call.hw = .raw ∨ s.call.ht.fits) {k : Token}
    {bits rest : List Bool} {out : List Byte} (hsay : k.says s.fmt row s.call.hw s.call.ht bits)
    (h : s.bitsAhead = bits ++ rest) (hexpand : k.expand s.output = some out) (hroom : out.length ≤ s.dsize) :
    ∃ t, decodeToken row s = .ok () t ∧ t.output = out ∧ t.bitsAhead = rest := by
  cases k with
  | lit v =>
    obtain ⟨b, rfl, hsay⟩ := hsay
    obtain ⟨r, hflag, h⟩ := readBits_bit h
    rw [decodeToken, hflag, andThen_ok, if_pos (show (false.toNat = 0) from rfl)]
    rw [← Option.some.inj hexpand]
    exact decodeLit_says (s := setTkFlag false (s.withReader r)) hfits hsay h
  | copy l d =>
    obtain ⟨hmin, hmax, hpos, hfar, rfl⟩ := hsay
    obtain ⟨r, hflag, h⟩ := readBits_bit h
    rw [Token.expand] at hexpand
    split at hexpand
    · rename_i hd
      obtain rfl := Option.some.inj hexpand
      rw [copyTail_length, output_length] at hroom
      rw [output_length] at hd
      rw [decodeToken, hflag, andThen_ok, if_neg (show ¬ (true.toNat = 0) by decide)]
      exact decodeMatch_bits (s := setTkFlag true (s.withReader r)) hmin hmax hpos hfar h hd.2
        (show l ≤ s.dsize - s.dstLen by omega)
    · cases hexpand

/-! ## The token loop (rules R320, R321) -/

/-- The registers decoding tokens leaves as they are. -/
theorem Decoded.registers {s t : State} (h : Decoded s t) :
    t.fmt = s.fmt ∧ t.kon = s.kon ∧ t.ident = s.ident ∧ t.dsize = s.dsize := by
  rw [h.whole]
  exact ⟨rfl, rfl, rfl, rfl⟩

/-- The tables decoding tokens leaves as they are. -/
theorem Decoded.tables {s t : State} (h : Decoded s t) : t.call.hw = s.call.hw ∧ t.call.ht = s.call.ht := by
  rw [h.call]
  exact ⟨rfl, rfl⟩

/-- The token loop on a stream that begins with tokens whose output has `DSIZE` bytes: it produces that output and consumes
exactly those bits. -/
theorem tokenLoopFrom_says {row : ModeRow} (hrow : 1 ≤ row.minLen) {ks : List Token} {n : Nat} {s : State}
    {bits rest : List Bool} {out : List Byte} (hfits : s.call.hw = .raw ∨ s.call.ht.fits)
    (hsay : tokensSay s.fmt row s.call.hw s.call.ht ks bits) (h : s.bitsAhead = bits ++ rest)
    (hexpand : expandAll ks s.output = some out) (hlen : out.length = s.dsize) (hn : s.dsize - s.dstLen ≤ n) :
    ∃ t, tokenLoopFrom row n s = .ok () t ∧ t.output = out ∧ t.bitsAhead = rest := by
  induction ks generalizing n s bits with
  | nil =>
    obtain rfl : bits = [] := hsay
    obtain rfl := Option.some.inj hexpand
    rw [output_length] at hlen
    refine ⟨s, ?_, rfl, h⟩
    cases n with
    | zero => rfl
    | succ n => exact if_neg (by omega)
  | cons k ks ih =>
    obtain ⟨b, c, rfl, hk, hks⟩ := hsay
    obtain ⟨mid, hmid, hexpand⟩ := Option.bind_eq_some_iff.1 hexpand
    have hroom := length_le_of_expandAll hexpand
    have hgrow : s.dstLen < mid.length := by
      rw [← output_length s]
      rcases expand_length hmid with ⟨v, -, hlen⟩ | ⟨l, d, rfl, hlen⟩
      · omega
      · have hl : row.minLen ≤ l := hk.1
        omega
    obtain ⟨n, rfl⟩ := Nat.exists_eq_add_one_of_ne_zero (n := n) (by omega)
    rw [List.append_assoc] at h
    obtain ⟨t, hrun, hout, hahead⟩ := decodeToken_says hfits hk h hmid (by omega)
    have hdecoded := decoded_decodeToken row s
    rw [hrun, state_ok] at hdecoded
    obtain ⟨hf, -, -, hd⟩ := hdecoded.registers
    obtain ⟨hw, ht⟩ := hdecoded.tables
    have htlen : t.dstLen = mid.length := by rw [← output_length, hout]
    rw [tokenLoopFrom, if_pos (by omega), hrun, andThen_ok]
    exact ih (by rwa [hw, ht]) (by rwa [hf, hw, ht]) hahead (by rwa [hout]) (by rw [hlen, hd]) (by omega)

end Sys2Proof.Machine
end

section
/-! PROOF. The outcomes that a container's header or the configuration decides: obligations O51, O52, O54, O55 and O57. -/

namespace Sys2Proof.Machine

/-! ## The header (rules R264, R265) -/

theorem slice_eq_map (m : Mem) (a n : Nat) : m.slice a n = (List.range n).map fun i => m.read (a + i) := by
  refine List.ext_getElem? fun i => ?_
  rw [slice_getElem?, List.getElem?_map]
  split
  · rename_i hi
    rw [List.getElem?_range hi, Option.map_some]
  · rename_i hi
    rw [List.getElem?_eq_none (by rw [List.length_range]; omega), Option.map_none]

/-- What `ValidateMagic` leaves of a source with a whole header. -/
def latchHeader (s : State) : State := { clearDst s with dsize := s.srcSize, ident := s.srcIdent }

/-- The source is empty, or does not begin with the marker (rule R264). -/
def State.foreign (s : State) : Prop := s.srcLen = 0 ∨ s.src.read 0 ≠ s.fmt.magic

theorem readFirst_some {s : State} (h : s.srcLen ≠ 0) : readFirst s = .ok (s.src.read 0) s := if_neg h

theorem validateMagic_short {s : State} (hm : s.src.read 0 = s.fmt.magic) (hlen : s.srcLen < s.fmt.hdrLen) :
    validateMagic (s.src.read 0) s = .raised .corruptStream (clearDst s) := by
  rcases validateHeader_cases (s.src.read 0) s.src.read s.srcLen s with ⟨h, _⟩ | ⟨_, _, h⟩ | ⟨_, h, _⟩
  · exact absurd hm h
  · exact h
  · omega

theorem validateMagic_whole {s : State} (h : s.headerOk) : validateMagic (s.src.read 0) s = .ok () (latchHeader s) := by
  obtain ⟨hlen, hm⟩ := h
  rcases validateHeader_cases (s.src.read 0) s.src.read s.srcLen s with ⟨h, _⟩ | ⟨_, h, _⟩ | ⟨_, _, h⟩
  · exact absurd hm h
  · omega
  · rw [latchHeader, State.srcSize, slice_eq_map]
    exact h

theorem srcLen_ne_zero_of_headerOk {s : State} (h : s.headerOk) : s.srcLen ≠ 0 := by
  obtain ⟨hlen, -⟩ := h
  rw [Fmt.hdrLen] at hlen
  omega

/-- The row `ReadHeader` and `ValidateMagic` on a foreign source. -/
theorem readHeader_foreign {s : State} (h : s.foreign) : readHeader s = .raised .formatMismatch s := by
  by_cases h0 : s.srcLen = 0
  · rw [readHeader, readFirst, if_pos h0, andThen_raised]
  · rw [readHeader, readFirst_some h0, andThen_ok]
    exact if_pos (h.resolve_left h0)

/-- The size field of a header given as one word. -/
theorem headerWord_size (magic ident : Byte) {size : List Byte} {n : Nat} (h : n ≤ size.length) :
    ((List.range n).map fun i => (magic :: size ++ [ident]).getD (1 + i) 0) = size.take n := by
  refine List.ext_getElem? fun i => ?_
  rw [List.getElem?_map, List.getElem?_take]
  split
  · rename_i hi
    have hlt : i < size.length := by omega
    rw [List.getElem?_range hi, Option.map_some, Nat.add_comm, List.cons_append, List.getD_cons_succ,
      List.getD_append _ _ _ _ hlt, List.getD_eq_getElem _ _ hlt, List.getElem?_eq_getElem hlt]
  · rename_i hi
    rw [List.getElem?_eq_none (by rw [List.length_range]; omega), Option.map_none]

/-- Settles O51: by the cases of the header check. -/
theorem headerPhases : Obligations.HeaderPhases := by
  intro s
  have hexec : exec .readHeaderValidateMagic s = settle (readHeader s) := rfl
  refine ⟨fun h => ?_, fun h0 hm hlen => ?_, fun h => ?_, fun magic size ident => ?_⟩
  · rw [hexec, readHeader_foreign h]
    rfl
  · rw [hexec, readHeader, readFirst_some h0, andThen_ok, validateMagic_short hm hlen]
    exact ⟨_, rfl, rfl, rfl, rfl, rfl, rfl⟩
  · rw [hexec, readHeader, readFirst_some (srcLen_ne_zero_of_headerOk h), andThen_ok, validateMagic_whole h]
    exact ⟨_, rfl, rfl, rfl, rfl, rfl, rfl⟩
  · have hword : exec (.header magic size ident) s = settle (validateHeader magic
        (fun a => (magic :: size ++ [ident]).getD a 0) (magic :: size ++ [ident]).length s) := rfl
    have hlength : (magic :: size ++ [ident]).length = size.length + 2 := by simp
    rw [hword, hlength]
    rcases validateHeader_cases magic (fun a => (magic :: size ++ [ident]).getD a 0) (size.length + 2) s with
      ⟨hm, h⟩ | ⟨hm, hlen, h⟩ | ⟨hm, hlen, h⟩ <;> rw [h]
    · exact ⟨fun _ => rfl, fun e => absurd e hm, fun e => absurd e hm⟩
    · rw [Fmt.hdrLen] at hlen
      exact ⟨fun e => absurd hm e, fun _ _ => rfl, fun _ _ => by omega⟩
    · rw [Fmt.hdrLen] at hlen
      refine ⟨fun e => absurd hm e, fun _ _ => by omega, fun _ hsize => ?_⟩
      rw [headerWord_size magic ident hsize, Nat.add_comm 1]
      rfl

/-! ## The mode checks (rules R266, R271, R363) -/

theorem reservedModes_iff (k : Construction) (b : BitVec 8) :
    reservedModes k b = true ↔ cmodeOf b ∉ k.recognized ∨ hmodeOf b = 3 ∨ 5 ≤ (omodeOf b).toNat := by
  simp only [reservedModes, Bool.or_eq_true, decide_eq_true_eq, or_assoc]

theorem checkModes_reserved {k : ErrKind} {s : State} (h : reservedModes s.kon s.ident = true) :
    checkModes k s = .raised k s := if_pos h

theorem checkModes_unimplemented {k : ErrKind} {s : State} (h : reservedModes s.kon s.ident = false)
    (hc : cmodeOf s.ident ∉ s.kon.implemented) : checkModes k s = .raised .unimplementedTransform s := by
  rw [checkModes, h]
  exact if_pos hc

theorem checkModes_implemented {k : ErrKind} {s : State} (h : modesOk s.kon s.ident) :
    checkModes k s = .ok () (s.withHw (widthOf (hmodeOf s.ident))) := by
  obtain ⟨hres, himp⟩ := h
  rw [checkModes, hres]
  exact if_neg (not_not_intro himp)

theorem checkConfig_valid {s : State} (h : s.cfgValid = true) :
    checkConfig s = checkModes .unsupportedMode (s.withIdent s.cfgIdent) := if_pos h

theorem checkConfig_invalid {s : State} (h : s.cfgValid = false) :
    checkConfig s = .raised .notConfiguredForCompression s := by
  rw [checkConfig, h]
  rfl

/-- Settles O52: both rows are the mode check, of `SRC`'s ident byte or of the configuration's. -/
theorem modeChecks : Obligations.ModeChecks := by
  intro s i s' reserved hcase
  have hinvalid : s.cfgValid = false → exec .checkConfig s = .next (takeError .notConfiguredForCompression s) := fun h => by
    change settle (checkConfig s) = _
    rw [checkConfig_invalid h]
    rfl
  have hrow : exec i s = settle (checkModes reserved s') ∧ s'.kon = s.kon ∧ s'.call = s.call := by
    rcases hcase with ⟨rfl, rfl, rfl⟩ | ⟨rfl, hvalid, rfl, rfl⟩
    · exact ⟨rfl, rfl, rfl⟩
    · exact ⟨congrArg settle (checkConfig_valid hvalid), rfl, rfl⟩
  obtain ⟨hexec, hkon, hcall⟩ := hrow
  rw [hexec, ← hkon, ← hcall]
  refine ⟨fun h => ?_, fun hrec hh ho => ⟨fun himp => ?_, fun himp => ?_⟩, hinvalid⟩
  · rw [checkModes_reserved ((reservedModes_iff _ _).2 h)]
    rfl
  all_goals
    have hres : reservedModes s'.kon s'.ident = false := by
      rw [Bool.eq_false_iff, ne_eq, reservedModes_iff]
      rintro (h | h | h)
      · exact h hrec
      · exact hh h
      · omega
  · rw [checkModes_unimplemented hres himp]
    rfl
  · rw [checkModes_implemented ⟨hres, himp⟩]
    rfl

/-! ## `Deobfuscate` (rules R241, R247, R269) -/

theorem deobfuscate_none {s : State} (h : omodeOf s.ident = 0) : deobfuscate s = .ok () s := if_pos h

theorem deobfuscate_reserved {s : State} (h : 5 ≤ (omodeOf s.ident).toNat) : deobfuscate s = .raised .corruptStream s := by
  have h0 : omodeOf s.ident ≠ 0 := fun h0 => by rw [h0] at h; exact absurd h (by decide)
  rw [deobfuscate, if_neg h0, if_pos h]

theorem deobfuscate_transform {s : State} (h0 : omodeOf s.ident ≠ 0) (h : (omodeOf s.ident).toNat < 5) :
    deobfuscate s = .ok () (mapDst (deobfOf s.kon (omodeOf s.ident).toNat) s) := by
  rw [deobfuscate, if_neg h0, if_neg (by omega)]

theorem deobfOf_reference {k : Construction} (h : k.obf = .reference) (m : Nat) :
    deobfOf k (m + 1) = deobfReference (m + 1) := by
  obtain ⟨mt, im, re, obf, pr⟩ := k
  obtain rfl : obf = .reference := h
  rfl

/-- Under the reference table the phase is the row of its mode. -/
theorem settle_deobfuscate_reference {s : State} (href : s.kon.obf = .reference) {o : BitVec 3} (h : omodeOf s.ident = o)
    (h0 : o ≠ 0) (h5 : o.toNat < 5) : settle (deobfuscate s) = .next (mapDst (deobfReference o.toNat) s) := by
  have hpos : o.toNat ≠ 0 := fun e => h0 (BitVec.eq_of_toNat_eq e)
  obtain ⟨m, hm⟩ := Nat.exists_eq_succ_of_ne_zero hpos
  subst h
  rw [deobfuscate_transform h0 h5, hm, deobfOf_reference href]
  rfl

/-- Settles O54: by the cases of the phase. -/
theorem deobfuscatePhase : Obligations.DeobfuscatePhase := by
  intro s
  have hexec : exec .deobfuscate s = settle (deobfuscate s) := rfl
  rw [hexec]
  refine ⟨fun h => ?_, fun href => ⟨fun h => ?_, fun h => ?_, fun h => ?_, fun h => ?_⟩, fun h0 h5 => ?_, fun h => ?_⟩
  · rw [deobfuscate_none h]
    rfl
  · exact settle_deobfuscate_reference href h (by decide) (by decide)
  · exact settle_deobfuscate_reference href h (by decide) (by decide)
  · exact settle_deobfuscate_reference href h (by decide) (by decide)
  · exact settle_deobfuscate_reference href h (by decide) (by decide)
  · rw [deobfuscate_transform h0 h5]
    rfl
  · rw [deobfuscate_reserved h]
    rfl

/-! ## DECODE up to the payload (rules R264 to R268) -/

theorem exec_decode {s : State} (hbusy : s.busy = false) : exec .decode s = .next (endDecode (runDecode s)) :=
  hostMove_idle hbusy _

/-- The phases of DECODE after the mode checks. -/
def payloadPhases (s : State) : Run State Unit :=
  (decodePayload (setPhase .decode s)).andThen fun _ s =>
    if hasTransform s then deobfuscate (setPhase .deobfuscate s) else .ok () s

theorem runDecode_foreign {s : State} (h : s.foreign) : ∃ p, runDecode s = .raised .formatMismatch (startCommand p s) := by
  by_cases h0 : s.srcLen = 0
  · exact ⟨.readHeader, by rw [runDecode, readFirst, if_pos (show (startCommand .readHeader s).srcLen = 0 from h0)]; rfl⟩
  · refine ⟨.validateMagic, ?_⟩
    have hm : validateMagic (s.src.read 0) (startCommand .validateMagic s) =
        .raised .formatMismatch (startCommand .validateMagic s) := if_pos (h.resolve_left h0)
    rw [runDecode, readFirst_some (s := startCommand .readHeader s) h0, andThen_ok]
    exact congrArg (Run.andThen · _) hm

theorem runDecode_short {s : State} (h0 : s.srcLen ≠ 0) (hm : s.src.read 0 = s.fmt.magic) (hlen : s.srcLen < s.fmt.hdrLen) :
    runDecode s = .raised .corruptStream (clearDst (startCommand .validateMagic s)) := by
  rw [runDecode, readFirst_some (s := startCommand .readHeader s) h0, andThen_ok]
  exact congrArg (Run.andThen · _) (validateMagic_short (s := startCommand .validateMagic s) hm hlen)

/-- With a whole header DECODE comes to the mode checks. -/
theorem runDecode_headerOk {s : State} (h : s.headerOk) : runDecode s =
    (dispatchModes (latchHeader (startCommand .dispatchModes s))).andThen fun _ t => payloadPhases t := by
  rw [runDecode, readFirst_some (s := startCommand .readHeader s) (srcLen_ne_zero_of_headerOk h), andThen_ok]
  exact congrArg (Run.andThen · _) (validateMagic_whole (s := startCommand .validateMagic s) h)

/-- With implemented modes DECODE comes to the payload. -/
theorem runDecode_modesOk {s : State} (h : s.headerOk) (hmodes : modesOk s.kon s.srcIdent) : runDecode s =
    payloadPhases ((latchHeader (startCommand .dispatchModes s)).withHw (widthOf (hmodeOf s.srcIdent))) := by
  rw [runDecode_headerOk h, dispatchModes, checkModes_implemented (s := latchHeader (startCommand .dispatchModes s)) hmodes]
  rfl

/-- Data of size 0 has no payload (rule R267). -/
theorem payloadPhases_empty {s : State} (h : s.dsize = 0) : payloadPhases s = .ok () (setPhase .decode s) := by
  have hno : hasTransform (setPhase .decode s) = false := by
    rw [hasTransform, show (setPhase .decode s).dsize = 0 from h]
    exact Bool.and_false _
  rw [payloadPhases, decodePayload, if_pos (show (setPhase .decode s).dsize = 0 from h), andThen_ok, hno]
  rfl

/-- Settles O55: how DECODE runs up to the payload. -/
theorem decodeHeaderOutcomes : Obligations.DecodeHeaderOutcomes := by
  intro s hbusy
  rw [exec_decode hbusy]
  refine ⟨fun h => ?_, fun h0 hm hlen => ?_, fun h => ⟨fun hres => ?_, fun hres himp => ?_, fun hmodes h0 => ?_⟩⟩
  · obtain ⟨p, hrun⟩ := runDecode_foreign h
    rw [hrun]
    exact ⟨_, rfl, rfl, rfl, rfl, rfl, rfl, rfl⟩
  · rw [runDecode_short h0 hm hlen]
    exact ⟨_, rfl, rfl, rfl, rfl, rfl⟩
  · rw [runDecode_headerOk h, dispatchModes, checkModes_reserved (s := latchHeader (startCommand .dispatchModes s)) hres]
    exact ⟨_, rfl, rfl, rfl, rfl, rfl⟩
  · rw [runDecode_headerOk h, dispatchModes,
      checkModes_unimplemented (s := latchHeader (startCommand .dispatchModes s)) hres himp]
    exact ⟨_, rfl, rfl, rfl, rfl, rfl⟩
  · rw [runDecode_modesOk h hmodes, payloadPhases_empty h0]
    exact ⟨_, rfl, rfl, rfl, rfl, h0, rfl⟩

/-! ## ENCODE and its configuration (rules R271, R272, R275) -/

theorem exec_encode {s : State} (hbusy : s.busy = false) (hmax : s.srcLen ≤ s.fmt.maxInput) :
    exec .encode s = .next (endEncode (runEncode s)) :=
  (hostMove_idle hbusy _).trans (if_neg (by omega))

/-- The kind of the error that modes which are not all implemented give ENCODE (rule R271). -/
theorem checkModes_refused {s : State} (h : ¬ modesOk s.kon s.ident) : checkModes .unsupportedMode s =
    .raised (if reservedModes s.kon s.ident then .unsupportedMode else .unimplementedTransform) s := by
  by_cases hres : reservedModes s.kon s.ident = true
  · rw [checkModes_reserved hres, if_pos hres]
  · rw [checkModes_unimplemented (Bool.eq_false_iff.2 hres) fun himp => h ⟨Bool.eq_false_iff.2 hres, himp⟩, if_neg hres]

/-- The state in which ENCODE has materialised its input. -/
def materialized (s : State) : State :=
  materialize (setPhase .materialize
    (((startCommand .checkConfig s).withIdent s.cfgIdent).withHw (widthOf (hmodeOf s.cfgIdent))))

/-- With implemented modes ENCODE comes to its input. -/
theorem runEncode_modesOk {s : State} (hvalid : s.cfgValid = true) (hmodes : modesOk s.kon s.cfgIdent) : runEncode s =
    if (materialized s).dsize = 0 then .ok () (writeHeader (setPhase .writeHeader (materialized s)))
    else Machine.encodePhases (materialized s) := by
  rw [runEncode, checkConfig_ok (s := startCommand .checkConfig s) hvalid hmodes]
  rfl

/-- The container of no data is a header. -/
theorem writeHeader_empty {s : State} (h : s.dsize = 0) :
    writeHeader s = s.withDst (s.dst.writeList 0 (headerBytes s)) s.fmt.hdrLen := if_pos h

theorem slice_header (s : State) (m : Mem) : (m.writeList 0 (headerBytes s)).slice 0 s.fmt.hdrLen = headerBytes s := by
  rw [← headerBytes_length s]
  exact slice_writeList_self _ 0 _

/-- Settles O57: how ENCODE runs up to its input, and its output when that is empty. -/
theorem encodeConfigOutcomes : Obligations.EncodeConfigOutcomes := by
  intro s hbusy
  refine ⟨fun hmax => (hostMove_idle hbusy _).trans (if_pos hmax), fun hmax => ?_⟩
  rw [exec_encode hbusy hmax]
  refine ⟨fun hvalid => ?_, fun hvalid hmodes => ?_, fun hvalid hmodes h0 => ?_⟩
  · rw [runEncode, checkConfig_invalid (s := startCommand .checkConfig s) hvalid]
    exact ⟨_, rfl, rfl, rfl, rfl, rfl, rfl, rfl⟩
  · have hrefused := checkModes_refused (s := (startCommand .checkConfig s).withIdent s.cfgIdent) hmodes
    rw [runEncode, (checkConfig_valid (s := startCommand .checkConfig s) hvalid).trans hrefused]
    exact ⟨_, rfl, rfl, rfl, rfl, rfl, rfl, rfl⟩
  · have h0' : (materialized s).dsize = 0 := h0
    rw [runEncode_modesOk hvalid hmodes, if_pos h0', writeHeader_empty (s := setPhase .writeHeader (materialized s)) h0']
    refine ⟨_, rfl, rfl, rfl, h0, rfl, rfl, ?_⟩
    have hslice := slice_header (setPhase .writeHeader (materialized s)) (materialized s).dst
    have hbytes : headerBytes (setPhase .writeHeader (materialized s)) =
        s.fmt.magic :: leBytes s.fmt.sizeBytes 0 ++ [s.cfgIdent] := by
      rw [headerBytes, show (setPhase .writeHeader (materialized s)).dsize = 0 from h0]
      rfl
    exact hslice.trans hbytes

end Sys2Proof.Machine
end

section
/-! PROOF. DECODE of a well-formed container: obligation O56. -/

namespace Sys2Proof.Machine

/-! ## The tree table, where there is one (rules R268, R216) -/

theorem widthOf_eq_raw (h : BitVec 2) : widthOf h = .raw ↔ h = 0 := by
  revert h
  decide

/-- `deserialise` on the bits of a tree table. -/
theorem deserialise_bits {s : State} {levels : List (List Byte)} {rest : List Bool} (hlen : levels.length = 16)
    (hwf : treeLevelsWf s.call.hw 1 2 levels = true) (hfits : (slotsLeft 2 (levels.map List.length)).isSome = true)
    (h : s.bitsAhead = tableStream s.fmt s.call.hw levels ++ rest) :
    ∃ r, deserialise s = .ok () (s.withTabReader (tabOf levels, r)) ∧ (s.withTabReader (tabOf levels, r)).bitsAhead = rest := by
  rcases deserLevels_cases (e := s.readEnv) (t := s.call.ht.empty) hwf h with ⟨-, r, hread, hrest⟩ | ⟨hover, -⟩
  · rw [hlen, fillFrom_empty hlen] at hread
    exact ⟨r, by rw [deserialise, deserTab, hread, lift_ok], hrest⟩
  · rw [hover] at hfits
    cases hfits

/-- What the stream of a container holds: the bits of a tree table, where the huffman mode has one, those of the tokens, and
then any (rules R91, R98). -/
def streamHolds (f : Fmt) (w : SymWidth) (levels : List (List Byte)) (bits rest stream : List Bool) : Prop :=
  w = .raw ∧ stream = bits ++ rest ∨
    w ≠ .raw ∧ levels.length = 16 ∧ treeLevelsWf w 1 2 levels = true ∧
      (slotsLeft 2 (levels.map List.length)).isSome = true ∧ stream = tableStream f w levels ++ (bits ++ rest)

/-- On the raw path no table is asked. -/
theorem tokensSay_raw {f : Fmt} {row : ModeRow} {t t' : HuffTab} {ks : List Token} {bits : List Bool}
    (h : tokensSay f row .raw t ks bits) : tokensSay f row .raw t' ks bits := by
  induction ks generalizing bits with
  | nil => exact h
  | cons k ks ih =>
    obtain ⟨b, c, hbits, hk, hks⟩ := h
    refine ⟨b, c, hbits, ?_, ih hks⟩
    cases k <;> exact hk

/-- The table of the stream, where it has one, is read, and the tokens are those of the table read. -/
theorem decodeTable_says {s : State} {row : ModeRow} {levels : List (List Byte)} {ks : List Token} {bits rest : List Bool}
    (hstream : streamHolds s.fmt s.call.hw levels bits rest s.bitsAhead)
    (hsay : tokensSay s.fmt row s.call.hw (tabOf levels) ks bits) :
    ∃ x, (if s.call.hw = .raw then .ok () s else deserialise s) = .ok () (s.withTabReader x) ∧
      (s.withTabReader x).bitsAhead = bits ++ rest ∧ (s.call.hw = .raw ∨ x.1.fits) ∧
      tokensSay s.fmt row s.call.hw x.1 ks bits := by
  rcases hstream with ⟨hraw, hahead⟩ | ⟨hw, hlen, hwf, hfits, hahead⟩
  · rw [hraw] at hsay ⊢
    exact ⟨(s.call.ht, s.call.rd), if_pos rfl, hahead, .inl rfl, tokensSay_raw hsay⟩
  · obtain ⟨r, hrun, hrest⟩ := deserialise_bits hlen hwf hfits hahead
    refine ⟨(tabOf levels, r), by rw [if_neg hw, hrun], hrest, .inr ?_, hsay⟩
    rwa [HuffTab.fits, counts_tabOf hlen]

/-! ## The payload (rules R267 to R269) -/

/-- `Decode` of data that is not empty: the tree table, then the tokens. -/
theorem decodePayload_of_data {s : State} (h0 : s.dsize ≠ 0) : decodePayload s =
    (if (openReader s).call.hw = .raw then .ok () (openReader s) else deserialise (openReader s)).andThen
      fun _ t => withRow t fun row => tokenLoop row t := if_neg h0

/-- The phase `Decode` on a stream of tokens whose output has the declared size. -/
theorem decodePayload_says {s : State} {row : ModeRow} {levels : List (List Byte)} {ks : List Token}
    {bits rest : List Bool} {out : List Byte} (hrow : s.row = some row) (hmin : 1 ≤ row.minLen) (h0 : s.dsize ≠ 0)
    (hstart : s.dstLen = 0) (hstream : streamHolds s.fmt s.call.hw levels bits rest s.containerBits)
    (hsay : tokensSay s.fmt row s.call.hw (tabOf levels) ks bits) (hexpand : expandAll ks [] = some out)
    (hlen : out.length = s.dsize) :
    ∃ t, decodePayload s = .ok () t ∧ t.output = out ∧ t.kon = s.kon ∧ t.ident = s.ident ∧ t.dsize = s.dsize := by
  obtain ⟨x, htable, hahead, hfits, hsay⟩ := decodeTable_says (s := openReader s) hstream hsay
  have hempty : ((openReader s).withTabReader x).output = [] := by
    rw [State.output, show ((openReader s).withTabReader x).dstLen = 0 from hstart]
    rfl
  obtain ⟨t, hrun, hout, -⟩ := tokenLoopFrom_says (s := (openReader s).withTabReader x) hmin hfits hsay hahead
    (by rw [hempty]; exact hexpand) hlen (Nat.le_refl _)
  have hdecoded := decoded_tokenLoopFrom row (s.dsize - s.dstLen) ((openReader s).withTabReader x)
  rw [show tokenLoopFrom row (s.dsize - s.dstLen) ((openReader s).withTabReader x) = .ok () t from hrun, state_ok] at hdecoded
  obtain ⟨-, hkon, hident, hdsize⟩ := hdecoded.registers
  refine ⟨t, ?_, hout, hkon, hident, hdsize⟩
  rw [decodePayload_of_data h0, htable, andThen_ok, withRow, show ((openReader s).withTabReader x).row = some row from hrow]
  exact hrun

/-- A transform over the whole output. -/
theorem output_mapDst {s : State} (h : s.dstLen = s.dsize) {g : List Byte → List Byte} (hg : ∀ B, (g B).length = B.length) :
    (mapDst g s).output = g s.output := by
  have hlen : (g s.output).length = s.dstLen := by rw [hg, output_length]
  have hslice := slice_writeList_self s.dst 0 (g s.output)
  rw [hlen] at hslice
  change (s.dst.writeList 0 (g (s.dst.slice 0 s.dsize))).slice 0 s.dstLen = _
  rw [← h]
  exact hslice

theorem deobfOf_zero (k : Construction) : deobfOf k 0 = id := by
  unfold deobfOf
  cases k.obf <;> rfl

/-- The phase `Deobfuscate`, where it runs, leaves the inverse transform of the output; where it does not, that is the output
itself (rules R241, R269). -/
theorem deobfuscatePhase_output {s : State} (h0 : s.dsize ≠ 0) (hlen : s.dstLen = s.dsize)
    (ho : (omodeOf s.ident).toNat < 5) :
    ∃ t, (if hasTransform s then deobfuscate (setPhase .deobfuscate s) else .ok () s) = .ok () t ∧
      t.output = deobfOf s.kon (omodeOf s.ident).toNat s.output ∧ t.ident = s.ident ∧ t.dsize = s.dsize ∧
      t.dstLen = s.dstLen := by
  by_cases hnone : omodeOf s.ident = 0
  · have hno : hasTransform s = false := by simp [hasTransform, hnone]
    refine ⟨s, by rw [hno]; rfl, ?_, rfl, rfl, rfl⟩
    rw [hnone, show (0 : BitVec 3).toNat = 0 from rfl, deobfOf_zero]
    rfl
  · have hyes : hasTransform s = true := by
      rw [hasTransform, decide_eq_true hnone, decide_eq_true h0]
      rfl
    have hrun := deobfuscate_transform (s := setPhase .deobfuscate s) hnone ho
    refine ⟨_, (if_pos hyes).trans hrun, ?_, rfl, rfl, rfl⟩
    exact output_mapDst (s := setPhase .deobfuscate s) hlen (deobfOf_length s.kon _)

/-- No implemented transform mode is above 4. -/
theorem omode_lt_of_modesOk {k : Construction} {b : BitVec 8} (h : modesOk k b) : (omodeOf b).toNat < 5 := by
  obtain ⟨hres, -⟩ := h
  rw [Bool.eq_false_iff, ne_eq, reservedModes_iff] at hres
  exact Nat.lt_of_not_le fun ho => hres (.inr (.inr ho))

/-! ## DECODE -/

/-- DECODE of a container whose stream holds tokens. -/
theorem runDecode_says {s : State} {row : ModeRow} {levels : List (List Byte)} {ks : List Token}
    {bits rest : List Bool} {out : List Byte} (hhead : s.headerOk) (hmodes : modesOk s.kon s.srcIdent)
    (h0 : s.srcSize ≠ 0) (hrow : s.kon.row (cmodeOf s.srcIdent) = some row) (hmin : 1 ≤ row.minLen)
    (hstream : streamHolds s.fmt (widthOf (hmodeOf s.srcIdent)) levels bits rest s.containerBits)
    (hsay : tokensSay s.fmt row (widthOf (hmodeOf s.srcIdent)) (tabOf levels) ks bits)
    (hexpand : expandAll ks [] = some out) (hlen : out.length = s.srcSize) :
    ∃ t, runDecode s = .ok () t ∧ t.output = deobfOf s.kon (omodeOf s.srcIdent).toNat out ∧ t.ident = s.srcIdent ∧
      t.dsize = s.srcSize ∧ t.dstLen = s.srcSize := by
  obtain ⟨u, hrun, hout, hkon, hident, hdsize⟩ := decodePayload_says (row := row) (s := setPhase .decode
    ((latchHeader (startCommand .dispatchModes s)).withHw (widthOf (hmodeOf s.srcIdent))))
    hrow hmin h0 rfl hstream hsay hexpand hlen
  have hkon : u.kon = s.kon := hkon
  have hident : u.ident = s.srcIdent := hident
  have hdsize : u.dsize = s.srcSize := hdsize
  have hdst : u.dstLen = s.srcSize := by rw [← output_length, hout, hlen]
  obtain ⟨t, hphase, htout, htident, htdsize, htlen⟩ := deobfuscatePhase_output (s := u) (by rwa [hdsize])
    (hdst.trans hdsize.symm) (by rw [hident]; exact omode_lt_of_modesOk hmodes)
  refine ⟨t, ?_, by rw [htout, hkon, hident, hout], htident.trans hident, htdsize.trans hdsize, htlen.trans hdst⟩
  rw [runDecode_modesOk hhead hmodes, payloadPhases, hrun, andThen_ok, hphase]

/-- The row of an implemented mode of a well-formed record is well formed. -/
theorem row_wf {f : Fmt} {k : Construction} {c : BitVec 3} {row : ModeRow} (h : recordWf f k = true)
    (hc : c ∈ k.implemented) (hrow : k.row c = some row) : row.wf = true := by
  obtain ⟨row', hrow', hwf⟩ := row_of_implemented h hc
  obtain rfl : row' = row := Option.some.inj (hrow'.symm.trans hrow)
  exact hwf

/-- Settles O56: the stream's table is read, its tokens give the output, and the output is transformed back. -/
theorem decodeContainer : Obligations.DecodeContainer := by
  intro s row levels ks bits rest out hbusy hrecord hhead hmodes h0 hrow hstream hsay hexpand hlen _
  have hwf := row_wf hrecord hmodes.2 hrow
  have hraw := widthOf_eq_raw (hmodeOf s.srcIdent)
  have hstream : streamHolds s.fmt (widthOf (hmodeOf s.srcIdent)) levels bits rest s.containerBits := by
    rwa [streamHolds, ne_eq, hraw]
  obtain ⟨t, hrun, hout, hident, hdsize, hdst⟩ :=
    runDecode_says hhead hmodes h0 hrow (minLen_pos_of_wf hwf) hstream hsay hexpand hlen
  rw [exec_decode hbusy, hrun]
  rw [State.output, hdst] at hout
  exact ⟨_, rfl, rfl, rfl, hident, hdsize, hdst, hout⟩

end Sys2Proof.Machine
end

section
/-! SUPPORT. What ENCODE writes is what DECODE reads: the tokens of a parse give the buffer back, the codes `BuildTree` assigns
are those of the table it writes, and the bits of the tokens stand for them under that table. -/

namespace Sys2Proof.Machine

/-! ## The tokens give the buffer back (rules R70, R160, R188) -/

/-- A copy on the bytes before a valid match gives the bytes up to its end. -/
theorem copyTail_take {B : List Byte} {p l d : Nat} (hpos : 1 ≤ d) (hd : d ≤ p) (hend : p + l ≤ B.length)
    (hsame : ∀ i, i < l → B[p - d + i]? = B[p + i]?) : copyTail d l (B.take p) = B.take (p + l) := by
  induction l generalizing p with
  | zero => rfl
  | succ l ih =>
    have hp : p < B.length := by omega
    have hbyte : (B.take p).getD ((B.take p).length - d) 0 = B[p] := by
      have hfirst := hsame 0 (Nat.succ_pos l)
      rw [Nat.add_zero, Nat.add_zero, List.getElem?_eq_getElem hp] at hfirst
      rw [List.length_take_of_le hp.le, List.getD_eq_getElem?_getD, List.getElem?_take_of_lt (by omega), hfirst]
      rfl
    rw [copyTail, hbyte, List.take_append_getElem hp, ih (by omega) (by omega) fun i hi => ?_]
    · rw [Nat.add_right_comm, Nat.add_assoc]
    · have hnext := hsame (i + 1) (by omega)
      rwa [show p - d + (i + 1) = p + 1 - d + i by omega, show p + (i + 1) = p + 1 + i by omega] at hnext

/-- Tokens that cover a buffer with valid matches give it back. -/
theorem expandAll_cover {B : List Byte} {p : Nat} {ks : List Token} (hcover : tokensCover B p ks)
    (hvalid : ∀ m ∈ matchesAt p ks, validMatch B m.position m.length m.displacement) :
    expandAll ks (B.take p) = some B := by
  induction ks generalizing p with
  | nil =>
    obtain rfl : p = B.length := hcover
    exact congrArg some List.take_length
  | cons k ks ih =>
    cases k with
    | lit v =>
      obtain ⟨hv, hcover⟩ := hcover
      obtain ⟨hp, rfl⟩ := List.getElem?_eq_some_iff.1 hv
      rw [expandAll, Token.expand, Option.bind_some, List.take_append_getElem hp]
      exact ih hcover hvalid
    | copy l d =>
      obtain ⟨-, hend, hcover⟩ := hcover
      obtain ⟨hfirst, hrest⟩ := List.forall_mem_cons.1 hvalid
      obtain ⟨hpos, hd, -, -, hsame⟩ := hfirst
      have hlen : (B.take p).length = p := List.length_take_of_le (by omega)
      rw [expandAll, Token.expand, if_pos ⟨hpos, by rwa [hlen]⟩, Option.bind_some, copyTail_take hpos hd hend hsame]
      exact ih hcover hrest

/-- The byte of a literal token stands at a position that no match covers. -/
theorem exists_position_of_lit {B : List Byte} {p : Nat} {ks : List Token} {v : Byte} (hcover : tokensCover B p ks)
    (h : Token.lit v ∈ ks) : ∃ q, p ≤ q ∧ B[q]? = some v ∧ ∀ m ∈ matchesAt p ks, ¬ m.covers q = true := by
  induction ks generalizing p with
  | nil => cases h
  | cons k ks ih =>
    cases k with
    | lit b =>
      obtain ⟨hb, hcover⟩ := hcover
      rcases List.mem_cons.1 h with heq | h
      · obtain rfl : v = b := Token.lit.inj heq
        refine ⟨p, Nat.le_refl p, hb, fun m hm hcovers => ?_⟩
        have hpos : p + 1 ≤ m.position := le_position_of_mem_matchesAt hm
        simp only [LzMatch.covers, Bool.and_eq_true, decide_eq_true_eq] at hcovers
        omega
      · obtain ⟨q, hq, hv, hfree⟩ := ih hcover h
        exact ⟨q, by omega, hv, hfree⟩
    | copy l d =>
      obtain ⟨-, -, hcover⟩ := hcover
      obtain ⟨q, hq, hv, hfree⟩ := ih hcover ((List.mem_cons.1 h).resolve_left Token.noConfusion)
      refine ⟨q, by omega, hv, List.forall_mem_cons.2 ⟨fun hcovers => ?_, hfree⟩⟩
      simp only [LzMatch.covers, Bool.and_eq_true, decide_eq_true_eq] at hcovers
      omega

/-- The byte of a literal token is a residual literal (rule R201). -/
theorem mem_residualLiterals_of_lit {B : List Byte} {ks : List Token} {v : Byte} (hcover : tokensCover B 0 ks)
    (h : Token.lit v ∈ ks) : v ∈ residualLiterals B (matchesAt 0 ks) := by
  obtain ⟨q, -, hv, hfree⟩ := exists_position_of_lit hcover h
  obtain ⟨hq, rfl⟩ := List.getElem?_eq_some_iff.1 hv
  have hmem := mem_residualLiterals hq hfree
  rwa [List.getD_eq_getElem _ _ hq] at hmem

/-- The first token is a literal: no match reaches before the first byte. -/
theorem exists_lit_of_cover {B : List Byte} {ks : List Token} (hne : B ≠ []) (hcover : tokensCover B 0 ks)
    (hvalid : ∀ m ∈ matchesAt 0 ks, validMatch B m.position m.length m.displacement) : ∃ v, Token.lit v ∈ ks := by
  cases ks with
  | nil => exact absurd (List.length_eq_zero_iff.1 hcover.symm) hne
  | cons k ks =>
    cases k with
    | lit v => exact ⟨v, List.mem_cons_self⟩
    | copy l d =>
      obtain ⟨hpos, hd, -⟩ := (List.forall_mem_cons.1 hvalid).1
      exact absurd (hpos.trans hd) (Nat.not_succ_le_zero 0)

/-- The bits of tokens stand for them, where those of each literal's value do. -/
theorem tokensSay_stream {f : Fmt} {row : ModeRow} {w : SymWidth} {t : HuffTab} {code : Nat → HuffCode} {B : List Byte}
    {p : Nat} {ks : List Token} (hvalues : ∀ v, Token.lit v ∈ ks → saysValue f w t v (valueStream f w code v))
    (hmatches : ∀ m ∈ matchesAt p ks, encodableMatch row B m.position m.length m.displacement) :
    tokensSay f row w t ks (ks.flatMap fun k => k.stream f row w code) := by
  induction ks generalizing p with
  | nil => rfl
  | cons k ks ih =>
    have hrest : ∀ v, Token.lit v ∈ ks → saysValue f w t v (valueStream f w code v) :=
      fun v hv => hvalues v (List.mem_cons_of_mem _ hv)
    cases k with
    | lit v => exact ⟨_, _, List.flatMap_cons, ⟨_, rfl, hvalues v List.mem_cons_self⟩, ih hrest hmatches⟩
    | copy l d =>
      obtain ⟨hfirst, hmatches⟩ := List.forall_mem_cons.1 hmatches
      obtain ⟨⟨hpos, -⟩, hmin, hmax, hfar⟩ := hfirst
      exact ⟨_, _, List.flatMap_cons, ⟨hmin, hmax, hpos, hfar, rfl⟩, ih hrest hmatches⟩

/-! ## The codes are those of the table (rules R97, R212) -/

theorem levelCodes_symbols (d first : Nat) (levels : List (List Byte)) :
    (levelCodes d first levels).map Prod.fst = levels.flatten := by
  induction levels generalizing d first with
  | nil => rfl
  | cons l ls ih =>
    rw [levelCodes, List.map_append, List.map_map, ih, List.flatten_cons]
    exact congrArg (· ++ ls.flatten) (List.zipIdx_map_fst 0 l)

/-- A table of sixteen levels gives each symbol it lists one code. -/
theorem codeList_symbols {levels : List (List Byte)} (h : levels.length = 16) :
    (tabOf levels).codeList.map Prod.fst = levels.flatten := by
  rw [HuffTab.codeList, counts_tabOf h, levelCodes_symbols]
  exact congrArg List.flatten (splitLevels_flatten levels)

section
variable {w : SymWidth} {F : List Nat} {levels : List (List Byte)} (h : SoundLevels w (livingSymbols w F) levels)
include h

theorem SoundLevels.slots (hne : livingSymbols w F ≠ []) : (slotsLeft 2 (levels.map List.length)).isSome = true := by
  rcases Nat.lt_or_ge (livingSymbols w F).length 2 with hlt | hge
  · rw [h.single (Nat.le_antisymm (Nat.le_of_lt_succ hlt) (List.length_pos_iff.2 hne))]
    decide
  · rw [h.full hge]
    rfl

theorem SoundLevels.fits (hne : livingSymbols w F ≠ []) : (tabOf levels).fits := by
  rw [HuffTab.fits, counts_tabOf h.length]
  exact h.slots hne

/-- The symbols of the table are listed once each, and are of the alphabet. -/
theorem SoundLevels.symbols : levels.flatten.Nodup ∧ ∀ b ∈ levels.flatten, b.toNat < alphabet w := by
  have hlt : ∀ x ∈ livingSymbols w F, x % 2 ^ 8 = x := fun x hx =>
    Nat.mod_eq_of_lt ((mem_livingSymbols.1 hx).1.trans_le (alphabet_le w))
  refine ⟨h.perm.nodup_iff.2 (List.Nodup.map_on (fun x hx y hy heq => ?_) (List.Nodup.filter _ List.nodup_range)),
    fun b hb => ?_⟩
  · have hnat := congrArg BitVec.toNat heq
    rwa [BitVec.toNat_ofNat, BitVec.toNat_ofNat, hlt x hx, hlt y hy] at hnat
  · obtain ⟨x, hx, rfl⟩ := List.mem_map.1 (h.perm.mem_iff.1 hb)
    rw [BitVec.toNat_ofNat, hlt x hx]
    exact (mem_livingSymbols.1 hx).1

/-- The code sent for a symbol of the table is the one the table gives it. -/
theorem SoundLevels.code_mem {x : Nat} (hx : x ∈ livingSymbols w F) (draws : Nat) :
    (BitVec.ofNat 8 x, (codeFor draws (codesOf w (tabOf levels)) x).bits) ∈ (tabOf levels).codeList := by
  obtain ⟨hnodup, hlt⟩ := h.symbols
  have hsyms := codeList_symbols h.length
  obtain ⟨t, hexec, -, -, hcodes, -⟩ := assignedCodesPrefixFree
    { State.reset with call := { Call.reset with hw := w, ht := tabOf levels } } (h.fits (List.ne_nil_of_mem hx))
    (hsyms ▸ hnodup) fun p hp => hlt p.1 (hsyms ▸ List.mem_map_of_mem hp)
  obtain rfl := Host.Outcome.next.inj hexec
  obtain ⟨⟨sym, bits⟩, hmem, hsym⟩ : ∃ p ∈ (tabOf levels).codeList, p.1 = BitVec.ofNat 8 x := List.mem_map.1 (by
    rw [hsyms, h.perm.mem_iff]
    exact List.mem_map_of_mem hx)
  obtain rfl : sym = BitVec.ofNat 8 x := hsym
  obtain ⟨c, hc, -, -, -, rfl⟩ := (hcodes _ bits).1 hmem
  have hnat : (BitVec.ofNat 8 x).toNat = x := Nat.mod_eq_of_lt ((mem_livingSymbols.1 hx).1.trans_le (alphabet_le w))
  rw [hnat] at hc
  have hfor : codeFor draws (codesOf w (tabOf levels)) x = c := by
    rw [codeFor, show (codesOf w (tabOf levels))[x]? = some (some c) from hc]
    rfl
  rw [hfor]
  exact hmem

end

/-- A byte is its high nibble and its low nibble (rule R303). -/
theorem nibbles_join (v : Byte) : v = (BitVec.ofNat 8 (v.toNat / 16) <<< 4) ||| BitVec.ofNat 8 (v.toNat % 16) := by
  revert v
  decide

/-- The bits sent for a byte stand for it, where the codes sent for its symbols are those of the table. -/
theorem saysValue_of_codes {f : Fmt} {w : SymWidth} {t : HuffTab} {code : Nat → HuffCode} {v : Byte}
    (h : ∀ x ∈ symbolsOf w v, (BitVec.ofNat 8 x, (code x).bits) ∈ t.codeList) :
    saysValue f w t v (valueStream f w code v) := by
  cases w with
  | raw => rfl
  | w8 =>
    have hv := h v.toNat (List.mem_singleton_self _)
    rwa [BitVec.ofNat_toNat, BitVec.setWidth_eq] at hv
  | w4 =>
    obtain ⟨hhi, hlo⟩ := List.forall_mem_cons.1 h
    exact ⟨_, _, _, _, nibbles_join v, rfl, hhi, hlo _ (List.mem_singleton_self _)⟩

end Sys2Proof.Machine
end

section
/-! PROOF. The round trip: obligations O59 and O60. ENCODE writes bits that stand for its data, a reader with
the same constants has them ahead, and DECODE reads them. -/

namespace Sys2Proof.Machine

/-! ## Bits that stand for data -/

/-- The bits written stand for the bytes `B`: a tree table, where the huffman mode has one, and tokens that give `B`. -/
def saysData (f : Fmt) (row : ModeRow) (w : SymWidth) (B : List Byte) (written : List Bool) : Prop :=
  ∃ levels ks bits, (∀ rest, streamHolds f w levels bits rest (written ++ rest)) ∧
    tokensSay f row w (tabOf levels) ks bits ∧ expandAll ks [] = some B

/-! ## `BuildTree` (rule R274) -/

/-- What `BuildTree` leaves of counts with a symbol: a sound table of those symbols, and its codes. -/
theorem buildTree_sound {s : State} (hw : s.call.hw ≠ .raw) (hne : livingSymbols s.call.hw (tally s).call.freq ≠ []) :
    ∃ levels, (buildTree s).call.ht = tabOf levels ∧ (buildTree s).call.hcode = codesOf s.call.hw (tabOf levels) ∧
      SoundLevels s.call.hw (livingSymbols s.call.hw (tally s).call.freq) levels := by
  have hbuild : buildTree s = assignCodes (fillTables (canonicalise (limitDepth (tally s)))) := if_neg hw
  have htab : (fillTables (canonicalise (limitDepth (tally s)))).call.ht =
      tabOf (tableLevels (canonicalise (limitDepth (tally s))).tree) := fillTab_eq_tabOf _
  refine ⟨_, by rw [hbuild]; exact htab, ?_, soundLevels_limitLoop hne⟩
  rw [hbuild]
  exact congrArg (codesOf s.call.hw) htab

/-- Every symbol of a residual literal is counted. -/
theorem mem_livingSymbols_of_residual {s : State} {v : Byte} {x : Nat}
    (hv : v ∈ residualLiterals s.workBytes (s.call.mlist.take s.call.mcount)) (hx : x ∈ symbolsOf s.call.hw v) :
    x ∈ livingSymbols s.call.hw (tally s).call.freq :=
  mem_livingSymbols.2 ⟨symbolsOf_lt hx, tallySymbols_pos (symbolsOf_lt hx) (List.mem_flatMap.2 ⟨v, hv, hx⟩)⟩

theorem symbolsOf_ne_nil {w : SymWidth} (hw : w ≠ .raw) (v : Byte) : symbolsOf w v ≠ [] := by
  cases w with
  | raw => exact absurd rfl hw
  | w4 => exact List.cons_ne_nil _ _
  | w8 => exact List.cons_ne_nil _ _

/-- The phase `BuildTree`, where it runs. -/
def buildPhase (s : State) : State := if s.call.hw = .raw then s else buildTree (setPhase .buildTree s)

/-- What the phase `BuildTree` leaves of the state: the Huffman tables may be new. -/
theorem buildPhase_built (s : State) : ∃ p, Built (setPhase p s) (buildPhase s) := by
  by_cases hw : s.call.hw = .raw
  · exact ⟨s.phase, by rw [buildPhase, if_pos hw]; exact Built.refl s⟩
  · exact ⟨.buildTree, by rw [buildPhase, if_neg hw]; exact built_buildTree _⟩

/-- The bits of the tree table `WriteHeader` writes (rule R275). -/
def tableBits (s : State) : List Bool :=
  if s.call.hw = .raw then [] else tableStream s.fmt s.call.hw (splitLevels s.call.ht.counts s.call.ht.hsym)

/-- After the phase `BuildTree` the bits of the table and of the tokens stand for the data. -/
theorem saysData_buildPhase {s : State} {row : ModeRow} {ks : List Token} (hne : s.workBytes ≠ [])
    (hcover : tokensCover s.workBytes 0 ks)
    (hmatches : ∀ m ∈ matchesAt 0 ks, encodableMatch row s.workBytes m.position m.length m.displacement)
    (hlist : s.call.mlist = matchesAt 0 ks) (hcount : s.call.mcount = s.call.mlist.length) :
    saysData s.fmt row s.call.hw s.workBytes
      (tableBits (buildPhase s) ++ ks.flatMap fun k => k.stream s.fmt row s.call.hw (buildPhase s).codeOf) := by
  have hvalid : ∀ m ∈ matchesAt 0 ks, validMatch s.workBytes m.position m.length m.displacement :=
    fun m hm => (hmatches m hm).1
  have hexpand : expandAll ks [] = some s.workBytes := expandAll_cover hcover hvalid
  by_cases hw : s.call.hw = .raw
  · have hphase : buildPhase s = s := if_pos hw
    rw [hphase, tableBits, if_pos hw, hw]
    refine ⟨[], ks, _, fun rest => .inl ⟨rfl, by rw [List.nil_append]⟩, tokensSay_stream (fun v _ => rfl) hmatches,
      hexpand⟩
  · have hphase : buildPhase s = buildTree (setPhase .buildTree s) := if_neg hw
    have hliterals : ∀ v, Token.lit v ∈ ks → ∀ x ∈ symbolsOf s.call.hw v,
        x ∈ livingSymbols s.call.hw (tally s).call.freq := fun v hv x hx => by
      refine mem_livingSymbols_of_residual ?_ hx
      rw [hcount, List.take_length, hlist]
      exact mem_residualLiterals_of_lit hcover hv
    obtain ⟨v, hv⟩ := exists_lit_of_cover hne hcover hvalid
    obtain ⟨x, hx⟩ := List.exists_mem_of_ne_nil _ (symbolsOf_ne_nil hw v)
    have hliving := List.ne_nil_of_mem (hliterals v hv x hx)
    obtain ⟨levels, htab, hcodes, hsound⟩ := buildTree_sound (s := setPhase .buildTree s) hw hliving
    have hbuilt : (buildPhase s).call.hw = s.call.hw ∧ (buildPhase s).fmt = s.fmt := by
      have h := built_buildTree (setPhase .buildTree s)
      rw [hphase, h.whole, withCall_call, h.call]
      exact ⟨rfl, rfl⟩
    obtain ⟨hbw, hbf⟩ := hbuilt
    have hbits : tableBits (buildPhase s) = tableStream s.fmt s.call.hw levels := by
      rw [tableBits, hbw, if_neg hw, hbf, hphase, htab, counts_tabOf hsound.length]
      exact congrArg _ (splitLevels_flatten levels)
    refine ⟨levels, ks, ks.flatMap fun k => k.stream s.fmt row s.call.hw (buildPhase s).codeOf,
      fun rest => .inr ⟨hw, hsound.length, hsound.wf, hsound.slots hliving, ?_⟩,
      tokensSay_stream (fun v hv => saysValue_of_codes fun x hx => ?_) hmatches, hexpand⟩
    · rw [hbits, List.append_assoc]
    · rw [hphase, State.codeOf, hcodes]
      exact hsound.code_mem (hliterals v hv x hx) _

/-! ## ENCODE (rules R270, R275 to R277) -/

/-- `WriteHeader`, `Emit` and the flush, from the matches of tokens: the header, then the bits of the table and the
tokens. -/
theorem emitPhases_bits {s : State} {row : ModeRow} {ks : List Token} (hrow : s.row = some row) (h0 : s.dsize ≠ 0)
    (hcover : tokensCover s.workBytes 0 ks) (hlist : s.call.mlist = matchesAt 0 ks)
    (hcount : s.call.mcount = s.call.mlist.length) :
    ∃ u, emit (setPhase .emit (writeHeader (setPhase .writeHeader s))) = .ok () u ∧
      (flush u).sink = (Sink.putBits s.fmt (tableBits s ++ ks.flatMap fun k => k.stream s.fmt row s.call.hw s.codeOf)
        ⟨openedWriter, s.dst.writeList 0 (headerBytes s), s.fmt.hdrLen⟩).flush s.fmt := by
  have hhead : writeHeader (setPhase .writeHeader s) = (setPhase .writeHeader s).withSink
      (Sink.putBits s.fmt (tableBits s) ⟨openedWriter, s.dst.writeList 0 (headerBytes s), s.fmt.hdrLen⟩) :=
    writeHeader_bits (setPhase .writeHeader s) h0
  have hemit := emitTokens_of_cover (row := row) (s := setPhase .emit (writeHeader (setPhase .writeHeader s))) (ks := ks)
  rw [hhead] at hemit ⊢
  refine ⟨_, emit_of_row hrow, ?_⟩
  rw [hemit hcover hlist hcount, putBits_append]
  rfl

/-- The phases of ENCODE write bits that stand for the transformed data. -/
theorem encodePhases_says {s : State} {row : ModeRow} (hrow : s.row = some row) (hmin : 2 ≤ row.minLen)
    (h0 : s.dsize ≠ 0) {B : List Byte} (hB : B = obfOf s.kon (omodeOf s.ident).toNat s.workBytes)
    (hlen : B.length = s.dsize) :
    ∃ u written, Machine.encodePhases s = .ok () u ∧ saysData s.fmt row s.call.hw B written ∧
      u.sink = (Sink.putBits s.fmt written
        ⟨openedWriter, s.dst.writeList 0 (headerBytes s), s.fmt.hdrLen⟩).flush s.fmt := by
  obtain ⟨m, p, hobf, hwork⟩ := obfuscatePhase_eq h0 hB hlen
  obtain ⟨u, v, ks, c, hfind, hparse, hwalk, hcw, hlist, hcount, hparsed⟩ :=
    parsePhases_tokens (s := setPhase p (s.withWork m)) hrow hmin
  have hbytes : (setPhase p (s.withWork m)).workBytes = B := hwork
  rw [hbytes] at hparsed
  have hmatches := encodable_of_tokensViable (Nat.le_of_succ_le hmin) hparsed.viable
  generalize hs' : (setPhase .parse (setPhase p (s.withWork m))).withCall c = s' at hwalk
  have hw' : s'.workBytes = B := by rw [← hs']; exact hbytes
  obtain ⟨q, hbuilt⟩ := buildPhase_built s'
  have hcall := hbuilt.call
  have hwhole := hbuilt.whole
  obtain ⟨w, hemit, hsink⟩ := emitPhases_bits (s := buildPhase s') (row := row) (ks := ks)
    (by rw [hwhole, ← hs']; exact hrow) (by rw [hwhole, ← hs']; exact h0)
    (by rw [hwhole]; exact hw'.symm ▸ hparsed.cover)
    (by rw [hcall, ← hs']; exact hlist) (by rw [hcall, ← hs']; exact hcount)
  have hsays : saysData s'.fmt row s'.call.hw s'.workBytes _ := saysData_buildPhase (by
    intro hnil
    rw [← hw', hnil] at hlen
    exact h0 hlen.symm) (hw'.symm ▸ hparsed.cover) (hw'.symm ▸ hmatches) (by rw [← hs']; exact hlist)
    (by rw [← hs']; exact hcount)
  rw [hw'] at hsays
  have hfmt' : s'.fmt = s.fmt := by rw [← hs']; rfl
  have hhw' : s'.call.hw = s.call.hw := by rw [← hs']; exact hcw
  have hfmt : (buildPhase s').fmt = s.fmt := by rw [hwhole, ← hs']; rfl
  have hhw : (buildPhase s').call.hw = s.call.hw := by rw [hcall]; exact hhw'
  rw [hfmt', hhw'] at hsays
  rw [hfmt, hhw] at hsink
  refine ⟨flush w, _, ?_, hsays, ?_⟩
  · rw [Machine.encodePhases, hobf]
    simp only [hfind, hparse, hwalk, andThen_ok]
    rw [← buildPhase, hemit]
    rfl
  · have hhead : headerBytes (buildPhase s') = headerBytes s := by rw [hwhole, ← hs']; rfl
    have hdst : (buildPhase s').dst = s.dst := by rw [hwhole, ← hs']; rfl
    rw [hsink, hhead, hdst]

/-- The header of a container (rules R90 to R93). -/
def containerHeader (f : Fmt) (n : Nat) (b : Byte) : List Byte := f.magic :: leBytes f.sizeBytes n ++ [b]

theorem containerHeader_length (f : Fmt) (n : Nat) (b : Byte) : (containerHeader f n b).length = f.hdrLen := by
  simp [containerHeader, Fmt.hdrLen]

/-- The two transforms of a mode undo each other and keep the length. -/
theorem deobfOf_obfOf (k : Construction) {o : Nat} (ho : o < 5) (B : List Byte) :
    deobfOf k o (obfOf k o B) = B ∧ (obfOf k o B).length = B.length := by
  rcases Nat.eq_zero_or_pos o with rfl | hpos
  · rw [deobfOf_zero, obfOf_zero]
    exact ⟨rfl, rfl⟩
  · exact obfWf_all k o hpos (Nat.le_of_lt_succ ho) B

/-- ENCODE of data that is not empty writes the header, and bits that stand for the transformed data. -/
theorem runEncode_says {s : State} {row : ModeRow} (hvalid : s.cfgValid = true) (hmodes : modesOk s.kon s.cfgIdent)
    (h0 : s.srcLen ≠ 0) (hrow : s.kon.row (cmodeOf s.cfgIdent) = some row) (hmin : 2 ≤ row.minLen) :
    ∃ u m written, runEncode s = .ok () u ∧
      saysData s.fmt row (widthOf (hmodeOf s.cfgIdent)) (obfOf s.kon (omodeOf s.cfgIdent).toNat (s.src.slice 0 s.srcLen))
        written ∧
      u.sink = (Sink.putBits s.fmt written ⟨openedWriter, Mem.writeList m 0 (containerHeader s.fmt s.srcLen s.cfgIdent),
        s.fmt.hdrLen⟩).flush s.fmt := by
  have hlen : (obfOf s.kon (omodeOf s.cfgIdent).toNat (s.src.slice 0 s.srcLen)).length = (materialized s).dsize := by
    rw [(deobfOf_obfOf s.kon (omode_lt_of_modesOk hmodes) _).2]
    exact slice_length _ _ _
  obtain ⟨u, written, hrun, hsays, hsink⟩ := encodePhases_says (s := materialized s) hrow hmin h0
    (by rw [materialized, materialize_workBytes]; rfl) hlen
  exact ⟨u, _, written, by rw [runEncode_modesOk hvalid hmodes, if_neg (show (materialized s).dsize ≠ 0 from h0), hrun],
    hsays, hsink⟩

/-- ENCODE ends `Done` with a container of the data. -/
theorem exec_encode_says {s : State} (hrecord : recordWf s.fmt s.kon = true) (hbusy : s.busy = false)
    (hvalid : s.cfgValid = true) (hmodes : modesOk s.kon s.cfgIdent) (hmax : s.srcLen ≤ s.fmt.maxInput) :
    ∃ t, exec .encode s = .next t ∧ t.phase = .done ∧ s.fmt.hdrLen ≤ t.dstLen ∧
      t.dst.slice 0 s.fmt.hdrLen = containerHeader s.fmt s.srcLen s.cfgIdent ∧
      (s.srcLen ≠ 0 → ∃ row written pad, s.kon.row (cmodeOf s.cfgIdent) = some row ∧ 1 ≤ row.minLen ∧
        saysData s.fmt row (widthOf (hmodeOf s.cfgIdent))
          (obfOf s.kon (omodeOf s.cfgIdent).toNat (s.src.slice 0 s.srcLen)) written ∧
        (openedReader s.fmt).ahead ⟨s.fmt, t.dst, t.dstLen⟩ = written ++ List.replicate pad false) := by
  by_cases h0 : s.srcLen = 0
  · obtain ⟨-, hdecided⟩ := encodeConfigOutcomes s hbusy
    obtain ⟨-, -, hempty⟩ := hdecided hmax
    obtain ⟨t, hexec, hphase, -, -, -, hlen, hhead⟩ := hempty hvalid hmodes h0
    exact ⟨t, hexec, hphase, hlen.ge, by rw [hhead, h0]; rfl, fun h => absurd h0 h⟩
  · have hfmt : s.fmt.wf := by
      simp only [recordWf, Bool.and_eq_true, decide_eq_true_eq] at hrecord
      exact hrecord.1
    obtain ⟨row, hrow, hwf⟩ := row_of_implemented hrecord hmodes.2
    obtain ⟨u, m, written, hrun, hsays, hsink⟩ := runEncode_says hvalid hmodes h0 hrow (two_le_minLen_of_wf hwf)
    obtain ⟨pad, -, hahead, hend⟩ := ahead_written hfmt _ _ _ hsink
    have hbelow := slice_below_written _ _ _ _ hsink
    rw [← containerHeader_length s.fmt s.srcLen s.cfgIdent, slice_writeList_self, containerHeader_length] at hbelow
    refine ⟨freeCall (endDone u), by rw [exec_encode hbusy hmax, hrun]; rfl, rfl, ?_, hbelow, fun _ =>
      ⟨row, written, pad, hrow, minLen_pos_of_wf hwf, hsays, hahead⟩⟩
    exact (Nat.le_add_right _ _).trans hend.ge

/-! ## DECODE of a copy -/

/-- The fields of a source that begins with a header. -/
theorem header_fields {u : State} {n : Nat} {b : Byte} (hn : n ≤ u.fmt.maxInput)
    (h : u.src.slice 0 u.fmt.hdrLen = containerHeader u.fmt n b) :
    u.src.read 0 = u.fmt.magic ∧ u.srcSize = n ∧ u.srcIdent = b := by
  rw [Fmt.hdrLen, containerHeader, Mem.slice, slice_succ, List.cons_append, List.cons.injEq] at h
  obtain ⟨hmagic, htail⟩ := h
  obtain ⟨hsize, hident⟩ := List.append_inj' htail rfl
  refine ⟨hmagic, ?_, List.singleton_inj.1 hident⟩
  have hpos : 0 < 2 ^ (8 * u.fmt.sizeBytes) := Nat.pow_pos (by decide)
  rw [Fmt.maxInput] at hn
  rw [State.srcSize, hsize, leNat_leBytes, Nat.mod_eq_of_lt (by omega)]

/-- The bits ahead of a reader are those of the bytes below the end of its source. -/
theorem ahead_sameBytes (f : Fmt) (r : Reader) {m m' : Mem} {n : Nat} (h : ∀ a, a < n → m'.read a = m.read a) :
    r.ahead ⟨f, m', n⟩ = r.ahead ⟨f, m, n⟩ := by
  refine congrArg (r.held f ++ ·) (List.flatMap_congr fun i hi => ?_)
  have hword : (i + 1) * f.wordBytes ≤ n - r.pos :=
    (Nat.mul_le_mul_right _ (List.mem_range.1 hi)).trans (Nat.div_mul_le_self _ _)
  rw [Nat.succ_mul] at hword
  have hpos := wordBytes_pos f
  refine congrArg (fun bs => wordStream f (wordOfBytes f bs)) (slice_congr _ _ _ _ fun a _ ha => h a ?_)
  have ha : a < r.pos + i * f.wordBytes + f.wordBytes := ha
  omega

/-- DECODE of a container of the data `B`. -/
theorem exec_decode_says {u : State} {row : ModeRow} {B : List Byte} {written : List Bool} {pad : Nat}
    (hbusy : u.busy = false) (hhead : u.headerOk) (hmodes : modesOk u.kon u.srcIdent) (hlen : B.length = u.srcSize)
    (h0 : u.srcSize ≠ 0) (hrow : u.kon.row (cmodeOf u.srcIdent) = some row) (hmin : 1 ≤ row.minLen)
    (hsays : saysData u.fmt row (widthOf (hmodeOf u.srcIdent)) (obfOf u.kon (omodeOf u.srcIdent).toNat B) written)
    (hahead : u.containerBits = written ++ List.replicate pad false) :
    ∃ v, exec .decode u = .next v ∧ v.phase = .done ∧ v.dstLen = u.srcSize ∧ v.output = B := by
  obtain ⟨levels, ks, bits, hstream, hsay, hexpand⟩ := hsays
  obtain ⟨hback, hsame⟩ := deobfOf_obfOf u.kon (omode_lt_of_modesOk hmodes) B
  obtain ⟨t, hrun, hout, -, -, hdst⟩ := runDecode_says hhead hmodes h0 hrow hmin
    (by rw [hahead]; exact hstream _) hsay hexpand (hsame.trans hlen)
  exact ⟨freeCall (endDone t), by rw [exec_decode hbusy, hrun]; rfl, rfl, hdst, hout.trans hback⟩

/-- Settles O60: ENCODE writes a container of its data, and DECODE of a copy of it gives the data back. -/
theorem roundTrip : Obligations.RoundTrip := by
  intro s hrecord _ hbusy hvalid hmodes hmax
  obtain ⟨t, hexec, hphase, hlen, hhead, hsays⟩ := exec_encode_says hrecord hbusy hvalid hmodes hmax
  refine ⟨t, hexec, hphase, fun u hfmt hkon hubusy hsrcLen hsame => ?_⟩
  have hcopy : u.src.slice 0 u.fmt.hdrLen = containerHeader u.fmt s.srcLen s.cfgIdent := by
    rw [hfmt, ← hhead]
    exact slice_congr _ _ _ _ fun a _ ha => hsame a (by omega)
  obtain ⟨hmagic, hsize, hident⟩ := header_fields (by rwa [hfmt]) hcopy
  have hok : u.headerOk := ⟨by rw [hfmt, hsrcLen]; exact hlen, hmagic⟩
  have humodes : modesOk u.kon u.srcIdent := by rwa [hkon, hident]
  by_cases h0 : s.srcLen = 0
  · obtain ⟨-, -, hdecided⟩ := decodeHeaderOutcomes u hubusy
    obtain ⟨-, -, hempty⟩ := hdecided hok
    obtain ⟨v, hdec, hvphase, -, hvlen, -, -⟩ := hempty humodes (hsize.trans h0)
    exact ⟨v, hdec, hvphase, hvlen.trans h0.symm, fun a ha => by omega⟩
  · obtain ⟨row, written, pad, hrow, hmin, hdata, hahead⟩ := hsays h0
    obtain ⟨v, hdec, hvphase, hvlen, hout⟩ := exec_decode_says (row := row) (B := s.src.slice 0 s.srcLen)
      (written := written) (pad := pad) hubusy hok humodes (by rw [slice_length, hsize]) (by rwa [hsize])
      (by rwa [hkon, hident]) hmin (by rwa [hfmt, hkon, hident]) (by
        rw [State.containerBits, State.readEnv, hfmt, hsrcLen, ahead_sameBytes _ _ hsame]
        exact hahead)
    rw [hsize] at hvlen
    rw [State.output, hvlen] at hout
    refine ⟨v, hdec, hvphase, hvlen, fun a ha => ?_⟩
    rw [← getD_slice_zero v.dst ha, hout, getD_slice_zero s.src ha]

/-- Settles O59: the raw path's case of the round trip. -/
theorem roundTripRaw : Obligations.RoundTripRaw := fun s hrecord hobf hbusy hvalid hmodes _ hmax =>
  roundTrip s hrecord hobf hbusy hvalid hmodes hmax

end Sys2Proof.Machine
end

section
/-! PROOF. The value codec's rows (rules R301 to R303): obligation O44. -/

namespace Sys2Proof.Machine

/-! ## What a read value says about the stream -/

/-- Bits in stream order are the bits of their value, under either bit order. -/
theorem streamOfValue_valueOfStream (f : Fmt) (bs : List Bool) : streamOfValue f (valueOfStream f bs) bs.length = bs := by
  rw [streamOfValue, valueOfStream]
  by_cases hlsb : f.lsbFirst = true
  · rw [if_pos hlsb, if_pos hlsb, bitsLsb_natLsb]
  · rw [if_neg hlsb, if_neg hlsb, bitsMsb_natMsb]

/-- The bits `readBits` consumed are those of the value it gave. -/
theorem readBits_consumed {n v : Nat} {s t : State} (h : readBits n s = .ok v t) :
    s.bitsAhead = streamOfValue s.fmt v n ++ t.bitsAhead := by
  rcases Nat.lt_or_ge s.bitsAhead.length n with hshort | hlong
  · obtain ⟨r, hraised⟩ := readBits_short hshort
    cases h.symm.trans hraised
  · obtain ⟨r, hok, hdrop⟩ := readBits_ahead hlong
    obtain ⟨rfl, rfl⟩ := Run.ok.inj (h.symm.trans hok)
    have hback := streamOfValue_valueOfStream s.fmt (s.bitsAhead.take n)
    rw [List.length_take_of_le hlong] at hback
    rw [hback, hdrop, List.take_append_drop]

/-- The bits `readSymbol` consumed are a code of the symbol it gave. -/
theorem readSymbol_consumed {s t : State} {sym : Byte} (h : readSymbol s = .ok sym t) :
    ∃ bits, (sym, bits) ∈ s.call.ht.codeList ∧ s.bitsAhead = bits ++ t.bitsAhead := by
  rcases decodeSymbol_cases (bitSource_reader s.readEnv) s.call.ht s.call.rd with
    ⟨sym', hc, r, bits, hrun, hahead, hmem⟩ | ⟨hc, r, hrun⟩
  · rw [readSymbol, hrun] at h
    obtain ⟨rfl, rfl⟩ := Run.ok.inj h
    exact ⟨bits, hmem, hahead⟩
  · rw [readSymbol, hrun] at h
    cases h

/-- The bits `readValue` consumed stand for the byte it gave. -/
theorem readValue_consumed {w : SymWidth} {s t : State} {v : Byte} (h : readValue w s = .ok v t) :
    ∃ bits, saysValue s.fmt w s.call.ht v bits ∧ s.bitsAhead = bits ++ t.bitsAhead := by
  cases w with
  | raw =>
    obtain ⟨n, hread, rfl⟩ := map_eq_ok.1 h
    refine ⟨_, rfl, ?_⟩
    rw [BitVec.toNat_ofNat, Nat.mod_eq_of_lt (readBits_lt hread)]
    exact readBits_consumed hread
  | w8 => exact readSymbol_consumed h
  | w4 =>
    obtain ⟨hi, u, hfirst, hrest⟩ := andThen_eq_ok.1 h
    obtain ⟨lo, hsecond, rfl⟩ := map_eq_ok.1 hrest
    obtain ⟨x, hu⟩ := readSymbol_state s
    rw [hfirst, state_ok] at hu
    obtain ⟨b, hb, hahead⟩ := readSymbol_consumed hfirst
    obtain ⟨c, hc, hthen⟩ := readSymbol_consumed hsecond
    rw [hu] at hc
    exact ⟨b ++ c, ⟨hi, lo, b, c, rfl, rfl, hb, hc⟩, by rw [hahead, hthen, List.append_assoc]⟩

/-- `readValue` on a stream that begins with no byte's bits. -/
theorem readValue_unsaid {w : SymWidth} {s : State}
    (hno : ∀ v bits, saysValue s.fmt w s.call.ht v bits → ¬ bits <+: s.bitsAhead) :
    ∃ x, readValue w s = .raised .corruptStream (s.withHcReader x) := by
  cases hread : readValue w s with
  | ok v t =>
    obtain ⟨bits, hsay, hahead⟩ := readValue_consumed hread
    exact absurd ⟨_, hahead.symm⟩ (hno v bits hsay)
  | raised k t =>
    obtain ⟨x, ht⟩ := readValue_state w s
    rw [hread, state_raised] at ht
    exact ⟨x, by rw [readValue_raised hread, ht]⟩

/-! ## The rows -/

/-- A row of the value codec is its path's half, whatever `HW` is (log entry 33). -/
theorem exec_valueRow {row : ValueOp → Instr} {w : SymWidth}
    (h : (row, w) ∈ [(Instr.valueRaw, SymWidth.raw), (.valueH8, .w8), (.valueH4, .w4)]) (op : ValueOp) (s : State) :
    exec (row op) s = runValue w op s := by
  simp only [List.mem_cons, List.not_mem_nil, or_false, Prod.mk.injEq] at h
  rcases h with ⟨rfl, rfl⟩ | ⟨rfl, rfl⟩ | ⟨rfl, rfl⟩ <;> rfl

/-- Settles O44: a row writes its value's bits; what it reads are bits that stand for a byte, or it raises. -/
theorem valueRows : Obligations.ValueRows := by
  intro s row w hrow
  refine ⟨fun v => ?_, fun hfits => ⟨fun v bits rest hsay hahead => ?_, fun hno => ?_⟩⟩
  · rw [exec_valueRow hrow, runValue, writeValue, writeValue_eq]
  · obtain ⟨x, hread, hrest⟩ := readValue_says hfits hsay hahead
    refine ⟨{ s.withHcReader x with ret := v.toNat }, ?_, hrest, rfl⟩
    rw [exec_valueRow hrow, runValue, hread]
    rfl
  · obtain ⟨x, hread⟩ := readValue_unsaid hno
    refine ⟨x, ?_⟩
    rw [exec_valueRow hrow, runValue, hread]
    rfl

end Sys2Proof.Machine
end

section
/-! PROOF. Tokens from the bit stream and the token loop: obligations O47, O48 and O49. A literal is its value read and
appended, a match is its two fields read and then `runMatch`; a token that raises appends nothing, so the loop stays within
`DSIZE` whichever way it ends. -/

namespace Sys2Proof.Machine

/-! ## The rows -/

theorem withRow_some {α : Type} {s : State} {row : ModeRow} (h : s.row = some row) (f : ModeRow → Run State α) :
    withRow s f = f row := by
  rw [withRow, h]

theorem exec_decodeLit (s : State) : exec .decodeLit s = settle (decodeLit s) := rfl

theorem exec_decodeMatch {s : State} {row : ModeRow} (h : s.row = some row) :
    exec .decodeMatch s = settle (decodeMatch row s) := congrArg settle (withRow_some h _)

/-- A row that decodes with a mode row is the token loop of that mode row. -/
theorem exec_of_decodesWith {i : Instr} {row : ModeRow} {s : State} (h : decodesWith i row s) :
    exec i s = settle (tokenLoop row s) := by
  rcases h with ⟨e, h⟩ | ⟨rfl, hrow⟩
  · simp only [coderRows, List.mem_cons, List.not_mem_nil, or_false, Prod.mk.injEq] at h
    rcases h with ⟨rfl, _, rfl⟩ | ⟨rfl, _, rfl⟩ | ⟨rfl, _, rfl⟩ | ⟨rfl, _, rfl⟩ | ⟨rfl, _, rfl⟩ <;> rfl
  · exact congrArg settle (withRow_some hrow _)

/-! ## One token on its bits (rules R322, R323) -/

/-- `LIT` on bits that stand for a byte appends that byte. -/
theorem decodeLit_appends {s : State} (hfits : s.call.hw = .raw ∨ s.call.ht.fits) {v : Byte} {bits rest : List Bool}
    (hsay : saysValue s.fmt s.call.hw s.call.ht v bits) (h : s.bitsAhead = bits ++ rest) :
    ∃ x, decodeLit s = .ok () (appendDst v (s.withHcReader x)) ∧ (s.withHcReader x).bitsAhead = rest := by
  obtain ⟨x, hread, hrest⟩ := readValue_says hfits hsay h
  exact ⟨x, by rw [decodeLit, hread, andThen_ok], hrest⟩

/-- `TK_LEN <- len` and `TK_DISP <- disp`, in whichever order. -/
def setTkMatch (len disp : Nat) (s : State) : State := setTkDisp disp (setTkLen len s)

/-- `MATCH` on the bits of a length and a displacement the mode can encode: it reads both, in the mode's order, and then
comes to the checks and the copy. -/
theorem decodeMatch_fields {row : ModeRow} {s : State} {len disp : Nat} {rest : List Bool} (hmin : row.minLen ≤ len)
    (hmax : len ≤ row.maxLen) (hpos : 1 ≤ disp) (hfar : disp ≤ row.maxDisp)
    (h : s.bitsAhead = copyStream s.fmt row len disp ++ rest) :
    ∃ r, decodeMatch row s = runMatch (setTkMatch len disp (s.withReader r)) ∧
      (s.withReader r).bitsAhead = rest := by
  rw [copyStream] at h
  by_cases hfirst : row.dispFirst = true
  · rw [if_pos hfirst, List.append_assoc] at h
    obtain ⟨r, hd, h⟩ := readDisp_bits hpos hfar h
    obtain ⟨r', hl, h⟩ := readLen_bits (s := setTkDisp disp (s.withReader r)) hmin hmax h
    exact ⟨r', by rw [decodeMatch, if_pos hfirst, hd, andThen_ok, hl]; rfl, h⟩
  · rw [if_neg hfirst, List.append_assoc] at h
    obtain ⟨r, hl, h⟩ := readLen_bits hmin hmax h
    obtain ⟨r', hd, h⟩ := readDisp_bits (s := setTkLen len (s.withReader r)) hpos hfar h
    exact ⟨r', by rw [decodeMatch, if_neg hfirst, hl, andThen_ok, hd]; rfl, h⟩

/-- Settles O47: `LIT` appends the byte it read; `MATCH` with the fields it read is `runMatch`, which copies or refuses. -/
theorem decodeTokensFromStream : Obligations.DecodeTokensFromStream := by
  intro s
  refine ⟨fun v bits rest hfits hsay hahead => ?_, fun row len disp rest hrow _ hmin hmax hpos hfar hahead => ?_⟩
  · obtain ⟨x, hrun, hrest⟩ := decodeLit_appends hfits hsay hahead
    exact ⟨appendDst v (s.withHcReader x), by rw [exec_decodeLit, hrun, settle], hrest, rfl⟩
  · obtain ⟨r, hrun, hrest⟩ := decodeMatch_fields hmin hmax hpos hfar hahead
    rw [exec_decodeMatch hrow, hrun]
    refine ⟨fun hdisp hlen => ?_, fun hbad => ?_⟩
    · obtain ⟨m, hcopy, hcopied, hkept⟩ := runMatch_copies (s := setTkMatch len disp (s.withReader r)) hpos hdisp hlen
      exact ⟨(setTkMatch len disp (s.withReader r)).withDst m (s.dstLen + len), congrArg settle hcopy, hrest, rfl,
        hcopied, hkept⟩
    · have hrefused := runMatch_refuses (s := setTkMatch len disp (s.withReader r)) hbad
      exact ⟨takeError .corruptStream (setTkMatch len disp (s.withReader r)), congrArg settle hrefused, rfl, rfl, rfl,
        rfl⟩

/-! ## The token loop on tokens (rules R320 to R323) -/

/-- What decoding tokens leaves of `STATUS`: the phase and the error. -/
theorem Decoded.status {s t : State} (h : Decoded s t) : t.phase = s.phase ∧ t.err = s.err := by
  rw [h.whole]
  exact ⟨rfl, rfl⟩

/-- What a token loop that completed leaves as it was. -/
theorem decoded_of_tokenLoop {row : ModeRow} {s t : State} (h : tokenLoop row s = .ok () t) : Decoded s t := by
  have hdecoded := decoded_tokenLoopFrom row (s.dsize - s.dstLen) s
  rwa [show tokenLoopFrom row (s.dsize - s.dstLen) s = .ok () t from h, state_ok] at hdecoded

/-- Settles O48: a decoder row is the token loop, which reads the tokens back from their bits. -/
theorem tokenLoopRuns : Obligations.TokenLoopRuns := by
  intro i s row ks bits rest out hi hwf hfits hsay hahead hexpand hlen
  obtain ⟨t, hrun, hout, hrest⟩ :=
    tokenLoopFrom_says (minLen_pos_of_wf hwf) hfits hsay hahead hexpand hlen (Nat.le_refl _)
  have hrun : tokenLoop row s = .ok () t := hrun
  obtain ⟨hphase, herr⟩ := (decoded_of_tokenLoop hrun).status
  have htlen : t.dstLen = s.dsize := by rw [← output_length, hout, hlen]
  have hslice : t.dst.slice 0 s.dsize = out := by rw [← htlen]; exact hout
  exact ⟨t, by rw [exec_of_decodesWith hi, hrun, settle], htlen, hslice, hrest, hphase, herr⟩

/-! ## A token that raises (rules R321, R323) -/

/-- `readLen` changes the reader only, whichever way it ends. -/
theorem readLen_state (row : ModeRow) (s : State) : ∃ r, (readLen row s).state = s.withReader r := by
  refine andThen_rel (R := fun t => ∃ r, t = s.withReader r) (readBits_state _ _) fun f t hread => ?_
  obtain ⟨r, rfl⟩ := readBits_ok hread
  split
  · rw [map_state]
    exact readBits_state _ (s.withReader r)
  · exact ⟨r, rfl⟩

/-- `readDisp` changes the reader only, whichever way it ends. -/
theorem readDisp_state (row : ModeRow) (s : State) : ∃ r, (readDisp row s).state = s.withReader r := by
  rw [readDisp, map_state]
  exact readBits_state _ _

/-- A composition that raises leaves `DST_LEN`, when its first part always does and its second does where it raises. -/
theorem dstLen_of_andThen_raised {α β : Type} {r : Run State α} {f : α → State → Run State β} {k : ErrKind}
    {s u : State} (hfirst : r.state.dstLen = s.dstLen)
    (hsecond : ∀ a t, f a t = .raised k u → u.dstLen = t.dstLen) (h : r.andThen f = .raised k u) : u.dstLen = s.dstLen := by
  rcases andThen_eq_raised.1 h with hr | ⟨a, t, hr, hf⟩ <;> rw [hr] at hfirst
  · exact hfirst
  · exact (hsecond a t hf).trans hfirst

theorem dstLen_readBits (n : Nat) (s : State) : (readBits n s).state.dstLen = s.dstLen := by
  obtain ⟨r, h⟩ := readBits_state n s
  rw [h]
  rfl

theorem dstLen_readLen (row : ModeRow) (s : State) : (readLen row s).state.dstLen = s.dstLen := by
  obtain ⟨r, h⟩ := readLen_state row s
  rw [h]
  rfl

theorem dstLen_readDisp (row : ModeRow) (s : State) : (readDisp row s).state.dstLen = s.dstLen := by
  obtain ⟨r, h⟩ := readDisp_state row s
  rw [h]
  rfl

/-- A refused match changes nothing. -/
theorem eq_of_runMatch_raised {k : ErrKind} {s t : State} (h : runMatch s = .raised k t) : t = s := by
  rcases runMatch_cases s with ⟨-, hrun⟩ | ⟨-, -, hrun⟩
  · exact (Run.raised.inj (h.symm.trans hrun)).2
  · cases h.symm.trans hrun

theorem dstLen_of_decodeLit_raised {k : ErrKind} {s t : State} (h : decodeLit s = .raised k t) : t.dstLen = s.dstLen := by
  obtain ⟨x, hx⟩ := readValue_state s.call.hw s
  exact dstLen_of_andThen_raised (by rw [hx]; rfl) (fun _ _ h => by cases h) h

theorem dstLen_of_decodeMatch_raised {row : ModeRow} {k : ErrKind} {s t : State} (h : decodeMatch row s = .raised k t) :
    t.dstLen = s.dstLen := by
  unfold decodeMatch at h
  split at h
  · refine dstLen_of_andThen_raised (dstLen_readDisp row s) (fun d u h => ?_) h
    refine dstLen_of_andThen_raised (s := setTkDisp d u) (dstLen_readLen row _) (fun l v h => ?_) h
    rw [eq_of_runMatch_raised h]
    rfl
  · refine dstLen_of_andThen_raised (dstLen_readLen row s) (fun l u h => ?_) h
    refine dstLen_of_andThen_raised (s := setTkLen l u) (dstLen_readDisp row _) (fun d v h => ?_) h
    rw [eq_of_runMatch_raised h]
    rfl

/-- A token that raises appends nothing. -/
theorem dstLen_of_decodeToken_raised {row : ModeRow} {k : ErrKind} {s t : State} (h : decodeToken row s = .raised k t) :
    t.dstLen = s.dstLen := by
  refine dstLen_of_andThen_raised (dstLen_readBits 1 s) (fun flag u h => ?_) h
  split at h
  · exact dstLen_of_decodeLit_raised (s := setTkFlag false u) h
  · exact dstLen_of_decodeMatch_raised (s := setTkFlag true u) h

/-! ## The end of the token loop (rule R321) -/

/-- The tokens before the one that raised kept to `DSIZE`, and that one appended nothing. -/
theorem dstLen_le_of_tokenLoopFrom_raised {row : ModeRow} (hrow : 1 ≤ row.minLen) {n : Nat} {k : ErrKind} {s t : State}
    (hle : s.dstLen ≤ s.dsize) (h : tokenLoopFrom row n s = .raised k t) : t.dstLen ≤ s.dsize := by
  induction n generalizing s with
  | zero => cases h
  | succ n ih =>
    rw [tokenLoopFrom] at h
    split at h
    · rename_i hlt
      rcases andThen_eq_raised.1 h with h | ⟨_, u, hu, h⟩
      · exact (dstLen_of_decodeToken_raised h).trans_le hle
      · obtain ⟨-, hbound, hsize⟩ := advances_decodeToken hrow hlt hu
        exact hsize ▸ ih (hsize.symm ▸ hbound) h
    · cases h

/-- Settles O49: a completed token loop has `DSIZE` bytes; one that raised has `CorruptStream`, and no more bytes than
that. -/
theorem tokenLoopStops : Obligations.TokenLoopStops := by
  intro i s row hi hwf hle
  have hmin := minLen_pos_of_wf hwf
  rw [exec_of_decodesWith hi]
  cases hrun : tokenLoop row s with
  | ok _ t =>
    have hdecoded := decoded_of_tokenLoop hrun
    obtain ⟨-, -, -, hsize⟩ := hdecoded.registers
    obtain ⟨hphase, herr⟩ := hdecoded.status
    have hend : t.dstLen = s.dsize := (tokenLoopFrom_ok hmin hle (Nat.le_refl _) hrun).trans hsize
    exact ⟨t, hend.le, .inl ⟨rfl, hend, hphase, herr⟩⟩
  | raised k t =>
    obtain rfl := tokenLoopFrom_raised hrun
    exact ⟨t, dstLen_le_of_tokenLoopFrom_raised hmin hle hrun, .inr rfl⟩

end Sys2Proof.Machine
end
